-- ==== Sys2Proof/Word.lean ====
section
/-!
DEFINITION. The words of the board bus and of the depot store: bytes, halfwords, words, addresses, byte enables
and tags (spec/00_scope.md, Conventions).
-/

namespace Sys2Proof

/-- A byte of the depot store. -/
abbrev Byte := BitVec 8

/-- A halfword: two bytes, the unit of parity (00_scope.md, Words and halfwords). -/
abbrev Half := BitVec 16

/-- A word of the board bus: 32 bits, four bytes. -/
abbrev Word := BitVec 32

/-- A byte address on the 24-bit board bus. -/
abbrev Addr := BitVec 24

/-- The byte enables of a write: bit n enables byte n of the word. -/
abbrev Enables := BitVec 4

/-- The identifier read from a windscreen tag. -/
abbrev Tag := BitVec 48

/-- One flag for each of the sixteen notice causes, in the bit order of R206. -/
abbrev Causes := BitVec 16

end Sys2Proof
end

