-- ==== Sys2Proof/Config.lean ====
section
/-!
DEFINITION. What the part fixes once for all (sizes of its tables and queues), and the free values: constants with
no body, for what the spec leaves open.
-/

namespace Sys2Proof.Config

/-- Entries of the posted write queue (01, section 1.4; R11). -/
def postedDepth : Nat := 4

/-- Records the insertion queue holds (R140). -/
def insertionDepth : Nat := 8

/-- Lines a session's program list holds (R62). -/
def programLines : Nat := 4

/-- Words of the depot store (R170). -/
def storeWords : Nat := 4194304

/-- Rows of the depot store (R170). -/
def storeRows : Nat := 4096

/-- The largest refresh debt (R173). -/
def maxDebt : Nat := 8

/-- The debt at which a refresh is urgent (R172). -/
def urgentDebt : Nat := 4

/-- Largest value of a 16-bit counter (R29, R64, R65, R90, R113). -/
def max16 : Nat := 65535

/-- Largest volume of a program line or of a bay, in litres (R62, R99). -/
def maxLitres : Nat := 16777215

/-- Largest value of a 32-bit quantity: day totals in litres, balances and amounts in cents (R99, R113, R127). -/
def max32 : Nat := 4294967295

/-- Largest bad-sample count (R100). -/
def maxBadSamples : Nat := 255

/-- FREE VALUE (log 9). R119 says of several credit-held sessions of one account that "either may come first" when
they are re-evaluated: the rank of a bay in that order, fresh at each draw of the counter `draws` of the state. -/
opaque reevaluationRank : Nat → Fin 8 → Nat

/-- FREE VALUE (log 10). R207 gives the last turbidity 16 bits in the water view and R33 a reading of 32: what the
16 bits show for a reading above 65535 is stated nowhere. -/
opaque wideTurbidity : Nat → BitVec 16

end Sys2Proof.Config
end

