-- ==== Sys2Proof/Syntax.lean ====
section
/-!
DEFINITION. The commands of the block: one constructor of `Instr` for each row of spec/opcode_table.json, with its
operands. The table gives no operands of its own; they are what the row's rules read from outside the part.
-/

namespace Sys2Proof

/-- The 2-bit requester code of an access (00_scope.md, Requesters). -/
inductive Requester where
  | site | maint | reader | plant
  deriving DecidableEq, Repr

/-- One access of the board bus: a read or a write of one word (R1). -/
inductive Access where
  | read (addr : Addr) (req : Requester)
  | write (addr : Addr) (data : Word) (be : Enables) (req : Requester)
  deriving DecidableEq, Repr

/-- Bits that the store devices have lost in one word by the time it is read (R170, note; log 11): a mask over each
halfword's sixteen data bits (bits 0-15) and its check bit (bit 16). Zero means that the word reads as written. -/
structure Upset where
  lower : BitVec 17 := 0
  upper : BitVec 17 := 0
  deriving DecidableEq, Repr

/-- Lost bits of the four words of a directory slot. -/
structure SlotUpset where
  word0 : Upset := {}
  word1 : Upset := {}
  word2 : Upset := {}
  word3 : Upset := {}
  deriving DecidableEq, Repr

/-- The seventeen timers that count half-second ticks (R159). -/
inductive Timer where
  | silence (bay : Fin 8)
  | hold (bay : Fin 8)
  | quality
  deriving DecidableEq, Repr

/-- The order of the events of one tick at their owners, which R159 and R165 leave open (log 6): the timers whose
expiries are taken first, in that order; those whose expiries come between the two boundaries; those whose expiry is
left to be taken as an event of its own after the tick; and whether the period boundary comes before the quota-day
boundary. -/
structure TickOrder where
  first : List Timer := []
  between : List Timer := []
  late : List Timer := []
  periodFirst : Bool := false
  deriving DecidableEq, Repr

/-- What falls within a warm reset (log 8): how many ticks (R157, R169) the quality timer takes before the reset
restarts its window (R112) and how many after, an order that the spec leaves open; and whether the journal's claim
comes before that of the resumed access (R171). -/
structure ResetOrder where
  before : Nat := 0
  after : Nat := 0
  journalFirst : Bool := false
  deriving DecidableEq, Repr

/-- The settings of SETTING_WRITE: general settings, program table entries and tariff words that have no row of
their own (R187, R190). -/
inductive SettingItem where
  | minQuality | silenceLimit | holdLimit | jumpLimit | settleTime | sampleWindow | turbidityLimit
  | freshRate | reclaimRate | abandonFee | bandDiscount (band : Fin 4) | nearFull | periodSchedule | quotaHour
  | program (p : Fin 16) | tariff (word : Fin 32)
  deriving DecidableEq, Repr

/-- The two settings of QUOTA_SETTING_WRITE (R106). -/
inductive QuotaItem where
  | volume | percent
  deriving DecidableEq, Repr

/-- The two staged words of an account (R114). -/
inductive AccountWord where
  | word0 | word1
  deriving DecidableEq, Repr

/-- The commands, in the order of spec/opcode_table.json. A command that writes one item of the control window is the
write of that item's word on the board bus, with its data, byte enables and requester (log 2). -/
inductive Instr where
  | powerOnReset (straps : BitVec 4)
  | warmReset (within : ResetOrder)
  | upstreamWrite (addr : Addr) (data : Word) (be : Enables) (req : Requester)
  | waitingWritePosted
  | upstreamRead (addr : Addr) (req : Requester)
  | dateViewRead (req : Requester)
  | readClaimAfterDrain
  | accessResumedAfterClearing
  | postedDrainDone (upset : Upset)
  | upstreamReadDone (upset : Upset)
  | refreshIntervalExpiry
  | rowRefreshEnd
  | clearingWriteEnd
  | fetchStart
  | walkerClaimAfterDrain
  | slotReadComplete (upset : SlotUpset)
  | silenceExpiry (bay : Fin 8)
  | holdExpiry (bay : Fin 8)
  | qualityTimerExpiry
  | halfSecondTick (order : TickOrder)
  | claimAdmission
  | recordWriteStart
  | journalWordWritten
  | windowFirstWord (entry : Fin 8) (data : Word) (be : Enables) (req : Requester)
  | windowCommit (entry : Fin 8) (data : Word) (be : Enables) (req : Requester)
  | settingWrite (item : SettingItem) (data : Word) (be : Enables) (req : Requester)
  | controlWrite (wordOffset : BitVec 10) (data : Word) (be : Enables) (req : Requester)
  | pinCountWrite (data : Word) (be : Enables) (req : Requester)
  | quotaSettingWrite (item : QuotaItem) (data : Word) (be : Enables) (req : Requester)
  | reclaimFloorWrite (data : Word) (be : Enables) (req : Requester)
  | refreshModeWrite (data : Word) (be : Enables) (req : Requester)
  | noticeMaskWrite (data : Word) (be : Enables) (req : Requester)
  | accountStagedWrite (account : Fin 64) (word : AccountWord) (data : Word) (be : Enables) (req : Requester)
  | accountCommit (account : Fin 64) (data : Word) (be : Enables) (req : Requester)
  | admitSession (data : Word) (be : Enables) (req : Requester)
  | turnAway (data : Word) (be : Enables) (req : Requester)
  | close (data : Word) (be : Enables) (req : Requester)
  | releaseReclaim (data : Word) (be : Enables) (req : Requester)
  | decisionNoKind (data : Word) (be : Enables) (req : Requester)
  | noticeAcknowledge (data : Word) (be : Enables) (req : Requester)
  | journalTailWrite (data : Word) (be : Enables) (req : Requester)
  | preloadFirstWord (data : Word) (be : Enables) (req : Requester)
  | preloadCommit (data : Word) (be : Enables) (req : Requester)
  | calendarSetFirstWord (data : Word) (be : Enables) (req : Requester)
  | calendarSetCommit (data : Word) (be : Enables) (req : Requester)
  deriving DecidableEq, Repr

end Sys2Proof
end

