-- ==== Sys2Proof/WellFormed.lean ====
section
/-!
DEFINITION. Which commands stand for an event that the spec describes: an access is of a word-aligned address (R1),
and a decision command writes a word whose decision field names that decision (R194, R203).
-/

namespace Sys2Proof

/-- A word-aligned byte address (01, section 1.1). -/
def Addr.aligned (a : Addr) : Bool := a.toNat % 4 == 0

/-- The decision field of a word written with these byte enables: bits 0-2, which lie in byte 0; a byte not enabled
is taken from zero (R189, R206). -/
def decisionField (data : Word) (be : Enables) : Nat :=
  if be.getLsbD 0 then data.toNat % 8 else 0

/-- The check of a command. A decision command ADMIT, TURN_AWAY, CLOSE or RELEASE_RECLAIM sets bits 0-2 of its word
itself, so it needs byte 0 enabled for them to count. -/
def Instr.wellFormed : Instr → Bool
  | .upstreamWrite a _ _ _ => a.aligned
  | .upstreamRead a _ => a.aligned
  | .admitSession _ be _ => be.getLsbD 0
  | .turnAway _ be _ => be.getLsbD 0
  | .close _ be _ => be.getLsbD 0
  | .releaseReclaim _ be _ => be.getLsbD 0
  | .decisionNoKind data be _ => decisionField data be == 0 || decisionField data be ≥ 5
  | .powerOnReset _ => true
  | .warmReset _ => true
  | .waitingWritePosted => true
  | .dateViewRead _ => true
  | .readClaimAfterDrain => true
  | .accessResumedAfterClearing => true
  | .postedDrainDone _ => true
  | .upstreamReadDone _ => true
  | .refreshIntervalExpiry => true
  | .rowRefreshEnd => true
  | .clearingWriteEnd => true
  | .fetchStart => true
  | .walkerClaimAfterDrain => true
  | .slotReadComplete _ => true
  | .silenceExpiry _ => true
  | .holdExpiry _ => true
  | .qualityTimerExpiry => true
  | .halfSecondTick _ => true
  | .claimAdmission => true
  | .recordWriteStart => true
  | .journalWordWritten => true
  | .windowFirstWord _ _ _ _ => true
  | .windowCommit _ _ _ _ => true
  | .settingWrite _ _ _ _ => true
  | .controlWrite _ _ _ _ => true
  | .pinCountWrite _ _ _ => true
  | .quotaSettingWrite _ _ _ _ => true
  | .reclaimFloorWrite _ _ _ => true
  | .refreshModeWrite _ _ _ => true
  | .noticeMaskWrite _ _ _ => true
  | .accountStagedWrite _ _ _ _ _ => true
  | .accountCommit _ _ _ _ => true
  | .noticeAcknowledge _ _ _ => true
  | .journalTailWrite _ _ _ => true
  | .preloadFirstWord _ _ _ => true
  | .preloadCommit _ _ _ => true
  | .calendarSetFirstWord _ _ _ => true
  | .calendarSetCommit _ _ _ => true

end Sys2Proof
end

