-- ==== Sys2Proof/Decode.lean ====
section
/-!
DEFINITION. The command that a word spells by the bits of spec/opcode_table.json. The table gives no row any bits
(each "fields" is empty and no row has "fixed"), so no word spells a command (log 24).
-/

namespace Sys2Proof

/-- No row of the table gives bits: every word is answered none. -/
def decodeTableWord (_nbits _w : Nat) : Option Instr := none

end Sys2Proof
end

