-- ==== Sys2Proof/Machine/State.lean ====
section
/-!
DEFINITION. The state of the block: the depot store (`Memory`), the part with its ten units (`Part`), and the queue
of waiting commands; the reasons a step can stop; and the machine right after power-on reset.
-/

namespace Sys2Proof.Machine

open Sys2Proof

/-! ## The depot store -/

/-- The depot store (R170), in canonical form: strictly rising addresses, and no entry equal to what an unlisted
address reads as. An unlisted byte is 0 and an unlisted check bit 1: a cleared word (R176, R181; log 12). -/
structure Memory where
  /-- Bytes by byte address. -/
  bytes : List Host.Cell := []
  /-- Check bits by halfword index (byte address / 2). -/
  checks : List (Nat × Bool) := []
  deriving DecidableEq, Repr

/-! ## Calendar and stamps -/

/-- The calendar (08, section 8.1). -/
structure Calendar where
  year : Nat := 2020
  month : Nat := 1
  day : Nat := 1
  weekday : Nat := 2
  hour : Nat := 0
  minute : Nat := 0
  second : Nat := 0
  half : Nat := 0
  isSet : Bool := false
  deriving DecidableEq, Repr

/-- A stamp is the calendar at the moment an event is taken, with the NOT_SET mark where it was not set (R160). -/
abbrev Stamp := Calendar

/-- Schedule of the period boundary (R163), with the kind by its code (R203). -/
structure Schedule where
  kind : BitVec 3 := 0
  hour : BitVec 5 := 0
  weekday : BitVec 3 := 0
  day : BitVec 5 := 0
  deriving DecidableEq, Repr

/-- Calendar Unit (R168). -/
structure CalendarUnit where
  now : Calendar := {}
  /-- The calendar to which the latest tick advanced it: the stamp of that tick's events (R160). -/
  tickStamp : Calendar := {}
  snapshot : Calendar := {}
  stagedDate : Word := 0
  schedule : Schedule := {}
  quotaHour : Nat := 0
  deriving DecidableEq, Repr

/-! ## Path Unit -/

/-- The kinds of window (01, section 1.2). -/
inductive WindowKind where
  | identity | plant | bay | directory | journal | grant | guarded
  deriving DecidableEq, Repr

/-- A window-table entry (R4), with the fields of R206. -/
structure WindowEntry where
  enabled : Bool := false
  kind : BitVec 3 := 0
  k : BitVec 5 := 0
  /-- Base address bits 12-23. -/
  base : BitVec 12 := 0
  writePermit : BitVec 4 := 0
  readPermit : BitVec 4 := 0
  deriving DecidableEq, Repr

/-- What an access falls in (R3). -/
inductive Classification where
  | control
  | window (entry : Fin 8) (kind : WindowKind)
  | plain
  deriving DecidableEq, Repr

/-- An entry of the posted write queue (01, section 1.4). -/
structure PostedEntry where
  addr : Addr
  data : Word
  be : Enables
  req : Requester
  cls : Classification
  deriving DecidableEq, Repr

/-- Direction of a blocked access (R9). -/
inductive Direction where
  | read | write
  deriving DecidableEq, Repr

/-- A full block latch (R9). -/
structure BlockRecord where
  addr : Addr
  req : Requester
  dir : Direction
  more : Bool := false
  deriving DecidableEq, Repr

/-- An access for which ready is withheld, by what it waits for (R17, R21). -/
inductive Held where
  /-- Any access during CLEARING. -/
  | clearing (a : Access)
  /-- A write that is not blocked, while the posted write queue is full. -/
  | room (e : PostedEntry)
  /-- A store read behind posted writes to its word. -/
  | drain (addr : Addr) (req : Requester)
  /-- A store read that has claimed the downstream port, until its data arrives. -/
  | claimed (addr : Addr) (req : Requester)
  deriving DecidableEq, Repr

/-- A completed access and the word it returned; a write returns no word and stands here with 0 (log 15). -/
structure Completion where
  access : Access
  data : Word
  deriving DecidableEq, Repr

/-- Path Unit (R20). -/
structure PathUnit where
  straps : BitVec 4 := 0
  windows : Vector WindowEntry 8 := Vector.replicate 8 {}
  staged : Vector Word 8 := Vector.replicate 8 0
  /-- Posted write queue, oldest first. -/
  posted : List PostedEntry := []
  blockLatch : Option BlockRecord := none
  held : Option Held := none
  /-- Accesses whose command came while the bus was held (log 13). -/
  deferred : List Access := []
  /-- Accesses that the latest command completed, oldest first (log 15). -/
  done : List Completion := []
  deriving DecidableEq, Repr

/-! ## Record Capture -/

/-- The three record kinds, each with its window. -/
inductive RecordKind where
  | identity | plant | bay
  deriving DecidableEq, Repr

/-- An open assembly (02, section 2.2): its slot, the four words gathered, and a mask of bytes seen for each. -/
structure Assembly where
  slot : Nat
  words : Vector Word 4 := Vector.replicate 4 0
  seen : Vector Enables 4 := Vector.replicate 4 0
  deriving DecidableEq, Repr

/-- What Record Capture keeps for one record window. -/
structure CaptureWindow where
  assembly : Option Assembly := none
  torn : Nat := 0
  check : Nat := 0
  range : Nat := 0
  /-- Slot index of the last record taken. -/
  last : Option Nat := none
  deriving DecidableEq, Repr

/-- The last identity record taken (R36). -/
structure LastIdentity where
  bay : Fin 8
  quality : Nat
  sequence : Nat
  deriving DecidableEq, Repr

/-- Record Capture (R37). -/
structure Capture where
  identity : CaptureWindow := {}
  plant : CaptureWindow := {}
  bay : CaptureWindow := {}
  lastIdentity : Option LastIdentity := none
  minQuality : Nat := 4
  deriving DecidableEq, Repr

/-! ## Identity Unit -/

/-- An identity cache entry (03, section 3.2). -/
structure CacheEntry where
  valid : Bool := false
  tag : Tag := 0
  slot : Nat := 0
  account : Fin 64 := 0
  cls : Fin 4 := 0
  barred : Bool := false
  deriving DecidableEq, Repr

/-- An entry of the lookup queue (R44). -/
structure Lookup where
  bay : Fin 8
  tag : Tag
  deriving DecidableEq, Repr

/-- What a fetch is made for (03, section 3.4). -/
inductive Purpose where
  | lookup (bay : Fin 8)
  | preload
  deriving DecidableEq, Repr

/-- The fetch in flight (03, section 3.4), with the window it began with (R38) and whether its claim for the next
slot read stands on the port (R46). -/
structure Fetch where
  purpose : Purpose
  tag : Tag
  /-- Base address of the directory window. -/
  base : Nat
  slotcount : Nat
  home : Nat
  position : Nat := 0
  reading : Bool := false
  restarts : Nat := 0
  restartPending : Bool := false
  withdrawn : Bool := false
  claimed : Bool := false
  deriving DecidableEq, Repr

/-- A pending preload (R53). -/
structure Preload where
  tag : Tag
  index : Nat
  deriving DecidableEq, Repr

/-- Identity Unit (R59). -/
structure Identity where
  cache : Vector CacheEntry 32 := Vector.replicate 32 {}
  pinCount : Nat := 0
  victim : Nat := 0
  lookups : List Lookup := []
  fetch : Option Fetch := none
  /-- A slot read of an abandoned fetch has not yet returned (R45). -/
  discarded : Bool := false
  preload : Option Preload := none
  stagedTagLow : Word := 0
  deriving DecidableEq, Repr

/-! ## Bay Session Unit -/

/-- The six states of a session (04, section 4.1). -/
inductive SessionState where
  | vacant | lookup | held | admitted | washing | closing
  deriving DecidableEq, Repr

inductive HoldReason where
  | unknown | noAccount | barred | credit | duplicate | directoryFault | directoryBusy
  deriving DecidableEq, Repr

inductive CloseReason where
  | exit | silence | operator | displaced | departed | turnedAway | holdExpired
  deriving DecidableEq, Repr

/-- Why a program start was refused (R74). -/
inductive LineRefusal where
  | disabled | noWater | quota
  deriving DecidableEq, Repr

inductive LineOutcome where
  | run
  | refused (reason : LineRefusal)
  deriving DecidableEq, Repr

/-- A program line (R62). -/
structure Line where
  program : Fin 16
  outcome : LineOutcome
  start : Stamp
  /-- Absent while the line runs. -/
  stop : Option Stamp
  fresh : Nat := 0
  conceded : Nat := 0
  reclaim : Nat := 0
  deriving DecidableEq, Repr

/-- The account a session holds, bound or named only (R63), with the class that comes with it. -/
structure AccountRef where
  index : Fin 64
  cls : Fin 4
  bound : Bool
  deriving DecidableEq, Repr

/-- A session (R61). A field that a state does not hold stands at its default here and reads as zero. -/
structure Session where
  state : SessionState := .vacant
  hold : Option HoldReason := none
  tag : Tag := 0
  account : Option AccountRef := none
  start : Option Stamp := none
  operatorAdmitted : Bool := false
  abandoned : Bool := false
  closeReason : Option CloseReason := none
  lines : List Line := []
  dropped : Nat := 0
  unusedFresh : Nat := 0
  unusedReclaim : Nat := 0
  deriving DecidableEq, Repr

/-- A parked arrival (R65). -/
structure Parked where
  tag : Tag
  quality : Nat
  sequence : Nat
  stamp : Stamp
  deriving DecidableEq, Repr

/-- One bay: its session, parked slot, two timers and two counters. A timer is stopped (`none`) or has a count of
ticks to go; a count of 0 is an expiry not yet taken (log 6). -/
structure Bay where
  session : Session := {}
  parked : Option Parked := none
  silence : Option Nat := none
  hold : Option Nat := none
  conflicting : Nat := 0
  parkOverwrite : Nat := 0
  deriving DecidableEq, Repr

/-- Bay Session Unit (R85). -/
structure Sessions where
  bays : Vector Bay 8 := Vector.replicate 8 {}
  silenceLimit : Nat := 120
  holdLimit : Nat := 300
  deriving DecidableEq, Repr

/-! ## Water Unit -/

/-- A meter (R87): UNSEEN while it has no baseline. -/
structure Meter where
  baseline : Option Nat := none
  faultPending : Bool := false
  jumps : Nat := 0
  deriving DecidableEq, Repr

/-- States of the reclaim quality machine (05, section 5.5). -/
inductive Quality where
  | qualified | backwash | settling | sampling | rejected
  deriving DecidableEq, Repr

/-- Quota stages (R106). -/
inductive Stage where
  | normal | conserve | exhausted
  deriving DecidableEq, Repr

/-- The nine day totals (R99). -/
structure DayTotals where
  intake : Nat := 0
  makeup : Nat := 0
  returned : Nat := 0
  discharge : Nat := 0
  bayFresh : Nat := 0
  bayReclaim : Nat := 0
  concededFresh : Nat := 0
  unattributedFresh : Nat := 0
  unattributedReclaim : Nat := 0
  deriving DecidableEq, Repr

/-- A bay's unattributed volumes (R99). -/
structure Unattributed where
  fresh : Nat := 0
  reclaim : Nat := 0
  deriving DecidableEq, Repr

/-- Water Unit (R111). -/
structure Water where
  meters : Vector Meter 20 := Vector.replicate 20 {}
  level : Nat := 0
  turbidity : Nat := 0
  quality : Quality := .sampling
  qualityTimer : Option Nat := some 120
  badSamples : Nat := 0
  available : Bool := false
  stage : Stage := .normal
  totals : DayTotals := {}
  unattributed : Vector Unattributed 8 := Vector.replicate 8 {}
  jumpLimit : Nat := 50000
  floor : Nat := 0
  settle : Nat := 90
  window : Nat := 60
  turbidityLimit : Nat := 50
  quota : Nat := 0
  percent : Nat := 85
  deriving DecidableEq, Repr

/-! ## Charge Unit -/

/-- An account entry (R113). -/
structure Account where
  valid : Bool := false
  haulier : BitVec 24 := 0
  band : Fin 4 := 0
  limit : Nat := 0
  manualHold : Bool := false
  balance : Nat := 0
  count : Nat := 0
  period : BitVec 16 := 0
  openCount : Nat := 0
  deriving DecidableEq, Repr

/-- The two staged words of an account (R114). -/
structure StagedAccount where
  word0 : Word := 0
  word1 : Word := 0
  deriving DecidableEq, Repr

/-- A program table entry (R121). -/
structure Program where
  enabled : Bool := false
  freshRequired : Bool := false
  deriving DecidableEq, Repr

/-- Charge Unit (R131). -/
structure Charge where
  accounts : Vector Account 64 := Vector.replicate 64 {}
  staged : Vector StagedAccount 64 := Vector.replicate 64 {}
  programs : Vector Program 16 := Vector.replicate 16 {}
  /-- Cell of class c and program p at index 16 × c + p (R122). -/
  tariff : Vector Half 64 := Vector.replicate 64 0
  freshRate : Nat := 0
  reclaimRate : Nat := 0
  abandonFee : Nat := 0
  discounts : Vector Nat 4 := Vector.replicate 4 0
  deriving DecidableEq, Repr

/-! ## Journal Unit -/

/-- The body of a CHARGE record (R128, R139). -/
structure ChargeBody where
  account : Fin 64
  haulier : BitVec 24
  tag : Tag
  cls : Fin 4
  program : Fin 16
  lineStart : Stamp
  lineStop : Stamp
  fresh : Nat
  conceded : Nat
  reclaim : Nat
  amount : Nat
  operatorAdmitted : Bool
  abandoned : Bool
  saturated : Bool
  last : Bool
  /-- CALENDAR_NOT_SET (R127). -/
  notSet : Bool
  deriving DecidableEq, Repr

/-- Bodies of the seven kinds of record, with the flags of the kind (R139). -/
inductive RecordBody where
  | charge (c : ChargeBody)
  | void (account : Fin 64) (tag : Tag) (reason : CloseReason) (operatorAdmitted abandoned : Bool)
  | turnedAway (tag : Tag) (hold : Option HoldReason) (reason : CloseReason)
  | periodTotal (account : Fin 64) (haulier : BitVec 24) (total count : Nat)
  | quotaDay (totals : DayTotals) (overrun : Bool)
  | meterFault (meter : Fin 20) (old new : Nat)
  | restart (lostBays : BitVec 8) (lostRecords : Nat) (sweepResumed : Bool)
  deriving DecidableEq, Repr

/-- A record as composed: its body, bay and stamp (R138). -/
structure Composed where
  body : RecordBody
  bay : Option (Fin 8)
  stamp : Stamp
  deriving DecidableEq, Repr

/-- A record of the insertion queue: composed, with the period fixed at admission and the sequence number that its
record write gives it (R138, R140). -/
structure JournalRecord where
  composed : Composed
  period : BitVec 16
  sequence : Option Word := none
  deriving DecidableEq, Repr

/-- A claim of the waiting list, with what it holds while it waits (R141). -/
inductive Claim where
  | bay (b : Fin 8) (records : List Composed)
  | sweep (account : Fin 64)
  | quotaDay (totals : DayTotals) (stamp : Stamp) (overrun : Bool)
  | meter (m : Fin 20) (old new : Nat) (stamp : Stamp)
  | restart (lostBays : BitVec 8) (lostRecords : Nat) (sweepResumed : Bool) (stamp : Stamp)
  deriving DecidableEq, Repr

/-- Journal Unit (R153). -/
structure Journal where
  head : Nat := 0
  tail : Nat := 0
  nextSeq : Word := 0
  period : BitVec 16 := 0
  /-- Insertion queue, oldest first. -/
  queue : List JournalRecord := []
  /-- Claim waiting list, oldest first. -/
  waiting : List Claim := []
  /-- The word that the record write in flight claims next. -/
  writing : Option Nat := none
  /-- The sweep's pointer while it runs. -/
  sweep : Option (Fin 64) := none
  boundaryPending : Bool := false
  nearFull : Nat := 75
  deriving DecidableEq, Repr

/-! ## Settings and Notice Unit -/

/-- Reasons of a refusal (10, section 10.5). -/
inductive RefusalReason where
  | outOfRange | notPermitted | inUse | wrongState | notFound | busy | duplicateKind | overlapsControl
  deriving DecidableEq, Repr

/-- A full refusal latch (R195). -/
structure RefusalRecord where
  offset : Nat
  reason : RefusalReason
  more : Bool := false
  deriving DecidableEq, Repr

/-- Settings and Notice Unit (R200). -/
structure Notices where
  pending : Causes := 0
  /-- A set flag masks its cause. -/
  mask : Causes := 0xFFFF#16
  refusal : Option RefusalRecord := none
  deriving DecidableEq, Repr

/-! ## Store Unit -/

inductive RunState where
  | clearing | running
  deriving DecidableEq, Repr

inductive RefreshMode where
  | scheduled | opportune
  deriving DecidableEq, Repr

/-- Which halves of a word failed (R203). -/
inductive Halves where
  | lower | upper | both
  deriving DecidableEq, Repr

/-- What kind of read found a parity error (R177). -/
inductive ParityAccess where
  | upstreamRead | rmw | walker
  deriving DecidableEq, Repr

/-- A full parity error latch (R180). -/
structure ParityRecord where
  addr : Addr
  halves : Halves
  kind : ParityAccess
  req : Option Requester
  more : Bool := false
  deriving DecidableEq, Repr

/-- The owner of the downstream port (R171). A slot read carries the address of its slot, which outlives an abandoned
fetch. -/
inductive Grant where
  | refresh | clearing | drain | upstreamRead
  | walker (slotAddr : Nat)
  | journal
  deriving DecidableEq, Repr

/-- Store Unit (R184). -/
structure StoreUnit where
  run : RunState := .clearing
  clearing : Nat := 0
  debt : Nat := 0
  row : Nat := 0
  opportune : Bool := false
  mode : RefreshMode := .scheduled
  latch : Option ParityRecord := none
  grant : Option Grant := none
  deriving DecidableEq, Repr

/-! ## The whole -/

/-- The six units behind the bus that one event may change together: identification, sessions, water, charges,
journal and notices. -/
structure Depot where
  identity : Identity := {}
  sessions : Sessions := {}
  water : Water := {}
  charge : Charge := {}
  journal : Journal := {}
  notices : Notices := {}
  /-- The model's own: how many open orders have been drawn (log 9). -/
  draws : Nat := 0
  deriving DecidableEq, Repr

/-- The AKV240: its ten units. -/
structure Part where
  path : PathUnit := {}
  capture : Capture := {}
  calendar : CalendarUnit := {}
  store : StoreUnit := {}
  depot : Depot := {}
  deriving DecidableEq, Repr

/-- The block: the depot store, the part, and the commands that wait, first in first out (log 1). -/
structure State where
  pending : List Instr := []
  mem : Memory := {}
  part : Part := {}
  deriving DecidableEq, Repr

/-- Reasons for a fault. The spec names no event that stops the part, and no meaning raises one (log 22). -/
inductive Fault where
  /-- Raised by no meaning: the part has no fault that stops it. Safe. -/
  | neverRaised
  deriving DecidableEq, Repr

/-- Reasons for a refusal. -/
inductive Refusal where
  /-- Raised by `exec` for a command that has no meaning yet. Safe. -/
  | notModelled (mnemonic : String)
  deriving DecidableEq, Repr

/-- The machine right after power-on reset: every unit as its own chapter gives it (R20, R37, R59, R85, R111, R131,
R153, R168, R184, R200). The strap pins are 0 (log 14). -/
def State.reset : State := {}

end Sys2Proof.Machine
end

