-- ==== Sys2Proof/Machine/Bits.lean ====
section
/-!
DEFINITION. Bit fields, byte order, byte merging and saturating sums, on which every format and counter of the part is
built (spec/11_formats_at_a_glance.md, R202; R189).
-/

namespace Sys2Proof.Machine

open Sys2Proof

/-- The number in bits `lo` to `lo + width - 1` of a word. -/
def bits (w : Word) (lo width : Nat) : Nat := w.toNat / 2 ^ lo % 2 ^ width

/-- A number placed as a field of `width` bits from bit `lo`. -/
def field (v width lo : Nat) : Nat := v % 2 ^ width * 2 ^ lo

/-- A flag placed at bit `lo`. -/
def flag (b : Bool) (lo : Nat) : Nat := if b then 2 ^ lo else 0

/-- A word from its number. -/
def word (n : Nat) : Word := BitVec.ofNat 32 n

/-- Byte `i` of a word, counted from the least significant (11, head of the chapter). -/
def byteOf (w : Word) (i : Nat) : Byte := BitVec.ofNat 8 (w.toNat / 2 ^ (8 * i))

/-- The word of four bytes, the first at the lowest address. -/
def wordOfBytes (b0 b1 b2 b3 : Byte) : Word :=
  word (b0.toNat + b1.toNat * 2 ^ 8 + b2.toNat * 2 ^ 16 + b3.toNat * 2 ^ 24)

/-- Halfword 0 or 1 of a word. -/
def halfOf (w : Word) (i : Nat) : Half := BitVec.ofNat 16 (w.toNat / 2 ^ (16 * i))

/-- The bits that byte enables select. -/
def enableMask (be : Enables) : Word :=
  word (field (if be.getLsbD 0 then 255 else 0) 8 0 + field (if be.getLsbD 1 then 255 else 0) 8 8 +
    field (if be.getLsbD 2 then 255 else 0) 8 16 + field (if be.getLsbD 3 then 255 else 0) 8 24)

/-- The enabled bytes of `new`, the others from `old` (R24, R178, R189). -/
def mergeBytes (old new : Word) (be : Enables) : Word :=
  (old &&& ~~~ enableMask be) ||| (new &&& enableMask be)

/-- Bits 0-31 of a tag. -/
def tagLow (t : Tag) : Word := word t.toNat

/-- Bits 32-47 of a tag, as a number. -/
def tagHigh (t : Tag) : Nat := t.toNat / 2 ^ 32

/-- A tag from its low word and its upper sixteen bits. -/
def tagOf (low : Word) (high : Nat) : Tag := BitVec.ofNat 48 (low.toNat + high % 2 ^ 16 * 2 ^ 32)

/-- An addition that stays at the largest value (00_scope.md, Quantities). -/
def satAdd (max a b : Nat) : Nat := min max (a + b)

/-- Entry `i` of a table, changed by `f`. -/
def modifyAt {α : Type} {n : Nat} (v : Vector α n) (i : Fin n) (f : α → α) : Vector α n :=
  v.set i (f v[i]) i.isLt

/-- The eight bays in order. -/
def allBays : List (Fin 8) := [0, 1, 2, 3, 4, 5, 6, 7]

end Sys2Proof.Machine
end

