-- ==== Sys2Proof/Machine/Ops.lean ====
section
/-!
DEFINITION. The depot store as the Store Unit reads and writes it: sparse maps in canonical form, bytes, halfwords
with their check bits, words, the loss of bits, and the drain of a posted entry (spec/09, R170, R176 to R179).
-/

namespace Sys2Proof.Machine

open Sys2Proof

/-! ## Sparse maps in canonical form -/

/-- What a map holds at an address; `d` is what an unlisted address reads as. -/
def sparseRead {α : Type} (d : α) : List (Nat × α) → Nat → α
  | [], _ => d
  | (b, v) :: m, a => if a = b then v else sparseRead d m a

/-- The map with `v` at `a`, kept sorted; the default value is not listed. -/
def sparseWrite {α : Type} [DecidableEq α] (d : α) : List (Nat × α) → Nat → α → List (Nat × α)
  | [], a, v => if v = d then [] else [(a, v)]
  | (b, w) :: m, a, v =>
    if a < b then (if v = d then (b, w) :: m else (a, v) :: (b, w) :: m)
    else if a = b then (if v = d then m else (a, v) :: m)
    else (b, w) :: sparseWrite d m a v

/-- Canonical form: addresses strictly rising and below `size`, and no entry equal to the default. -/
def sparseWf {α : Type} [DecidableEq α] (d : α) (size : Nat) (m : List (Nat × α)) : Bool :=
  decide ((m.map Prod.fst).Pairwise (· < ·)) && m.all (fun c => decide (c.1 < size) && decide (c.2 ≠ d))

/-! ## Memory -/

/-- Canonical form of the store: 16,777,216 bytes that read 0 where unlisted, and a check bit for each halfword that
reads 1 where unlisted. -/
def Memory.wf (m : Memory) : Bool := sparseWf 0#8 16777216 m.bytes && sparseWf true 8388608 m.checks

/-- The byte at an address. -/
def Memory.byte (m : Memory) (a : Nat) : Byte := sparseRead 0#8 m.bytes a

/-- The check bit of halfword `h`. -/
def Memory.check (m : Memory) (h : Nat) : Bool := sparseRead true m.checks h

/-- The address space is 24 bits wide; the part forms no address outside it, and one that were would name no byte. -/
def Memory.setByte (m : Memory) (a : Nat) (v : Byte) : Memory :=
  if a < 16777216 then { m with bytes := sparseWrite 0#8 m.bytes a v } else m

/-- Sets the check bit of halfword `h`. -/
def Memory.setCheck (m : Memory) (h : Nat) (c : Bool) : Memory :=
  if h < 8388608 then { m with checks := sparseWrite true m.checks h c } else m

/-- The check bit with which a halfword holds an odd number of ones (R170): 1 where its data holds an even number. -/
def oddCheck (v : Half) : Bool := (List.range 16).countP (fun i => v.getLsbD i) % 2 == 0

/-- Data of halfword `h`, little-endian. -/
def Memory.half (m : Memory) (h : Nat) : Half :=
  BitVec.ofNat 16 ((m.byte (2 * h)).toNat + (m.byte (2 * h + 1)).toNat * 2 ^ 8)

/-- Writes a halfword with fresh parity (R176). -/
def Memory.writeHalf (m : Memory) (h : Nat) (v : Half) : Memory :=
  ((m.setByte (2 * h) (BitVec.ofNat 8 v.toNat)).setByte (2 * h + 1) (BitVec.ofNat 8 (v.toNat / 2 ^ 8))).setCheck h
    (oddCheck v)

/-- A halfword fails when its data and check bit hold an even number of ones (R177). -/
def Memory.halfFails (m : Memory) (h : Nat) : Bool := m.check h != oddCheck (m.half h)

/-- The word with index `w` (byte address / 4, R170). -/
def Memory.readWord (m : Memory) (w : Nat) : Word :=
  wordOfBytes (m.byte (4 * w)) (m.byte (4 * w + 1)) (m.byte (4 * w + 2)) (m.byte (4 * w + 3))

/-- Whole-word write (R170, R176). -/
def Memory.writeWord (m : Memory) (w : Nat) (v : Word) : Memory :=
  (m.writeHalf (2 * w) (halfOf v 0)).writeHalf (2 * w + 1) (halfOf v 1)

/-- Which halves of word `w` fail, none if it passes (R177). -/
def Memory.wordFails (m : Memory) (w : Nat) : Option Halves :=
  match m.halfFails (2 * w), m.halfFails (2 * w + 1) with
  | true, true => some .both
  | true, false => some .lower
  | false, true => some .upper
  | false, false => none

/-- Halfword `h` after the devices lost the bits of a mask: data and check bit change without fresh parity. -/
def Memory.loseHalf (m : Memory) (h : Nat) (mask : BitVec 17) : Memory :=
  if mask = 0 then m
  else
    let v := m.half h ^^^ BitVec.ofNat 16 mask.toNat
    ((m.setByte (2 * h) (BitVec.ofNat 8 v.toNat)).setByte (2 * h + 1) (BitVec.ofNat 8 (v.toNat / 2 ^ 8))).setCheck h
      (m.check h != mask.getLsbD 16)

/-- Word `w` after the devices lost bits of it (log 11). -/
def Memory.lose (m : Memory) (w : Nat) (u : Upset) : Memory :=
  (m.loseHalf (2 * w) u.lower).loseHalf (2 * w + 1) u.upper

/-! ## The drain of a posted entry -/

/-- The index of the word an address lies in. -/
def wordIndex (a : Addr) : Nat := a.toNat / 4

/-- An entry that enables exactly one byte of some halfword needs a read-modify-write (R178). -/
def needsRmw (be : Enables) : Bool := be.getLsbD 0 != be.getLsbD 1 || be.getLsbD 2 != be.getLsbD 3

/-- The store after the halfword write of an entry that needs no read-modify-write (R176). -/
def Memory.drainHalves (m : Memory) (e : PostedEntry) : Memory :=
  let w := wordIndex e.addr
  let m1 := if e.be.getLsbD 0 then m.writeHalf (2 * w) (halfOf e.data 0) else m
  if e.be.getLsbD 2 then m1.writeHalf (2 * w + 1) (halfOf e.data 1) else m1

/-- The store after a read-modify-write: the word read, merged with the enabled bytes, and written whole with fresh
parity whether or not it failed (R178, R179). -/
def Memory.drainRmw (m : Memory) (e : PostedEntry) : Memory :=
  m.writeWord (wordIndex e.addr) (mergeBytes (m.readWord (wordIndex e.addr)) e.data e.be)

/-- The store at the drain of an entry, before its write: bits may have been lost where the word is read. -/
def Memory.beforeDrain (m : Memory) (e : PostedEntry) (u : Upset) : Memory :=
  if needsRmw e.be then m.lose (wordIndex e.addr) u else m

/-- The store after the drain of an entry (R14, R178). -/
def Memory.drain (m : Memory) (e : PostedEntry) (u : Upset) : Memory :=
  if needsRmw e.be then (m.beforeDrain e u).drainRmw e else m.drainHalves e

/-- The parity error that the read half of a drain finds (R177). -/
def Memory.drainError (m : Memory) (e : PostedEntry) (u : Upset) : Option Halves :=
  if needsRmw e.be then (m.beforeDrain e u).wordFails (wordIndex e.addr) else none

end Sys2Proof.Machine
end

