-- ==== Sys2Proof/Machine/Flags.lean ====
section
/-!
DEFINITION. The flags and latches of the part: the pending set, the notice line, and the refusal, block and parity
error latches (spec/10, R195 to R198; 01, R9; 09, R180).
-/

namespace Sys2Proof.Machine

open Sys2Proof

/-- The sixteen notice causes (R196). -/
inductive Cause where
  | recordReject | accessBlocked | configRefused | holdRaised | journalReady | journalNearFull | journalStalled
  | periodClosed | periodOverrun | stageChange | reclaimChange | meterFault | storeParity | refreshLate | pinDropped
  | restarted
  deriving DecidableEq, Repr

/-- The bit of a cause in the pending set, the mask, the acknowledge word and the notice line word (R206). -/
def Cause.position : Cause → Nat
  | .recordReject => 0
  | .accessBlocked => 1
  | .configRefused => 2
  | .holdRaised => 3
  | .journalReady => 4
  | .journalNearFull => 5
  | .journalStalled => 6
  | .periodClosed => 7
  | .periodOverrun => 8
  | .stageChange => 9
  | .reclaimChange => 10
  | .meterFault => 11
  | .storeParity => 12
  | .refreshLate => 13
  | .pinDropped => 14
  | .restarted => 15

/-- The set that holds one cause. -/
def Cause.only (c : Cause) : Causes := BitVec.ofNat 16 (2 ^ c.position)

/-- Raising sets the cause's flag; a flag already set stays set (R196). -/
def Notices.raise (c : Cause) (n : Notices) : Notices := { n with pending := n.pending ||| c.only }

/-- Whether a cause is pending. -/
def Notices.isPending (c : Cause) (n : Notices) : Bool := n.pending.getLsbD c.position

/-- The pending causes that are unmasked (R197). -/
def Notices.unmasked (n : Notices) : Causes := n.pending &&& ~~~ n.mask

/-- The notice line is asserted exactly when some pending cause is unmasked (R197). -/
def Notices.line (n : Notices) : Bool := n.unmasked != 0

/-- A refusal raises CONFIG_REFUSED and fills the refusal latch, or sets MORE where it is full (R195). -/
def Notices.refuse (offset : Nat) (reason : RefusalReason) (n : Notices) : Notices :=
  { n.raise .configRefused with
    refusal := match n.refusal with
      | none => some { offset := offset, reason := reason }
      | some r => some { r with more := true } }

/-- Raises a cause. -/
def Depot.raise (c : Cause) (d : Depot) : Depot := { d with notices := d.notices.raise c }

/-- Reports a refusal. -/
def Depot.refuse (offset : Nat) (reason : RefusalReason) (d : Depot) : Depot :=
  { d with notices := d.notices.refuse offset reason }

/-- Raises a cause at the part. -/
def Part.raise (c : Cause) (p : Part) : Part := { p with depot := p.depot.raise c }

/-- Reports a refusal at the part. -/
def Part.refuse (offset : Nat) (reason : RefusalReason) (p : Part) : Part := { p with depot := p.depot.refuse offset reason }

/-- A block raises ACCESS_BLOCKED and fills the block latch, or sets MORE where it is full (R9). -/
def Part.block (addr : Addr) (req : Requester) (dir : Direction) (p : Part) : Part :=
  { p.raise .accessBlocked with
    path := { p.path with
      blockLatch := match p.path.blockLatch with
        | none => some { addr := addr, req := req, dir := dir }
        | some r => some { r with more := true } } }

/-- A parity error raises STORE_PARITY and fills the parity error latch, or sets MORE where it is full (R180). -/
def Part.parityError (addr : Addr) (halves : Halves) (kind : ParityAccess) (req : Option Requester) (p : Part) : Part :=
  { p.raise .storeParity with
    store := { p.store with
      latch := match p.store.latch with
        | none => some { addr := addr, halves := halves, kind := kind, req := req }
        | some r => some { r with more := true } } }

/-- A taken acknowledge word clears the causes it names, and empties the latch tied to each of three (R198). -/
def Part.acknowledge (named : Causes) (p : Part) : Part :=
  { p with
    path := { p.path with
      blockLatch := if named.getLsbD Cause.accessBlocked.position then none else p.path.blockLatch }
    store := { p.store with
      latch := if named.getLsbD Cause.storeParity.position then none else p.store.latch }
    depot := { p.depot with
      notices := { p.depot.notices with
        pending := p.depot.notices.pending &&& ~~~ named
        refusal := if named.getLsbD Cause.configRefused.position then none else p.depot.notices.refusal } } }

end Sys2Proof.Machine
end

