-- ==== Sys2Proof/Machine/Calendar.lean ====
section
/-!
DEFINITION. The Calendar Unit: valid dates, the half-second advance, the derived weekday, the set request's proposal
and the two boundaries (spec/08_depot_calendar_and_timers.md).
-/

namespace Sys2Proof.Machine

open Sys2Proof

/-- A leap year within the range is divisible by 4, apart from 2100 (R155). -/
def isLeap (y : Nat) : Bool := y % 4 == 0 && y != 2100

/-- Length of month `m` of year `y` (R155). -/
def monthLength (y m : Nat) : Nat :=
  match m with
  | 2 => if isLeap y then 29 else 28
  | 4 => 30
  | 6 => 30
  | 9 => 30
  | 11 => 30
  | _ => 31

/-- A valid date of the range (R155). -/
def validDate (y m d : Nat) : Bool :=
  decide (2020 ≤ y) && decide (y ≤ 2147) && decide (1 ≤ m) && decide (m ≤ 12) && decide (1 ≤ d) &&
    decide (d ≤ monthLength y m)

/-- A valid time of day in whole seconds (R155). -/
def validTime (h m s : Nat) : Bool := decide (h ≤ 23) && decide (m ≤ 59) && decide (s ≤ 59)

/-- The calendar holds a valid date and time, and the weekday is one of seven (R155). -/
def Calendar.valid (c : Calendar) : Bool :=
  validDate c.year c.month c.day && validTime c.hour c.minute c.second && decide (c.half ≤ 1) && decide (c.weekday ≤ 6)

/-- Days from 1 January 2020 to 1 January of year `y`. -/
def daysToYear (y : Nat) : Nat := ((List.range (y - 2020)).map (fun i => if isLeap (2020 + i) then 366 else 365)).sum

/-- Days from 1 January of year `y` to the first of month `m`. -/
def daysToMonth (y m : Nat) : Nat := ((List.range (m - 1)).map (fun i => monthLength y (i + 1))).sum

/-- The weekday of a date: the count of days from 1 January 2020 plus 2, modulo 7 (R156). -/
def weekdayOf (y m d : Nat) : Nat := (daysToYear y + daysToMonth y m + (d - 1) + 2) % 7

/-- The next day, at hour 0; after the last day of 2147 the calendar wraps to its start and is NOT_SET (R158). -/
def Calendar.nextDay (c : Calendar) : Calendar :=
  let weekday := (c.weekday + 1) % 7
  let c0 := { c with hour := 0, minute := 0, second := 0, half := 0 }
  if c.day < monthLength c.year c.month then { c0 with day := c.day + 1, weekday := weekday }
  else if c.month < 12 then { c0 with month := c.month + 1, day := 1, weekday := weekday }
  else if c.year < 2147 then { c0 with year := c.year + 1, month := 1, day := 1, weekday := weekday }
  else {}

/-- One tick advances the calendar by a half second (R158). -/
def Calendar.tick (c : Calendar) : Calendar :=
  if c.half = 0 then { c with half := 1 }
  else if c.second < 59 then { c with half := 0, second := c.second + 1 }
  else if c.minute < 59 then { c with half := 0, second := 0, minute := c.minute + 1 }
  else if c.hour < 23 then { c with half := 0, second := 0, minute := 0, hour := c.hour + 1 }
  else c.nextDay

/-- A boundary can fire only where the calendar stands at minute 0, second 0, half 0 while SET (R164). -/
def Calendar.onHour (c : Calendar) : Bool := c.isSet && c.minute == 0 && c.second == 0 && c.half == 0

/-- Whether the quota-day boundary fires on the tick that brought the calendar here (R164). -/
def CalendarUnit.quotaDayFires (u : CalendarUnit) : Bool := u.now.onHour && u.now.hour == u.quotaHour

/-- Whether the period boundary fires on the tick that brought the calendar here (R164, R203). -/
def CalendarUnit.periodFires (u : CalendarUnit) : Bool :=
  u.now.onHour && u.now.hour == u.schedule.hour.toNat &&
    (u.schedule.kind == 1 || (u.schedule.kind == 2 && u.now.weekday == u.schedule.weekday.toNat) ||
      (u.schedule.kind == 3 && u.now.day == u.schedule.day.toNat))

/-- The tick at the Calendar Unit; the events of the tick carry the stamp it leaves (R160). -/
def CalendarUnit.tick (u : CalendarUnit) : CalendarUnit := { u with now := u.now.tick, tickStamp := u.now.tick }

/-- A schedule word, by its fields (R206). -/
def scheduleOf (w : Word) : Schedule :=
  { kind := BitVec.ofNat 3 (bits w 0 3), hour := BitVec.ofNat 5 (bits w 8 5), weekday := BitVec.ofNat 3 (bits w 16 3),
    day := BitVec.ofNat 5 (bits w 24 5) }

/-- A schedule is taken when its kind names one and every field that the kind uses is in range (R163). -/
def Schedule.valid (s : Schedule) : Bool :=
  match s.kind.toNat with
  | 0 => true
  | 1 => decide (s.hour.toNat ≤ 23)
  | 2 => decide (s.weekday.toNat ≤ 6) && decide (s.hour.toNat ≤ 23)
  | 3 => decide (1 ≤ s.day.toNat) && decide (s.day.toNat ≤ 28) && decide (s.hour.toNat ≤ 23)
  | _ => false

/-- The calendar that a staged date word and a second word propose: half 0, weekday derived, SET (R161, R162, R206). -/
def proposedCalendar (dateWord timeWord : Word) : Calendar :=
  { year := bits dateWord 0 16, month := bits dateWord 16 8, day := bits dateWord 24 8
    weekday := weekdayOf (bits dateWord 0 16) (bits dateWord 16 8) (bits dateWord 24 8)
    hour := bits timeWord 16 8, minute := bits timeWord 8 8, second := bits timeWord 0 8, half := 0, isSet := true }

/-- A proposed date and time in range (R161, first check). -/
def Calendar.proposable (c : Calendar) : Bool := validDate c.year c.month c.day && validTime c.hour c.minute c.second

/-- A date-view read copies the calendar into the snapshot (R166). -/
def CalendarUnit.takeSnapshot (u : CalendarUnit) : CalendarUnit := { u with snapshot := u.now }

/-- The tick at a timer that runs: one less to go (R77, R159). -/
def tickTimer (t : Option Nat) : Option Nat := t.map (· - 1)

/-- A timer started with a limit of S seconds has 2S ticks to go (R77). -/
def startTimer (seconds : Nat) : Option Nat := some (2 * seconds)

end Sys2Proof.Machine
end

