-- ==== Sys2Proof/Machine/Formats.lean ====
section
/-!
DEFINITION. The codes and byte layouts of the formats that the part writes and reads (spec/11_formats_at_a_glance.md,
R202 to R206). A bit that the tables give no field is written as zero (R202).
-/

namespace Sys2Proof.Machine

open Sys2Proof

/-! ## Codes (R203) -/

def Requester.code : Requester → Nat
  | .site => 0
  | .maint => 1
  | .reader => 2
  | .plant => 3

def WindowKind.code : WindowKind → Nat
  | .identity => 1
  | .plant => 2
  | .bay => 3
  | .directory => 4
  | .journal => 5
  | .grant => 6
  | .guarded => 7

/-- The window kind of a code; 0 names no kind. -/
def windowKindOf (code : BitVec 3) : Option WindowKind :=
  match code.toNat with
  | 1 => some .identity
  | 2 => some .plant
  | 3 => some .bay
  | 4 => some .directory
  | 5 => some .journal
  | 6 => some .grant
  | 7 => some .guarded
  | _ => none

def SessionState.code : SessionState → Nat
  | .vacant => 0
  | .lookup => 1
  | .held => 2
  | .admitted => 3
  | .washing => 4
  | .closing => 5

def HoldReason.code : HoldReason → Nat
  | .unknown => 1
  | .noAccount => 2
  | .barred => 3
  | .credit => 4
  | .duplicate => 5
  | .directoryFault => 6
  | .directoryBusy => 7

/-- The hold reason code, 0 for none. -/
def holdCode (h : Option HoldReason) : Nat := (h.map HoldReason.code).getD 0

def CloseReason.code : CloseReason → Nat
  | .exit => 1
  | .silence => 2
  | .operator => 3
  | .displaced => 4
  | .departed => 5
  | .turnedAway => 6
  | .holdExpired => 7

def Stage.code : Stage → Nat
  | .normal => 0
  | .conserve => 1
  | .exhausted => 2

def Quality.code : Quality → Nat
  | .qualified => 0
  | .backwash => 1
  | .settling => 2
  | .sampling => 3
  | .rejected => 4

def RecordBody.code : RecordBody → Nat
  | .charge _ => 1
  | .void _ _ _ _ _ => 2
  | .turnedAway _ _ _ => 3
  | .periodTotal _ _ _ _ => 4
  | .quotaDay _ _ => 5
  | .meterFault _ _ _ => 6
  | .restart _ _ _ => 7

def RefreshMode.code : RefreshMode → Nat
  | .scheduled => 0
  | .opportune => 1

def RefusalReason.code : RefusalReason → Nat
  | .outOfRange => 1
  | .notPermitted => 2
  | .inUse => 3
  | .wrongState => 4
  | .notFound => 5
  | .busy => 6
  | .duplicateKind => 7
  | .overlapsControl => 8

def Direction.code : Direction → Nat
  | .read => 0
  | .write => 1

def Halves.code : Halves → Nat
  | .lower => 1
  | .upper => 2
  | .both => 3

def ParityAccess.code : ParityAccess → Nat
  | .upstreamRead => 1
  | .rmw => 2
  | .walker => 3

def RunState.code : RunState → Nat
  | .clearing => 0
  | .running => 1

def LineRefusal.code : LineRefusal → Nat
  | .disabled => 1
  | .noWater => 2
  | .quota => 3

/-- Claimant of a claim: bay b, sweep 8, QUOTA_DAY 9, RESTART 10, meter 11 + m. -/
def Claim.claimant : Claim → Nat
  | .bay b _ => b.val
  | .sweep _ => 8
  | .quotaDay _ _ _ => 9
  | .restart _ _ _ _ => 10
  | .meter m _ _ _ => 11 + m.val

/-- Records that a claim is for (R141). -/
def Claim.size : Claim → Nat
  | .bay _ records => records.length
  | .sweep _ => 1
  | .quotaDay _ _ _ => 1
  | .restart _ _ _ _ => 1
  | .meter _ _ _ _ => 1

/-! ## Stamps (R205) -/

def Calendar.dateWord (c : Calendar) : Word :=
  word (field (c.year - 2020) 7 0 + field c.month 4 8 + field c.day 5 16 + field c.weekday 3 24 + flag (!c.isSet) 31)

def Calendar.timeWord (c : Calendar) : Word :=
  word (field c.half 1 0 + field c.second 6 8 + field c.minute 6 16 + field c.hour 5 24)

/-- The two words of a stamp that may be absent; an absent one is zero (R202). -/
def stampDate (s : Option Stamp) : Word := (s.map Calendar.dateWord).getD 0

def stampTime (s : Option Stamp) : Word := (s.map Calendar.timeWord).getD 0

/-! ## Journal records (R205) -/

/-- The kind flags, at bits 9 to 14 of the header's first word. -/
def RecordBody.flags : RecordBody → Nat
  | .charge c =>
    flag c.operatorAdmitted 9 + flag c.abandoned 10 + flag (decide (0 < c.conceded)) 11 + flag c.saturated 12 +
      flag c.last 13 + flag c.notSet 14
  | .void _ _ _ operatorAdmitted abandoned => flag operatorAdmitted 9 + flag abandoned 10
  | .turnedAway _ _ _ => 0
  | .periodTotal _ _ _ _ => 0
  | .quotaDay _ overrun => flag overrun 9
  | .meterFault _ _ _ => 0
  | .restart _ _ resumed => flag resumed 9

/-- Words 4 to 15 of a record, by its kind. -/
def RecordBody.words : RecordBody → List Word
  | .charge c =>
    [word (field c.account.val 6 0 + field c.cls.val 2 8 + field c.program.val 4 16), word c.haulier.toNat,
      tagLow c.tag, word (tagHigh c.tag), c.lineStart.dateWord, c.lineStart.timeWord, c.lineStop.dateWord,
      c.lineStop.timeWord, word c.fresh, word c.conceded, word c.reclaim, word c.amount]
  | .void account tag reason _ _ =>
    [word (field account.val 6 0 + field reason.code 8 8), 0, tagLow tag, word (tagHigh tag), 0, 0, 0, 0, 0, 0, 0, 0]
  | .turnedAway tag hold reason =>
    [word (field reason.code 8 8 + field (holdCode hold) 8 16), 0, tagLow tag, word (tagHigh tag),
      0, 0, 0, 0, 0, 0, 0, 0]
  | .periodTotal account haulier total count =>
    [word (field account.val 6 0), word haulier.toNat, 0, 0, word total, word count, 0, 0, 0, 0, 0, 0]
  | .quotaDay t _ =>
    [word t.intake, word t.makeup, word t.returned, word t.discharge, word t.bayFresh, word t.bayReclaim,
      word t.concededFresh, word t.unattributedFresh, word t.unattributedReclaim, 0, 0, 0]
  | .meterFault m old new => [word (field m.val 5 0), word old, word new, 0, 0, 0, 0, 0, 0, 0, 0, 0]
  | .restart lostBays lostRecords _ =>
    [word (field lostBays.toNat 8 0 + field lostRecords 4 8), 0, 0, 0, 0, 0, 0, 0, 0, 0, 0, 0]

/-- The sixteen words of a record (R138, R205). An absent bay is written as 15 (R202). -/
def JournalRecord.words (r : JournalRecord) : List Word :=
  word (field r.composed.body.code 4 0 + field ((r.composed.bay.map Fin.val).getD 15) 4 4 +
      flag (!r.composed.stamp.isSet) 8 + r.composed.body.flags + field r.period.toNat 16 16) ::
    r.sequence.getD 0 :: r.composed.stamp.dateWord :: r.composed.stamp.timeWord :: r.composed.body.words

/-! ## Words of the control window (R206) -/

/-- First word of a window entry. -/
def WindowEntry.first (e : WindowEntry) : Word :=
  word (flag e.enabled 0 + field e.kind.toNat 3 1 + field e.k.toNat 5 4 + field e.base.toNat 12 12)

/-- Second word of a window entry. -/
def WindowEntry.second (e : WindowEntry) : Word :=
  word (field e.writePermit.toNat 4 0 + field e.readPermit.toNat 4 4)

/-- The entry that a first and a second word propose. -/
def windowEntryOf (first second : Word) : WindowEntry :=
  { enabled := first.getLsbD 0, kind := BitVec.ofNat 3 (bits first 1 3), k := BitVec.ofNat 5 (bits first 4 5)
    base := BitVec.ofNat 12 (bits first 12 12), writePermit := BitVec.ofNat 4 (bits second 0 4)
    readPermit := BitVec.ofNat 4 (bits second 4 4) }

/-- Word 0 of an account: its host fields and the open count. -/
def Account.word0 (a : Account) : Word :=
  word (field a.haulier.toNat 24 0 + field a.openCount 4 24 + field a.band.val 2 28 + flag a.manualHold 30 +
    flag a.valid 31)

/-- An account with the five host fields that two staged words propose (R114). -/
def Account.propose (a : Account) (s : StagedAccount) : Account :=
  { a with
    valid := s.word0.getLsbD 31
    haulier := BitVec.ofNat 24 (bits s.word0 0 24)
    band := Fin.ofNat 4 (bits s.word0 28 2)
    limit := s.word1.toNat
    manualHold := s.word0.getLsbD 30 }

/-- The staged words that propose the host fields in force (R132). -/
def Account.restage (a : Account) : StagedAccount :=
  { word0 := word (field a.haulier.toNat 24 0 + field a.band.val 2 28 + flag a.manualHold 30 + flag a.valid 31)
    word1 := word a.limit }

def Program.toWord (p : Program) : Word := word (flag p.enabled 0 + flag p.freshRequired 1)

def programOf (w : Word) : Program := { enabled := w.getLsbD 0, freshRequired := w.getLsbD 1 }

def Schedule.toWord (s : Schedule) : Word :=
  word (field s.kind.toNat 3 0 + field s.hour.toNat 5 8 + field s.weekday.toNat 3 16 + field s.day.toNat 5 24)

/-! ## Windows by geometry (01, section 1.2) -/

/-- Base address of a window entry. -/
def WindowEntry.baseAddr (e : WindowEntry) : Nat := e.base.toNat * 4096

/-- Size of a window entry in bytes. -/
def WindowEntry.size (e : WindowEntry) : Nat := 2 ^ e.k.toNat

/-- The extent of an entry: its enabled field, kind, base and size (R6); none where it is disabled. -/
def WindowEntry.extent (e : WindowEntry) : Option (WindowKind × Nat × Nat) :=
  if e.enabled then (windowKindOf e.kind).map (fun k => (k, e.baseAddr, e.size)) else none

/-- Whether an address falls in an enabled entry's window. -/
def WindowEntry.covers (e : WindowEntry) (a : Nat) : Bool :=
  e.enabled && decide (e.baseAddr ≤ a) && decide (a < e.baseAddr + e.size)

/-- Requester `r` is in a permit set (R203). -/
def permits (set : BitVec 4) (r : Requester) : Bool := set.getLsbD (Requester.code r)

/-- The window of a kind that is enabled in force, as base and size. -/
def PathUnit.windowOf (u : PathUnit) (k : WindowKind) : Option (Nat × Nat) :=
  u.windows.toList.findSome? fun e =>
    match e.extent with
    | some (k', base, size) => if k' = k then some (base, size) else none
    | none => none

/-- The journal ring: base address and slotcount (R133). -/
structure Ring where
  base : Nat
  slots : Nat
  deriving DecidableEq, Repr

def PathUnit.ring (u : PathUnit) : Option Ring := (u.windowOf .journal).map fun w => ⟨w.1, w.2 / 64⟩

end Sys2Proof.Machine
end

