-- ==== Sys2Proof/Machine/Sessions.lean ====
section
/-!
DEFINITION. The session table: bindings, evaluation and re-evaluation, entry into HELD and ADMITTED, arrivals, program
lines and their judgement (spec/04_bay_sessions.md; spec/03, R43, R55, R56; spec/06, R117 to R119).
-/

namespace Sys2Proof.Machine

open Sys2Proof

/-! ## Access to the tables -/

def Depot.bay (d : Depot) (b : Fin 8) : Bay := d.sessions.bays[b]

def Depot.session (d : Depot) (b : Fin 8) : Session := (d.bay b).session

def Depot.modifyBay (b : Fin 8) (f : Bay → Bay) (d : Depot) : Depot :=
  { d with sessions := { d.sessions with bays := modifyAt d.sessions.bays b f } }

def Depot.modifySession (b : Fin 8) (f : Session → Session) (d : Depot) : Depot :=
  d.modifyBay b fun y => { y with session := f y.session }

def Depot.account (d : Depot) (a : Fin 64) : Account := d.charge.accounts[a]

def Depot.modifyAccount (a : Fin 64) (f : Account → Account) (d : Depot) : Depot :=
  { d with charge := { d.charge with accounts := modifyAt d.charge.accounts a f } }

/-! ## The open count (R63, R117) -/

/-- A binding raises the account's open count. -/
def Depot.bind (a : Fin 64) (d : Depot) : Depot := d.modifyAccount a fun x => { x with openCount := x.openCount + 1 }

/-- A release lowers it. -/
def Depot.release (a : Fin 64) (d : Depot) : Depot := d.modifyAccount a fun x => { x with openCount := x.openCount - 1 }

/-- Releases what bay `b`'s session binds, if it binds an account. -/
def Depot.releaseBinding (b : Fin 8) (d : Depot) : Depot :=
  match (d.session b).account with
  | some r => if r.bound then d.release r.index else d
  | none => d

/-- Gives bay `b`'s session an account index and a class: bound where the account is valid at this moment, named only
where it is not (R63). -/
def Depot.takeAccount (b : Fin 8) (a : Fin 64) (cls : Fin 4) (d : Depot) : Depot :=
  let d1 := d.modifySession b fun s => { s with account := some ⟨a, cls, (d.account a).valid⟩ }
  if (d.account a).valid then d1.bind a else d1

/-! ## Evaluation (R55, R118) -/

/-- The outcomes of evaluation and of a fetch (R56). -/
inductive Verdict where
  | admitted
  | held (reason : HoldReason)
  deriving DecidableEq, Repr

/-- ADMITTED or WASHING. -/
def SessionState.active (s : SessionState) : Bool := s == .admitted || s == .washing

/-- Bay `c`'s session is in ADMITTED or WASHING with the tag. -/
def Depot.holds (d : Depot) (t : Tag) (c : Fin 8) : Bool := (d.session c).state.active && (d.session c).tag == t

/-- Another bay holds the tag in ADMITTED or WASHING (R55, third test). -/
def Depot.duplicate (d : Depot) (b : Fin 8) (t : Tag) : Bool := allBays.any fun c => c != b && d.holds t c

/-- Credit hold (R118). -/
def Account.onHold (a : Account) : Bool := a.manualHold || (decide (0 < a.limit) && decide (a.limit ≤ a.balance))

/-- Tests 2 to 5 of evaluation (R55, R72). -/
def Depot.judge (d : Depot) (b : Fin 8) (t : Tag) (a : Fin 64) : Verdict :=
  if !(d.account a).valid then .held .noAccount
  else if d.duplicate b t then .held .duplicate
  else if (d.account a).onHold then .held .credit
  else .admitted

/-- Evaluation of a found vehicle (R55). -/
def Depot.evaluate (d : Depot) (b : Fin 8) (t : Tag) (barred : Bool) (a : Fin 64) : Verdict :=
  if barred then .held .barred else d.judge b t a

/-! ## Entry into HELD and ADMITTED (R66, R67, R78, R79) -/

/-- Entry into HELD: the reason is set, the hold timer started and HOLD_RAISED raised. -/
def Depot.enterHeld (b : Fin 8) (reason : HoldReason) (d : Depot) : Depot :=
  (d.modifyBay b fun y =>
    { y with session := { y.session with state := .held, hold := some reason }
             hold := startTimer d.sessions.holdLimit }).raise .holdRaised

/-- Entry into ADMITTED: the hold reason becomes absent, the hold timer stops, the silence timer starts fresh. -/
def Depot.enterAdmitted (b : Fin 8) (d : Depot) : Depot :=
  d.modifyBay b fun y =>
    { y with session := { y.session with state := .admitted, hold := none }
             hold := none
             silence := startTimer d.sessions.silenceLimit }

/-- The session takes an outcome, with the account index and class where the outcome carries them (R56, R66). -/
def Depot.takeVerdict (b : Fin 8) (carried : Option (Fin 64 × Fin 4)) (v : Verdict) (d : Depot) : Depot :=
  let d1 := match carried with
    | some (a, cls) => d.takeAccount b a cls
    | none => d
  match v with
  | .admitted => d1.enterAdmitted b
  | .held reason => d1.enterHeld b reason

/-- An outcome delivered at the end of a fetch; one that reaches a session not in LOOKUP with its tag is dropped
(R66). -/
def Depot.deliver (b : Fin 8) (t : Tag) (carried : Option (Fin 64 × Fin 4)) (v : Verdict) (d : Depot) : Depot :=
  if (d.session b).state = .lookup ∧ (d.session b).tag = t then d.takeVerdict b carried v else d

/-! ## Arrivals (R43, R61, R64, R65) -/

/-- The cache search: the valid entry, pinned or not, that holds the tag (R40). -/
def Identity.search (i : Identity) (t : Tag) : Option CacheEntry :=
  i.cache.toList.find? fun e => e.valid && e.tag == t

/-- A session as it leaves VACANT (R61). -/
def Session.arriving (t : Tag) (stamp : Stamp) : Session := { state := .lookup, tag := t, start := some stamp }

/-- An arrival at a VACANT bay: evaluated at once on a cache hit, queued for a lookup on a miss (R43, R66). -/
def Depot.arriveVacant (b : Fin 8) (t : Tag) (stamp : Stamp) (d : Depot) : Depot :=
  let d1 := d.modifySession b fun _ => Session.arriving t stamp
  match d.identity.search t with
  | some e => d1.takeVerdict b (some (e.account, e.cls)) (d.evaluate b t e.barred e.account)
  | none => { d1 with identity := { d1.identity with lookups := d1.identity.lookups ++ [⟨b, t⟩] } }

/-- An identity record taken for bay `b` (R64, R65). -/
def Depot.identityRecord (b : Fin 8) (r : Parked) (d : Depot) : Depot :=
  match (d.session b).state with
  | .vacant => d.arriveVacant b r.tag r.stamp
  | .closing =>
    d.modifyBay b fun y =>
      { y with parked := some r
               parkOverwrite := if y.parked.isSome then satAdd Config.max16 y.parkOverwrite 1 else y.parkOverwrite }
  | _ =>
    if (d.session b).tag = r.tag then d
    else d.modifyBay b fun y => { y with conflicting := satAdd Config.max16 y.conflicting 1 }

/-- The session returns to VACANT at the admission of its claim: its binding is released, its fields become absent,
and a parked arrival is processed (R65, R82). -/
def Depot.vacate (b : Fin 8) (d : Depot) : Depot :=
  let parked := (d.bay b).parked
  let d1 := (d.releaseBinding b).modifyBay b fun y => { y with session := {}, parked := none }
  match parked with
  | some r => d1.arriveVacant b r.tag r.stamp
  | none => d1

/-! ## Re-evaluation (R72, R119) -/

/-- One re-evaluation event against one session. -/
def Depot.reevaluate (b : Fin 8) (d : Depot) : Depot :=
  let s := d.session b
  match s.account with
  | none => d
  | some r =>
    if s.state = .held ∧ s.hold = some .credit then
      match d.judge b s.tag r.index with
      | .admitted => d.enterAdmitted b
      | .held reason =>
        if reason = .credit then d
        else (d.modifySession b fun s => { s with hold := some reason }).raise .holdRaised
    else d

/-- Bay `b`'s session is in HELD(CREDIT) and binds account `a`. -/
def Depot.awaitsCredit (d : Depot) (a : Fin 64) (b : Fin 8) : Bool :=
  (d.session b).state == .held && (d.session b).hold == some .credit &&
    (match (d.session b).account with
     | some r => r.bound && r.index == a
     | none => false)

/-- Places a bay in an order by rank. -/
def insertByRank (rank : Fin 8 → Nat) (b : Fin 8) : List (Fin 8) → List (Fin 8)
  | [] => [b]
  | c :: rest => if rank b ≤ rank c then b :: c :: rest else c :: insertByRank rank b rest

/-- Bays in the order of their ranks. -/
def orderByRank (rank : Fin 8 → Nat) (bays : List (Fin 8)) : List (Fin 8) := bays.foldr (insertByRank rank) []

/-- Re-evaluation of every session in HELD(CREDIT) that binds `a`, one after another. "Either may come first" (R119):
the order is a free value (log 9), drawn only where two or more sessions wait. -/
def Depot.reevaluateAll (a : Fin 64) (d : Depot) : Depot :=
  let waiting := allBays.filter (d.awaitsCredit a)
  let ordered := orderByRank (Config.reevaluationRank d.draws) waiting
  ordered.foldl (fun x b => x.reevaluate b) { d with draws := if 2 ≤ waiting.length then d.draws + 1 else d.draws }

/-! ## Program lines (R62, R74, R75) -/

/-- A line without an end stamp is the running line (R62). -/
def Line.running (l : Line) : Bool := l.stop.isNone

/-- The running line of a session. -/
def Session.runningLine (s : Session) : Option Line := s.lines.find? Line.running

/-- The running line ends at a stamp (R75). -/
def Session.endLine (stamp : Stamp) (s : Session) : Session :=
  { s with lines := s.lines.map fun l => if l.running then { l with stop := some stamp } else l }

/-- The judgement of a start (R74): allowed, or refused with a reason. -/
def judgeStart (p : Program) (stage : Stage) (available : Bool) : LineOutcome :=
  if !p.enabled then .refused .disabled
  else if p.freshRequired then (if stage = .exhausted then .refused .quota else .run)
  else if stage = .normal ∨ available = true then .run
  else .refused .noWater

/-- A line as its start writes it: a REFUSED line is written whole, with its end stamp (R62). -/
def newLine (code : Fin 16) (outcome : LineOutcome) (stamp : Stamp) : Line :=
  { program := code, outcome := outcome, start := stamp
    stop := match outcome with
      | .run => none
      | .refused _ => some stamp }

/-- A PROGRAM_START in ADMITTED, or in WASHING after the running line has ended: dropped where the list is full, else
judged (R74). -/
def Session.startProgram (code : Fin 16) (outcome : LineOutcome) (stamp : Stamp) (s : Session) : Session :=
  if Config.programLines ≤ s.lines.length then
    { s with state := .admitted, dropped := satAdd Config.max16 s.dropped 1 }
  else
    { s with
      state := match outcome with
        | .run => .washing
        | .refused _ => .admitted
      lines := s.lines ++ [newLine code outcome stamp] }

/-- Restart of the silence timer (R73, R76, R78). -/
def Depot.restartSilence (b : Fin 8) (d : Depot) : Depot :=
  d.modifyBay b fun y => { y with silence := startTimer d.sessions.silenceLimit }

/-- A PROGRAM_START record for bay `b` (R73, R74). -/
def Depot.programStart (b : Fin 8) (code : Fin 16) (stamp : Stamp) (d : Depot) : Depot :=
  if (d.session b).state.active then
    (d.restartSilence b).modifySession b fun s =>
      (s.endLine stamp).startProgram code
        (judgeStart d.charge.programs[code] d.water.stage d.water.available) stamp
  else d

/-- A PROGRAM_END record for bay `b` (R73). -/
def Depot.programEnd (b : Fin 8) (stamp : Stamp) (d : Depot) : Depot :=
  if (d.session b).state.active then
    (d.restartSilence b).modifySession b fun s => { s.endLine stamp with state := .admitted }
  else d

/-- A BAY_ALIVE record for bay `b` (R73). -/
def Depot.bayAlive (b : Fin 8) (d : Depot) : Depot :=
  if (d.session b).state.active then d.restartSilence b else d

end Sys2Proof.Machine
end

