-- ==== Sys2Proof/Machine/Charges.lean ====
section
/-!
DEFINITION. The Charge Unit: composition of charges and of end records, and their application to accounts
(spec/06_accounts_tariffs_and_charges.md, R125 to R129; spec/04, R81; spec/07, R138).
-/

namespace Sys2Proof.Machine

open Sys2Proof

/-! ## The amount of a charge (R126, R127) -/

/-- Water charge: fresh litres at the fresh rate, conceded and reclaim litres at the reclaim rate, per 100 L, rounded
down. -/
def waterCharge (fresh conceded reclaim freshRate reclaimRate : Nat) : Nat :=
  (fresh * freshRate + (conceded + reclaim) * reclaimRate) / 100

/-- The subtotal less the band discount, rounded down. -/
def discounted (subtotal percent : Nat) : Nat := subtotal - subtotal * percent / 100

/-- The exact amount, before saturation. -/
def exactAmount (fresh conceded reclaim freshRate reclaimRate cell fee percent : Nat) : Nat :=
  discounted (waterCharge fresh conceded reclaim freshRate reclaimRate + cell + fee) percent

/-- The tariff cell of a class and a program (R122). -/
def Charge.cell (c : Charge) (cls : Fin 4) (p : Fin 16) : Half :=
  c.tariff[16 * cls.val + p.val]

/-! ## Composition (R81, R125 to R128) -/

/-- The CHARGE record of a RUN line; `last` marks the session's last one, which alone carries the abandon fee. -/
def Depot.composeCharge (d : Depot) (b : Fin 8) (r : AccountRef) (stamp : Stamp) (l : Line) (last : Bool) : Composed :=
  let s := d.session b
  let acct := d.account r.index
  let stop := l.stop.getD stamp
  let exact := exactAmount l.fresh l.conceded l.reclaim d.charge.freshRate d.charge.reclaimRate
    (d.charge.cell r.cls l.program).toNat (if last && s.abandoned then d.charge.abandonFee else 0)
    d.charge.discounts[acct.band]
  { body := .charge
      { account := r.index, haulier := acct.haulier, tag := s.tag, cls := r.cls, program := l.program
        lineStart := l.start, lineStop := stop
        fresh := l.fresh, conceded := l.conceded, reclaim := l.reclaim
        amount := min Config.max32 exact
        operatorAdmitted := s.operatorAdmitted, abandoned := s.abandoned
        saturated := decide (Config.max32 < exact), last := last
        notSet := !l.start.isSet || !stop.isSet || !stamp.isSet }
    bay := some b
    stamp := stamp }

/-- One CHARGE record per RUN line, in list order (R81). -/
def Depot.composeLines (d : Depot) (b : Fin 8) (r : AccountRef) (stamp : Stamp) : List Line → List Composed
  | [] => []
  | [l] => [d.composeCharge b r stamp l true]
  | l :: m :: rest => d.composeCharge b r stamp l false :: d.composeLines b r stamp (m :: rest)

/-- The end records of a session that closes with a reason (R81), by the state it closes from. -/
def Depot.endRecords (d : Depot) (b : Fin 8) (reason : CloseReason) (stamp : Stamp) : List Composed :=
  let s := d.session b
  match s.state, s.account with
  | .admitted, some r => close s r
  | .washing, some r => close s r
  | _, _ => [⟨.turnedAway s.tag s.hold reason, some b, stamp⟩]
where
  close (s : Session) (r : AccountRef) : List Composed :=
    let runs := s.lines.filter fun l => l.outcome == .run
    if runs.isEmpty then
      [⟨.void r.index s.tag reason s.operatorAdmitted s.abandoned, some b, stamp⟩]
    else d.composeLines b r stamp runs

/-! ## Application at admission (R129, R138) -/

/-- A CHARGE amount joins the balance and the count advances; both saturate. -/
def Account.apply (amount : Nat) (a : Account) : Account :=
  { a with balance := satAdd Config.max32 a.balance amount, count := satAdd Config.max16 a.count 1 }

/-- Applies one composed record and fixes its period: a CHARGE record takes its account's balance period, any other
the current period. -/
def Depot.applyRecord (c : Composed) (d : Depot) : Depot × JournalRecord :=
  match c.body with
  | .charge body =>
    (d.modifyAccount body.account (Account.apply body.amount), { composed := c, period := (d.account body.account).period })
  | _ => (d, { composed := c, period := d.journal.period })

/-- The records of one bay claim, applied in their composed order, enter the insertion queue at its tail (R129, R140). -/
def Depot.applyRecords : List Composed → Depot → Depot
  | [], d => d
  | c :: rest, d =>
    let r := d.applyRecord c
    Depot.applyRecords rest
      { r.1 with journal := { r.1.journal with queue := r.1.journal.queue ++ [r.2] } }

end Sys2Proof.Machine
end

