-- ==== Sys2Proof/Machine/Journal.lean ====
section
/-!
DEFINITION. The Journal Unit: the sweep, claims and their admission, the close of a session, period boundaries, the
ring and its notices (spec/07_the_charge_journal_and_billing_periods.md; spec/04, R80; spec/06, R120).
-/

namespace Sys2Proof.Machine

open Sys2Proof

def Depot.modifyJournal (f : Journal → Journal) (d : Depot) : Depot := { d with journal := f d.journal }

/-- A record enters the insertion queue at its tail (R140). -/
def Depot.enqueue (r : JournalRecord) (d : Depot) : Depot := d.modifyJournal fun j => { j with queue := j.queue ++ [r] }

/-- A claim joins the waiting list at its tail (R141). -/
def Depot.appendClaim (c : Claim) (d : Depot) : Depot := d.modifyJournal fun j => { j with waiting := j.waiting ++ [c] }

/-! ## The sweep (R120, R146, R147) -/

/-- The reset of an account: balance and count 0, balance period the current one, and re-evaluation of its sessions
held for credit (R120). -/
def Depot.resetAccount (a : Fin 64) (d : Depot) : Depot :=
  (d.modifyAccount a fun x => { x with balance := 0, count := 0, period := d.journal.period }).reevaluateAll a

/-- The accounts from index `n` upward. -/
def accountsFrom (n : Nat) : List (Fin 64) := (List.finRange 64).drop n

/-- The walk over the accounts still to come: an account with count 0 is reset at once, the first other one gets a
claim and stops the walk; past account 63 the sweep ends and PERIOD_CLOSED is raised (R146). -/
def Depot.walk : List (Fin 64) → Depot → Depot
  | [], d => (d.modifyJournal fun j => { j with sweep := none }).raise .periodClosed
  | a :: rest, d =>
    if (d.account a).count = 0 then Depot.walk rest (d.resetAccount a)
    else (d.modifyJournal fun j => { j with sweep := some a }).appendClaim (.sweep a)

/-- A boundary with no sweep running: the period number advances and the sweep walks from account 0 (R145). -/
def Depot.beginPeriod (d : Depot) : Depot :=
  Depot.walk (accountsFrom 0) (d.modifyJournal fun j => { j with period := j.period + 1, sweep := some 0 })

/-- The sweep walks on from an account; where it ends with a boundary pending, that boundary is taken (R146, R148). -/
def Depot.continueSweep (n : Nat) (d : Depot) : Depot :=
  let d1 := Depot.walk (accountsFrom n) d
  if d1.journal.sweep.isNone ∧ d1.journal.boundaryPending = true then
    (d1.modifyJournal fun j => { j with boundaryPending := false }).beginPeriod
  else d1

/-! ## Admission (R142, R143) -/

/-- The effects of an admission, by claimant (R143). The claim has left the waiting list. -/
def Depot.admitClaim (now : Calendar) (c : Claim) (d : Depot) : Depot :=
  match c with
  | .bay b records => (Depot.applyRecords records d).vacate b
  | .sweep a =>
    let x := d.account a
    ((d.enqueue
        { composed := { body := .periodTotal a x.haulier x.balance x.count, bay := none, stamp := now }
          period := x.period }).resetAccount a).continueSweep (a.val + 1)
  | .quotaDay totals stamp overrun =>
    d.enqueue { composed := { body := .quotaDay totals overrun, bay := none, stamp := stamp }, period := d.journal.period }
  | .meter m old new stamp =>
    { d.enqueue
        { composed := { body := .meterFault m old new, bay := none, stamp := stamp }, period := d.journal.period } with
      water := { d.water with meters := modifyAt d.water.meters m fun x => { x with faultPending := false } } }
  | .restart lostBays lostRecords resumed stamp =>
    d.enqueue
      { composed := { body := .restart lostBays lostRecords resumed, bay := none, stamp := stamp }
        period := d.journal.period }

/-- Free room of the insertion queue (R140). -/
def Journal.room (j : Journal) : Nat := Config.insertionDepth - j.queue.length

/-- The oldest waiting claim is admitted where the queue has room for all its records, then the next oldest, until one
does not fit or the list is empty (R142). A claim holds at least one record and the queue eight, so no event admits more
than eight. -/
def Depot.admitUpTo (now : Calendar) : Nat → Depot → Depot
  | 0, d => d
  | n + 1, d =>
    match d.journal.waiting with
    | [] => d
    | c :: rest =>
      if c.size ≤ d.journal.room then
        Depot.admitUpTo now n ((d.modifyJournal fun j => { j with waiting := rest }).admitClaim now c)
      else d

/-- The Journal Unit judges its waiting list (R142). -/
def Depot.judgeClaims (now : Calendar) (d : Depot) : Depot := d.admitUpTo now Config.insertionDepth

/-- A claim is placed and judged within the event that places it (R142). -/
def Depot.placeClaim (now : Calendar) (c : Claim) (d : Depot) : Depot := (d.appendClaim c).judgeClaims now

/-- Bay `b` has a claim waiting. -/
def Journal.bayWaits (j : Journal) (b : Fin 8) : Bool := j.waiting.any fun c => c.claimant == b.val

/-- A bay's claim; one that is not admitted as it is placed raises JOURNAL_STALLED (R144). -/
def Depot.placeBayClaim (now : Calendar) (b : Fin 8) (records : List Composed) (d : Depot) : Depot :=
  let d1 := d.placeClaim now (.bay b records)
  if d1.journal.bayWaits b then d1.raise .journalStalled else d1

/-! ## The close of a session (R71, R80) -/

/-- A session that leaves LOOKUP other than by an outcome: its queue entry is withdrawn, or the fetch that serves it is
marked withdrawn (R44, R71). -/
def Depot.withdrawLookup (b : Fin 8) (d : Depot) : Depot :=
  { d with
    identity := { d.identity with
      lookups := d.identity.lookups.filter fun l => l.bay != b
      fetch := d.identity.fetch.map fun f => if f.purpose = .lookup b then { f with withdrawn := true } else f } }

/-- A session enters CLOSING with a reason at a stamp: the running line ends, both timers stop, the end records are
composed and one claim for them is placed (R80). -/
def Depot.closeSession (now : Calendar) (b : Fin 8) (reason : CloseReason) (d : Depot) : Depot :=
  let d1 := if (d.session b).state = .lookup then d.withdrawLookup b else d
  let d2 := d1.modifySession b (Session.endLine now)
  let records := d2.endRecords b reason now
  (d2.modifyBay b fun y =>
    { y with session := { y.session with state := .closing, closeReason := some reason }
             silence := none
             hold := none }).placeBayClaim now b records

/-- A VEHICLE_EXIT record for bay `b` (R70, R71, R73). -/
def Depot.vehicleExit (now : Calendar) (b : Fin 8) (d : Depot) : Depot :=
  match (d.session b).state with
  | .vacant => d
  | .closing => d
  | .lookup => d.closeSession now b .departed
  | .held => d.closeSession now b .departed
  | .admitted => d.closeSession now b .exit
  | .washing => d.closeSession now b .exit

/-- The expiry of bay `b`'s silence timer: ABANDONED is set and the session closes with reason SILENCE (R78). -/
def Depot.silenceExpiry (now : Calendar) (b : Fin 8) (d : Depot) : Depot :=
  let d1 := d.modifyBay b fun y => { y with silence := none }
  if (d.session b).state.active then
    (d1.modifySession b fun s => { s with abandoned := true }).closeSession now b .silence
  else d1

/-- The expiry of bay `b`'s hold timer closes a HELD session with reason HOLD_EXPIRED (R70, R79). -/
def Depot.holdExpiry (now : Calendar) (b : Fin 8) (d : Depot) : Depot :=
  let d1 := d.modifyBay b fun y => { y with hold := none }
  if (d.session b).state = .held then d1.closeSession now b .holdExpired else d1

/-! ## Session decisions (R68, R69) -/

/-- The override of an ADMIT: an account index and a class. -/
abbrev Override := Option (Fin 64 × Fin 4)

/-- Every other session that holds the tag in ADMITTED or WASHING is closed with reason DISPLACED (R69). -/
def Depot.displace (now : Calendar) (b : Fin 8) (t : Tag) (d : Depot) : Depot :=
  allBays.foldl (fun x c => if c ≠ b ∧ x.holds t c = true then x.closeSession now c .displaced else x) d

/-- An ADMIT taken with an override replaces the binding and the class (R63, R68, R117). -/
def Depot.override (b : Fin 8) (o : Override) (d : Depot) : Depot :=
  match o with
  | some (a, cls) => (d.releaseBinding b).takeAccount b a cls
  | none => d

/-- Whether an ADMIT in HELD is taken, and if not, why (R68). -/
def Depot.admitRefusal (d : Depot) (b : Fin 8) (o : Override) : Option RefusalReason :=
  if (d.session b).state ≠ .held then some .wrongState
  else
    match o with
    | some (a, _) => if (d.account a).valid then none else some .outOfRange
    | none =>
      match (d.session b).account with
      | some r => if r.bound then none else some .wrongState
      | none => some .wrongState

/-- A taken ADMIT (R68, R69). -/
def Depot.admitTaken (now : Calendar) (b : Fin 8) (o : Override) (d : Depot) : Depot :=
  (((d.displace now b (d.session b).tag).override b o).modifySession b
    fun s => { s with operatorAdmitted := true }).enterAdmitted b

/-- The ADMIT decision. -/
def Depot.decideAdmit (now : Calendar) (b : Fin 8) (o : Override) (d : Depot) : Except RefusalReason Depot :=
  match d.admitRefusal b o with
  | some reason => .error reason
  | none => .ok (d.admitTaken now b o)

/-- The TURN_AWAY decision (R68, R70). -/
def Depot.decideTurnAway (now : Calendar) (b : Fin 8) (d : Depot) : Except RefusalReason Depot :=
  if (d.session b).state = .held then .ok (d.closeSession now b .turnedAway) else .error .wrongState

/-- The CLOSE decision (R68, R70, R71). -/
def Depot.decideClose (now : Calendar) (b : Fin 8) (d : Depot) : Except RefusalReason Depot :=
  match (d.session b).state with
  | .vacant => .error .wrongState
  | .closing => .error .wrongState
  | _ => .ok (d.closeSession now b .operator)

/-! ## Boundaries (R145, R148) -/

/-- A period boundary at the Journal Unit: it starts the sweep, or becomes pending, or is merged (R145, R148). The claim
that a sweep places is not judged here. -/
def Depot.takeBoundary (d : Depot) : Depot :=
  if d.journal.sweep.isSome then
    if d.journal.boundaryPending then d.raise .periodOverrun
    else d.modifyJournal fun j => { j with boundaryPending := true }
  else d.beginPeriod

/-- A period boundary with the judgement of the claim that its sweep places (R142, R145, R148). -/
def Depot.periodBoundary (now : Calendar) (d : Depot) : Depot :=
  if d.journal.sweep.isSome then d.takeBoundary else d.takeBoundary.judgeClaims now

/-! ## The ring (R133, R136, R137) -/

/-- Occupancy of the ring (R133). -/
def Journal.occupancy (j : Journal) (slots : Nat) : Nat := (j.head + slots - j.tail) % slots

/-- A record write begins where a window is enabled, a record waits, none is in flight and the ring has room: the head
record takes the next sequence number (R136). -/
def Depot.startWrite (ring : Option Ring) (d : Depot) : Depot :=
  match ring, d.journal.queue, d.journal.writing with
  | some g, r :: rest, none =>
    if d.journal.occupancy g.slots < g.slots - 1 then
      d.modifyJournal fun j =>
        { j with queue := { r with sequence := some j.nextSeq } :: rest, writing := some 0 }
    else d
  | _, _, _ => d

/-- Notices of a head advance (R137). -/
def Depot.headNotices (before after slots : Nat) (d : Depot) : Depot :=
  let d1 := if before = 0 ∧ after = 1 then d.raise .journalReady else d
  let threshold := slots * d.journal.nearFull / 100
  if before < threshold ∧ after = threshold then d1.raise .journalNearFull else d1

/-- The end of a record write: sequence and head advance, the record leaves the queue, the notices are judged, then the
claim that waits (R136, R137, R142). -/
def Depot.endWrite (now : Calendar) (g : Ring) (d : Depot) : Depot :=
  let before := d.journal.occupancy g.slots
  let d1 := d.modifyJournal fun j =>
    { j with nextSeq := j.nextSeq + 1, head := (j.head + 1) % g.slots, queue := j.queue.tail, writing := none }
  (d1.headNotices before (d1.journal.occupancy g.slots) g.slots).judgeClaims now

/-- The tail a write of slot index `t` gives, or its refusal (R134). -/
def Journal.tailTaken (j : Journal) (ring : Option Ring) (t : Nat) : Bool :=
  match ring with
  | some g => decide (t < g.slots) && decide ((t + g.slots - j.tail) % g.slots ≤ j.occupancy g.slots)
  | none => t == j.head

end Sys2Proof.Machine
end

