-- ==== Sys2Proof/Machine/Water.lean ====
section
/-!
DEFINITION. The Water Unit: meter samples and jumps, attribution of bay water, day totals, the reclaim quality machine,
availability, the quota stage and the quota day (spec/05_wash_water.md).
-/

namespace Sys2Proof.Machine

open Sys2Proof

def Depot.modifyWater (f : Water → Water) (d : Depot) : Depot := { d with water := f d.water }

/-! ## Availability (R94) -/

/-- Reclaim is available while the machine is in QUALIFIED and the level is at or above the floor. -/
def Water.judgedAvailable (w : Water) : Bool := w.quality == .qualified && decide (w.floor ≤ w.level)

/-- The judgement of availability; a change takes effect and raises RECLAIM_CHANGE. -/
def Depot.judgeAvailability (d : Depot) : Depot :=
  if d.water.judgedAvailable = d.water.available then d
  else (d.modifyWater fun w => { w with available := w.judgedAvailable }).raise .reclaimChange

/-! ## The quota stage (R106, R107) -/

/-- Conserve threshold (R106). -/
def Water.threshold (w : Water) : Nat := w.quota * w.percent / 100

/-- The stage that the intake gives. -/
def Water.judgedStage (w : Water) : Stage :=
  if w.quota = 0 ∨ w.totals.intake < w.threshold then .normal
  else if w.totals.intake < w.quota then .conserve
  else .exhausted

/-- An evaluation of the stage; a change takes effect and raises STAGE_CHANGE (R107). -/
def Depot.evaluateStage (d : Depot) : Depot :=
  if d.water.judgedStage = d.water.stage then d
  else (d.modifyWater fun w => { w with stage := w.judgedStage }).raise .stageChange

/-! ## The quality machine (R100 to R105) -/

/-- An entry into SAMPLING: count 0, and the window started with the setting in force (R102). -/
def Water.enterSampling (w : Water) : Water :=
  if w.window = 0 then { w with quality := .rejected, badSamples := 0, qualityTimer := none }
  else if w.window = 255 then { w with quality := .sampling, badSamples := 0, qualityTimer := none }
  else { w with quality := .sampling, badSamples := 0, qualityTimer := startTimer w.window }

/-- BACKWASH_START in any state (R100). -/
def Water.backwashStart (w : Water) : Water := { w with quality := .backwash, qualityTimer := none }

/-- BACKWASH_END (R101). -/
def Water.backwashEnd (w : Water) : Water :=
  if w.quality = .backwash then
    if w.settle = 0 then w.enterSampling else { w with quality := .settling, qualityTimer := startTimer w.settle }
  else w

/-- Expiry of the quality timer (R102). -/
def Water.qualityExpiry (w : Water) : Water :=
  match w.quality with
  | .settling => w.enterSampling
  | .sampling => { w with quality := .rejected, qualityTimer := none }
  | _ => { w with qualityTimer := none }

/-- A TURBIDITY sample: the reading is kept, then judged against the limit in force (R93, R103). -/
def Water.turbiditySample (value : Nat) (w : Water) : Water :=
  let w1 := { w with turbidity := value }
  match w.quality with
  | .sampling =>
    if value ≤ w.turbidityLimit then { w1 with quality := .qualified, qualityTimer := none }
    else { w1 with badSamples := satAdd Config.maxBadSamples w.badSamples 1 }
  | .qualified => if value ≤ w.turbidityLimit then w1 else w1.enterSampling
  | _ => w1

/-- RELEASE_RECLAIM is taken in REJECTED alone (R105). -/
def Depot.releaseReclaim (d : Depot) : Except RefusalReason Depot :=
  if d.water.quality = .rejected then .ok (d.modifyWater Water.enterSampling).judgeAvailability
  else .error .wrongState

/-! ## Attribution of bay water (R76, R96, R97) -/

/-- The kinds of water of the bay meters. -/
inductive WaterKind where
  | fresh | reclaim
  deriving DecidableEq, Repr

/-- An addition to the running line of a session. -/
def Session.modifyRunning (f : Line → Line) (s : Session) : Session :=
  { s with lines := s.lines.map fun l => if l.running then f l else l }

/-- The concession test: the running program is not fresh-required and reclaim is unavailable (R97). -/
def Depot.concedes (d : Depot) (b : Fin 8) : Bool :=
  match (d.session b).runningLine with
  | some l => !d.charge.programs[l.program].freshRequired && !d.water.available
  | none => false

/-- What a delta adds to a WASHING session's running line (R76). -/
def Line.draw (kind : WaterKind) (conceded : Bool) (litres : Nat) (l : Line) : Line :=
  match kind, conceded with
  | .reclaim, _ => { l with reclaim := satAdd Config.maxLitres l.reclaim litres }
  | .fresh, true => { l with conceded := satAdd Config.maxLitres l.conceded litres }
  | .fresh, false => { l with fresh := satAdd Config.maxLitres l.fresh litres }

/-- What a delta adds to the unused-program volumes of a session that is not WASHING (R76). -/
def Session.drawUnused (kind : WaterKind) (litres : Nat) (s : Session) : Session :=
  match kind with
  | .fresh => { s with unusedFresh := satAdd Config.maxLitres s.unusedFresh litres }
  | .reclaim => { s with unusedReclaim := satAdd Config.maxLitres s.unusedReclaim litres }

/-- A delta at bay `b`'s session (R76). -/
def Depot.drawSession (b : Fin 8) (kind : WaterKind) (litres : Nat) (d : Depot) : Depot :=
  let d1 :=
    match (d.session b).state with
    | .washing => d.modifySession b (Session.modifyRunning (Line.draw kind (d.concedes b) litres))
    | .vacant => d
    | _ => d.modifySession b (Session.drawUnused kind litres)
  if 1 ≤ litres ∧ (d.session b).state.active = true then d1.restartSilence b else d1

/-- The day totals and the bay's unattributed volume for a delta of a bay meter (R96). -/
def Water.drawTotals (b : Fin 8) (kind : WaterKind) (washing conceded : Bool) (litres : Nat) (w : Water) : Water :=
  let t := w.totals
  match kind with
  | .fresh =>
    { w with
      totals := { t with
        bayFresh := satAdd Config.max32 t.bayFresh litres
        concededFresh := if washing && conceded then satAdd Config.max32 t.concededFresh litres else t.concededFresh
        unattributedFresh :=
          if washing then t.unattributedFresh else satAdd Config.max32 t.unattributedFresh litres }
      unattributed := if washing then w.unattributed
        else modifyAt w.unattributed b fun u => { u with fresh := satAdd Config.maxLitres u.fresh litres } }
  | .reclaim =>
    { w with
      totals := { t with
        bayReclaim := satAdd Config.max32 t.bayReclaim litres
        unattributedReclaim :=
          if washing then t.unattributedReclaim else satAdd Config.max32 t.unattributedReclaim litres }
      unattributed := if washing then w.unattributed
        else modifyAt w.unattributed b fun u => { u with reclaim := satAdd Config.maxLitres u.reclaim litres } }

/-- An applied delta of a bay meter, as one event (R96). -/
def Depot.bayDelta (b : Fin 8) (kind : WaterKind) (litres : Nat) (d : Depot) : Depot :=
  let washing := (d.session b).state == .washing
  (d.drawSession b kind litres).modifyWater (Water.drawTotals b kind washing (d.concedes b) litres)

/-! ## Meters (R87 to R91, R98) -/

/-- An applied delta of a plant meter (R98). -/
def DayTotals.plantDelta (m litres : Nat) (t : DayTotals) : DayTotals :=
  match m with
  | 16 => { t with intake := satAdd Config.max32 t.intake litres }
  | 17 => { t with returned := satAdd Config.max32 t.returned litres }
  | 18 => { t with discharge := satAdd Config.max32 t.discharge litres }
  | 19 => { t with makeup := satAdd Config.max32 t.makeup litres }
  | _ => t

/-- Where an applied delta of meter `m` goes (R96, R98); meter 16 evaluates the stage (R106). -/
def Depot.applyDelta (m : Fin 20) (litres : Nat) (d : Depot) : Depot :=
  if m.val < 8 then d.bayDelta (Fin.ofNat 8 m.val) .fresh litres
  else if m.val < 16 then d.bayDelta (Fin.ofNat 8 (m.val - 8)) .reclaim litres
  else
    let d1 := d.modifyWater fun w => { w with totals := w.totals.plantDelta m.val litres }
    if m.val = 16 then d1.evaluateStage else d1

/-- A meter's delta, modulo 4,294,967,296 (R89). -/
def meterDelta (baseline value : Nat) : Nat := (value + 4294967296 - baseline) % 4294967296

/-- Whether a delta is a jump against the limit in force (R89, R92). -/
def Water.isJump (w : Water) (delta : Nat) : Bool := decide (0 < w.jumpLimit) && decide (w.jumpLimit < delta)

def Depot.modifyMeter (m : Fin 20) (f : Meter → Meter) (d : Depot) : Depot :=
  d.modifyWater fun w => { w with meters := modifyAt w.meters m f }

/-- A jump: the delta is discarded; unless a fault is pending, a METER_FAULT claim is placed and METER_FAULT raised
(R90). -/
def Depot.meterJump (now : Calendar) (m : Fin 20) (old value : Nat) (d : Depot) : Depot :=
  let pendingBefore := d.water.meters[m].faultPending
  let d1 := d.modifyMeter m fun x =>
    { x with baseline := some value, jumps := satAdd Config.max16 x.jumps 1, faultPending := true }
  if pendingBefore then d1 else (d1.raise .meterFault).placeClaim now (.meter m old value now)

/-- A METER sample (R88, R89). -/
def Depot.meterSample (now : Calendar) (m : Fin 20) (value : Nat) (d : Depot) : Depot :=
  match d.water.meters[m].baseline with
  | none => d.modifyMeter m fun x => { x with baseline := some value }
  | some old =>
    if d.water.isJump (meterDelta old value) then d.meterJump now m old value
    else (d.modifyMeter m fun x => { x with baseline := some value }).applyDelta m (meterDelta old value)

/-! ## Gauges and backwash records -/

/-- A LEVEL sample (R93). -/
def Depot.levelSample (value : Nat) (d : Depot) : Depot :=
  (d.modifyWater fun w => { w with level := value }).judgeAvailability

/-- A change of the quality machine leads to the judgement of availability (R100). -/
def Depot.qualityEvent (f : Water → Water) (d : Depot) : Depot := (d.modifyWater f).judgeAvailability

/-! ## The quota day (R108, R109) -/

def Claim.isQuotaDay : Claim → Bool
  | .quotaDay _ _ _ => true
  | _ => false

/-- The OVERRUN flag of a waiting QUOTA_DAY claim. -/
def Claim.overrun : Claim → Bool
  | .quotaDay _ _ overrun => overrun
  | _ => false

/-- The waiting QUOTA_DAY claim is overwritten in place, with OVERRUN set (R108). -/
def Claim.overwrite (totals : DayTotals) (stamp : Stamp) (c : Claim) : Claim :=
  if c.isQuotaDay then .quotaDay totals stamp true else c

/-- The claim of a quota-day boundary: a new one at the tail, or the waiting one overwritten (R108, steps 1 and 2). It is
not judged here. -/
def Depot.listQuotaDay (now : Calendar) (d : Depot) : Depot :=
  if d.journal.waiting.any Claim.isQuotaDay then
    d.modifyJournal fun j => { j with waiting := j.waiting.map (Claim.overwrite d.water.totals now) }
  else d.appendClaim (.quotaDay d.water.totals now false)

/-- The claim of a quota-day boundary; a new one is judged as it is placed (R108, R142). -/
def Depot.claimQuotaDay (now : Calendar) (d : Depot) : Depot :=
  if d.journal.waiting.any Claim.isQuotaDay then d.listQuotaDay now else (d.listQuotaDay now).judgeClaims now

/-- The new day: totals and unattributed volumes from 0, and an evaluation of the stage (R108, steps 3 to 5). -/
def Depot.startDay (d : Depot) : Depot :=
  (d.modifyWater fun w => { w with totals := {}, unattributed := Vector.replicate 8 {} }).evaluateStage

/-- A quota-day boundary, as one event (R108). -/
def Depot.quotaBoundary (now : Calendar) (d : Depot) : Depot := (d.claimQuotaDay now).startDay

end Sys2Proof.Machine
end

