-- ==== Sys2Proof/Machine/Identity.lean ====
section
/-!
DEFINITION. The Identity Unit: the directory slot, the probe, fills, the walker's fetches, snoops, restarts, preload and
directory window changes (spec/03_vehicle_identification.md).
-/

namespace Sys2Proof.Machine

open Sys2Proof

def Depot.modifyIdentity (f : Identity → Identity) (d : Depot) : Depot := { d with identity := f d.identity }

/-! ## The directory (R38, R39) -/

/-- A directory slot as the walker reads it (R204). -/
structure DirectorySlot where
  valid : Bool
  barred : Bool
  cls : Fin 4
  account : Fin 64
  tag : Tag
  deriving DecidableEq, Repr

/-- The fields of a slot's first two words: tag in bytes 0-5, account and class in byte 6, flags in byte 7. -/
def directorySlotOf (word0 word1 : Word) : DirectorySlot :=
  { valid := word1.getLsbD 24, barred := word1.getLsbD 25, cls := Fin.ofNat 4 (bits word1 22 2)
    account := Fin.ofNat 64 (bits word1 16 6), tag := tagOf word0 (bits word1 0 16) }

/-- Home slot of a tag: its three 16-bit parts combined by exclusive-or, modulo slotcount (R39). -/
def homeSlot (t : Tag) (slotcount : Nat) : Nat :=
  ((t.toNat % 2 ^ 16) ^^^ (t.toNat / 2 ^ 16 % 2 ^ 16) ^^^ (t.toNat / 2 ^ 32)) % slotcount

/-- The slot that a fetch examines at probe position `i`. -/
def Fetch.slotAt (f : Fetch) (i : Nat) : Nat := (f.home + i) % f.slotcount

/-- The slot that the fetch reads next, or is reading. -/
def Fetch.slot (f : Fetch) : Nat := f.slotAt f.position

/-- Byte address of the slot that the fetch reads. -/
def Fetch.slotAddr (f : Fetch) : Nat := f.base + 16 * f.slot

/-- Slot `s` is one of the four slots of the probe range (R50). -/
def Fetch.inRange (f : Fetch) (s : Nat) : Bool := (List.range 4).any fun i => f.slotAt i == s

/-! ## The cache (R40, R42, R49, R54) -/

/-- The cache entry of a slot found. -/
def cacheEntryOf (t : Tag) (slot : Nat) (x : DirectorySlot) : CacheEntry :=
  { valid := true, tag := t, slot := slot, account := x.account, cls := x.cls, barred := x.barred }

/-- The index of the valid entry that holds the tag. -/
def Identity.indexOf (i : Identity) (t : Tag) : Option (Fin 32) :=
  (List.finRange 32).find? fun n => i.cache[n].valid && i.cache[n].tag == t

/-- Next place of the victim pointer: from 31 it returns to P (R42). -/
def Identity.nextVictim (i : Identity) : Nat := if 31 ≤ i.victim then i.pinCount else i.victim + 1

/-- A lookup fill: in place where the tag is held, else at the victim pointer, which advances (R42). -/
def Identity.fill (t : Tag) (slot : Nat) (x : DirectorySlot) (i : Identity) : Identity :=
  match i.indexOf t with
  | some n => { i with cache := i.cache.set n (cacheEntryOf t slot x) n.isLt }
  | none =>
    { i with cache := modifyAt i.cache (Fin.ofNat 32 i.victim) fun _ => cacheEntryOf t slot x, victim := i.nextVictim }

/-- Invalidates the entries that a test selects; their other fields are kept (R49). -/
def Identity.invalidate (test : CacheEntry → Bool) (i : Identity) : Identity :=
  { i with cache := i.cache.map fun e => if test e then { e with valid := false } else e }

/-- Some pinned entry is valid and selected by a test. -/
def Identity.pinnedHit (test : CacheEntry → Bool) (i : Identity) : Bool :=
  (i.cache.toList.take i.pinCount).any fun e => e.valid && test e

/-- The fill of a preload's entry: every other valid entry with the tag is invalidated (R54). -/
def Identity.fillPinned (index : Nat) (t : Tag) (slot : Nat) (x : DirectorySlot) (i : Identity) : Identity :=
  let i1 := i.invalidate fun e => e.tag == t
  { i1 with cache := modifyAt i1.cache (Fin.ofNat 32 index) fun _ => cacheEntryOf t slot x }

/-! ## The end of a fetch (R48, R54) -/

/-- Results of a fetch. -/
inductive FetchResult where
  | hit (slot : Nat) (x : DirectorySlot)
  | miss | fault | busy
  deriving DecidableEq, Repr

/-- The hold reason of a fetch that found no vehicle (R56). -/
def FetchResult.reason : FetchResult → HoldReason
  | .hit _ _ => .unknown
  | .miss => .unknown
  | .fault => .directoryFault
  | .busy => .directoryBusy

/-- Offset of the preload second word, against which a later refusal is reported (R54, R193). -/
def preloadOffset : Nat := 0x290

/-- The end of the pending preload with a refusal (R54). -/
def Depot.refusePreload (reason : RefusalReason) (d : Depot) : Depot :=
  (d.modifyIdentity fun i => { i with preload := none }).refuse preloadOffset reason

/-- The end of a lookup fetch for bay `b` (R48): a hit fills the cache first; a withdrawn result is then dropped. -/
def Depot.endLookup (b : Fin 8) (f : Fetch) (result : FetchResult) (d : Depot) : Depot :=
  match result with
  | .hit slot x =>
    let d1 := d.modifyIdentity (Identity.fill f.tag slot x)
    if f.withdrawn then d1
    else d1.deliver b f.tag (some (x.account, x.cls)) (d1.evaluate b f.tag x.barred x.account)
  | other => if f.withdrawn then d else d.deliver b f.tag none (.held other.reason)

/-- The end of the preload's fetch (R54). -/
def Depot.endPreload (f : Fetch) (result : FetchResult) (d : Depot) : Depot :=
  match result, d.identity.preload with
  | .hit slot x, some pl =>
    if pl.index < d.identity.pinCount then
      d.modifyIdentity fun i => { i.fillPinned pl.index f.tag slot x with preload := none }
    else d.refusePreload .outOfRange
  | _, _ => d.refusePreload .notFound

/-- The end of a fetch. -/
def Depot.endFetch (f : Fetch) (result : FetchResult) (d : Depot) : Depot :=
  let d1 := d.modifyIdentity fun i => { i with fetch := none }
  match f.purpose with
  | .lookup b => d1.endLookup b f result
  | .preload => d1.endPreload f result

/-- The fetch back at home after a restart: position 0, no claim yet (R50). -/
def Fetch.restarted (f : Fetch) : Fetch :=
  { f with restarts := f.restarts + 1, restartPending := false, position := 0, reading := false, claimed := false }

/-- The fetch at its next probe position, with no claim yet (R47). -/
def Fetch.advanced (f : Fetch) : Fetch := { f with position := f.position + 1, reading := false, claimed := false }

/-- A restart takes effect: at the fourth the fetch ends as DIRECTORY_BUSY, else it returns to home (R50). -/
def Depot.restartFetch (f : Fetch) (d : Depot) : Depot :=
  if 3 ≤ f.restarts then d.endFetch { f with restarts := f.restarts + 1 } .busy
  else
    d.modifyIdentity fun i => { i with fetch := some f.restarted }

/-- A completed slot read with its parity outcome (R47). -/
def Depot.slotRead (f : Fetch) (failed : Bool) (x : DirectorySlot) (d : Depot) : Depot :=
  if failed then d.endFetch f .fault
  else if f.restartPending then d.restartFetch f
  else if x.valid && x.tag == f.tag then d.endFetch f (.hit f.slot x)
  else if !x.valid || decide (3 ≤ f.position) then d.endFetch f .miss
  else d.modifyIdentity fun i => { i with fetch := some f.advanced }

/-! ## Snoops (R49, R50) -/

/-- A snoop at the cache: entries that name the slot are invalidated, and PIN_DROPPED raised for a pinned one (R49). -/
def Depot.snoopCache (s : Nat) (d : Depot) : Depot :=
  let d1 := d.modifyIdentity (Identity.invalidate fun e => e.slot == s)
  if d.identity.pinnedHit (fun e => e.slot == s) then d1.raise .pinDropped else d1

/-- A snoop at the fetch in flight (R50). -/
def Depot.snoopFetch (s : Nat) (d : Depot) : Depot :=
  match d.identity.fetch with
  | none => d
  | some f =>
    if f.inRange s then
      if f.reading then d.modifyIdentity fun i => { i with fetch := some { f with restartPending := true } }
      else d.restartFetch f
    else d

/-- A snoop of slot `s`. -/
def Depot.snoop (s : Nat) (d : Depot) : Depot := (d.snoopCache s).snoopFetch s

/-! ## The start of a fetch (R45) -/

/-- A fetch as it begins, in a window of this base and slotcount. -/
def newFetch (purpose : Purpose) (t : Tag) (base slotcount : Nat) : Fetch :=
  { purpose := purpose, tag := t, base := base, slotcount := slotcount, home := homeSlot t slotcount }

/-- The idle walker's next work: the head of the lookup queue, otherwise the pending preload. -/
def Identity.nextWork (i : Identity) : Option (Purpose × Tag) :=
  match i.lookups, i.preload with
  | l :: _, _ => some (.lookup l.bay, l.tag)
  | [], some pl => some (.preload, pl.tag)
  | [], none => none

/-- The walker begins a fetch; a lookup leaves the queue. With no directory the fetch ends at once as a fault (R45). -/
def Depot.startFetch (window : Option (Nat × Nat)) (d : Depot) : Depot :=
  if d.identity.fetch.isSome || d.identity.discarded then d
  else
    match d.identity.nextWork with
    | none => d
    | some (purpose, t) =>
      let d1 := match purpose with
        | .lookup _ => d.modifyIdentity fun i => { i with lookups := i.lookups.tail }
        | .preload => d
      match window with
      | some (base, size) => d1.modifyIdentity fun i => { i with fetch := some (newFetch purpose t base (size / 16)) }
      | none => d1.endFetch (newFetch purpose t 0 0) .fault

/-! ## Directory window changes (R52) -/

/-- Step 1 of R52: the fetch in flight is abandoned, and a slot read in progress will be discarded. -/
def Depot.abandonFetch (d : Depot) : Depot :=
  match d.identity.fetch with
  | none => d
  | some f =>
    let d1 := d.modifyIdentity fun i => { i with fetch := none, discarded := i.discarded || f.reading }
    match f.purpose with
    | .lookup b => if f.withdrawn then d1 else d1.deliver b f.tag none (.held .directoryFault)
    | .preload => d1.refusePreload .notFound

/-- Step 2: every queued bay is given DIRECTORY_FAULT, and the queue is emptied. -/
def Depot.faultLookups (d : Depot) : Depot :=
  d.identity.lookups.foldl (fun x l => x.deliver l.bay l.tag none (.held .directoryFault))
    (d.modifyIdentity fun i => { i with lookups := [] })

/-- Step 3: a pending preload not yet walked ends as NOT_FOUND. -/
def Depot.dropPreload (d : Depot) : Depot :=
  if d.identity.preload.isSome then d.refusePreload .notFound else d

/-- Step 4: every cache entry is invalidated, and the victim pointer set to P. -/
def Depot.emptyCache (d : Depot) : Depot :=
  let d1 := d.modifyIdentity fun i => { i.invalidate (fun _ => true) with victim := i.pinCount }
  if d.identity.pinnedHit (fun _ => true) then d1.raise .pinDropped else d1

/-- The report of a changed directory window (R52). -/
def Depot.directoryChanged (d : Depot) : Depot := d.abandonFetch.faultLookups.dropPreload.emptyCache

/-! ## Settings and requests of the unit -/

/-- A taken write of the pin count: a change sets the victim pointer to the new P (R41). -/
def Identity.setPinCount (p : Nat) (i : Identity) : Identity :=
  if i.pinCount = p then i else { i with pinCount := p, victim := p }

/-- A preload commit (R53). -/
def Depot.commitPreload (second : Word) (d : Depot) : Except RefusalReason Depot :=
  if d.identity.pinCount ≤ bits second 16 5 then .error .outOfRange
  else if d.identity.preload.isSome then .error .busy
  else .ok (d.modifyIdentity fun i =>
    { i with preload := some { tag := tagOf i.stagedTagLow (bits second 0 16), index := bits second 16 5 } })

end Sys2Proof.Machine
end

