-- ==== Sys2Proof/Machine/Capture.lean ====
section
/-!
DEFINITION. Record Capture: assembly of slots, the checksum and range tests, rejects, and the records it delivers
(spec/02_record_capture.md).
-/

namespace Sys2Proof.Machine

open Sys2Proof

/-- An event at the units behind the bus, followed by the check for a record write that may begin (R136). -/
def Part.onDepot (f : Calendar → Depot → Depot) (p : Part) : Part :=
  { p with depot := (f p.calendar.now p.depot).startWrite p.path.ring }

/-! ## Assembly (R23 to R25) -/

/-- Merging a write into word `n` of an open assembly (R24). -/
def Assembly.merge (n : Fin 4) (data : Word) (be : Enables) (a : Assembly) : Assembly :=
  { a with words := modifyAt a.words n fun w => mergeBytes w data be, seen := modifyAt a.seen n fun m => m ||| be }

/-- A word is present when all four bytes of its mask are marked. -/
def Assembly.present (a : Assembly) (n : Fin 4) : Bool := a.seen[n] == 0xF#4

/-- The assembly that a write into `slot` joins: the open one of that slot, else a fresh one (R23). -/
def CaptureWindow.joined (w : CaptureWindow) (slot : Nat) : Assembly :=
  match w.assembly with
  | some a => if a.slot = slot then a else { slot := slot }
  | none => { slot := slot }

/-- The write into `slot` abandons an assembly open on another slot (R23). -/
def CaptureWindow.abandons (w : CaptureWindow) (slot : Nat) : Bool :=
  match w.assembly with
  | some a => a.slot != slot
  | none => false

/-! ## The checks (R26, R27) -/

/-- Byte `i` of a record. -/
def recordByte (r : Vector Word 4) (i : Fin 16) : Nat := (byteOf r[i.val / 4] (i.val % 4)).toNat

/-- The checksum test: the eight halfwords sum to 0 modulo 65536 (R26). -/
def checksumOk (r : Vector Word 4) : Bool :=
  (r.toList.map fun w => (halfOf w 0).toNat + (halfOf w 1).toNat).sum % 65536 == 0

/-- The range test of each kind (R27). -/
def inRange (kind : RecordKind) (minQuality : Nat) (r : Vector Word 4) : Bool :=
  let b0 := recordByte r 0
  let b1 := recordByte r 1
  let b2 := recordByte r 2
  match kind with
  | .identity => decide (b0 ≤ 7) && decide (b1 ≤ 15) && decide (minQuality ≤ b1)
  | .plant =>
    decide (1 ≤ b0) && decide (b0 ≤ 5) && (b0 != 1 || decide (b1 ≤ 19)) && (b0 != 2 || b1 == 0) && (b0 != 3 || b1 == 1)
  | .bay => decide (b0 ≤ 7) && decide (1 ≤ b1) && decide (b1 ≤ 4) && (b1 != 1 || decide (b2 ≤ 15))

/-! ## One received write (R22 to R30) -/

/-- What a received write leads to: the window's new state, whether a record was rejected, and the record taken. -/
structure Received where
  window : CaptureWindow
  rejected : Bool
  taken : Option (Vector Word 4)
  deriving DecidableEq, Repr

/-- The judgement of a completed slot (R25 to R27, R29, R30). -/
def CaptureWindow.judge (kind : RecordKind) (minQuality : Nat) (a : Assembly) (w : CaptureWindow) : Received :=
  if !(a.present 0 && a.present 1 && a.present 2) then
    ⟨{ w with assembly := none, torn := satAdd Config.max16 w.torn 1 }, true, none⟩
  else if !checksumOk a.words then ⟨{ w with assembly := none, check := satAdd Config.max16 w.check 1 }, true, none⟩
  else if !inRange kind minQuality a.words then
    ⟨{ w with assembly := none, range := satAdd Config.max16 w.range 1 }, true, none⟩
  else ⟨{ w with assembly := none, last := some a.slot }, false, some a.words⟩

/-- A write received into word `n` of a slot (R23 to R25). -/
def CaptureWindow.receive (kind : RecordKind) (minQuality slot : Nat) (n : Fin 4) (data : Word) (be : Enables)
    (w : CaptureWindow) : Received :=
  let a := (w.joined slot).merge n data be
  let w1 := if w.abandons slot then { w with torn := satAdd Config.max16 w.torn 1 } else w
  if a.present 3 then
    let r := w1.judge kind minQuality a
    { r with rejected := r.rejected || w.abandons slot }
  else ⟨{ w1 with assembly := some a }, w.abandons slot, none⟩

def Capture.window (c : Capture) : RecordKind → CaptureWindow
  | .identity => c.identity
  | .plant => c.plant
  | .bay => c.bay

def Capture.setWindow (kind : RecordKind) (w : CaptureWindow) (c : Capture) : Capture :=
  match kind with
  | .identity => { c with identity := w }
  | .plant => { c with plant := w }
  | .bay => { c with bay := w }

/-- A changed record window discards its assembly without a reject (R35). -/
def Capture.discard (kind : RecordKind) (c : Capture) : Capture :=
  c.setWindow kind { c.window kind with assembly := none }

/-! ## Delivery (R30 to R34) -/

/-- The identity record of the taken bytes, with its stamp. -/
def identityOf (r : Vector Word 4) (stamp : Stamp) : Parked :=
  { tag := tagOf r[1] (bits r[2] 0 16), quality := recordByte r 1, sequence := recordByte r 2, stamp := stamp }

/-- A plant record at the Water Unit (R33). -/
def Depot.plantRecord (r : Vector Word 4) (now : Calendar) (d : Depot) : Depot :=
  match recordByte r 0 with
  | 1 => d.meterSample now (Fin.ofNat 20 (recordByte r 1)) r[1].toNat
  | 2 => d.levelSample r[1].toNat
  | 3 => d.qualityEvent (Water.turbiditySample r[1].toNat)
  | 4 => d.qualityEvent Water.backwashStart
  | 5 => d.qualityEvent Water.backwashEnd
  | _ => d

/-- A bay record at the Bay Session Unit (R34, R73). -/
def Depot.bayRecord (r : Vector Word 4) (now : Calendar) (d : Depot) : Depot :=
  let b : Fin 8 := Fin.ofNat 8 (recordByte r 0)
  match recordByte r 1 with
  | 1 => d.programStart b (Fin.ofNat 16 (recordByte r 2)) now
  | 2 => d.programEnd b now
  | 3 => d.vehicleExit now b
  | 4 => d.bayAlive b
  | _ => d

/-- Delivery of a taken record to its owner, stamped with the calendar as it stands (R30, R31). -/
def Part.deliverRecord (kind : RecordKind) (r : Vector Word 4) (p : Part) : Part :=
  match kind with
  | .identity =>
    let b : Fin 8 := Fin.ofNat 8 (recordByte r 0)
    Part.onDepot (fun now d => d.identityRecord b (identityOf r now))
      { p with capture := { p.capture with
          lastIdentity := some { bay := b, quality := recordByte r 1, sequence := recordByte r 2 } } }
  | .plant => p.onDepot (Depot.plantRecord r)
  | .bay => p.onDepot (Depot.bayRecord r)

/-- A posted write into a record window: assembly, reject or delivery (R22 to R31). `offset` is from the window's
base. -/
def Part.recordWord (kind : RecordKind) (offset : Nat) (data : Word) (be : Enables) (p : Part) : Part :=
  let r := (p.capture.window kind).receive kind p.capture.minQuality (offset / 16) (Fin.ofNat 4 (offset / 4)) data be
  let p1 := { p with capture := p.capture.setWindow kind r.window }
  let p2 := if r.rejected then p1.raise .recordReject else p1
  match r.taken with
  | some words => p2.deliverRecord kind words
  | none => p2

end Sys2Proof.Machine
end

