-- ==== Sys2Proof/Machine/Operands.lean ====
section
/-!
DEFINITION. The items of the control window: their offsets (R187), who may write them (R188), and how the value of a
written word is formed from its enabled bytes (R189).
-/

namespace Sys2Proof.Machine

open Sys2Proof

/-- The items of the control window that a write can reach. -/
inductive Item where
  | windowFirst (e : Fin 8)
  | windowCommit (e : Fin 8)
  | setting (i : SettingItem)
  | pinCount
  | quota (q : QuotaItem)
  | reclaimFloor
  | refreshMode
  | noticeMask
  | decision
  | acknowledge
  | journalTail
  | preloadFirst
  | preloadCommit
  | calendarFirst
  | calendarCommit
  | accountStaged (a : Fin 64) (w : AccountWord)
  | accountCommit (a : Fin 64)
  deriving DecidableEq, Repr

/-- Offset of a setting that SETTING_WRITE writes (R187, R121, R122). -/
def SettingItem.offset : SettingItem → Nat
  | .minQuality => 0x140
  | .silenceLimit => 0x148
  | .holdLimit => 0x14C
  | .jumpLimit => 0x150
  | .settleTime => 0x158
  | .sampleWindow => 0x15C
  | .turbidityLimit => 0x160
  | .freshRate => 0x16C
  | .reclaimRate => 0x170
  | .abandonFee => 0x174
  | .bandDiscount b => 0x178 + 4 * b.val
  | .nearFull => 0x188
  | .periodSchedule => 0x190
  | .quotaHour => 0x194
  | .program p => 0x1C0 + 4 * p.val
  | .tariff w => 0x200 + 4 * w.val

/-- Offset of an item (R187). -/
def Item.offset : Item → Nat
  | .windowFirst e => 0x100 + 8 * e.val
  | .windowCommit e => 0x104 + 8 * e.val
  | .setting i => SettingItem.offset i
  | .pinCount => 0x144
  | .quota .volume => 0x164
  | .quota .percent => 0x168
  | .reclaimFloor => 0x154
  | .refreshMode => 0x18C
  | .noticeMask => 0x198
  | .decision => 0x280
  | .acknowledge => 0x284
  | .journalTail => 0x288
  | .preloadFirst => 0x28C
  | .preloadCommit => 0x290
  | .calendarFirst => 0x294
  | .calendarCommit => 0x298
  | .accountStaged a .word0 => 0x300 + 16 * a.val
  | .accountStaged a .word1 => 0x304 + 16 * a.val
  | .accountCommit a => 0x30C + 16 * a.val

/-- The general settings and requests, each at an offset of its own (R187). -/
def singleItems : List Item :=
  [.setting .minQuality, .pinCount, .setting .silenceLimit, .setting .holdLimit, .setting .jumpLimit, .reclaimFloor,
    .setting .settleTime, .setting .sampleWindow, .setting .turbidityLimit, .quota .volume, .quota .percent,
    .setting .freshRate, .setting .reclaimRate, .setting .abandonFee, .setting (.bandDiscount 0),
    .setting (.bandDiscount 1), .setting (.bandDiscount 2), .setting (.bandDiscount 3), .setting .nearFull,
    .refreshMode, .setting .periodSchedule, .setting .quotaHour, .noticeMask, .decision, .acknowledge, .journalTail,
    .preloadFirst, .preloadCommit, .calendarFirst, .calendarCommit]

/-- The item at a word's offset, none where there is none (R187). -/
def itemAt (o : Nat) : Option Item :=
  if 0x100 ≤ o ∧ o < 0x140 then
    let e : Fin 8 := Fin.ofNat 8 ((o - 0x100) / 8)
    some (if (o - 0x100) % 8 < 4 then .windowFirst e else .windowCommit e)
  else if 0x1C0 ≤ o ∧ o < 0x200 then some (.setting (.program (Fin.ofNat 16 ((o - 0x1C0) / 4))))
  else if 0x200 ≤ o ∧ o < 0x280 then some (.setting (.tariff (Fin.ofNat 32 ((o - 0x200) / 4))))
  else if 0x300 ≤ o ∧ o < 0x700 then
    let a : Fin 64 := Fin.ofNat 64 ((o - 0x300) / 16)
    match (o - 0x300) % 16 / 4 with
    | 0 => some (.accountStaged a .word0)
    | 1 => some (.accountStaged a .word1)
    | 2 => none
    | _ => some (.accountCommit a)
  else singleItems.find? fun i => i.offset == o

/-- The items that MAINT alone may write (R188). -/
def Item.maintOnly : Item → Bool
  | .windowFirst _ => true
  | .windowCommit _ => true
  | .setting _ => true
  | .pinCount => true
  | .quota _ => true
  | .reclaimFloor => true
  | .refreshMode => true
  | .noticeMask => true
  | .decision => false
  | .acknowledge => false
  | .journalTail => false
  | .preloadFirst => true
  | .preloadCommit => true
  | .calendarFirst => true
  | .calendarCommit => true
  | .accountStaged _ _ => false
  | .accountCommit _ => false

/-! ## Settings in force, as words (R187) -/

/-- The word of a tariff area: the even program's cell below, the next one's above (R122). -/
def Charge.tariffWord (c : Charge) (w : Fin 32) : Word :=
  word ((c.tariff[2 * w.val]).toNat + (c.tariff[2 * w.val + 1]).toNat * 2 ^ 16)

/-- The value in force of a setting of SETTING_WRITE, as a read of its offset returns it. -/
def Part.settingWord (p : Part) : SettingItem → Word
  | .minQuality => word p.capture.minQuality
  | .silenceLimit => word p.depot.sessions.silenceLimit
  | .holdLimit => word p.depot.sessions.holdLimit
  | .jumpLimit => word p.depot.water.jumpLimit
  | .settleTime => word p.depot.water.settle
  | .sampleWindow => word p.depot.water.window
  | .turbidityLimit => word p.depot.water.turbidityLimit
  | .freshRate => word p.depot.charge.freshRate
  | .reclaimRate => word p.depot.charge.reclaimRate
  | .abandonFee => word p.depot.charge.abandonFee
  | .bandDiscount b => word p.depot.charge.discounts[b]
  | .nearFull => word p.depot.journal.nearFull
  | .periodSchedule => p.calendar.schedule.toWord
  | .quotaHour => word p.calendar.quotaHour
  | .program i => p.depot.charge.programs[i].toWord
  | .tariff w => p.depot.charge.tariffWord w

/-- What supplies the bytes that are not enabled (R189): the staged word, what a read of the offset returns, or zero. -/
def Part.underWord (p : Part) : Item → Word
  | .windowFirst e => p.path.staged[e]
  | .windowCommit e => p.path.windows[e].second
  | .setting i => p.settingWord i
  | .pinCount => word p.depot.identity.pinCount
  | .quota .volume => word p.depot.water.quota
  | .quota .percent => word p.depot.water.percent
  | .reclaimFloor => word p.depot.water.floor
  | .refreshMode => word p.store.mode.code
  | .noticeMask => word p.depot.notices.mask.toNat
  | .decision => 0
  | .acknowledge => 0
  | .journalTail => 0
  | .preloadFirst => p.depot.identity.stagedTagLow
  | .preloadCommit => 0
  | .calendarFirst => p.calendar.stagedDate
  | .calendarCommit => 0
  | .accountStaged a .word0 => p.depot.charge.staged[a].word0
  | .accountStaged a .word1 => p.depot.charge.staged[a].word1
  | .accountCommit _ => 0

/-- The value of a written word (R189). -/
def Part.formed (p : Part) (i : Item) (data : Word) (be : Enables) : Word := mergeBytes (p.underWord i) data be

/-! ## The decision word (R194, R206) -/

/-- Decision codes (R203). -/
def admitCode : Nat := 1
def turnAwayCode : Nat := 2
def closeCode : Nat := 3
def releaseReclaimCode : Nat := 4

/-- A decision word with its decision field set. -/
def withDecision (code : Nat) (data : Word) : Word := word (data.toNat / 8 * 8 + code % 8)

/-- The bay that a decision word names. -/
def decisionBay (w : Word) : Fin 8 := Fin.ofNat 8 (bits w 8 3)

/-- The override of an ADMIT, where its present mark is set. -/
def decisionOverride (w : Word) : Override :=
  if w.getLsbD 16 then some (Fin.ofNat 64 (bits w 24 6), Fin.ofNat 4 (bits w 30 2)) else none

end Sys2Proof.Machine
end

