-- ==== Sys2Proof/Machine/Settings.lean ====
section
/-!
DEFINITION. The Settings and Notice Unit: what a control-window write does, item by item (spec/10, R188 to R195; spec/01,
R4 to R6; spec/06, R114, R115, R119; spec/08, R161, R162).
-/

namespace Sys2Proof.Machine

open Sys2Proof

/-! ## The window table (R4 to R6, R35, R52, R135) -/

/-- First address of the control window: the last 4 KiB of the MiB that the straps name (R2). -/
def PathUnit.controlBase (u : PathUnit) : Nat := u.straps.toNat * 0x100000 + 0xFF000

/-- Kind of an extent. -/
def extentKind (x : Option (WindowKind × Nat × Nat)) : Option WindowKind := x.map fun e => e.1

/-- Checks 1 to 3 of an enabled proposal for entry `e` (R5). -/
def PathUnit.judgeEntry (u : PathUnit) (e : Fin 8) (w : WindowEntry) : Option RefusalReason :=
  if w.k.toNat < 12 ∨ 20 < w.k.toNat ∨ windowKindOf w.kind = none ∨ w.baseAddr % w.size ≠ 0 then some .outOfRange
  else if w.baseAddr < u.controlBase + 4096 ∧ u.controlBase < w.baseAddr + w.size then some .overlapsControl
  else if windowKindOf w.kind ≠ some .guarded ∧
      (List.finRange 8).any (fun n => n != e && u.windows[n].enabled &&
        windowKindOf u.windows[n].kind == windowKindOf w.kind) = true then some .duplicateKind
  else none

/-- The Journal Unit's judgement of a changed extent (R135): the ring, the queue and the record write must be idle; the
queue is not looked at where the commit enables a window and none was enabled. -/
def Journal.windowBusy (j : Journal) (old new : Option (WindowKind × Nat × Nat)) : Bool :=
  if old = new then false
  else if extentKind old = some .journal then j.head != j.tail || !j.queue.isEmpty || j.writing.isSome
  else if extentKind new = some .journal then j.head != j.tail || j.writing.isSome
  else false

/-- What a window commit is refused for, if anything (R5). -/
def Part.windowRefusal (p : Part) (e : Fin 8) (w : WindowEntry) : Option RefusalReason :=
  match if w.enabled then p.path.judgeEntry e w else none with
  | some reason => some reason
  | none =>
    if p.depot.journal.windowBusy p.path.windows[e].extent w.extent then some .busy else none

/-- The report of a changed extent to the owner of the kind whose window it was (R6, R35, R52). -/
def Part.reportOld (old : Option (WindowKind × Nat × Nat)) (p : Part) : Part :=
  match extentKind old with
  | some .identity => { p with capture := p.capture.discard .identity }
  | some .plant => { p with capture := p.capture.discard .plant }
  | some .bay => { p with capture := p.capture.discard .bay }
  | some .directory => { p with depot := p.depot.directoryChanged }
  | _ => p

/-- A changed journal window sets head and tail to 0 (R135). -/
def Part.reportJournal (old new : Option (WindowKind × Nat × Nat)) (p : Part) : Part :=
  if extentKind old = some .journal ∨ extentKind new = some .journal then
    { p with depot := p.depot.modifyJournal fun j => { j with head := 0, tail := 0 } }
  else p

/-- A taken commit: the entry is in force, owners are told of a changed extent, and a record write may begin (R6,
R136). -/
def Part.takeWindow (e : Fin 8) (w : WindowEntry) (p : Part) : Part :=
  let old := p.path.windows[e].extent
  let p1 := { p with path := { p.path with windows := p.path.windows.set e w e.isLt } }
  if old = w.extent then p1
  else ((p1.reportOld old).reportJournal old w.extent).onDepot fun _ d => d

/-! ## Settings (R190) -/

def Part.modifyWater (f : Water → Water) (p : Part) : Part := { p with depot := p.depot.modifyWater f }

def Part.modifyCharge (f : Charge → Charge) (p : Part) : Part :=
  { p with depot := { p.depot with charge := f p.depot.charge } }

/-- A setting written with a value, none where the value is outside its range (R187 and the rules it names). -/
def Part.setSetting (i : SettingItem) (v : Word) (p : Part) : Option Part :=
  let n := v.toNat
  match i with
  | .minQuality => if n ≤ 15 then some { p with capture := { p.capture with minQuality := n } } else none
  | .silenceLimit =>
    if 10 ≤ n ∧ n ≤ 600 then
      some { p with depot := { p.depot with sessions := { p.depot.sessions with silenceLimit := n } } } else none
  | .holdLimit =>
    if 10 ≤ n ∧ n ≤ 1800 then
      some { p with depot := { p.depot with sessions := { p.depot.sessions with holdLimit := n } } } else none
  | .jumpLimit => some (p.modifyWater fun w => { w with jumpLimit := n })
  | .settleTime => if n ≤ 255 then some (p.modifyWater fun w => { w with settle := n }) else none
  | .sampleWindow => if n ≤ 255 then some (p.modifyWater fun w => { w with window := n }) else none
  | .turbidityLimit => if n ≤ 65535 then some (p.modifyWater fun w => { w with turbidityLimit := n }) else none
  | .freshRate => if n ≤ 65535 then some (p.modifyCharge fun c => { c with freshRate := n }) else none
  | .reclaimRate => if n ≤ 65535 then some (p.modifyCharge fun c => { c with reclaimRate := n }) else none
  | .abandonFee => some (p.modifyCharge fun c => { c with abandonFee := n })
  | .bandDiscount b =>
    if n ≤ 50 then some (p.modifyCharge fun c => { c with discounts := c.discounts.set b n b.isLt }) else none
  | .nearFull =>
    if 10 ≤ n ∧ n ≤ 99 then some { p with depot := p.depot.modifyJournal fun j => { j with nearFull := n } } else none
  | .periodSchedule =>
    if (scheduleOf v).valid then some { p with calendar := { p.calendar with schedule := scheduleOf v } } else none
  | .quotaHour => if n ≤ 23 then some { p with calendar := { p.calendar with quotaHour := n } } else none
  | .program i => some (p.modifyCharge fun c => { c with programs := c.programs.set i (programOf v) i.isLt })
  | .tariff w =>
    some (p.modifyCharge fun c =>
      { c with tariff := (c.tariff.set (2 * w.val) (halfOf v 0)).set (2 * w.val + 1) (halfOf v 1) })

/-- A write of the daily quota or of the conserve percent, followed by an evaluation of the stage (R106). -/
def Part.setQuota (q : QuotaItem) (v : Word) (p : Part) : Option Part :=
  match q with
  | .volume => some { p with depot := (p.depot.modifyWater fun w => { w with quota := v.toNat }).evaluateStage }
  | .percent =>
    if 50 ≤ v.toNat ∧ v.toNat ≤ 99 then
      some { p with depot := (p.depot.modifyWater fun w => { w with percent := v.toNat }).evaluateStage }
    else none

/-- The refresh mode of a value (R175, R203). -/
def refreshModeOf (v : Word) : Option RefreshMode :=
  match v.toNat with
  | 0 => some .scheduled
  | 1 => some .opportune
  | _ => none

/-! ## Accounts (R114, R115, R119) -/

/-- The three changes that relax the credit hold (R119). -/
def relaxes (old new : Account) : Bool :=
  (old.manualHold && !new.manualHold) || (decide (0 < old.limit) && new.limit == 0) ||
    (decide (0 < old.limit) && decide (old.limit < new.limit))

/-- An account commit (R115). -/
def Depot.commitAccount (a : Fin 64) (d : Depot) : Except RefusalReason Depot :=
  let old := d.account a
  let new := old.propose d.charge.staged[a]
  if new.valid = false ∧ 0 < old.openCount then .error .inUse
  else
    let d1 := d.modifyAccount a fun _ => new
    .ok (if old.valid && relaxes old new then d1.reevaluateAll a else d1)

/-- A staged account word (R114). -/
def StagedAccount.write (w : AccountWord) (v : Word) (s : StagedAccount) : StagedAccount :=
  match w with
  | .word0 => { s with word0 := v }
  | .word1 => { s with word1 := v }

/-! ## The calendar set request (R161, R162) -/

/-- Some session is in ADMITTED, WASHING or CLOSING. -/
def Depot.moneyInMotion (d : Depot) : Bool :=
  allBays.any fun b => (d.session b).state.active || (d.session b).state == .closing

/-- Why a calendar set commit is refused, if it is (R161). -/
def Part.calendarRefusal (p : Part) (c : Calendar) : Option RefusalReason :=
  if !c.proposable then some .outOfRange
  else if p.depot.moneyInMotion then some .wrongState
  else if p.depot.journal.sweep.isSome || p.depot.journal.boundaryPending then some .wrongState
  else none

/-! ## Decisions (R194) -/

/-- A decision word judged by its owner. -/
def Part.decide (w : Word) (p : Part) : Except RefusalReason Part :=
  let taken (r : Except RefusalReason Depot) : Except RefusalReason Part :=
    r.map fun d => { p with depot := d.startWrite p.path.ring }
  match bits w 0 3 with
  | 1 => taken (p.depot.decideAdmit p.calendar.now (decisionBay w) (decisionOverride w))
  | 2 => taken (p.depot.decideTurnAway p.calendar.now (decisionBay w))
  | 3 => taken (p.depot.decideClose p.calendar.now (decisionBay w))
  | 4 => taken p.depot.releaseReclaim
  | _ => .error .outOfRange

/-! ## The journal tail word (R134) -/

/-- A tail write: taken within the occupied span, and a record write may then begin (R134, R136). -/
def Part.writeTail (t : Nat) (p : Part) : Except RefusalReason Part :=
  if p.depot.journal.tailTaken p.path.ring t then
    .ok (p.onDepot fun _ d => d.modifyJournal fun j => { j with tail := t })
  else .error .outOfRange

/-! ## The items (R188 to R192) -/

/-- A refusal with OUT_OF_RANGE where a setting's owner took nothing. -/
def orOutOfRange (x : Option Part) : Except RefusalReason Part :=
  match x with
  | some p => .ok p
  | none => .error .outOfRange

/-- An item that its requester may write, with the formed value, at its owner. -/
def Part.takeItem (i : Item) (v : Word) (p : Part) : Except RefusalReason Part :=
  match i with
  | .windowFirst e => .ok { p with path := { p.path with staged := p.path.staged.set e v e.isLt } }
  | .windowCommit e =>
    match p.windowRefusal e (windowEntryOf p.path.staged[e] v) with
    | some reason => .error reason
    | none => .ok (p.takeWindow e (windowEntryOf p.path.staged[e] v))
  | .setting i => orOutOfRange (p.setSetting i v)
  | .pinCount =>
    if v.toNat ≤ 24 then .ok { p with depot := p.depot.modifyIdentity (Identity.setPinCount v.toNat) }
    else .error .outOfRange
  | .quota q => orOutOfRange (p.setQuota q v)
  | .reclaimFloor => .ok { p with depot := (p.depot.modifyWater fun w => { w with floor := v.toNat }).judgeAvailability }
  | .refreshMode =>
    match refreshModeOf v with
    | some m => .ok { p with store := { p.store with mode := m, opportune := false } }
    | none => .error .outOfRange
  | .noticeMask =>
    .ok { p with depot := { p.depot with notices := { p.depot.notices with mask := BitVec.ofNat 16 v.toNat } } }
  | .decision => p.decide v
  | .acknowledge => .ok (p.acknowledge (BitVec.ofNat 16 v.toNat))
  | .journalTail => p.writeTail (bits v 0 16)
  | .preloadFirst => .ok { p with depot := p.depot.modifyIdentity fun i => { i with stagedTagLow := v } }
  | .preloadCommit => (p.depot.commitPreload v).map fun d => { p with depot := d }
  | .calendarFirst => .ok { p with calendar := { p.calendar with stagedDate := v } }
  | .calendarCommit =>
    match p.calendarRefusal (proposedCalendar p.calendar.stagedDate v) with
    | some reason => .error reason
    | none => .ok { p with calendar := { p.calendar with now := proposedCalendar p.calendar.stagedDate v } }
  | .accountStaged a w =>
    .ok (p.modifyCharge fun c => { c with staged := modifyAt c.staged a (StagedAccount.write w v) })
  | .accountCommit a => (p.depot.commitAccount a).map fun d => { p with depot := d }

/-- A control-window write at the Settings and Notice Unit: taken as nothing where there is no item, refused with
NOT_PERMITTED where the item is MAINT's alone, else judged by the item's owner; a refusal is reported with the word's
offset (R188, R195). -/
def Part.controlWord (offset : Nat) (data : Word) (be : Enables) (req : Requester) (p : Part) : Part :=
  match itemAt offset with
  | none => p
  | some i =>
    if i.maintOnly = true ∧ req ≠ .maint then p.refuse offset .notPermitted
    else
      match p.takeItem i (p.formed i data be) with
      | .ok q => q
      | .error reason => p.refuse offset reason

end Sys2Proof.Machine
end

