-- ==== Sys2Proof/Machine/Views.lean ====
section
/-!
DEFINITION. What reads of the control window and of the grant window return (spec/10, R187, R192, R199; spec/11, R206,
R207; spec/04, R83).
-/

namespace Sys2Proof.Machine

open Sys2Proof

/-! ## The grant word (R83, R206) -/

/-- The grant word of bay `b`. -/
def Part.grantWord (p : Part) (b : Fin 8) : Word :=
  let s := p.depot.session b
  let w := p.depot.water
  word (field s.state.code 3 0 + field (holdCode s.hold) 3 3 + field ((s.account.map fun r => r.cls.val).getD 0) 2 6 +
    field ((s.runningLine.map fun l => l.program.val).getD 0) 4 8 + flag s.runningLine.isSome 12 +
    field s.lines.length 3 13 + flag (w.stage == .normal) 16 + flag (w.stage != .exhausted) 17 + flag w.available 18 +
    field w.stage.code 2 19 + field w.quality.code 3 21 + flag p.calendar.now.isSet 24)

/-- A read of a GRANT window at an offset from its base: bay b's word at 4 × b, zero elsewhere (R19). -/
def Part.readGrant (p : Part) (offset : Nat) : Word :=
  if offset / 4 < 8 then p.grantWord (Fin.ofNat 8 (offset / 4)) else 0

/-! ## Latches and status views (R199, R207) -/

def refusalWord (r : Option RefusalRecord) : Word :=
  match r with
  | some x => word (flag true 0 + flag x.more 1 + field x.reason.code 4 4 + field x.offset 12 16)
  | none => 0

def blockWord (r : Option BlockRecord) : Word :=
  match r with
  | some x => word (flag true 0 + flag x.more 1 + field x.dir.code 1 2 + field (Requester.code x.req) 2 4)
  | none => 0

def blockAddrWord (r : Option BlockRecord) : Word :=
  match r with
  | some x => word x.addr.toNat
  | none => 0

/-- One record window's four words of the capture view. -/
def captureWord (w : CaptureWindow) (last : Option LastIdentity) (i : Nat) : Word :=
  match i with
  | 0 => word (field w.torn 16 0 + field w.check 16 16)
  | 1 =>
    match w.assembly with
    | some a =>
      word (field w.range 16 0 + flag true 16 + flag (a.present 0) 20 + flag (a.present 1) 21 + flag (a.present 2) 22 +
        flag (a.present 3) 23 + flag w.last.isSome 24)
    | none => word (field w.range 16 0 + flag w.last.isSome 24)
  | 2 => word (field ((w.assembly.map fun a => a.slot).getD 0) 16 0 + field (w.last.getD 0) 16 16)
  | _ =>
    match last with
    | some l => word (field l.bay.val 3 0 + field l.quality 4 8 + field l.sequence 8 16)
    | none => 0

/-- A list of small fields, entry `i` in `width` bits from bit `width × i`. -/
def packed (width : Nat) (xs : List Nat) : Nat := (xs.zipIdx.map fun x => field x.1 width (width * x.2)).sum

/-- The identity status view, by its word from 0x060. -/
def Identity.statusWord (u : Identity) (i : Nat) : Word :=
  match i with
  | 0 => word (field u.pinCount 5 0 + field u.victim 5 8 + field u.lookups.length 4 16)
  | 1 => word (packed 4 (u.lookups.map fun l => l.bay.val))
  | 2 =>
    match u.fetch with
    | some f =>
      word (flag true 0 +
        (match f.purpose with
         | .lookup b => field b.val 3 4
         | .preload => flag true 1) +
        field f.position 2 8 + field f.restarts 2 12 + flag f.reading 16)
    | none => 0
  | 3 =>
    match u.preload with
    | some pl => word (flag true 0 + field pl.index 5 16)
    | none => 0
  | 4 =>
    match u.preload with
    | some pl => tagLow pl.tag
    | none => 0
  | 5 =>
    match u.preload with
    | some pl => word (tagHigh pl.tag)
    | none => 0
  | _ => 0

/-- A claim as one byte of the waiting list view. -/
def Claim.viewByte (c : Claim) : Nat := field c.claimant 5 0 + field c.size 3 5

/-- The journal status view, by its word from 0x0A0. -/
def Journal.statusWord (j : Journal) (ring : Option Ring) (i : Nat) : Word :=
  match i with
  | 0 => word (field j.head 16 0 + field j.tail 16 16)
  | 1 =>
    match ring with
    | some g => word (field g.slots 16 0 + field (j.occupancy g.slots) 16 16)
    | none => 0
  | 2 =>
    word (flag j.writing.isSome 0 + field j.queue.length 4 4 + field j.waiting.length 5 8 + flag j.sweep.isSome 16 +
      field ((j.sweep.map Fin.val).getD 0) 6 20 + flag j.boundaryPending 28)
  | 3 => j.nextSeq
  | 4 => word j.period.toNat
  | 5 => word (packed 4 (j.queue.map fun r => r.composed.body.code))
  | n =>
    if n < 14 then word (packed 8 (((j.waiting.drop (4 * (n - 6))).take 4).map Claim.viewByte)) else 0

/-- The store view, by its word from 0x0E0. -/
def StoreUnit.statusWord (u : StoreUnit) (i : Nat) : Word :=
  match i with
  | 0 => word u.run.code
  | 1 => word (field u.clearing 23 0)
  | 2 => word (field u.debt 4 0 + field u.row 12 8 + flag (u.mode == .opportune) 24 + flag u.opportune 25)
  | 3 =>
    match u.latch with
    | some x =>
      word (flag true 0 + flag x.more 1 + field x.halves.code 2 4 + field x.kind.code 2 8 +
        field ((x.req.map Requester.code).getD 0) 2 12)
    | none => 0
  | 4 =>
    match u.latch with
    | some x => word x.addr.toNat
    | none => 0
  | _ => 0

/-- The status views, offsets 0x000 to 0x0FF. The date view word is the snapshot's, which the read has taken before
(R166). -/
def Part.statusView (p : Part) (o : Nat) : Word :=
  if o < 0x20 then
    match o / 4 with
    | 0 => word (field p.path.straps.toNat 4 0 + field 0xA240 16 16)
    | 1 => word p.depot.notices.pending.toNat
    | 2 => word (p.depot.notices.unmasked.toNat + flag p.depot.notices.line 31)
    | 3 => refusalWord p.depot.notices.refusal
    | 4 => blockWord p.path.blockLatch
    | 5 => blockAddrWord p.path.blockLatch
    | 6 => p.calendar.snapshot.dateWord
    | _ => p.calendar.snapshot.timeWord
  else if o < 0x30 then captureWord p.capture.identity p.capture.lastIdentity ((o - 0x20) / 4)
  else if o < 0x40 then captureWord p.capture.plant none ((o - 0x30) / 4)
  else if o < 0x50 then captureWord p.capture.bay none ((o - 0x40) / 4)
  else if o < 0x60 then 0
  else if o < 0xA0 then p.depot.identity.statusWord ((o - 0x60) / 4)
  else if o < 0xE0 then p.depot.journal.statusWord p.path.ring ((o - 0xA0) / 4)
  else p.store.statusWord ((o - 0xE0) / 4)

/-! ## Session views (R84, R207) -/

/-- One program line, by its word. -/
def Line.viewWord (l : Line) (i : Nat) : Word :=
  match i with
  | 0 => l.start.dateWord
  | 1 => l.start.timeWord
  | 2 => stampDate l.stop
  | 3 => stampTime l.stop
  | 4 => word (field l.fresh 24 0 + field l.program.val 4 24)
  | 5 =>
    word (field l.conceded 24 0 +
      (match l.outcome with
       | .run => 0
       | .refused r => flag true 24 + field r.code 2 25) +
      flag l.running 28)
  | _ => word (field l.reclaim 24 0)

/-- Record count of the claim that bay `b` has waiting. -/
def Journal.bayClaim (j : Journal) (b : Fin 8) : Option Nat :=
  (j.waiting.find? fun c => c.claimant == b.val).map Claim.size

/-- The session view of bay `b`, by its word. -/
def Depot.sessionView (d : Depot) (b : Fin 8) (i : Nat) : Word :=
  let y := d.bay b
  let s := y.session
  match i with
  | 0 =>
    word (field s.state.code 3 0 + field (holdCode s.hold) 3 4 + field ((s.closeReason.map CloseReason.code).getD 0) 3 8 +
      field ((s.account.map fun r => r.cls.val).getD 0) 2 12 + field ((s.account.map fun r => r.index.val).getD 0) 6 16 +
      flag ((s.account.map fun r => r.bound).getD false) 22 + flag s.operatorAdmitted 24 + flag s.abandoned 25 +
      field s.lines.length 3 28)
  | 1 => tagLow s.tag
  | 2 => word (tagHigh s.tag + field s.dropped 16 16)
  | 3 => stampDate s.start
  | 4 => stampTime s.start
  | 5 => word (field s.unusedFresh 24 0)
  | 6 => word (field s.unusedReclaim 24 0)
  | 7 => word (field (y.silence.getD 0) 16 0 + field (y.hold.getD 0) 16 16)
  | 8 =>
    word (flag (d.journal.bayClaim b).isSome 0 + field ((d.journal.bayClaim b).getD 0) 3 4 + flag y.parked.isSome 8 +
      field ((y.parked.map fun r => r.quality).getD 0) 4 16 + field ((y.parked.map fun r => r.sequence).getD 0) 8 24)
  | 9 => (y.parked.map fun r => tagLow r.tag).getD 0
  | 10 => word ((y.parked.map fun r => tagHigh r.tag).getD 0)
  | 11 => stampDate (y.parked.map fun r => r.stamp)
  | 12 => stampTime (y.parked.map fun r => r.stamp)
  | 13 => word (field y.conflicting 16 0 + field y.parkOverwrite 16 16)
  | n =>
    if n < 42 then
      match s.lines[(n - 14) / 7]? with
      | some l => l.viewWord ((n - 14) % 7)
      | none => 0
    else 0

/-! ## Cache view and water views (R58, R110, R207) -/

/-- Cache entry `n`, by its word. -/
def Identity.cacheView (u : Identity) (n : Fin 32) (i : Nat) : Word :=
  let e := u.cache[n]
  match i with
  | 0 => tagLow e.tag
  | 1 => word (tagHigh e.tag)
  | 2 => word (field e.slot 16 0)
  | _ =>
    word (field e.account.val 6 0 + field e.cls.val 2 8 + flag e.barred 16 + flag (decide (n.val < u.pinCount)) 17 +
      flag e.valid 31)

/-- The last turbidity field: the reading, or a free value for a reading that sixteen bits cannot hold (log 10). -/
def turbidityField (v : Nat) : Nat := if v ≤ 65535 then v else (Config.wideTurbidity v).toNat

/-- The day totals in the order of R99. -/
def DayTotals.toList (t : DayTotals) : List Nat :=
  [t.intake, t.makeup, t.returned, t.discharge, t.bayFresh, t.bayReclaim, t.concededFresh, t.unattributedFresh,
    t.unattributedReclaim]

/-- The meter and water views, by their word from 0xE80. -/
def Depot.waterView (d : Depot) (i : Nat) : Word :=
  let w := d.water
  if i < 40 then
    let m := w.meters[(Fin.ofNat 20 (i / 2) : Fin 20)]
    if i % 2 = 0 then word (m.baseline.getD 0)
    else word (flag m.baseline.isSome 0 + flag m.faultPending 1 + field m.jumps 16 16)
  else if i = 40 then word w.level
  else if i = 41 then word (turbidityField w.turbidity)
  else if i = 42 then
    word (field w.quality.code 3 0 + flag w.available 4 + field w.stage.code 2 8 + field w.badSamples 8 16 +
      flag (d.journal.waiting.any Claim.isQuotaDay) 28 + flag (d.journal.waiting.any Claim.overrun) 29)
  else if i = 43 then word (field (w.qualityTimer.getD 0) 16 0)
  else if i < 53 then word (w.totals.toList.getD (i - 44) 0)
  else if i < 69 then
    let u := w.unattributed[(Fin.ofNat 8 ((i - 53) / 2) : Fin 8)]
    if (i - 53) % 2 = 0 then word (field u.fresh 24 0) else word (field u.reclaim 24 0)
  else 0

/-! ## A read of the control window (R18, R187, R192) -/

/-- The word at an offset of the control window. -/
def Part.readControl (p : Part) (o : Nat) : Word :=
  match itemAt o with
  | some (.windowFirst e) => p.path.windows[e].first
  | some (.windowCommit e) => p.path.windows[e].second
  | some (.accountStaged a .word0) => (p.depot.account a).word0
  | some (.accountStaged a .word1) => word (p.depot.account a).limit
  | some (.accountCommit a) => word (field (p.depot.account a).count 16 0 + field (p.depot.account a).period.toNat 16 16)
  | some .acknowledge => word p.depot.notices.pending.toNat
  | some .journalTail => word p.depot.journal.tail
  | some i => p.underWord i
  | none =>
    if o < 0x100 then p.statusView o
    else if 0x300 ≤ o ∧ o < 0x700 then word (p.depot.account (Fin.ofNat 64 ((o - 0x300) / 16))).balance
    else if 0x700 ≤ o ∧ o < 0xC80 then
      p.depot.sessionView (Fin.ofNat 8 ((o - 0x700) / 176)) ((o - 0x700) % 176 / 4)
    else if 0xC80 ≤ o ∧ o < 0xE80 then
      p.depot.identity.cacheView (Fin.ofNat 32 ((o - 0xC80) / 16)) ((o - 0xC80) % 16 / 4)
    else if 0xE80 ≤ o then p.depot.waterView ((o - 0xE80) / 4)
    else 0

end Sys2Proof.Machine
end

