-- ==== Sys2Proof/Machine/Arbiter.lean ====
section
/-!
DEFINITION. The Store Unit's arbiter, refresh and clearing: which claims wait, which one the free port is given to, and
what the end of each of the Store Unit's own grants does (spec/09, R171 to R175, R181; spec/03, R46).
-/

namespace Sys2Proof.Machine

open Sys2Proof

/-! ## Claims that wait (R172) -/

/-- SCHEDULED while the run state is CLEARING, the mode in force once it is RUNNING (R175). -/
def StoreUnit.effectiveMode (u : StoreUnit) : RefreshMode :=
  match u.run with
  | .clearing => .scheduled
  | .running => u.mode

/-- Rank 1: urgent refresh. -/
def StoreUnit.urgentWaits (u : StoreUnit) : Bool := decide (Config.urgentDebt ≤ u.debt)

/-- Rank 6: scheduled refresh, at a debt of 1 to 3. -/
def StoreUnit.scheduledWaits (u : StoreUnit) : Bool :=
  decide (1 ≤ u.debt) && decide (u.debt < Config.urgentDebt) && u.effectiveMode == .scheduled

/-- Rank 9: opportune refresh, at a debt of 0 to 3. -/
def StoreUnit.opportuneWaits (u : StoreUnit) : Bool :=
  decide (u.debt < Config.urgentDebt) && u.effectiveMode == .opportune && u.opportune

/-- Rank 3: the posted write queue is full. -/
def PathUnit.full (u : PathUnit) : Bool := decide (Config.postedDepth ≤ u.posted.length)

/-- Rank 4: an upstream read has claimed the port. -/
def PathUnit.readWaits (u : PathUnit) : Bool :=
  match u.held with
  | some (.claimed _ _) => true
  | _ => false

/-- Rank 7: the slot that a fetch has claimed. -/
def Identity.slotClaim (i : Identity) : Option Nat :=
  match i.fetch with
  | some f => if f.claimed then some f.slotAddr else none
  | none => none

/-- Some posted entry lies in the slot that a fetch reads next (R46). -/
def PathUnit.holdsSlot (u : PathUnit) (slotAddr : Nat) : Bool :=
  u.posted.any fun e => decide (slotAddr ≤ e.addr.toNat) && decide (e.addr.toNat < slotAddr + 16)

/-- The walker's claim stands while a fetch has no read in progress and no posted entry lies in its slot (R46). -/
def Part.settleWalker (p : Part) : Part :=
  { p with depot := p.depot.modifyIdentity fun i =>
      { i with fetch := i.fetch.map fun f => { f with claimed := !f.reading && !p.path.holdsSlot f.slotAddr } } }

/-- Ranks 5 to 9. -/
def Part.lowerClaim (p : Part) : Option Grant :=
  if !p.path.posted.isEmpty then some .drain
  else if p.store.scheduledWaits then some .refresh
  else
    match p.depot.identity.slotClaim with
    | some a => some (.walker a)
    | none =>
      if p.depot.journal.writing.isSome then some .journal
      else if p.store.opportuneWaits then some .refresh
      else none

/-- The first waiting claim in the order of R172. -/
def Part.bestClaim (p : Part) : Option Grant :=
  if p.store.urgentWaits then some .refresh
  else if p.store.run = .clearing then some .clearing
  else if p.path.full then some .drain
  else if p.path.readWaits then some .upstreamRead
  else p.lowerClaim

/-! ## Grants (R171) -/

/-- A fetch whose claim is granted: read in progress is set (R46). -/
def Fetch.granted (f : Fetch) : Fetch := { f with reading := true, claimed := false }

/-- The port is given to a claimant. -/
def Part.give (g : Grant) (p : Part) : Part :=
  let p1 := { p with store := { p.store with grant := some g } }
  match g with
  | .walker _ => { p1 with depot := p1.depot.modifyIdentity fun i => { i with fetch := i.fetch.map Fetch.granted } }
  | _ => p1

/-- A free port is given to the best waiting claim (R171, R172). -/
def Part.arbitrate (p : Part) : Part :=
  let q := p.settleWalker
  match q.store.grant, q.bestClaim with
  | none, some g => q.give g
  | _, _ => q

/-- A grant ends: the port is free (R171). -/
def Part.endGrant (p : Part) : Part := { p with store := { p.store with grant := none } }

/-- The end of a grant that served an upstream read or a posted drain: the opportune request is set when no other claim
waits and the effective mode is OPPORTUNE (R175). -/
def Part.requestRefresh (p : Part) : Part :=
  if p.settleWalker.bestClaim = none ∧ p.store.effectiveMode = .opportune then
    { p with store := { p.store with opportune := true } }
  else p

/-! ## Refresh (R173, R174) -/

/-- The refresh interval expires: the debt rises by one, or stays at 8 with REFRESH_LATE (R173). -/
def Part.refreshExpiry (p : Part) : Part :=
  if p.store.debt < Config.maxDebt then { p with store := { p.store with debt := p.store.debt + 1 } }
  else p.raise .refreshLate

/-- A row refresh ends (R174). -/
def StoreUnit.refreshEnd (u : StoreUnit) : StoreUnit :=
  { u with row := (u.row + 1) % Config.storeRows, debt := u.debt - 1, opportune := false, grant := none }

/-! ## Clearing (R181) -/

/-- A clearing write ends: the pointer advances, and past the last word the run state becomes RUNNING. -/
def StoreUnit.clearingEnd (u : StoreUnit) : StoreUnit :=
  { u with
    clearing := u.clearing + 1
    run := if Config.storeWords ≤ u.clearing + 1 then .running else .clearing
    grant := none }

end Sys2Proof.Machine
end

