-- ==== Sys2Proof/Machine/Path.lean ====
section
/-!
DEFINITION. The Path Unit: classification, permissions, posting and hand-over, overlay and store reads, the accesses
that wait, and the frame of an event of the part (spec/01_the_memory_path.md).
-/

namespace Sys2Proof.Machine

open Sys2Proof

/-! ## Classification and permissions (R2, R3, R7, R8) -/

/-- The word-aligned address: an access is of a word (R1; log 20). -/
def wordAddr (a : Addr) : Addr := BitVec.ofNat 24 (a.toNat / 4 * 4)

/-- An access at its word. -/
def atWord : Access → Access
  | .read a req => .read (wordAddr a) req
  | .write a data be req => .write (wordAddr a) data be req

/-- Whether an address lies in the control window (R2). -/
def PathUnit.inControl (u : PathUnit) (a : Nat) : Bool :=
  decide (u.controlBase ≤ a) && decide (a < u.controlBase + 4096)

/-- Classification at arrival (R3). -/
def PathUnit.classify (u : PathUnit) (a : Addr) : Classification :=
  if u.inControl a.toNat then .control
  else
    match (List.finRange 8).find? fun e => u.windows[e].covers a.toNat with
    | some e =>
      match windowKindOf u.windows[e].kind with
      | some k => .window e k
      | none => .plain
    | none => .plain

/-- A write that is blocked (R7). -/
def PathUnit.writeBlocked (u : PathUnit) (c : Classification) (req : Requester) : Bool :=
  match c with
  | .control => req == .reader || req == .plant
  | .window e k => !permits u.windows[e].writePermit req || k == .journal || k == .grant
  | .plain => false

/-- A read that is blocked (R8). -/
def PathUnit.readBlocked (u : PathUnit) (c : Classification) (req : Requester) : Bool :=
  match c with
  | .control => false
  | .window e _ => !permits u.windows[e].readPermit req
  | .plain => false

/-! ## Completion and waiting -/

/-- An access completes and returns a word (log 15). -/
def Part.complete (a : Access) (data : Word) (p : Part) : Part :=
  { p with path := { p.path with done := p.path.done ++ [⟨a, data⟩] } }

/-- Ready is withheld from an access (R17). -/
def Part.hold (h : Held) (p : Part) : Part := { p with path := { p.path with held := some h } }

/-- The bus is free. -/
def Part.unhold (p : Part) : Part := { p with path := { p.path with held := none } }

/-! ## Posting (R11 to R13) -/

/-- The write that a posted entry came from. -/
def PostedEntry.access (e : PostedEntry) : Access := .write e.addr e.data e.be e.req

/-- Offset of an entry from the base of the window that classified it. -/
def PathUnit.entryOffset (u : PathUnit) (n : Fin 8) (e : PostedEntry) : Nat := e.addr.toNat - u.windows[n].baseAddr

/-- The hand-over of a posted write to the unit that its classification names (R12). -/
def Part.handOver (e : PostedEntry) (p : Part) : Part :=
  match e.cls with
  | .control => p.controlWord (e.addr.toNat - p.path.controlBase) e.data e.be e.req
  | .window n .identity => p.recordWord .identity (p.path.entryOffset n e) e.data e.be
  | .window n .plant => p.recordWord .plant (p.path.entryOffset n e) e.data e.be
  | .window n .bay => p.recordWord .bay (p.path.entryOffset n e) e.data e.be
  | .window n .directory => { p with depot := p.depot.snoop (p.path.entryOffset n e / 16) }
  | _ => p

/-- An entry joins the posted write queue as its youngest (R11). -/
def Part.enqueuePosted (e : PostedEntry) (p : Part) : Part :=
  { p with path := { p.path with posted := p.path.posted ++ [e] } }

/-- A write is posted and complete, and handed over (R11, R12). -/
def Part.post (e : PostedEntry) (p : Part) : Part := ((p.enqueuePosted e).complete e.access 0).handOver e

/-! ## The arrival of an access (R1, R10, R17) -/

/-- An arriving write of at least one byte that is not blocked: posted, or held while the queue is full (R11). -/
def Part.postOrWait (e : PostedEntry) (p : Part) : Part := if p.path.full then p.hold (.room e) else p.post e

/-- An arriving write (R7, R10, R11). -/
def Part.arriveWrite (addr : Addr) (data : Word) (be : Enables) (req : Requester) (p : Part) : Part :=
  if be = 0 then p.complete (.write addr data be req) 0
  else if p.path.writeBlocked (p.path.classify addr) req then
    (p.block addr req .write).complete (.write addr data be req) 0
  else p.postOrWait { addr := addr, data := data, be := be, req := req, cls := p.path.classify addr }

/-- Offset of the date view word (R166). -/
def dateViewOffset : Nat := 0x18

/-- A read of the control window at an offset: the date view word takes the snapshot first (R18, R166). -/
def Part.beforeControlRead (o : Nat) (p : Part) : Part :=
  if o = dateViewOffset then { p with calendar := p.calendar.takeSnapshot } else p

/-- An overlay read of the control window (R18). -/
def Part.overlayRead (addr : Addr) (req : Requester) (p : Part) : Part :=
  let o := addr.toNat - p.path.controlBase
  let q := p.beforeControlRead o
  q.complete (.read addr req) (q.readControl o)

/-- Some posted entry has the word address (R15). -/
def PathUnit.holdsWord (u : PathUnit) (addr : Addr) : Bool := u.posted.any fun e => e.addr == addr

/-- A read that goes to the store: behind posted writes to its word, or at the port at once (R15, R16). -/
def Part.storeRead (addr : Addr) (req : Requester) (p : Part) : Part :=
  if p.path.holdsWord addr then p.hold (.drain addr req) else p.hold (.claimed addr req)

/-- An arriving read (R8, R15, R16, R18, R19). -/
def Part.arriveRead (addr : Addr) (req : Requester) (p : Part) : Part :=
  let c := p.path.classify addr
  if p.path.readBlocked c req then (p.block addr req .read).complete (.read addr req) 0
  else
    match c with
    | .control => p.overlayRead addr req
    | .window e .grant => p.complete (.read addr req) (p.readGrant (addr.toNat - p.path.windows[e].baseAddr))
    | _ => p.storeRead addr req

/-- An access as it arrives on a free bus: during CLEARING it waits unclassified (R1, R182). -/
def Part.arrive (a : Access) (p : Part) : Part :=
  match p.store.run with
  | .clearing => p.hold (.clearing a)
  | .running =>
    match a with
    | .write addr data be req => p.arriveWrite addr data be req
    | .read addr req => p.arriveRead addr req

/-- The bus is taken: an access is held, or one is already behind it. -/
def PathUnit.busy (u : PathUnit) : Bool := u.held.isSome || !u.deferred.isEmpty

/-- An access commanded: it arrives where the bus is free; the masters make it later where it is not (log 13). -/
def Part.access (a : Access) (p : Part) : Part :=
  if p.path.busy then { p with path := { p.path with deferred := p.path.deferred ++ [atWord a] } }
  else p.arrive (atWord a)

/-! ## Waits that end -/

/-- A write held for room is posted once an entry has left the queue (R11). -/
def Part.postWaiting (p : Part) : Part :=
  match p.path.held with
  | some (.room e) => if p.path.full then p else (p.unhold).post e
  | _ => p

/-- A read held behind posted writes claims the port once no entry has its word address (R15). -/
def Part.claimWaiting (p : Part) : Part :=
  match p.path.held with
  | some (.drain addr req) => if p.path.holdsWord addr then p else p.hold (.claimed addr req)
  | _ => p

/-- The access held through CLEARING is classified once the run state is RUNNING (R182). -/
def Part.resumeWaiting (p : Part) : Part :=
  match p.path.held with
  | some (.clearing a) =>
    match p.store.run with
    | .clearing => p
    | .running => (p.unhold).arrive a
  | _ => p

/-! ## The frame of an event -/

/-- The masters' later accesses follow one another on the bus as it becomes free (1.1; log 13). -/
def Part.runDeferred : List Access → Part → Part
  | [], p => p
  | a :: rest, p =>
    if p.path.held.isSome then { p with path := { p.path with deferred := a :: rest } }
    else Part.runDeferred rest (p.arrive a).arbitrate

/-- The end of an event: the free port is granted, then accesses that wait for the bus follow (log 7, log 13). -/
def Part.finish (p : Part) : Part :=
  let q := p.arbitrate
  Part.runDeferred q.path.deferred { q with path := { q.path with deferred := [] } }

/-- The start of an event: the outputs of the one before it are gone (log 15). -/
def Part.begin (p : Part) : Part := { p with path := { p.path with done := [] } }

/-- An event of the part that leaves the store alone. -/
def State.event (f : Part → Part) (s : State) : State := { s with part := (f s.part.begin).finish }

/-- An event of the part that makes a store operation. -/
def State.storeEvent (f : Part → Memory → Part × Memory) (s : State) : State :=
  let r := f s.part.begin s.mem
  { s with part := r.1.finish, mem := r.2 }

end Sys2Proof.Machine
end

