-- ==== Sys2Proof/Machine/BusCommands.lean ====
section
/-!
DEFINITION. The commands of the board bus: accesses, and the ends of their waits (spec/01, R1, R11, R15; spec/08, R166;
spec/09, R182).
-/

namespace Sys2Proof.Machine

open Sys2Proof

/-- UPSTREAM_WRITE (R1). -/
def execUpstreamWrite (addr : Addr) (data : Word) (be : Enables) (req : Requester) (s : State) :
    Host.Outcome State Fault Refusal :=
  .next (s.event (Part.access (.write addr data be req)))

/-- UPSTREAM_READ (R1). -/
def execUpstreamRead (addr : Addr) (req : Requester) (s : State) : Host.Outcome State Fault Refusal :=
  .next (s.event (Part.access (.read addr req)))

/-- The address of a word of the control window. -/
def PathUnit.controlAddr (u : PathUnit) (offset : Nat) : Addr := BitVec.ofNat 24 (u.controlBase + offset)

/-- DATE_VIEW_READ: a read of the date view word (R166). -/
def execDateViewRead (req : Requester) (s : State) : Host.Outcome State Fault Refusal :=
  .next (s.event (Part.access (.read (s.part.path.controlAddr dateViewOffset) req)))

/-- WAITING_WRITE_POSTED: a write held by a full queue is posted once an entry has left it (R11). The event in which
the entry leaves posts it already; where none is due nothing changes (log 3, log 4). -/
def execWaitingWritePosted (s : State) : Host.Outcome State Fault Refusal := .next (s.event Part.postWaiting)

/-- READ_CLAIM_AFTER_DRAIN: a read that waited behind posted writes to its word claims the port (R15). The drain that
ends the wait raises the claim already; where none is due nothing changes (log 3, log 4). -/
def execReadClaimAfterDrain (s : State) : Host.Outcome State Fault Refusal := .next (s.event Part.claimWaiting)

/-- ACCESS_RESUMED_AFTER_CLEARING: the access held through CLEARING goes on as if it had just arrived (R182). The last
clearing write resumes it already; where none is due nothing changes (log 3, log 4). -/
def execAccessResumedAfterClearing (s : State) : Host.Outcome State Fault Refusal := .next (s.event Part.resumeWaiting)

end Sys2Proof.Machine
end

