-- ==== Sys2Proof/Machine/StoreCommands.lean ====
section
/-!
DEFINITION. The commands that end a store operation of the Path Unit or of the Store Unit, and the refresh interval
(spec/01, R14, R15; spec/09, R173, R174, R176 to R182). One that comes while its grant is not under way is no event of
the part and changes nothing (log 4).
-/

namespace Sys2Proof.Machine

open Sys2Proof

/-- A parity error found by a read, if one was found (R177). -/
def Part.reportParity (addr : Addr) (found : Option Halves) (kind : ParityAccess) (req : Option Requester) (p : Part) :
    Part :=
  match found with
  | some halves => p.parityError addr halves kind req
  | none => p

/-! ## Posted drains (R14, R178) -/

/-- The oldest entry leaves the queue; a write that waited for room is posted at that moment, and a read that waited
behind it claims the port (R11, R14, R15). -/
def Part.entryLeaves (rest : List PostedEntry) (p : Part) : Part :=
  ({ p with path := { p.path with posted := rest } }.endGrant).postWaiting.claimWaiting.requestRefresh

/-- The end of a drain. -/
def Part.drainDone (upset : Upset) (p : Part) (m : Memory) : Part × Memory :=
  match p.store.grant, p.path.posted with
  | some .drain, e :: rest =>
    ((p.reportParity e.addr (m.drainError e upset) .rmw (some e.req)).entryLeaves rest, m.drain e upset)
  | _, _ => (p, m)

/-- POSTED_DRAIN_DONE (R14, R178, R179). -/
def execPostedDrainDone (upset : Upset) (s : State) : Host.Outcome State Fault Refusal :=
  .next (s.storeEvent (Part.drainDone upset))

/-! ## Upstream reads (R15, R177) -/

/-- The data of an upstream read is returned to its master. -/
def Part.readReturns (addr : Addr) (req : Requester) (data : Word) (p : Part) : Part :=
  ((p.complete (.read addr req) data).unhold.endGrant).requestRefresh

/-- The end of an upstream read: the word is returned as read. -/
def Part.readDone (upset : Upset) (p : Part) (m : Memory) : Part × Memory :=
  match p.store.grant, p.path.held with
  | some .upstreamRead, some (.claimed addr req) =>
    let m1 := m.lose (wordIndex addr) upset
    ((p.reportParity addr (m1.wordFails (wordIndex addr)) .upstreamRead (some req)).readReturns addr req
      (m1.readWord (wordIndex addr)), m1)
  | _, _ => (p, m)

/-- UPSTREAM_READ_DONE (R15, R177). -/
def execUpstreamReadDone (upset : Upset) (s : State) : Host.Outcome State Fault Refusal :=
  .next (s.storeEvent (Part.readDone upset))

/-! ## Refresh (R173, R174) -/

/-- REFRESH_INTERVAL_EXPIRY (R173). -/
def execRefreshIntervalExpiry (s : State) : Host.Outcome State Fault Refusal := .next (s.event Part.refreshExpiry)

/-- The end of a row refresh (R174). -/
def Part.rowRefreshEnd (p : Part) : Part :=
  match p.store.grant with
  | some .refresh => { p with store := p.store.refreshEnd }
  | _ => p

/-- ROW_REFRESH_END (R174). -/
def execRowRefreshEnd (s : State) : Host.Outcome State Fault Refusal := .next (s.event Part.rowRefreshEnd)

/-! ## Clearing (R181, R182) -/

/-- The end of a clearing write. The grant may be the first after power-on reset, which leaves the port free: it is
made here (R171; log 16). Where the last write ends clearing, the free port is granted before the access that waited is
resumed, so a claim which that access raises takes no part in this grant: the spec leaves the order of the two open
(R17, R171, R182), and this one is the model's choice (log 26). -/
def Part.clearingDone (p : Part) (m : Memory) : Part × Memory :=
  let q := p.arbitrate
  match q.store.grant with
  | some .clearing =>
    ({ q with store := q.store.clearingEnd }.arbitrate.resumeWaiting, m.writeWord q.store.clearing 0)
  | _ => (q, m)

/-- CLEARING_WRITE_END (R181, R182). -/
def execClearingWriteEnd (s : State) : Host.Outcome State Fault Refusal := .next (s.storeEvent Part.clearingDone)

end Sys2Proof.Machine
end

