-- ==== Sys2Proof/Machine/WalkerCommands.lean ====
section
/-!
DEFINITION. The commands of the directory walker (spec/03, R45 to R48; spec/09, R177, R180).
-/

namespace Sys2Proof.Machine

open Sys2Proof

/-- The walker begins a fetch, in the directory window in force (R45). -/
def Part.fetchStart (p : Part) : Part := { p with depot := p.depot.startFetch (p.path.windowOf .directory) }

/-- FETCH_START (R45; log 5). -/
def execFetchStart (s : State) : Host.Outcome State Fault Refusal := .next (s.event Part.fetchStart)

/-- WALKER_CLAIM_AFTER_DRAIN: the walker claims its slot once every posted entry in it has drained (R46). The drain that
ends the wait raises the claim already; where none is due nothing changes (log 3, log 4). -/
def execWalkerClaimAfterDrain (s : State) : Host.Outcome State Fault Refusal := .next (s.event Part.settleWalker)

/-- Lost bits of word `i` of a slot. -/
def slotWordUpset (u : SlotUpset) (i : Nat) : Upset :=
  match i with
  | 0 => u.word0
  | 1 => u.word1
  | 2 => u.word2
  | _ => u.word3

/-- The store after bits of a slot's four words were lost (log 11). -/
def Memory.loseSlot (m : Memory) (slotAddr : Nat) (u : SlotUpset) : Memory :=
  (List.range 4).foldl (fun x i => x.lose (slotAddr / 4 + i) (slotWordUpset u i)) m

/-- Some word of a slot fails its check. -/
def Memory.slotFails (m : Memory) (slotAddr : Nat) : Bool :=
  (List.range 4).any fun i => (m.wordFails (slotAddr / 4 + i)).isSome

/-- The errors of a slot read: the latch takes the lowest-addressed failing word, and further ones set MORE (R180). -/
def Part.reportSlot (m : Memory) (slotAddr : Nat) (p : Part) : Part :=
  (List.range 4).foldl
    (fun q i => q.reportParity (BitVec.ofNat 24 (slotAddr + 4 * i)) (m.wordFails (slotAddr / 4 + i)) .walker none) p

/-- The slot read returns to the walker, which acts on it, or discards it where its fetch was abandoned (R45, R47). -/
def Depot.slotReturns (failed : Bool) (x : DirectorySlot) (d : Depot) : Depot :=
  match d.identity.fetch with
  | some f => if f.reading then d.slotRead f failed x else d.modifyIdentity fun i => { i with discarded := false }
  | none => d.modifyIdentity fun i => { i with discarded := false }

/-- A change of the units behind the bus alone. -/
def Part.modifyDepot (f : Depot → Depot) (p : Part) : Part := { p with depot := f p.depot }

/-- The end of a slot read. -/
def Part.slotDone (upset : SlotUpset) (p : Part) (m : Memory) : Part × Memory :=
  match p.store.grant with
  | some (.walker a) =>
    let m1 := m.loseSlot a upset
    let x := directorySlotOf (m1.readWord (a / 4)) (m1.readWord (a / 4 + 1))
    ((p.reportSlot m1 a).endGrant.modifyDepot (Depot.slotReturns (m1.slotFails a) x), m1)
  | _ => (p, m)

/-- SLOT_READ_COMPLETE (R47, R177). Where no slot read is under way nothing changes (log 4). -/
def execSlotReadComplete (upset : SlotUpset) (s : State) : Host.Outcome State Fault Refusal :=
  .next (s.storeEvent (Part.slotDone upset))

end Sys2Proof.Machine
end

