-- ==== Sys2Proof/Machine/TimerCommands.lean ====
section
/-!
DEFINITION. The half-second tick, its timers and its boundaries (spec/08, R157 to R159, R164, R165; spec/04, R77 to R79;
spec/05, R102).
-/

namespace Sys2Proof.Machine

open Sys2Proof

/-! ## Expiries -/

/-- An event of a tick at the units behind the bus: its stamp is the calendar to which the tick advanced it (R160). An
expiry left late and taken after a calendar set keeps that stamp, where R162 stamps every event taken after a set from
the new calendar: the spec does not say which of the two rules goes first, and this is the model's choice (log 27). -/
def Part.onTick (f : Calendar → Depot → Depot) (p : Part) : Part :=
  { p with depot := (f p.calendar.tickStamp p.depot).startWrite p.path.ring }

/-- The expiry of a timer is due: its count stands at 0 (log 6). -/
def Depot.expiryDue (t : Timer) (d : Depot) : Bool :=
  match t with
  | .silence b => (d.bay b).silence == some 0
  | .hold b => (d.bay b).hold == some 0
  | .quality => d.water.qualityTimer == some 0

/-- A timer's expiry at its owner. -/
def Depot.expiry (t : Timer) (now : Calendar) (d : Depot) : Depot :=
  match t with
  | .silence b => d.silenceExpiry now b
  | .hold b => d.holdExpiry now b
  | .quality => d.qualityEvent Water.qualityExpiry

/-- The expiry of a timer is taken where it is due; where it is not, nothing changes (log 4). -/
def Part.expire (t : Timer) (p : Part) : Part := if p.depot.expiryDue t then p.onTick (Depot.expiry t) else p

/-- SILENCE_EXPIRY (R78). -/
def execSilenceExpiry (bay : Fin 8) (s : State) : Host.Outcome State Fault Refusal :=
  .next (s.event (Part.expire (.silence bay)))

/-- HOLD_EXPIRY (R79). -/
def execHoldExpiry (bay : Fin 8) (s : State) : Host.Outcome State Fault Refusal :=
  .next (s.event (Part.expire (.hold bay)))

/-- QUALITY_TIMER_EXPIRY (R102). -/
def execQualityTimerExpiry (s : State) : Host.Outcome State Fault Refusal := .next (s.event (Part.expire .quality))

/-! ## The tick -/

/-- The seventeen timers (R159). -/
def allTimers : List Timer := allBays.map Timer.silence ++ allBays.map Timer.hold ++ [.quality]

def Part.expireAll (timers : List Timer) (p : Part) : Part := timers.foldl (fun q t => q.expire t) p

/-- A tick at the two timers of a bay. -/
def Bay.tick (y : Bay) : Bay := { y with silence := tickTimer y.silence, hold := tickTimer y.hold }

/-- A tick at the quality timer. -/
def Water.tick (w : Water) : Water := { w with qualityTimer := tickTimer w.qualityTimer }

/-- A tick lowers the count of every running timer (R159). -/
def Depot.tickTimers (d : Depot) : Depot :=
  { d with sessions := { d.sessions with bays := d.sessions.bays.map Bay.tick }, water := d.water.tick }

/-- The tick at the calendar and at every timer. -/
def Part.advance (p : Part) : Part := { p with calendar := p.calendar.tick, depot := p.depot.tickTimers }

/-- The quota-day boundary, where the tick fires it (R164). -/
def Part.quotaDay (p : Part) : Part := if p.calendar.quotaDayFires then p.onTick Depot.quotaBoundary else p

/-- The period boundary, where the tick fires it (R164). -/
def Part.periodEnd (p : Part) : Part := if p.calendar.periodFires then p.onTick Depot.periodBoundary else p

/-- Both boundaries, either first, with the expiries that come between them (R159, R165). -/
def Part.boundaries (order : TickOrder) (p : Part) : Part :=
  if order.periodFirst then (p.periodEnd.expireAll order.between).quotaDay
  else (p.quotaDay.expireAll order.between).periodEnd

/-- The timers whose expiries come before the boundaries, beside those named as the first. -/
def earlyTimers (order : TickOrder) : List Timer :=
  allTimers.filter fun t => !order.late.contains t && !order.between.contains t

/-- One tick: expiries still due from the tick before, the advance, and the expiries of this tick and the boundaries in
the order given, but for the expiries left for later. The boundaries are taken within the tick's own command (R158,
R159, R164, R165; log 6). -/
def Part.tick (order : TickOrder) (p : Part) : Part :=
  (((p.expireAll allTimers).advance.expireAll order.first).expireAll (earlyTimers order)).boundaries order

/-- HALF_SECOND_TICK (R158, R159). -/
def execHalfSecondTick (order : TickOrder) (s : State) : Host.Outcome State Fault Refusal :=
  .next (s.event (Part.tick order))

end Sys2Proof.Machine
end

