-- ==== Sys2Proof/Machine/JournalCommands.lean ====
section
/-!
DEFINITION. The commands of the Journal Unit (spec/07, R136, R142).
-/

namespace Sys2Proof.Machine

open Sys2Proof

/-- CLAIM_ADMISSION: waiting claims are admitted while the oldest fits (R142). The event that makes room admits them
already; where none fits nothing changes (log 3, log 4). -/
def execClaimAdmission (s : State) : Host.Outcome State Fault Refusal :=
  .next (s.event fun p => p.onDepot Depot.judgeClaims)

/-- RECORD_WRITE_START: a record write begins where one may (R136). The event that allows it begins it already; where
none may begin nothing changes (log 3, log 4). -/
def execRecordWriteStart (s : State) : Host.Outcome State Fault Refusal :=
  .next (s.event fun p => p.onDepot fun _ d => d)

/-- Word index of word `n` of the slot at the head (R133). -/
def Journal.headWord (j : Journal) (g : Ring) (n : Nat) : Nat := (g.base + 64 * j.head) / 4 + n

/-- After word `n` of the record: the next word is claimed, or the write ends (R136). -/
def Part.afterWord (g : Ring) (n : Nat) (p : Part) : Part :=
  if n < 15 then { p with depot := p.depot.modifyJournal fun j => { j with writing := some (n + 1) } }
  else p.onDepot fun now d => d.endWrite now g

/-- The end of the write of one journal word. -/
def Part.journalDone (p : Part) (m : Memory) : Part × Memory :=
  match p.store.grant, p.depot.journal.writing, p.depot.journal.queue, p.path.ring with
  | some .journal, some n, r :: _, some g =>
    (p.endGrant.afterWord g n, m.writeWord (p.depot.journal.headWord g n) (r.words.getD n 0))
  | _, _, _, _ => (p, m)

/-- JOURNAL_WORD_WRITTEN (R136, R137). Where no word is under way nothing changes (log 4). -/
def execJournalWordWritten (s : State) : Host.Outcome State Fault Refusal := .next (s.storeEvent Part.journalDone)

end Sys2Proof.Machine
end

