-- ==== Sys2Proof/Machine/ControlCommands.lean ====
section
/-!
DEFINITION. The commands that write an item of the control window: each is the write of its word on the board bus
(spec/10, R187 to R195; log 2).
-/

namespace Sys2Proof.Machine

open Sys2Proof

/-- A write of the control-window word at an offset, as an access of the board bus. -/
def State.controlAccess (offset : Nat) (data : Word) (be : Enables) (req : Requester) (s : State) : State :=
  s.event (Part.access (.write (s.part.path.controlAddr offset) data be req))

/-- A write of an item's word. -/
def State.itemAccess (i : Item) (data : Word) (be : Enables) (req : Requester) (s : State) : State :=
  s.controlAccess i.offset data be req

/-- WINDOW_FIRST_WORD (R4). -/
def execWindowFirstWord (entry : Fin 8) (data : Word) (be : Enables) (req : Requester) (s : State) :
    Host.Outcome State Fault Refusal :=
  .next (s.itemAccess (.windowFirst entry) data be req)

/-- WINDOW_COMMIT (R5, R6). -/
def execWindowCommit (entry : Fin 8) (data : Word) (be : Enables) (req : Requester) (s : State) :
    Host.Outcome State Fault Refusal :=
  .next (s.itemAccess (.windowCommit entry) data be req)

/-- SETTING_WRITE (R190). -/
def execSettingWrite (item : SettingItem) (data : Word) (be : Enables) (req : Requester) (s : State) :
    Host.Outcome State Fault Refusal :=
  .next (s.itemAccess (.setting item) data be req)

/-- CONTROL_WRITE: a write of any word of the control window (R187, R188). -/
def execControlWrite (wordOffset : BitVec 10) (data : Word) (be : Enables) (req : Requester) (s : State) :
    Host.Outcome State Fault Refusal :=
  .next (s.controlAccess (4 * wordOffset.toNat) data be req)

/-- PIN_COUNT_WRITE (R41). -/
def execPinCountWrite (data : Word) (be : Enables) (req : Requester) (s : State) :
    Host.Outcome State Fault Refusal :=
  .next (s.itemAccess .pinCount data be req)

/-- QUOTA_SETTING_WRITE (R106). -/
def execQuotaSettingWrite (item : QuotaItem) (data : Word) (be : Enables) (req : Requester) (s : State) :
    Host.Outcome State Fault Refusal :=
  .next (s.itemAccess (.quota item) data be req)

/-- RECLAIM_FLOOR_WRITE (R95). -/
def execReclaimFloorWrite (data : Word) (be : Enables) (req : Requester) (s : State) :
    Host.Outcome State Fault Refusal :=
  .next (s.itemAccess .reclaimFloor data be req)

/-- REFRESH_MODE_WRITE (R175). -/
def execRefreshModeWrite (data : Word) (be : Enables) (req : Requester) (s : State) :
    Host.Outcome State Fault Refusal :=
  .next (s.itemAccess .refreshMode data be req)

/-- NOTICE_MASK_WRITE (R197). -/
def execNoticeMaskWrite (data : Word) (be : Enables) (req : Requester) (s : State) :
    Host.Outcome State Fault Refusal :=
  .next (s.itemAccess .noticeMask data be req)

/-- ACCOUNT_STAGED_WRITE (R114). -/
def execAccountStagedWrite (account : Fin 64) (which : AccountWord) (data : Word) (be : Enables) (req : Requester)
    (s : State) : Host.Outcome State Fault Refusal :=
  .next (s.itemAccess (.accountStaged account which) data be req)

/-- ACCOUNT_COMMIT (R115). -/
def execAccountCommit (account : Fin 64) (data : Word) (be : Enables) (req : Requester) (s : State) :
    Host.Outcome State Fault Refusal :=
  .next (s.itemAccess (.accountCommit account) data be req)

/-- ADMIT (R68, R194). -/
def execAdmit (data : Word) (be : Enables) (req : Requester) (s : State) : Host.Outcome State Fault Refusal :=
  .next (s.itemAccess .decision (withDecision admitCode data) be req)

/-- TURN_AWAY (R68, R194). -/
def execTurnAway (data : Word) (be : Enables) (req : Requester) (s : State) : Host.Outcome State Fault Refusal :=
  .next (s.itemAccess .decision (withDecision turnAwayCode data) be req)

/-- CLOSE (R68, R194). -/
def execClose (data : Word) (be : Enables) (req : Requester) (s : State) : Host.Outcome State Fault Refusal :=
  .next (s.itemAccess .decision (withDecision closeCode data) be req)

/-- RELEASE_RECLAIM (R105, R194). -/
def execReleaseReclaim (data : Word) (be : Enables) (req : Requester) (s : State) :
    Host.Outcome State Fault Refusal :=
  .next (s.itemAccess .decision (withDecision releaseReclaimCode data) be req)

/-- DECISION_NO_KIND: a decision word whose decision field names none (R194). -/
def execDecisionNoKind (data : Word) (be : Enables) (req : Requester) (s : State) :
    Host.Outcome State Fault Refusal :=
  .next (s.itemAccess .decision data be req)

/-- NOTICE_ACKNOWLEDGE (R198). -/
def execNoticeAcknowledge (data : Word) (be : Enables) (req : Requester) (s : State) :
    Host.Outcome State Fault Refusal :=
  .next (s.itemAccess .acknowledge data be req)

/-- JOURNAL_TAIL_WRITE (R134). -/
def execJournalTailWrite (data : Word) (be : Enables) (req : Requester) (s : State) :
    Host.Outcome State Fault Refusal :=
  .next (s.itemAccess .journalTail data be req)

/-- PRELOAD_FIRST_WORD (R53). -/
def execPreloadFirstWord (data : Word) (be : Enables) (req : Requester) (s : State) :
    Host.Outcome State Fault Refusal :=
  .next (s.itemAccess .preloadFirst data be req)

/-- PRELOAD_COMMIT (R53). -/
def execPreloadCommit (data : Word) (be : Enables) (req : Requester) (s : State) :
    Host.Outcome State Fault Refusal :=
  .next (s.itemAccess .preloadCommit data be req)

/-- CALENDAR_SET_FIRST_WORD (R161). -/
def execCalendarSetFirstWord (data : Word) (be : Enables) (req : Requester) (s : State) :
    Host.Outcome State Fault Refusal :=
  .next (s.itemAccess .calendarFirst data be req)

/-- CALENDAR_SET_COMMIT (R161, R162). -/
def execCalendarSetCommit (data : Word) (be : Enables) (req : Requester) (s : State) :
    Host.Outcome State Fault Refusal :=
  .next (s.itemAccess .calendarCommit data be req)

end Sys2Proof.Machine
end

