-- ==== Sys2Proof/Machine/Reset.lean ====
section
/-!
DEFINITION. The two resets (spec/01, R20, R21; R37, R59, R60, R85, R86, R111, R112, R131, R132, R150, R151, R153, R154,
R168, R169, R184 to R186, R200, R201).
-/

namespace Sys2Proof.Machine

open Sys2Proof

/-! ## Power-on reset -/

/-- Every unit in its start-up state, with the straps sampled (R20). -/
def powerOnPart (straps : BitVec 4) : Part := { path := { straps := straps } }

/-- POWER_ON_RESET. The store devices keep what they hold, which the new clearing overwrites (R184; log 18). -/
def execPowerOnReset (straps : BitVec 4) (s : State) : Host.Outcome State Fault Refusal :=
  .next { s with part := powerOnPart straps }

/-! ## Warm reset, unit by unit -/

/-- R21. A write that waited for room and a read that waited behind posted writes come first on the bus again. -/
def PathUnit.warmReset (u : PathUnit) : PathUnit :=
  let u1 := { u with staged := u.windows.map WindowEntry.first, posted := [], blockLatch := none }
  match u.held with
  | some (.room e) => { u1 with held := none, deferred := e.access :: u.deferred }
  | some (.drain addr req) => { u1 with held := none, deferred := .read addr req :: u.deferred }
  | _ => u1

def CaptureWindow.warmReset (w : CaptureWindow) : CaptureWindow := { w with assembly := none }

/-- R37. -/
def Capture.warmReset (c : Capture) : Capture :=
  { c with identity := c.identity.warmReset, plant := c.plant.warmReset, bay := c.bay.warmReset }

/-- R60. -/
def Identity.warmReset (i : Identity) : Identity :=
  { i.invalidate (fun _ => true) with
    victim := i.pinCount
    lookups := []
    fetch := none
    discarded := i.discarded || (i.fetch.map Fetch.reading).getD false
    preload := none }

def Bay.warmReset (y : Bay) : Bay := { y with session := {}, parked := none, silence := none, hold := none }

/-- R86. -/
def Sessions.warmReset (u : Sessions) : Sessions := { u with bays := u.bays.map Bay.warmReset }

/-- The fault-pending flag is cleared (R112). -/
def Meter.clearFault (m : Meter) : Meter := { m with faultPending := false }

/-- R112. -/
def Water.warmReset (w : Water) : Water :=
  let w0 := { w with meters := w.meters.map Meter.clearFault }
  let w1 := w0.enterSampling
  { w1 with available := w1.judgedAvailable }

/-- No session binds the account. -/
def Account.unbound (a : Account) : Account := { a with openCount := 0 }

/-- R132. -/
def Charge.warmReset (c : Charge) : Charge :=
  { c with accounts := c.accounts.map Account.unbound, staged := c.accounts.map Account.restage }

/-- R154. -/
def Journal.warmReset (j : Journal) : Journal := { j with waiting := [], queue := [], writing := none }

/-- R201. -/
def Notices.warmReset (n : Notices) : Notices := { n with pending := 0, refusal := none }

/-- R185, R186: a drain and a journal word that have not been made are not made; every other grant goes on. -/
def StoreUnit.warmReset (u : StoreUnit) : StoreUnit :=
  { u with
    latch := none
    grant := match u.grant with
      | some .drain => none
      | some .journal => none
      | g => g }

def Depot.warmReset (d : Depot) : Depot :=
  { d with
    identity := d.identity.warmReset, sessions := d.sessions.warmReset, water := d.water.warmReset
    charge := d.charge.warmReset, journal := d.journal.warmReset, notices := d.notices.warmReset }

/-! ## The journal after a warm reset (R150, R151) -/

/-- The bays whose sessions are not VACANT. -/
def Depot.lostBays (d : Depot) : BitVec 8 :=
  BitVec.ofNat 8 (allBays.map fun b => flag ((d.session b).state != .vacant) b.val).sum

/-- A sweep that was running resumes from its pointer (R151). -/
def Depot.resumeSweep (now : Calendar) (d : Depot) : Depot :=
  match d.journal.sweep with
  | some a => (d.continueSweep a.val).judgeClaims now
  | none => d

/-- The RESTART claim, with what stood before the reset, then the sweep; RESTARTED is raised (R150, R151). -/
def Depot.restart (lostBays : BitVec 8) (lostRecords : Nat) (now : Calendar) (d : Depot) : Depot :=
  ((d.placeClaim now (.restart lostBays lostRecords d.journal.sweep.isSome now)).resumeSweep now).raise .restarted

/-! ## Ticks that fall within a warm reset (R157, R169) -/

/-- The boundaries of a tick within a warm reset. Their owners take them before the reset empties the waiting list,
and no claim that they place is judged: it is lost with the list (R169). Each touches its owner's state alone, so
either may come first (R165). -/
def Depot.resetBoundaries (u : CalendarUnit) (d : Depot) : Depot :=
  let d1 := if u.quotaDayFires then (d.listQuotaDay u.tickStamp).startDay else d
  if u.periodFires then d1.takeBoundary else d1

/-- A tick within a warm reset at the calendar, with its boundaries. -/
def Part.resetTick (p : Part) : Part :=
  { p with calendar := p.calendar.tick, depot := p.depot.resetBoundaries p.calendar.tick }

/-- A tick within a warm reset at the quality timer. An expiry still due from a tick before comes first (log 6). -/
def Part.windowTick (p : Part) : Part :=
  let p1 := p.expire .quality
  { p1 with depot := p1.depot.modifyWater Water.tick }.expire .quality

/-- The ticks of the quality timer. -/
def Part.windowTicks (n : Nat) (p : Part) : Part := Nat.repeat Part.windowTick n p

/-- The ticks of a warm reset, but for those that the quality timer takes after its restart. -/
def Part.resetTicks (within : ResetOrder) (p : Part) : Part :=
  Nat.repeat Part.resetTick (within.before + within.after) (p.windowTicks within.before)

/-! ## The whole -/

/-- What the reset itself leaves, unit by unit. -/
def Part.emptied (p : Part) : Part :=
  { p with
    path := p.path.warmReset, capture := p.capture.warmReset, store := p.store.warmReset, depot := p.depot.warmReset }

/-- The end of the reset: claims raised at the free port in either order, the journal's first or that of the access that
comes first on the bus (R171; log 8). -/
def Part.finishReset (journalFirst : Bool) (p : Part) : Part :=
  match p.path.deferred with
  | a :: rest =>
    if journalFirst || p.path.held.isSome then p.finish
    else ({ p with path := { p.path with deferred := rest } }.arrive a).finish
  | [] => p.finish

/-- A warm reset. The spec leaves open whether a tick within it counts on the window that it restarts: the operand
says so of each (R112, R157; log 8). A sweep that a boundary within the reset began was running at the reset (R169;
log 25). -/
def Part.warmReset (within : ResetOrder) (p : Part) : Part :=
  let p1 := p.resetTicks within
  let p2 := (p1.emptied.windowTicks within.after).arbitrate
  (p2.onDepot (Depot.restart p1.depot.lostBays p1.depot.journal.queue.length)).finishReset within.journalFirst

/-- WARM_RESET (R21, R150). -/
def execWarmReset (within : ResetOrder) (s : State) : Host.Outcome State Fault Refusal :=
  .next { s with part := s.part.begin.warmReset within }

end Sys2Proof.Machine
end

