-- ==== Sys2Proof/Machine/Dispatch.lean ====
section
/-!
DEFINITION. One arm per command, each a direct call of its meaning.
-/

namespace Sys2Proof.Machine

open Sys2Proof

def exec (i : Instr) (s : State) : Host.Outcome State Fault Refusal :=
  match i with
  | .powerOnReset straps => Sys2Proof.Machine.execPowerOnReset straps s
  | .warmReset within => Sys2Proof.Machine.execWarmReset within s
  | .upstreamWrite addr data be req => Sys2Proof.Machine.execUpstreamWrite addr data be req s
  | .waitingWritePosted => Sys2Proof.Machine.execWaitingWritePosted s
  | .upstreamRead addr req => Sys2Proof.Machine.execUpstreamRead addr req s
  | .dateViewRead req => Sys2Proof.Machine.execDateViewRead req s
  | .readClaimAfterDrain => Sys2Proof.Machine.execReadClaimAfterDrain s
  | .accessResumedAfterClearing => Sys2Proof.Machine.execAccessResumedAfterClearing s
  | .postedDrainDone upset => Sys2Proof.Machine.execPostedDrainDone upset s
  | .upstreamReadDone upset => Sys2Proof.Machine.execUpstreamReadDone upset s
  | .refreshIntervalExpiry => Sys2Proof.Machine.execRefreshIntervalExpiry s
  | .rowRefreshEnd => Sys2Proof.Machine.execRowRefreshEnd s
  | .clearingWriteEnd => Sys2Proof.Machine.execClearingWriteEnd s
  | .fetchStart => Sys2Proof.Machine.execFetchStart s
  | .walkerClaimAfterDrain => Sys2Proof.Machine.execWalkerClaimAfterDrain s
  | .slotReadComplete upset => Sys2Proof.Machine.execSlotReadComplete upset s
  | .silenceExpiry bay => Sys2Proof.Machine.execSilenceExpiry bay s
  | .holdExpiry bay => Sys2Proof.Machine.execHoldExpiry bay s
  | .qualityTimerExpiry => Sys2Proof.Machine.execQualityTimerExpiry s
  | .halfSecondTick order => Sys2Proof.Machine.execHalfSecondTick order s
  | .claimAdmission => Sys2Proof.Machine.execClaimAdmission s
  | .recordWriteStart => Sys2Proof.Machine.execRecordWriteStart s
  | .journalWordWritten => Sys2Proof.Machine.execJournalWordWritten s
  | .windowFirstWord entry data be req => Sys2Proof.Machine.execWindowFirstWord entry data be req s
  | .windowCommit entry data be req => Sys2Proof.Machine.execWindowCommit entry data be req s
  | .settingWrite item data be req => Sys2Proof.Machine.execSettingWrite item data be req s
  | .controlWrite wordOffset data be req => Sys2Proof.Machine.execControlWrite wordOffset data be req s
  | .pinCountWrite data be req => Sys2Proof.Machine.execPinCountWrite data be req s
  | .quotaSettingWrite item data be req => Sys2Proof.Machine.execQuotaSettingWrite item data be req s
  | .reclaimFloorWrite data be req => Sys2Proof.Machine.execReclaimFloorWrite data be req s
  | .refreshModeWrite data be req => Sys2Proof.Machine.execRefreshModeWrite data be req s
  | .noticeMaskWrite data be req => Sys2Proof.Machine.execNoticeMaskWrite data be req s
  | .accountStagedWrite account word data be req => Sys2Proof.Machine.execAccountStagedWrite account word data be req s
  | .accountCommit account data be req => Sys2Proof.Machine.execAccountCommit account data be req s
  | .admitSession data be req => Sys2Proof.Machine.execAdmit data be req s
  | .turnAway data be req => Sys2Proof.Machine.execTurnAway data be req s
  | .close data be req => Sys2Proof.Machine.execClose data be req s
  | .releaseReclaim data be req => Sys2Proof.Machine.execReleaseReclaim data be req s
  | .decisionNoKind data be req => Sys2Proof.Machine.execDecisionNoKind data be req s
  | .noticeAcknowledge data be req => Sys2Proof.Machine.execNoticeAcknowledge data be req s
  | .journalTailWrite data be req => Sys2Proof.Machine.execJournalTailWrite data be req s
  | .preloadFirstWord data be req => Sys2Proof.Machine.execPreloadFirstWord data be req s
  | .preloadCommit data be req => Sys2Proof.Machine.execPreloadCommit data be req s
  | .calendarSetFirstWord data be req => Sys2Proof.Machine.execCalendarSetFirstWord data be req s
  | .calendarSetCommit data be req => Sys2Proof.Machine.execCalendarSetCommit data be req s

end Sys2Proof.Machine
end

