-- ==== Sys2Proof/Safety.lean ====
section
/-!
DEFINITION. What the statements about the block speak in: when an access arrives at once, what an arbitration may
change, and the invariants that every step keeps.
-/

namespace Sys2Proof.Machine

open Sys2Proof

/-! ## When an access is taken at once -/

/-- The store is RUNNING and no access holds the bus or waits for it (R17). -/
def State.busFree (s : State) : Prop :=
  s.part.store.run = .running ∧ s.part.path.held = none ∧ s.part.path.deferred = []

/-- The bus is free and the posted write queue has room (R11). -/
def State.ready (s : State) : Prop := s.busFree ∧ s.part.path.posted.length < 4

/-! ## What the arbiter may change (R46, R171) -/

/-- A fetch apart from its claim and its read in progress. -/
def Fetch.quiet (f : Fetch) : Fetch := { f with claimed := false, reading := false }

/-- `q` is `p` but for the port's grant and, at the fetch in flight, the claim and the read in progress. -/
def PortOnly (p q : Part) : Prop :=
  q = { p with
        store := { p.store with grant := q.store.grant }
        depot := { p.depot with identity := { p.depot.identity with fetch := q.depot.identity.fetch } } } ∧
    q.depot.identity.fetch.map Fetch.quiet = p.depot.identity.fetch.map Fetch.quiet

/-- `t` is `s` with its part changed to `x`, but for what the arbiter then grants; store and queue are as before. -/
def State.becomes (s : State) (x : Part) (t : State) : Prop :=
  t.pending = s.pending ∧ t.mem = s.mem ∧ PortOnly x t.part

/-- `t` is `s` with its part changed to `x`, but for what the arbiter then grants and for a record write that may begin
(R136): the head record may take its sequence number, and the word in flight be set. A write in flight goes on. -/
def State.becomesOrWrites (s : State) (x : Part) (t : State) : Prop :=
  ∃ queue writing,
    queue.map (fun r => (r.composed, r.period)) = x.depot.journal.queue.map (fun r => (r.composed, r.period)) ∧
    (x.depot.journal.writing ≠ none → queue = x.depot.journal.queue ∧ writing = x.depot.journal.writing) ∧
    s.becomes
      { x with
        depot := { x.depot with journal := { x.depot.journal with queue := queue, writing := writing } } } t

/-- The part after a write was posted and completed, before its hand-over (R11). -/
def Part.withPosted (e : PostedEntry) (p : Part) : Part :=
  { p with path := { p.path with posted := p.path.posted ++ [e], done := [⟨e.access, 0⟩] } }

/-- The entry that a write of the control window posts. -/
def State.controlEntry (s : State) (offset : Nat) (data : Word) (be : Enables) (req : Requester) : PostedEntry :=
  { addr := s.part.path.controlAddr offset, data := data, be := be, req := req, cls := .control }

/-- The part after a control-window write was posted and completed, before what the word itself does. -/
def State.afterControl (s : State) (offset : Nat) (data : Word) (be : Enables) (req : Requester) : Part :=
  s.part.withPosted (s.controlEntry offset data be req)

/-! ## What the statements name -/

/-- The oldest waiting claim, if one waits, does not fit (R142). -/
def Journal.settled (j : Journal) : Prop := ∀ c rest, j.waiting = c :: rest → 8 < j.queue.length + c.size

/-- Every waiting claim holds at least one record (R141). -/
def Journal.sized (j : Journal) : Prop := ∀ c ∈ j.waiting, 1 ≤ c.size

/-- The insertion queue is within its bound, no waiting claim could be admitted, and none is empty. -/
def Journal.claimsOk (j : Journal) : Prop := j.queue.length ≤ 8 ∧ j.settled ∧ j.sized

/-- The oldest waiting claim does not fit, so that no claim is admitted (R142). -/
def State.journalStuck (s : State) : Prop :=
  ∃ c rest, s.part.depot.journal.waiting = c :: rest ∧ 8 < s.part.depot.journal.queue.length + c.size ∧
    s.part.depot.journal.queue.length ≤ 8

/-- The insertion queue is within its bound, and the oldest waiting claim, if one waits, does not fit: an event ends
with no claim waiting that could be admitted (R142; log 3). -/
def State.claimsSettled (s : State) : Prop :=
  s.part.depot.journal.queue.length ≤ 8 ∧ s.part.depot.journal.settled

/-- A timer that no tick takes to its expiry: it is stopped, or has more than one tick to go. -/
def timerRunsOn (t : Option Nat) : Prop := t ≠ some 0 ∧ t ≠ some 1

/-- No timer expires on the next tick. -/
def State.timersRunOn (s : State) : Prop :=
  (∀ b : Fin 8, timerRunsOn (s.part.depot.bay b).silence ∧ timerRunsOn (s.part.depot.bay b).hold) ∧
    timerRunsOn s.part.depot.water.qualityTimer

/-- No session is held for credit, so that no reset of an account re-evaluates one (R119). -/
def Depot.noCreditHold (d : Depot) : Prop := ∀ b : Fin 8, (d.session b).hold ≠ some .credit

/-- An account as its reset in a period leaves it (R120). -/
def Account.zeroed (period : BitVec 16) (x : Account) : Account :=
  { x with balance := 0, count := 0, period := period }

/-- The part after a refused write of the word at an offset: CONFIG_REFUSED is pending, and the refusal latch is filled,
or MORE set where it is full (R195). -/
def Part.afterRefusal (offset : Nat) (reason : RefusalReason) (p : Part) : Part :=
  { p with
    depot := { p.depot with
      notices := { p.depot.notices with
        pending := p.depot.notices.pending ||| 4#16
        refusal := match p.depot.notices.refusal with
          | none => some ⟨offset, reason, false⟩
          | some r => some { r with more := true } } } }

/-- The range of a setting (R187), as the values of its word. -/
def SettingItem.takes (i : SettingItem) (n : Nat) : Prop :=
  match i with
  | .minQuality => n ≤ 15
  | .silenceLimit => 10 ≤ n ∧ n ≤ 600
  | .holdLimit => 10 ≤ n ∧ n ≤ 1800
  | .settleTime => n ≤ 255
  | .sampleWindow => n ≤ 255
  | .turbidityLimit => n ≤ 65535
  | .freshRate => n ≤ 65535
  | .reclaimRate => n ≤ 65535
  | .bandDiscount _ => n ≤ 50
  | .nearFull => 10 ≤ n ∧ n ≤ 99
  | .quotaHour => n ≤ 23
  | .periodSchedule =>
    n % 8 = 0 ∨ (n % 8 = 1 ∧ n / 256 % 32 ≤ 23) ∨ (n % 8 = 2 ∧ n / 65536 % 8 ≤ 6 ∧ n / 256 % 32 ≤ 23) ∨
      (n % 8 = 3 ∧ 1 ≤ n / 16777216 % 32 ∧ n / 16777216 % 32 ≤ 28 ∧ n / 256 % 32 ≤ 23)
  | .jumpLimit => True
  | .abandonFee => True
  | .program _ => True
  | .tariff _ => True

/-- The quota stage of an intake (R106). -/
def stageOf (intake quota percent : Nat) : Stage :=
  if quota = 0 ∨ intake < quota * percent / 100 then .normal else if intake < quota then .conserve else .exhausted

/-- Days of a month (R155). -/
def monthDays (y m : Nat) : Nat :=
  if m = 2 then if y % 4 = 0 ∧ y ≠ 2100 then 29 else 28
  else if m = 4 ∨ m = 6 ∨ m = 9 ∨ m = 11 then 30 else 31

/-- The date and time that a staged date word and a second word propose, in range (R161). -/
def proposalInRange (d t : Word) : Prop :=
  2020 ≤ d.toNat % 65536 ∧ d.toNat % 65536 ≤ 2147 ∧ 1 ≤ d.toNat / 65536 % 256 ∧ d.toNat / 65536 % 256 ≤ 12 ∧
    1 ≤ d.toNat / 16777216 ∧ d.toNat / 16777216 ≤ monthDays (d.toNat % 65536) (d.toNat / 65536 % 256) ∧
    t.toNat / 65536 % 256 ≤ 23 ∧ t.toNat / 256 % 256 ≤ 59 ∧ t.toNat % 256 ≤ 59

/-- The wait is that of a read that has claimed the port (R16). -/
def Held.isClaimed : Held → Bool
  | .claimed _ _ => true
  | _ => false

/-! ## Records (02, section 2.2) -/

/-- The kind of window that takes records of a kind (R22). -/
def RecordKind.windowKind : RecordKind → WindowKind
  | .identity => .identity
  | .plant => .plant
  | .bay => .bay

/-- Byte 0 of a record: its bay, or the kind of a plant record (R203). -/
def firstByte (r : Vector Word 4) : Nat := r[(0 : Fin 4)].toNat % 256

/-- Byte 1 of a record: the event of a bay record, or the meter or gauge of a plant record. -/
def secondByte (r : Vector Word 4) : Nat := r[(0 : Fin 4)].toNat / 256 % 256

/-- Byte 2 of a record: the program of a PROGRAM_START. -/
def thirdByte (r : Vector Word 4) : Nat := r[(0 : Fin 4)].toNat / 65536 % 256

/-- The sum of the eight halfwords of a record (R26). -/
def recordSum (r : Vector Word 4) : Nat :=
  r[(0 : Fin 4)].toNat % 65536 + r[(0 : Fin 4)].toNat / 65536 + r[(1 : Fin 4)].toNat % 65536 +
    r[(1 : Fin 4)].toNat / 65536 + r[(2 : Fin 4)].toNat % 65536 + r[(2 : Fin 4)].toNat / 65536 +
    r[(3 : Fin 4)].toNat % 65536 + r[(3 : Fin 4)].toNat / 65536

/-- The range test that a record fails, by its kind (R27). -/
def RecordKind.fails (kind : RecordKind) (minQuality : Nat) (r : Vector Word 4) : Prop :=
  match kind with
  | .identity => 7 < firstByte r ∨ 15 < secondByte r ∨ secondByte r < minQuality
  | .plant =>
    firstByte r = 0 ∨ 5 < firstByte r ∨ (firstByte r = 1 ∧ 19 < secondByte r) ∨
      (firstByte r = 2 ∧ secondByte r ≠ 0) ∨ (firstByte r = 3 ∧ secondByte r ≠ 1)
  | .bay => 7 < firstByte r ∨ secondByte r = 0 ∨ 4 < secondByte r ∨ (secondByte r = 1 ∧ 15 < thirdByte r)

/-- The write into slot `slot` of a record window that is gathered as `new`: merged into the open assembly of its
slot, or into a fresh one where none is open or the open one, of another slot, is abandoned (R22 to R24). -/
structure State.Gathers (s : State) (kind : RecordKind) (addr : Addr) (data : Word) (be : Enables) (req : Requester)
    (slot : Nat) (abandoned : Bool) (new : Assembly) : Prop where
  ready : s.ready
  enabled : be ≠ 0
  aligned : addr.toNat % 4 = 0
  window : ∃ e : Fin 8, s.part.path.classify addr = .window e kind.windowKind ∧
    s.part.path.windows[e].writePermit.getLsbD (Requester.code req) = true ∧
    slot = (addr.toNat - s.part.path.windows[e].base.toNat * 4096) / 16
  abandons : abandoned = true ↔ ∃ old, (s.part.capture.window kind).assembly = some old ∧ old.slot ≠ slot
  merged : ∃ a : Assembly, (∀ old, (s.part.capture.window kind).assembly = some old → old.slot = slot → a = old) ∧
    ((s.part.capture.window kind).assembly = none ∨ abandoned = true →
      a = ⟨slot, Vector.replicate 4 0, Vector.replicate 4 0⟩) ∧
    new.slot = slot ∧
    (∀ m : Fin 4, new.words[m] = if addr.toNat % 16 / 4 = m.val then mergeBytes a.words[m] data be else a.words[m]) ∧
    ∀ m : Fin 4, new.seen[m] = if addr.toNat % 16 / 4 = m.val then a.seen[m] ||| be else a.seen[m]

/-- The write of word 3 that completes record `r` in the slot of the open assembly, with all its bytes present and a
good checksum (R23 to R26). -/
structure State.Completes (s : State) (kind : RecordKind) (addr : Addr) (data : Word) (be : Enables) (req : Requester)
    (slot : Nat) (r : Vector Word 4) : Prop where
  ready : s.ready
  enabled : be ≠ 0
  word3 : addr.toNat % 16 = 12
  window : ∃ e : Fin 8, s.part.path.classify addr = .window e kind.windowKind ∧
    s.part.path.windows[e].writePermit.getLsbD (Requester.code req) = true ∧
    slot = (addr.toNat - s.part.path.windows[e].base.toNat * 4096) / 16
  assembled : ∃ old : Assembly, (s.part.capture.window kind).assembly = some old ∧ old.slot = slot ∧
    (∀ n : Fin 4, n ≠ 3 → old.seen[n] = 0xF#4 ∧ r[n] = old.words[n]) ∧
    old.seen[(3 : Fin 4)] ||| be = 0xF#4 ∧ r[(3 : Fin 4)] = mergeBytes old.words[(3 : Fin 4)] data be
  checksum : recordSum r % 65536 = 0

/-- Record Capture after a record of a slot was taken (R30). -/
def Capture.withTaken (c : Capture) (kind : RecordKind) (slot : Nat) : Capture :=
  c.setWindow kind { c.window kind with assembly := none, last := some slot }

/-- The part after the write that completes a record was posted and the record taken, before the record's event at its
owner (R11, R30). -/
def State.recordTaken (s : State) (kind : RecordKind) (addr : Addr) (data : Word) (be : Enables) (req : Requester)
    (slot : Nat) : Part :=
  { s.part.withPosted ⟨addr, data, be, req, s.part.path.classify addr⟩ with
    capture := s.part.capture.withTaken kind slot }

/-- The part with one bay changed. -/
def Part.withBay (b : Fin 8) (y : Bay) (p : Part) : Part :=
  { p with
    depot := { p.depot with
      sessions := { p.depot.sessions with bays := p.depot.sessions.bays.set b y } } }

/-- The part with its identification changed. -/
def Part.withIdentity (i : Identity) (p : Part) : Part := { p with depot := { p.depot with identity := i } }

/-- The part with its water changed. -/
def Part.withWater (w : Water) (p : Part) : Part := { p with depot := { p.depot with water := w } }

/-- The part with causes pending beside those that are. -/
def Part.withPending (c : Causes) (p : Part) : Part :=
  { p with
    depot := { p.depot with notices := { p.depot.notices with pending := p.depot.notices.pending ||| c } } }

/-- The part with its journal changed. -/
def Part.withJournal (j : Journal) (p : Part) : Part := { p with depot := { p.depot with journal := j } }

/-- The part with one claim more at the tail of the waiting list. -/
def Part.withClaim (c : Claim) (p : Part) : Part :=
  { p with
    depot := { p.depot with journal := { p.depot.journal with waiting := p.depot.journal.waiting ++ [c] } } }

/-! ## The window table (01, section 1.2) -/

/-- A window entry passes the checks of a commit for entry `e` (R5): it is disabled, or names a kind, a size and a base,
lies apart from the control window, and is the only enabled window of its kind, but for GUARDED. -/
def PathUnit.allows (u : PathUnit) (e : Fin 8) (w : WindowEntry) : Prop :=
  w.enabled = false ∨
    (12 ≤ w.k.toNat ∧ w.k.toNat ≤ 20 ∧ w.kind ≠ 0 ∧ w.base.toNat * 4096 % 2 ^ w.k.toNat = 0 ∧
      ¬ (w.base.toNat * 4096 < u.straps.toNat * 0x100000 + 0x100000 ∧
        u.straps.toNat * 0x100000 + 0xFF000 < w.base.toNat * 4096 + 2 ^ w.k.toNat) ∧
      (w.kind = 7 ∨ ∀ n : Fin 8, n ≠ e → u.windows[n].enabled = true → u.windows[n].kind ≠ w.kind))

/-- The commit changes permit sets alone (R6). -/
def WindowEntry.sameExtent (old w : WindowEntry) : Prop :=
  w.enabled = old.enabled ∧ w.kind = old.kind ∧ w.k = old.k ∧ w.base = old.base

/-- The bay waits for a result of the directory: its session is in LOOKUP, and the fetch, not withdrawn, or an entry of
the lookup queue is for it with its tag (R52, R66). -/
def Depot.awaitsDirectory (d : Depot) (b : Fin 8) : Prop :=
  (d.session b).state = .lookup ∧
    ((∃ f, d.identity.fetch = some f ∧ f.purpose = .lookup b ∧ f.withdrawn = false ∧ f.tag = (d.session b).tag) ∨
      ⟨b, (d.session b).tag⟩ ∈ d.identity.lookups)

/-- The bay in HELD with reason DIRECTORY_FAULT, its hold timer started (R67, R79). -/
def Depot.faultedBay (d : Depot) (b : Fin 8) : Bay :=
  { d.bay b with
    session := { d.session b with state := .held, hold := some .directoryFault }
    hold := some (2 * d.sessions.holdLimit) }

/-- Record Capture with the assembly of one kind empty (R35). -/
def Capture.withoutAssembly (c : Capture) (kind : RecordKind) : Capture :=
  c.setWindow kind { c.window kind with assembly := none }

/-! ## Sessions and accounts -/

/-- The session of the bay is HELD for credit and binds the account (R72, R119). -/
def Depot.heldForCredit (d : Depot) (a : Fin 64) (b : Fin 8) : Prop :=
  (d.session b).state = .held ∧ (d.session b).hold = some .credit ∧ ∃ cls, (d.session b).account = some ⟨a, cls, true⟩

/-- The bay's session holds the tag in ADMITTED or WASHING. -/
def Depot.activeWith (d : Depot) (t : Tag) (c : Fin 8) : Prop :=
  ((d.session c).state = .admitted ∨ (d.session c).state = .washing) ∧ (d.session c).tag = t

/-- The account is on credit hold (R118). -/
def Account.onCreditHold (x : Account) : Prop := x.manualHold = true ∨ (0 < x.limit ∧ x.limit ≤ x.balance)

/-- A commit from one account to another relaxes its credit hold (R119). -/
def Account.relaxedTo (old x : Account) : Prop :=
  old.valid = true ∧
    ((old.manualHold = true ∧ x.manualHold = false) ∨ (0 < old.limit ∧ x.limit = 0) ∨
      (0 < old.limit ∧ old.limit < x.limit))

/-- Bay `b` as entry into ADMITTED leaves it: no hold reason, the hold timer stopped, the silence timer started fresh
(R78, R79). -/
def Depot.admittedBay (d : Depot) (b : Fin 8) : Bay :=
  { d.bay b with
    session := { d.session b with state := .admitted, hold := none }
    hold := none
    silence := some (2 * d.sessions.silenceLimit) }

/-- Bay `b` with its hold reason DUPLICATE, its hold timer running on (R72). -/
def Depot.duplicateBay (d : Depot) (b : Fin 8) : Bay :=
  { d.bay b with session := { d.session b with hold := some .duplicate } }

/-- The part with its bays changed. -/
def Part.withBays (bays : Vector Bay 8) (p : Part) : Part :=
  { p with depot := { p.depot with sessions := { p.depot.sessions with bays := bays } } }

/-- The part with its accounts changed. -/
def Part.withAccounts (accounts : Vector Account 64) (p : Part) : Part :=
  { p with depot := { p.depot with charge := { p.depot.charge with accounts := accounts } } }

/-- The accounts after ADMIT: with an override, the account that bay `b`'s session bound is released and the account of
`r` is bound (R63, R68, R117). -/
def Depot.rebinds (d : Depot) (b : Fin 8) (o : Option (Fin 64 × Fin 4)) (r : AccountRef)
    (accounts : Vector Account 64) : Prop :=
  ∀ n : Fin 64, accounts[n] =
    { d.account n with
      openCount :=
        (d.account n).openCount -
          (if o ≠ none ∧ ∃ cls, (d.session b).account = some ⟨n, cls, true⟩ then 1 else 0) +
          (if o ≠ none ∧ n = r.index then 1 else 0) }

/-! ## Evaluation and arrivals (03, section 3.8; 04, section 4.2) -/

/-- Evaluation of a vehicle found, as the hold reason of its outcome: none where it is ADMITTED (R55, R118). -/
def Depot.holdOf (d : Depot) (b : Fin 8) (t : Tag) (barred : Bool) (a : Fin 64) : Option HoldReason :=
  if barred = true then some .barred
  else if (d.account a).valid = false then some .noAccount
  else if ∃ c : Fin 8, c ≠ b ∧ ((d.session c).state = .admitted ∨ (d.session c).state = .washing) ∧
      (d.session c).tag = t then some .duplicate
  else if (d.account a).manualHold = true ∨ (0 < (d.account a).limit ∧ (d.account a).limit ≤ (d.account a).balance) then
    some .credit
  else none

/-- Bay `b` after an arrival that the cache knows, with the hold reason of its outcome (R61, R66, R67, R78, R79). -/
def Depot.knownBay (d : Depot) (b : Fin 8) (t : Tag) (stamp : Stamp) (e : CacheEntry) (hold : Option HoldReason) :
    Bay :=
  { d.bay b with
    session :=
      { state := if hold = none then .admitted else .held, hold := hold, tag := t
        account := some ⟨e.account, e.cls, (d.account e.account).valid⟩, start := some stamp }
    hold := if hold = none then none else some (2 * d.sessions.holdLimit)
    silence := if hold = none then some (2 * d.sessions.silenceLimit) else (d.bay b).silence }

/-- `q` is `p` after an arrival at bay `b`, which is VACANT (R40, R43, R61, R63, R66, R67). Where no valid cache entry
holds the tag the session enters LOOKUP and the bay joins the lookup queue. Else the session takes the outcome of
evaluation with the entry's account and class: it is ADMITTED, or HELD with HOLD_RAISED, and a valid account is
bound. -/
def Part.arrived (b : Fin 8) (t : Tag) (stamp : Stamp) (p q : Part) : Prop :=
  ((∀ n : Fin 32, p.depot.identity.cache[n].valid = true → p.depot.identity.cache[n].tag ≠ t) →
    q = (p.withBay b { p.depot.bay b with session := { state := .lookup, tag := t, start := some stamp } }).withIdentity
      { p.depot.identity with lookups := p.depot.identity.lookups ++ [⟨b, t⟩] }) ∧
  ∀ (n : Fin 32) (e : CacheEntry) (hold : Option HoldReason), p.depot.identity.cache[n] = e → e.valid = true →
    e.tag = t →
    (∀ m : Fin 32, m < n → p.depot.identity.cache[m].valid = true → p.depot.identity.cache[m].tag ≠ t) →
    hold = p.depot.holdOf b t e.barred e.account →
    ∃ accounts : Vector Account 64,
      (∀ a : Fin 64, accounts[a] =
        { p.depot.account a with
          openCount := (p.depot.account a).openCount +
            if a = e.account ∧ (p.depot.account a).valid = true then 1 else 0 }) ∧
      q = ((p.withAccounts accounts).withBay b (p.depot.knownBay b t stamp e hold)).withPending
        (if hold = none then 0 else 8#16)

/-! ## Claims and their admission (07, section 7.3) -/

/-- The amounts of the CHARGE records that name an account, in their order. -/
def chargesOn (a : Fin 64) (records : List Composed) : List Nat :=
  records.filterMap fun c =>
    match c.body with
    | .charge body => if body.account = a then some body.amount else none
    | _ => none

/-- An account after CHARGE amounts were applied to it: balance and count, saturated (R129). -/
def Account.charged (amounts : List Nat) (x : Account) : Account :=
  if amounts = [] then x
  else
    { x with
      balance := min 4294967295 (x.balance + amounts.sum)
      count := min 65535 (x.count + amounts.length) }

/-- The period that a record takes at its admission: for a CHARGE record its account's balance period, else the current
one (R129, R138). -/
def Depot.periodOf (d : Depot) (c : Composed) : BitVec 16 :=
  match c.body with
  | .charge body => (d.account body.account).period
  | _ => d.journal.period

/-- The part with records at the tail of the insertion queue, their periods fixed (R138, R140). -/
def Part.withQueued (records : List Composed) (p : Part) : Part :=
  p.withJournal
    { p.depot.journal with queue := p.depot.journal.queue ++ records.map fun c => ⟨c, p.depot.periodOf c, none⟩ }

/-- `q` is `p` after the admission of bay `b`'s claim (R82, R129, R140, R143): the records are queued, their CHARGE
amounts applied, the binding released and the bay VACANT; a parked arrival is then taken with its own stamp (R65). -/
def Part.bayAdmitted (b : Fin 8) (records : List Composed) (p q : Part) : Prop :=
  ∃ (accounts : Vector Account 64) (x : Part),
    (∀ a : Fin 64, accounts[a] =
      { (p.depot.account a).charged (chargesOn a records) with
        openCount := (p.depot.account a).openCount -
          if ∃ cls, (p.depot.session b).account = some ⟨a, cls, true⟩ then 1 else 0 }) ∧
    x = ((p.withQueued records).withAccounts accounts).withBay b { p.depot.bay b with session := {}, parked := none } ∧
    ((p.depot.bay b).parked = none → q = x) ∧
    ∀ r, (p.depot.bay b).parked = some r → x.arrived b r.tag r.stamp q

/-- `q` is `p` after the admission of the sweep's claim for account `a`, where no session is held for credit (R120,
R143, R146 to R148): the PERIOD_TOTAL record is queued with the account's values as they stand, the account reset, and
the sweep moves on, to the next account with charges, which gets its claim, or to its end with PERIOD_CLOSED; a
pending boundary is then taken, with a sweep from account 0. -/
def Part.sweepAdmitted (a : Fin 64) (p q : Part) : Prop :=
  ∀ j : Journal,
    j = { p.depot.journal with
      queue := p.depot.journal.queue ++
        [⟨⟨.periodTotal a (p.depot.account a).haulier (p.depot.account a).balance (p.depot.account a).count, none,
          p.calendar.now⟩, (p.depot.account a).period, none⟩] } →
    p.depot.noCreditHold →
    (∀ c : Fin 64, a < c → (p.depot.account c).count ≠ 0 →
      (∀ i : Fin 64, a < i → i < c → (p.depot.account i).count = 0) →
      ∃ accounts : Vector Account 64,
        (∀ i : Fin 64, accounts[i] =
          if a ≤ i ∧ i < c then (p.depot.account i).zeroed j.period else p.depot.account i) ∧
        q = (p.withAccounts accounts).withJournal { j with waiting := j.waiting ++ [.sweep c], sweep := some c }) ∧
    ((∀ c : Fin 64, a < c → (p.depot.account c).count = 0) →
      (j.boundaryPending = false →
        ∃ accounts : Vector Account 64,
          (∀ i : Fin 64, accounts[i] = if a ≤ i then (p.depot.account i).zeroed j.period else p.depot.account i) ∧
          q = ((p.withAccounts accounts).withJournal { j with sweep := none }).withPending 0x80#16) ∧
      (j.boundaryPending = true →
        ((∀ c : Fin 64, c < a → (p.depot.account c).count = 0) →
          ∃ accounts : Vector Account 64,
            (∀ i : Fin 64, accounts[i] = (p.depot.account i).zeroed (j.period + 1)) ∧
            q = ((p.withAccounts accounts).withJournal
              { j with sweep := none, boundaryPending := false, period := j.period + 1 }).withPending 0x80#16) ∧
        ∀ c : Fin 64, c < a → (p.depot.account c).count ≠ 0 →
          (∀ i : Fin 64, i < c → (p.depot.account i).count = 0) →
          ∃ accounts : Vector Account 64,
            (∀ i : Fin 64, accounts[i] =
              if i < c then (p.depot.account i).zeroed (j.period + 1)
              else if a ≤ i then (p.depot.account i).zeroed j.period else p.depot.account i) ∧
            q = ((p.withAccounts accounts).withJournal
              { j with
                waiting := j.waiting ++ [.sweep c], sweep := some c, boundaryPending := false
                period := j.period + 1 }).withPending 0x80#16))

/-- `q` is `p`, whose waiting list a claim has left, after the admission of that claim (R91, R109, R143). -/
def Part.admits (c : Claim) (p q : Part) : Prop :=
  match c with
  | .bay b records => p.bayAdmitted b records q
  | .sweep a => p.sweepAdmitted a q
  | .quotaDay totals stamp overrun => q = p.withQueued [⟨.quotaDay totals overrun, none, stamp⟩]
  | .meter m old new stamp =>
    q = (p.withQueued [⟨.meterFault m old new, none, stamp⟩]).withWater
      { p.depot.water with
        meters := p.depot.water.meters.set m { p.depot.water.meters[m] with faultPending := false } }
  | .restart lostBays lostRecords resumed stamp =>
    q = p.withQueued [⟨.restart lostBays lostRecords resumed, none, stamp⟩]

/-- A claim placed now waits: the oldest claim, itself where no other waits, does not fit (R142). -/
def Journal.claimWaits (c : Claim) (j : Journal) : Prop :=
  j.queue.length ≤ 8 ∧ (j.waiting = [] → 8 < j.queue.length + c.size) ∧
    ∀ old rest, j.waiting = old :: rest → 8 < j.queue.length + old.size

/-- A claim placed now is admitted as it is placed: none waits, and the queue has room for all its records (R142). -/
def Journal.claimFits (c : Claim) (j : Journal) : Prop := j.waiting = [] ∧ j.queue.length + c.size ≤ 8

/-- `q` is `p` after a claim was placed: it waits at the tail of the list, or is admitted within the event that places
it (R141, R142). -/
def Part.placed (c : Claim) (p q : Part) : Prop :=
  (p.depot.journal.claimWaits c → q = p.withClaim c) ∧ (p.depot.journal.claimFits c → p.admits c q)

/-! ## The close of a session (04, section 4.6) -/

/-- The end records of bay `b`'s session, closed with a reason at a stamp (R81): from LOOKUP and HELD one TURNED_AWAY
record; from ADMITTED and WASHING one VOID record where no line is RUN, else one CHARGE record for each RUN line. -/
def Depot.endRecordsAre (d : Depot) (b : Fin 8) (reason : CloseReason) (now : Stamp) (records : List Composed) : Prop :=
  ((d.session b).state = .lookup ∨ (d.session b).state = .held →
    records = [⟨.turnedAway (d.session b).tag (d.session b).hold reason, some b, now⟩]) ∧
  ∀ r, (d.session b).state = .admitted ∨ (d.session b).state = .washing → (d.session b).account = some r →
    ((∀ l ∈ (d.session b).lines, l.outcome ≠ .run) →
      records =
        [⟨.void r.index (d.session b).tag reason (d.session b).operatorAdmitted (d.session b).abandoned, some b,
          now⟩]) ∧
    ∀ runs : List Line, runs ≠ [] →
      runs = ((d.session b).lines.filter fun l => l.outcome = .run).map (fun l =>
        if l.stop = none then { l with stop := some now } else l) →
      records.length = runs.length ∧
      ∀ (n : Nat) (l : Line), runs[n]? = some l →
        records[n]? = some (d.composeCharge b r now l (decide (n + 1 = runs.length)))

/-- The part with bay `b`'s session entering CLOSING, before its claim (R71, R75, R80): the running line ends, both
timers stop, the reason is set, and a lookup is withdrawn. -/
def Part.closing (b : Fin 8) (reason : CloseReason) (now : Stamp) (p : Part) : Part :=
  Part.withBay b
    { p.depot.bay b with
      session := { p.depot.session b with
        state := .closing, closeReason := some reason
        lines := (p.depot.session b).lines.map fun l => if l.stop = none then { l with stop := some now } else l }
      silence := none
      hold := none }
    (p.withIdentity
      { p.depot.identity with
        lookups := if (p.depot.session b).state = .lookup
          then p.depot.identity.lookups.filter (fun l => l.bay ≠ b) else p.depot.identity.lookups
        fetch := p.depot.identity.fetch.map fun f =>
          if (p.depot.session b).state = .lookup ∧ f.purpose = .lookup b then { f with withdrawn := true } else f })

/-- `q` is `p` after the close of bay `b`'s session (R80, R81, R82, R142, R144): its claim for the end records waits,
with JOURNAL_STALLED, or is admitted at once and the bay is VACANT again. -/
def Part.closed (b : Fin 8) (reason : CloseReason) (now : Stamp) (p q : Part) : Prop :=
  ∃ records, p.depot.endRecordsAre b reason now records ∧
    (p.depot.journal.claimWaits (.bay b records) →
      q = ((p.closing b reason now).withClaim (.bay b records)).withPending 0x40#16) ∧
    (p.depot.journal.claimFits (.bay b records) → (p.closing b reason now).bayAdmitted b records q)

/-! ## The report of a slot read (09, section 9.5) -/

/-- `q` is `p` after the errors of a slot read were reported (R177, R180): none where every word passes; else
STORE_PARITY is pending, and an empty latch takes the lowest-addressed failing word, with MORE where a further word
failed, while a full latch keeps its contents and MORE is set. -/
def Part.slotReported (m : Memory) (a : Nat) (p q : Part) : Prop :=
  ((∀ i : Fin 4, m.wordFails (a / 4 + i.val) = none) → q = p) ∧
  ∀ (i : Fin 4) (halves : Halves), m.wordFails (a / 4 + i.val) = some halves →
    (∀ k : Fin 4, k < i → m.wordFails (a / 4 + k.val) = none) →
    q = Part.withPending 0x1000#16
      { p with
        store := { p.store with
          latch := some (match p.store.latch with
            | none =>
              ⟨BitVec.ofNat 24 (a + 4 * i.val), halves, .walker, none,
                Decidable.decide (∃ k : Fin 4, i < k ∧ m.wordFails (a / 4 + k.val) ≠ none)⟩
            | some r => { r with more := true }) } }

/-! ## Calendar and stamps -/

/-- One calendar a half second after another (R155, R158). -/
def halfSecondLater (c n : Calendar) : Prop :=
  (c.half = 0 ∧ n = { c with half := 1 }) ∨
  (c.half = 1 ∧ c.second < 59 ∧ n = { c with half := 0, second := c.second + 1 }) ∨
  (c.half = 1 ∧ c.second = 59 ∧ c.minute < 59 ∧ n = { c with half := 0, second := 0, minute := c.minute + 1 }) ∨
  (c.half = 1 ∧ c.second = 59 ∧ c.minute = 59 ∧
    ((c.hour < 23 ∧ n = { c with half := 0, second := 0, minute := 0, hour := c.hour + 1 }) ∨
      (c.hour = 23 ∧
        ((c.day < monthDays c.year c.month ∧
            n = ⟨c.year, c.month, c.day + 1, (c.weekday + 1) % 7, 0, 0, 0, 0, c.isSet⟩) ∨
          (c.day = monthDays c.year c.month ∧ c.month < 12 ∧
            n = ⟨c.year, c.month + 1, 1, (c.weekday + 1) % 7, 0, 0, 0, 0, c.isSet⟩) ∨
          (c.day = 31 ∧ c.month = 12 ∧ c.year < 2147 ∧
            n = ⟨c.year + 1, 1, 1, (c.weekday + 1) % 7, 0, 0, 0, 0, c.isSet⟩) ∨
          (c.day = 31 ∧ c.month = 12 ∧ c.year = 2147 ∧ n = ⟨2020, 1, 1, 2, 0, 0, 0, 0, false⟩)))))

/-- The calendar stands, SET, at the first half second of an hour. -/
def Calendar.atHour (c : Calendar) (hour : Nat) : Prop :=
  c.isSet = true ∧ c.hour = hour ∧ c.minute = 0 ∧ c.second = 0 ∧ c.half = 0

/-- A tick to this calendar fires the quota-day boundary (R164). -/
def CalendarUnit.quotaDayAt (u : CalendarUnit) (n : Calendar) : Prop := n.atHour u.quotaHour

/-- A tick to this calendar fires the period boundary (R163, R164, R203). -/
def CalendarUnit.periodAt (u : CalendarUnit) (n : Calendar) : Prop :=
  n.atHour u.schedule.hour.toNat ∧
    (u.schedule.kind = 1 ∨ (u.schedule.kind = 2 ∧ n.weekday = u.schedule.weekday.toNat) ∨
      (u.schedule.kind = 3 ∧ n.day = u.schedule.day.toNat))

/-- The part a tick later, at calendar `n`, with one less to go on every running timer (R158, R159). -/
def Part.ticked (n : Calendar) (p : Part) : Part :=
  { p with
    path := { p.path with done := [] }
    calendar := { p.calendar with now := n, tickStamp := n }
    depot := { p.depot with
      sessions := { p.depot.sessions with
        bays := p.depot.sessions.bays.map fun y =>
          { y with silence := y.silence.map (· - 1), hold := y.hold.map (· - 1) } }
      water := { p.depot.water with qualityTimer := p.depot.water.qualityTimer.map (· - 1) } } }

/-- The two words show a stamp, field by field (R205). -/
def stampShown (c : Stamp) (date time : Word) : Prop :=
  date.toNat = (c.year - 2020) + c.month * 2 ^ 8 + c.day * 2 ^ 16 + c.weekday * 2 ^ 24 +
      (if c.isSet = true then 0 else 2 ^ 31) ∧
    time.toNat = c.half + c.second * 2 ^ 8 + c.minute * 2 ^ 16 + c.hour * 2 ^ 24

/-! ## Invariants -/

/-- The depot store is in its canonical form. -/
def State.memoryOk (s : State) : Prop := s.mem.wf = true

/-- The refresh debt lies between 0 and 8 (R173). -/
def State.debtOk (s : State) : Prop := s.part.store.debt ≤ 8

/-- The posted write queue holds at most four entries (01, section 1.4). -/
def State.postedOk (s : State) : Prop := s.part.path.posted.length ≤ 4

/-- A valid date and time (R155), with the weekday of its date (R156). -/
def Calendar.sound (c : Calendar) : Prop := c.valid = true ∧ c.weekday = weekdayOf c.year c.month c.day

/-- The calendar, its snapshot and the stamp of the latest tick are sound (R155, R156). -/
def State.calendarOk (s : State) : Prop :=
  s.part.calendar.now.sound ∧ s.part.calendar.snapshot.sound ∧ s.part.calendar.tickStamp.sound

/-- The identity cache never holds two valid entries with the same tag (R40). -/
def Identity.cacheOk (i : Identity) : Prop :=
  ∀ m n : Fin 32, i.cache[m].valid = true → i.cache[n].valid = true → i.cache[m].tag = i.cache[n].tag → m = n

def State.cacheOk (s : State) : Prop := s.part.depot.identity.cacheOk

/-- The insertion queue holds at most eight records (R140). -/
def State.queueOk (s : State) : Prop := s.part.depot.journal.queue.length ≤ 8

/-- No waiting claim could be admitted, and none is empty (R141, R142; log 3). -/
def State.claimsOk (s : State) : Prop := s.part.depot.journal.claimsOk

/-- No access waits for a bus that is free (log 13). -/
def State.busOk (s : State) : Prop := s.part.path.deferred = [] ∨ s.part.path.held.isSome = true

/-- No claim waits at a free port (R171). -/
def State.portOk (s : State) : Prop := s.part.store.grant = none → s.part.settleWalker.bestClaim = none

end Sys2Proof.Machine
end

