-- ==== Sys2Proof/Certificates/Slice0/Obligations.lean ====
section
/-!
DEFINITION. The statements for the provers. `exec c s = .next t` says that the command completes. `s.becomes x t` says
that `t` is `s` with its part changed to `x`, store and queue as before, but for the grant that the arbiter then makes
(the port's owner and, at the fetch in flight, its claim and its read in progress; one arbitration at the event's end,
log 7). `s.becomesOrWrites x t` says the same but for a record write that may begin as well (R136). `path.done` lists
the accesses that the command completes (log 15). `s.ready` says that the run state is RUNNING, no access holds the bus
and the posted write queue has room; `s.busFree` the same without the room. `s.afterControl o data be req` is the part
after a write of the control-window word at offset `o` was posted, before what the word itself does. `p.arrived`,
`p.admits c`, `p.placed c` and `p.closed` relate `p` to the part after an arrival, the admission of a claim, the placing
of one and the close of a session: a claim that is placed waits, or is admitted within the event where it fits (log 3).
`s.journalStuck` says that the oldest waiting claim does not fit, and `s.claimsSettled` that no waiting claim fits, as
every step leaves it (QueuesAndDebtStayBounded).
-/

open Sys2Proof Sys2Proof.Machine

/-! ## The block -/

/-- A step runs the command at the front of the queue with the queue's rest; a block whose queue is empty idles (log
1). -/
def Obligations.StepRunsTheFrontCommand : Prop :=
  (∀ (c : Instr) (rest : List Instr) (s : State), s.pending = c :: rest →
      step s = exec c { s with pending := rest }) ∧
    ∀ s : State, s.pending = [] → step s = .next s

/-- R85, R131, R200 and the lists of R20, R37, R59, R111, R153, R168, R184: what power-on reset leaves, from any
state. -/
def Obligations.PowerOnResetStartsEveryUnit : Prop :=
  ∀ (n : BitVec 4) (s : State), ∃ t, exec (.powerOnReset n) s = .next t ∧ t.pending = s.pending ∧
    -- Path Unit
    (t.part.path.straps = n ∧ (∀ e : Fin 8, t.part.path.windows[e].first = 0 ∧ t.part.path.windows[e].second = 0 ∧
        t.part.path.staged[e] = 0) ∧
      t.part.path.posted = [] ∧ t.part.path.blockLatch = none ∧ t.part.path.held = none) ∧
    -- Record Capture
    ((∀ k : RecordKind, (t.part.capture.window k).assembly = none ∧ (t.part.capture.window k).torn = 0 ∧
        (t.part.capture.window k).check = 0 ∧ (t.part.capture.window k).range = 0 ∧
        (t.part.capture.window k).last = none) ∧
      t.part.capture.lastIdentity = none ∧ t.part.capture.minQuality = 4) ∧
    -- Calendar Unit
    (t.part.calendar.now = ⟨2020, 1, 1, 2, 0, 0, 0, 0, false⟩ ∧ t.part.calendar.snapshot = t.part.calendar.now ∧
      t.part.calendar.stagedDate = 0 ∧ t.part.calendar.schedule = ⟨0, 0, 0, 0⟩ ∧ t.part.calendar.quotaHour = 0) ∧
    -- Store Unit
    (t.part.store.run = .clearing ∧ t.part.store.clearing = 0 ∧ t.part.store.debt = 0 ∧ t.part.store.row = 0 ∧
      t.part.store.opportune = false ∧ t.part.store.mode = .scheduled ∧ t.part.store.latch = none ∧
      t.part.store.grant = none) ∧
    -- Identity Unit
    ((∀ i : Fin 32, t.part.depot.identity.cache[i] = ⟨false, 0, 0, 0, 0, false⟩) ∧ t.part.depot.identity.pinCount = 0 ∧
      t.part.depot.identity.victim = 0 ∧ t.part.depot.identity.lookups = [] ∧ t.part.depot.identity.fetch = none ∧
      t.part.depot.identity.discarded = false ∧ t.part.depot.identity.preload = none ∧
      t.part.depot.identity.stagedTagLow = 0) ∧
    -- Bay Session Unit
    ((∀ b : Fin 8, (t.part.depot.session b).state = .vacant ∧ t.part.depot.session b = {} ∧
        (t.part.depot.bay b).parked = none ∧ (t.part.depot.bay b).silence = none ∧ (t.part.depot.bay b).hold = none ∧
        (t.part.depot.bay b).conflicting = 0 ∧ (t.part.depot.bay b).parkOverwrite = 0) ∧
      t.part.depot.sessions.silenceLimit = 120 ∧ t.part.depot.sessions.holdLimit = 300) ∧
    -- Water Unit
    ((∀ m : Fin 20, t.part.depot.water.meters[m] = ⟨none, false, 0⟩) ∧ t.part.depot.water.level = 0 ∧
      t.part.depot.water.turbidity = 0 ∧ t.part.depot.water.quality = .sampling ∧
      t.part.depot.water.qualityTimer = some 120 ∧ t.part.depot.water.badSamples = 0 ∧
      t.part.depot.water.available = false ∧ t.part.depot.water.stage = .normal ∧
      t.part.depot.water.totals = ⟨0, 0, 0, 0, 0, 0, 0, 0, 0⟩ ∧
      (∀ b : Fin 8, t.part.depot.water.unattributed[b] = ⟨0, 0⟩) ∧
      t.part.depot.water.jumpLimit = 50000 ∧ t.part.depot.water.floor = 0 ∧ t.part.depot.water.settle = 90 ∧
      t.part.depot.water.window = 60 ∧ t.part.depot.water.turbidityLimit = 50 ∧ t.part.depot.water.quota = 0 ∧
      t.part.depot.water.percent = 85) ∧
    -- Charge Unit
    ((∀ a : Fin 64, t.part.depot.account a = ⟨false, 0, 0, 0, false, 0, 0, 0, 0⟩ ∧
        t.part.depot.charge.staged[a] = ⟨0, 0⟩) ∧
      (∀ p : Fin 16, t.part.depot.charge.programs[p] = ⟨false, false⟩) ∧
      (∀ c : Fin 64, t.part.depot.charge.tariff[c] = 0) ∧ t.part.depot.charge.freshRate = 0 ∧
      t.part.depot.charge.reclaimRate = 0 ∧ t.part.depot.charge.abandonFee = 0 ∧
      ∀ b : Fin 4, t.part.depot.charge.discounts[b] = 0) ∧
    -- Journal Unit
    (t.part.depot.journal.head = 0 ∧ t.part.depot.journal.tail = 0 ∧ t.part.depot.journal.nextSeq = 0 ∧
      t.part.depot.journal.period = 0 ∧ t.part.depot.journal.queue = [] ∧ t.part.depot.journal.waiting = [] ∧
      t.part.depot.journal.writing = none ∧ t.part.depot.journal.sweep = none ∧
      t.part.depot.journal.boundaryPending = false ∧ t.part.depot.journal.nearFull = 75) ∧
    -- Settings and Notice Unit
    t.part.depot.notices.pending = 0 ∧ t.part.depot.notices.mask = 0xFFFF#16 ∧ t.part.depot.notices.refusal = none ∧
    t.part.depot.notices.line = false

/-- R21, R37, R60, R86, R112, R132, R154, R169, R185, R201: what a warm reset keeps and what it empties, where no
access stands on the bus. Every setting, the straps, the window table, the accounts' host fields, the ring and the
counters are kept; the posted queue, assemblies, lookups, sessions, claims, insertion queue, record write, pending set
and latches of before are gone, and RESTARTED is pending. What a tick or a sweep moves (calendar, day totals, stage,
balances, period) is kept where no tick falls in the reset and no sweep runs. The whole reset is one command, and that
its operand says which ticks count on the restarted window is the model's (log 8). -/
def Obligations.WarmResetKeepsSettingsAndEmptiesWork : Prop :=
  ∀ (w : ResetOrder) (s : State), s.part.path.held = none → s.part.path.deferred = [] →
    ∃ t, exec (.warmReset w) s = .next t ∧ t.pending = s.pending ∧ t.mem = s.mem ∧
      (t.part.path.straps = s.part.path.straps ∧ t.part.path.windows = s.part.path.windows ∧
        (∀ e : Fin 8, t.part.path.staged[e] = s.part.path.windows[e].first) ∧ t.part.path.posted = [] ∧
        t.part.path.blockLatch = none ∧ t.part.path.held = none ∧ t.part.path.deferred = []) ∧
      ((∀ k : RecordKind, t.part.capture.window k = { s.part.capture.window k with assembly := none }) ∧
        t.part.capture.minQuality = s.part.capture.minQuality ∧
        t.part.capture.lastIdentity = s.part.capture.lastIdentity) ∧
      (t.part.calendar.snapshot = s.part.calendar.snapshot ∧ t.part.calendar.stagedDate = s.part.calendar.stagedDate ∧
        t.part.calendar.schedule = s.part.calendar.schedule ∧ t.part.calendar.quotaHour = s.part.calendar.quotaHour ∧
        (w.before = 0 → w.after = 0 → t.part.calendar.now = s.part.calendar.now)) ∧
      (t.part.store.run = s.part.store.run ∧ t.part.store.clearing = s.part.store.clearing ∧
        t.part.store.debt = s.part.store.debt ∧ t.part.store.row = s.part.store.row ∧
        t.part.store.opportune = s.part.store.opportune ∧ t.part.store.mode = s.part.store.mode ∧
        t.part.store.latch = none) ∧
      ((∀ i : Fin 32, t.part.depot.identity.cache[i] = { s.part.depot.identity.cache[i] with valid := false }) ∧
        t.part.depot.identity.pinCount = s.part.depot.identity.pinCount ∧
        t.part.depot.identity.victim = s.part.depot.identity.pinCount ∧ t.part.depot.identity.lookups = [] ∧
        t.part.depot.identity.fetch = none ∧ t.part.depot.identity.preload = none ∧
        t.part.depot.identity.stagedTagLow = s.part.depot.identity.stagedTagLow) ∧
      ((∀ b : Fin 8, t.part.depot.bay b =
          { conflicting := (s.part.depot.bay b).conflicting, parkOverwrite := (s.part.depot.bay b).parkOverwrite }) ∧
        t.part.depot.sessions.silenceLimit = s.part.depot.sessions.silenceLimit ∧
        t.part.depot.sessions.holdLimit = s.part.depot.sessions.holdLimit) ∧
      ((∀ m : Fin 20, t.part.depot.water.meters[m] = { s.part.depot.water.meters[m] with faultPending := false }) ∧
        t.part.depot.water.level = s.part.depot.water.level ∧
        t.part.depot.water.turbidity = s.part.depot.water.turbidity ∧ t.part.depot.water.available = false ∧
        t.part.depot.water.badSamples = 0 ∧
        (s.part.depot.water.window = 255 →
          t.part.depot.water.quality = .sampling ∧ t.part.depot.water.qualityTimer = none) ∧
        (s.part.depot.water.window ≠ 255 → w.after < 2 * s.part.depot.water.window →
          t.part.depot.water.quality = .sampling ∧
          t.part.depot.water.qualityTimer = some (2 * s.part.depot.water.window - w.after)) ∧
        (s.part.depot.water.window ≠ 255 → 2 * s.part.depot.water.window ≤ w.after →
          t.part.depot.water.quality = .rejected ∧ t.part.depot.water.qualityTimer = none) ∧
        t.part.depot.water.jumpLimit = s.part.depot.water.jumpLimit ∧
        t.part.depot.water.floor = s.part.depot.water.floor ∧ t.part.depot.water.settle = s.part.depot.water.settle ∧
        t.part.depot.water.window = s.part.depot.water.window ∧
        t.part.depot.water.turbidityLimit = s.part.depot.water.turbidityLimit ∧
        t.part.depot.water.quota = s.part.depot.water.quota ∧
        t.part.depot.water.percent = s.part.depot.water.percent ∧
        (w.before = 0 → w.after = 0 → t.part.depot.water.totals = s.part.depot.water.totals ∧
          t.part.depot.water.unattributed = s.part.depot.water.unattributed ∧
          t.part.depot.water.stage = s.part.depot.water.stage)) ∧
      ((∀ a : Fin 64, (t.part.depot.account a).valid = (s.part.depot.account a).valid ∧
          (t.part.depot.account a).haulier = (s.part.depot.account a).haulier ∧
          (t.part.depot.account a).band = (s.part.depot.account a).band ∧
          (t.part.depot.account a).limit = (s.part.depot.account a).limit ∧
          (t.part.depot.account a).manualHold = (s.part.depot.account a).manualHold ∧
          (t.part.depot.account a).openCount = 0 ∧
          t.part.depot.charge.staged[a] = (s.part.depot.account a).restage ∧
          (w.before = 0 → w.after = 0 → s.part.depot.journal.sweep = none →
            (t.part.depot.account a).balance = (s.part.depot.account a).balance ∧
              (t.part.depot.account a).count = (s.part.depot.account a).count ∧
              (t.part.depot.account a).period = (s.part.depot.account a).period)) ∧
        t.part.depot.charge.programs = s.part.depot.charge.programs ∧
        t.part.depot.charge.tariff = s.part.depot.charge.tariff ∧
        t.part.depot.charge.discounts = s.part.depot.charge.discounts ∧
        t.part.depot.charge.freshRate = s.part.depot.charge.freshRate ∧
        t.part.depot.charge.reclaimRate = s.part.depot.charge.reclaimRate ∧
        t.part.depot.charge.abandonFee = s.part.depot.charge.abandonFee) ∧
      (t.part.depot.journal.head = s.part.depot.journal.head ∧ t.part.depot.journal.tail = s.part.depot.journal.tail ∧
        t.part.depot.journal.nextSeq = s.part.depot.journal.nextSeq ∧
        t.part.depot.journal.nearFull = s.part.depot.journal.nearFull ∧
        (∃ r rest, t.part.depot.journal.queue = r :: rest ∧ r.composed.body.code = 7 ∧
          ∀ q ∈ rest, q.composed.body.code = 4) ∧
        (∀ c ∈ t.part.depot.journal.waiting, c.claimant = 8) ∧
        (t.part.depot.journal.writing = none ∨ t.part.depot.journal.writing = some 0) ∧
        (w.before = 0 → w.after = 0 → s.part.depot.journal.sweep = none →
          t.part.depot.journal.period = s.part.depot.journal.period ∧ t.part.depot.journal.sweep = none ∧
          t.part.depot.journal.boundaryPending = s.part.depot.journal.boundaryPending)) ∧
      t.part.depot.notices.mask = s.part.depot.notices.mask ∧ t.part.depot.notices.refusal = none ∧
      t.part.depot.notices.isPending .restarted = true ∧
      ∀ c : Cause, t.part.depot.notices.isPending c = true → c = .restarted ∨ c = .periodClosed

/-- R86, R138, R150, R151, R169: the RESTART record is the first of the journal after a warm reset. It holds the bays
that were not VACANT, the number of records that stood in the insertion queue, and whether a sweep was running, with
the calendar as the reset ends. A sweep that was running then goes on at its pointer: an account with records there
leaves its PERIOD_TOTAL record next and, where no tick falls in the reset and no boundary is pending, the accounts
below it are left. No access stands on the bus. The whole reset is one command (log 8). -/
def Obligations.WarmResetJournalsRestart : Prop :=
  ∀ (w : ResetOrder) (s : State), s.part.path.held = none → s.part.path.deferred = [] →
    ∃ t lost resumed r rest, exec (.warmReset w) s = .next t ∧ t.part.depot.journal.queue = r :: rest ∧
      r.composed = ⟨.restart lost s.part.depot.journal.queue.length resumed, none, t.part.calendar.now⟩ ∧
      (∀ b : Fin 8, lost.getLsbD b.val = decide ((s.part.depot.session b).state ≠ .vacant)) ∧
      (s.part.depot.journal.sweep = none → w.before = 0 → w.after = 0 →
        resumed = false ∧ rest = [] ∧ r.period = s.part.depot.journal.period ∧ t.part.depot.journal.waiting = [] ∧
        t.part.depot.journal.sweep = none ∧ t.part.depot.journal.period = s.part.depot.journal.period) ∧
      ∀ a : Fin 64, s.part.depot.journal.sweep = some a →
        resumed = true ∧ r.period = s.part.depot.journal.period ∧
        ((s.part.depot.account a).count ≠ 0 →
          ∃ r2 later, rest = r2 :: later ∧
            r2.composed = ⟨.periodTotal a (s.part.depot.account a).haulier (s.part.depot.account a).balance
              (s.part.depot.account a).count, none, t.part.calendar.now⟩ ∧
            r2.period = (s.part.depot.account a).period) ∧
        (w.before = 0 → w.after = 0 → s.part.depot.journal.boundaryPending = false →
          t.part.depot.journal.period = s.part.depot.journal.period ∧
          (∀ x : Fin 64, x < a → (t.part.depot.account x).balance = (s.part.depot.account x).balance ∧
            (t.part.depot.account x).count = (s.part.depot.account x).count ∧
            (t.part.depot.account x).period = (s.part.depot.account x).period) ∧
          (t.part.depot.account a).balance = 0 ∧ (t.part.depot.account a).count = 0 ∧
          (t.part.depot.account a).period = s.part.depot.journal.period)

/-! ## The memory path -/

/-- R3: the control window first, then the lowest-numbered enabled entry whose window holds the address, else plain.
-/
def Obligations.ClassificationFollowsTheTable : Prop :=
  ∀ (u : PathUnit) (a : Addr),
    (u.straps.toNat * 0x100000 + 0xFF000 ≤ a.toNat ∧ a.toNat ≤ u.straps.toNat * 0x100000 + 0xFFFFF →
      u.classify a = .control) ∧
    (¬ (u.straps.toNat * 0x100000 + 0xFF000 ≤ a.toNat ∧ a.toNat ≤ u.straps.toNat * 0x100000 + 0xFFFFF) →
      (∀ (e : Fin 8) (k : WindowKind), u.windows[e].enabled = true → windowKindOf u.windows[e].kind = some k →
        u.windows[e].base.toNat * 4096 ≤ a.toNat →
        a.toNat < u.windows[e].base.toNat * 4096 + 2 ^ u.windows[e].k.toNat →
        (∀ i : Fin 8, i < e → ¬ (u.windows[i].enabled = true ∧ u.windows[i].base.toNat * 4096 ≤ a.toNat ∧
          a.toNat < u.windows[i].base.toNat * 4096 + 2 ^ u.windows[i].k.toNat)) →
        u.classify a = .window e k) ∧
      ((∀ i : Fin 8, ¬ (u.windows[i].enabled = true ∧ u.windows[i].base.toNat * 4096 ≤ a.toNat ∧
          a.toNat < u.windows[i].base.toNat * 4096 + 2 ^ u.windows[i].k.toNat)) →
        u.classify a = .plain))

/-- R10, R11: a write that is not blocked is posted where the queue holds fewer than four entries. It is handed to no
unit where it is plain or falls in a GUARDED window (R12), so nothing else changes. A write with no byte enabled
completes at once and changes nothing. -/
def Obligations.WriteIsPostedOrChangesNothing : Prop :=
  (∀ (s : State) (addr : Addr) (data : Word) (be : Enables) (req : Requester), s.ready → addr.toNat % 4 = 0 → be ≠ 0 →
    (s.part.path.classify addr = .plain ∨
      ∃ e : Fin 8, s.part.path.classify addr = .window e .guarded ∧
        s.part.path.windows[e].writePermit.getLsbD (Requester.code req) = true) →
    ∃ t, exec (.upstreamWrite addr data be req) s = .next t ∧
      s.becomes (s.part.withPosted ⟨addr, data, be, req, s.part.path.classify addr⟩) t) ∧
  ∀ (s : State) (addr : Addr) (data : Word) (req : Requester), s.busFree → addr.toNat % 4 = 0 →
    ∃ t, exec (.upstreamWrite addr data 0 req) s = .next t ∧
      s.becomes { s.part with path := { s.part.path with done := [⟨.write addr data 0 req, 0⟩] } } t

/-- R11, R12, R17: while the queue holds four entries a write that is not blocked waits with the classification it was
given; once an entry has left it is posted and complete, whatever its classification, and handed over as its arrival
would be where the table classifies it so still. That a command can stand for the posting is the model's reading (log
3). -/
def Obligations.WriteWaitsForRoomAndIsPosted : Prop :=
  (∀ (s : State) (addr : Addr) (data : Word) (be : Enables) (req : Requester), s.busFree → addr.toNat % 4 = 0 →
    be ≠ 0 → 4 ≤ s.part.path.posted.length →
    (s.part.path.classify addr = .plain ∨
      (s.part.path.classify addr = .control ∧ (req = .site ∨ req = .maint)) ∨
      ∃ (e : Fin 8) (k : WindowKind), s.part.path.classify addr = .window e k ∧ k ≠ .journal ∧ k ≠ .grant ∧
        s.part.path.windows[e].writePermit.getLsbD (Requester.code req) = true) →
    ∃ t, exec (.upstreamWrite addr data be req) s = .next t ∧
      s.becomes
        { s.part with path := { s.part.path with
            done := [], held := some (.room ⟨addr, data, be, req, s.part.path.classify addr⟩) } } t) ∧
  ∀ (s : State) (e : PostedEntry), s.part.path.held = some (.room e) → s.part.path.deferred = [] →
    s.part.path.posted.length < 4 →
    ∃ t, exec .waitingWritePosted s = .next t ∧ t.pending = s.pending ∧ t.mem = s.mem ∧ t.part.path.held = none ∧
      t.part.path.posted = s.part.path.posted ++ [e] ∧ t.part.path.done = [⟨e.access, 0⟩] ∧
      (e.cls = .plain ∨ (∃ n : Fin 8, e.cls = .window n .guarded) →
        s.becomes { s.part with path := { s.part.path with
          held := none, posted := s.part.path.posted ++ [e], done := [⟨e.access, 0⟩] } } t) ∧
      (s.part.store.run = .running → e.addr.toNat % 4 = 0 → e.be ≠ 0 → s.part.path.classify e.addr = e.cls →
        (e.cls = .plain ∨ (e.cls = .control ∧ (e.req = .site ∨ e.req = .maint)) ∨
          ∃ (n : Fin 8) (k : WindowKind), e.cls = .window n k ∧ k ≠ .journal ∧ k ≠ .grant ∧
            s.part.path.windows[n].writePermit.getLsbD (Requester.code e.req) = true) →
        exec (.upstreamWrite e.addr e.data e.be e.req)
          { s with part := { s.part with path := { s.part.path with held := none } } } = .next t)

/-- R11, R12, R14, R15: the end of a drain while an access waits does to the store, its latch and the notices what it
does with the bus free. A write that waited for room is posted and complete at that moment, and handed over as at its
arrival; a read that waited behind the last entry of its word claims the port, and one behind another entry waits on;
a read that has claimed the port keeps its claim. No fetch is in flight for the hand-over. That the drain itself ends
these waits is the model's reading (log 3). -/
def Obligations.DrainEndsTheWaits : Prop :=
  ∀ (s : State) (u : Upset) (e : PostedEntry) (rest : List PostedEntry), s.part.store.grant = some .drain →
    s.part.path.posted = e :: rest → s.part.path.deferred = [] → rest.length < 4 →
    ∃ v t, exec (.postedDrainDone u) { s with part := { s.part with path := { s.part.path with held := none } } } =
        .next v ∧ exec (.postedDrainDone u) s = .next t ∧ t.pending = s.pending ∧ t.mem = v.mem ∧
      (∀ w : PostedEntry, s.part.path.held = some (.room w) →
        t.part.path.held = none ∧ t.part.path.posted = rest ++ [w] ∧ t.part.path.done = [⟨w.access, 0⟩] ∧
        (w.cls = .plain ∨ (∃ n : Fin 8, w.cls = .window n .guarded) →
          ∃ o, PortOnly
            { s.part with
              path := { s.part.path with held := none, posted := rest ++ [w], done := [⟨w.access, 0⟩] }
              store := { s.part.store with latch := v.part.store.latch, opportune := o }
              depot := { s.part.depot with notices := v.part.depot.notices } } t.part) ∧
        (s.part.store.run = .running → w.addr.toNat % 4 = 0 → w.be ≠ 0 → s.part.path.classify w.addr = w.cls →
          s.part.depot.identity.fetch = none →
          (w.cls = .plain ∨ (w.cls = .control ∧ (w.req = .site ∨ w.req = .maint)) ∨
            ∃ (n : Fin 8) (k : WindowKind), w.cls = .window n k ∧ k ≠ .journal ∧ k ≠ .grant ∧
              s.part.path.windows[n].writePermit.getLsbD (Requester.code w.req) = true) →
          ∃ x o, exec (.upstreamWrite w.addr w.data w.be w.req) v = .next x ∧ t.mem = x.mem ∧
            PortOnly { x.part with store := { x.part.store with opportune := o } } t.part)) ∧
      ∀ (addr : Addr) (req : Requester),
        s.part.path.held = some (.drain addr req) ∨ s.part.path.held = some (.claimed addr req) →
        ∃ o, PortOnly
          { s.part with
            path := { s.part.path with
              posted := rest, done := []
              held := some (if s.part.path.held = some (.drain addr req) ∧ ∃ w ∈ rest, w.addr = addr
                then .drain addr req else .claimed addr req) }
            store := { s.part.store with latch := v.part.store.latch, opportune := o }
            depot := { s.part.depot with notices := v.part.depot.notices } } t.part

/-- R7, R8, R9: a blocked write completes at once and is not posted, and a read outside the read-permit set of its
window is completed at once with an all-zero word. Each raises ACCESS_BLOCKED and fills the block latch, or sets MORE
where it is full. -/
def Obligations.BlockedAccessIsReported : Prop :=
  (∀ (s : State) (addr : Addr) (data : Word) (be : Enables) (req : Requester), s.busFree → addr.toNat % 4 = 0 → be ≠ 0 →
    ((s.part.path.classify addr = .control ∧ (req = .reader ∨ req = .plant)) ∨
      ∃ (e : Fin 8) (k : WindowKind), s.part.path.classify addr = .window e k ∧
        (k = .journal ∨ k = .grant ∨ s.part.path.windows[e].writePermit.getLsbD (Requester.code req) = false)) →
    ∃ t, exec (.upstreamWrite addr data be req) s = .next t ∧
      s.becomes
        { s.part with
          path := { s.part.path with
            done := [⟨.write addr data be req, 0⟩]
            blockLatch := match s.part.path.blockLatch with
              | none => some ⟨addr, req, .write, false⟩
              | some r => some { r with more := true } }
          depot := { s.part.depot with
            notices := { s.part.depot.notices with pending := s.part.depot.notices.pending ||| 2#16 } } } t) ∧
  ∀ (s : State) (addr : Addr) (req : Requester) (e : Fin 8) (k : WindowKind), s.busFree → addr.toNat % 4 = 0 →
    s.part.path.classify addr = .window e k → s.part.path.windows[e].readPermit.getLsbD (Requester.code req) = false →
    ∃ t, exec (.upstreamRead addr req) s = .next t ∧
      s.becomes
        { s.part with
          path := { s.part.path with
            done := [⟨.read addr req, 0⟩]
            blockLatch := match s.part.path.blockLatch with
              | none => some ⟨addr, req, .read, false⟩
              | some r => some { r with more := true } }
          depot := { s.part.depot with
            notices := { s.part.depot.notices with pending := s.part.depot.notices.pending ||| 2#16 } } } t

/-- R15, R16: a read that goes to the store claims the port at once where no posted write has its word address, and
waits where one has; once none has, it claims the port. That a command can stand for the later claim is the model's
reading (log 3). -/
def Obligations.StoreReadClaimsOrWaits : Prop :=
  (∀ (s : State) (addr : Addr) (req : Requester), s.busFree → addr.toNat % 4 = 0 →
    (s.part.path.classify addr = .plain ∨
      ∃ (e : Fin 8) (k : WindowKind), s.part.path.classify addr = .window e k ∧ k ≠ .grant ∧
        s.part.path.windows[e].readPermit.getLsbD (Requester.code req) = true) →
    ((∀ e ∈ s.part.path.posted, e.addr ≠ addr) →
      ∃ t, exec (.upstreamRead addr req) s = .next t ∧
        s.becomes { s.part with path := { s.part.path with done := [], held := some (.claimed addr req) } } t) ∧
    ((∃ e ∈ s.part.path.posted, e.addr = addr) →
      ∃ t, exec (.upstreamRead addr req) s = .next t ∧
        s.becomes { s.part with path := { s.part.path with done := [], held := some (.drain addr req) } } t)) ∧
  ∀ (s : State) (addr : Addr) (req : Requester), s.part.path.held = some (.drain addr req) →
    s.part.path.deferred = [] → (∀ e ∈ s.part.path.posted, e.addr ≠ addr) →
    ∃ t, exec .readClaimAfterDrain s = .next t ∧
      s.becomes { s.part with path := { s.part.path with done := [], held := some (.claimed addr req) } } t

/-- R18, R166, R205: a read of the date view word copies the calendar into the snapshot and returns its date; a read
of the time view word returns the snapshot's time and does not change it. Every requester may read them. The two words
of a valid calendar show it field by field. The command is a bus read of the date view word (log 2). -/
def Obligations.DateAndTimeViewsServeOneSnapshot : Prop :=
  (∀ (s : State) (req : Requester), s.busFree →
    (∃ t, exec (.dateViewRead req) s = .next t ∧
      s.becomes
        { s.part with
          calendar := { s.part.calendar with snapshot := s.part.calendar.now }
          path := { s.part.path with
            done := [⟨.read (s.part.path.controlAddr 0x18) req, s.part.calendar.now.dateWord⟩] } } t) ∧
    ∃ t, exec (.upstreamRead (s.part.path.controlAddr 0x1C) req) s = .next t ∧
      s.becomes { s.part with path := { s.part.path with
        done := [⟨.read (s.part.path.controlAddr 0x1C) req, s.part.calendar.snapshot.timeWord⟩] } } t) ∧
  ∀ c : Calendar, c.valid = true → stampShown c c.dateWord c.timeWord

/-- R18, R187, R192, R206, R207: a read of the control window by any requester completes at once, changes nothing and
returns the word at its offset, field by field: the status views, the window table, the general settings, the requests
area, the account table, the session and cache views and the water views. An offset of the settings and requests areas
that holds no item reads as zero. A number too wide for its field shows its low bits. -/
def Obligations.ControlWindowReadsShowTheState : Prop :=
  ∀ (s : State) (o : Nat) (req : Requester), s.busFree → o % 4 = 0 → o < 4096 → o ≠ 0x18 →
    ∃ t w, exec (.upstreamRead (s.part.path.controlAddr o) req) s = .next t ∧
      s.becomes { s.part with path := { s.part.path with
        done := [⟨.read (s.part.path.controlAddr o) req, w⟩] } } t ∧
      -- Status views
      (o = 0x000 → w.toNat = s.part.path.straps.toNat + 0xA240 * 2 ^ 16) ∧
      (o = 0x004 ∨ o = 0x284 → w.toNat = s.part.depot.notices.pending.toNat) ∧
      (o = 0x008 → w.toNat = (s.part.depot.notices.pending &&& ~~~ s.part.depot.notices.mask).toNat +
        if s.part.depot.notices.pending &&& ~~~ s.part.depot.notices.mask = 0 then 0 else 2 ^ 31) ∧
      (o = 0x00C → s.part.depot.notices.refusal = none → w = 0) ∧
      (∀ r, o = 0x00C → s.part.depot.notices.refusal = some r →
        w.toNat = 1 + (if r.more = true then 2 else 0) + r.reason.code * 2 ^ 4 + r.offset % 4096 * 2 ^ 16) ∧
      (o = 0x010 ∨ o = 0x014 → s.part.path.blockLatch = none → w = 0) ∧
      (∀ r, o = 0x010 → s.part.path.blockLatch = some r →
        w.toNat = 1 + (if r.more = true then 2 else 0) + r.dir.code * 2 ^ 2 + Requester.code r.req * 2 ^ 4) ∧
      (∀ r, o = 0x014 → s.part.path.blockLatch = some r → w.toNat = r.addr.toNat) ∧
      (∀ (kind : RecordKind) (base : Nat),
        (kind = .identity ∧ base = 0x020) ∨ (kind = .plant ∧ base = 0x030) ∨ (kind = .bay ∧ base = 0x040) →
        (o = base → w.toNat = (s.part.capture.window kind).torn % 65536 +
          (s.part.capture.window kind).check % 65536 * 2 ^ 16) ∧
        (o = base + 4 → w.toNat = (s.part.capture.window kind).range % 65536 +
          ((s.part.capture.window kind).assembly.map fun a => 2 ^ 16 +
            (if a.seen[(0 : Fin 4)] = 0xF#4 then 2 ^ 20 else 0) + (if a.seen[(1 : Fin 4)] = 0xF#4 then 2 ^ 21 else 0) +
            (if a.seen[(2 : Fin 4)] = 0xF#4 then 2 ^ 22 else 0) +
            if a.seen[(3 : Fin 4)] = 0xF#4 then 2 ^ 23 else 0).getD 0 +
          if (s.part.capture.window kind).last = none then 0 else 2 ^ 24) ∧
        (o = base + 8 → w.toNat = ((s.part.capture.window kind).assembly.map Assembly.slot).getD 0 % 65536 +
          (s.part.capture.window kind).last.getD 0 % 65536 * 2 ^ 16)) ∧
      (o = 0x02C → w.toNat = (s.part.capture.lastIdentity.map fun l =>
        l.bay.val + l.quality % 16 * 2 ^ 8 + l.sequence % 256 * 2 ^ 16).getD 0) ∧
      (o = 0x060 → w.toNat = s.part.depot.identity.pinCount % 32 + s.part.depot.identity.victim % 32 * 2 ^ 8 +
        s.part.depot.identity.lookups.length % 16 * 2 ^ 16) ∧
      (o = 0x064 → ∀ i : Fin 8,
        bits w (4 * i.val) 4 = (s.part.depot.identity.lookups[i.val]?.map fun l => l.bay.val).getD 0) ∧
      (o = 0x068 → s.part.depot.identity.fetch = none → w = 0) ∧
      (∀ f, o = 0x068 → s.part.depot.identity.fetch = some f →
        w.toNat = 1 + (match f.purpose with
          | .lookup b => b.val * 2 ^ 4
          | .preload => 2) + f.position % 4 * 2 ^ 8 + f.restarts % 4 * 2 ^ 12 +
          if f.reading = true then 2 ^ 16 else 0) ∧
      (o = 0x06C ∨ o = 0x070 ∨ o = 0x074 → s.part.depot.identity.preload = none → w = 0) ∧
      (∀ r, s.part.depot.identity.preload = some r →
        (o = 0x06C → w.toNat = 1 + r.index % 32 * 2 ^ 16) ∧ (o = 0x070 → w.toNat = r.tag.toNat % 2 ^ 32) ∧
          (o = 0x074 → w.toNat = r.tag.toNat / 2 ^ 32)) ∧
      (o = 0x0A4 → s.part.path.ring = none → w = 0) ∧
      (∀ g, o = 0x0A4 → s.part.path.ring = some g → w.toNat = g.slots % 65536 +
        (s.part.depot.journal.head + g.slots - s.part.depot.journal.tail) % g.slots % 65536 * 2 ^ 16) ∧
      (o = 0x0A0 → w.toNat = s.part.depot.journal.head % 65536 + s.part.depot.journal.tail % 65536 * 2 ^ 16) ∧
      (o = 0x0A8 → w.toNat = (if s.part.depot.journal.writing = none then 0 else 1) +
        s.part.depot.journal.queue.length % 16 * 2 ^ 4 + s.part.depot.journal.waiting.length % 32 * 2 ^ 8 +
        (if s.part.depot.journal.sweep = none then 0 else 2 ^ 16) +
        (s.part.depot.journal.sweep.map Fin.val).getD 0 * 2 ^ 20 +
        if s.part.depot.journal.boundaryPending = true then 2 ^ 28 else 0) ∧
      (o = 0x0AC → w = s.part.depot.journal.nextSeq) ∧
      (o = 0x0B0 → w.toNat = s.part.depot.journal.period.toNat) ∧
      (o = 0x0B4 → ∀ i : Fin 8,
        bits w (4 * i.val) 4 = (s.part.depot.journal.queue[i.val]?.map fun r => r.composed.body.code).getD 0) ∧
      (∀ (q : Fin 8) (i : Fin 4), o = 0x0B8 + 4 * q.val →
        bits w (8 * i.val) 5 = (s.part.depot.journal.waiting[4 * q.val + i.val]?.map Claim.claimant).getD 0 ∧
        bits w (8 * i.val + 5) 3 = (s.part.depot.journal.waiting[4 * q.val + i.val]?.map Claim.size).getD 0 % 8) ∧
      (o = 0x0E0 → w.toNat = if s.part.store.run = .running then 1 else 0) ∧
      (o = 0x0E4 → w.toNat = s.part.store.clearing % 2 ^ 23) ∧
      (o = 0x0E8 → w.toNat = s.part.store.debt % 16 + s.part.store.row % 4096 * 2 ^ 8 +
        (if s.part.store.mode = .opportune then 2 ^ 24 else 0) +
        if s.part.store.opportune = true then 2 ^ 25 else 0) ∧
      (o = 0x0EC ∨ o = 0x0F0 → s.part.store.latch = none → w = 0) ∧
      (∀ r, o = 0x0EC → s.part.store.latch = some r →
        w.toNat = 1 + (if r.more = true then 2 else 0) + r.halves.code * 2 ^ 4 + r.kind.code * 2 ^ 8 +
          (r.req.map Requester.code).getD 0 * 2 ^ 12) ∧
      (∀ r, o = 0x0F0 → s.part.store.latch = some r → w.toNat = r.addr.toNat) ∧
      (o = 0x01C → w = s.part.calendar.snapshot.timeWord) ∧
      (o = 0x03C ∨ (0x04C ≤ o ∧ o < 0x060) ∨ (0x078 ≤ o ∧ o < 0x0A0) ∨ (0x0D8 ≤ o ∧ o < 0x0E0) ∨
        (0x0F4 ≤ o ∧ o < 0x100) ∨ 0xF94 ≤ o → w = 0) ∧
      -- Window table
      (∀ e : Fin 8, o = 0x100 + 8 * e.val →
        w.toNat = (if s.part.path.windows[e].enabled = true then 1 else 0) + s.part.path.windows[e].kind.toNat * 2 +
          s.part.path.windows[e].k.toNat * 2 ^ 4 + s.part.path.windows[e].base.toNat * 2 ^ 12) ∧
      (∀ e : Fin 8, o = 0x104 + 8 * e.val →
        w.toNat = s.part.path.windows[e].writePermit.toNat + s.part.path.windows[e].readPermit.toNat * 2 ^ 4) ∧
      -- General settings, program table and tariff cells
      (∀ i : SettingItem, o = SettingItem.offset i → w = s.part.settingWord i) ∧
      (∀ i n, o = SettingItem.offset i →
        (i, n) ∈ ([(.minQuality, s.part.capture.minQuality), (.silenceLimit, s.part.depot.sessions.silenceLimit),
          (.holdLimit, s.part.depot.sessions.holdLimit), (.jumpLimit, s.part.depot.water.jumpLimit),
          (.settleTime, s.part.depot.water.settle), (.sampleWindow, s.part.depot.water.window),
          (.turbidityLimit, s.part.depot.water.turbidityLimit), (.freshRate, s.part.depot.charge.freshRate),
          (.reclaimRate, s.part.depot.charge.reclaimRate), (.abandonFee, s.part.depot.charge.abandonFee),
          (.nearFull, s.part.depot.journal.nearFull), (.quotaHour, s.part.calendar.quotaHour)] :
            List (SettingItem × Nat)) → w = BitVec.ofNat 32 n) ∧
      (∀ b : Fin 4, o = 0x178 + 4 * b.val → w = BitVec.ofNat 32 s.part.depot.charge.discounts[b]) ∧
      (o = 0x190 → w.toNat = s.part.calendar.schedule.kind.toNat + s.part.calendar.schedule.hour.toNat * 2 ^ 8 +
        s.part.calendar.schedule.weekday.toNat * 2 ^ 16 + s.part.calendar.schedule.day.toNat * 2 ^ 24) ∧
      (∀ p : Fin 16, o = 0x1C0 + 4 * p.val →
        w.toNat = (if s.part.depot.charge.programs[p].enabled = true then 1 else 0) +
          if s.part.depot.charge.programs[p].freshRequired = true then 2 else 0) ∧
      (∀ n : Fin 32, o = 0x200 + 4 * n.val →
        w.toNat = s.part.depot.charge.tariff[2 * n.val].toNat +
          s.part.depot.charge.tariff[2 * n.val + 1].toNat * 2 ^ 16) ∧
      (o = 0x144 → w = BitVec.ofNat 32 s.part.depot.identity.pinCount) ∧
      (o = 0x154 → w = BitVec.ofNat 32 s.part.depot.water.floor) ∧
      (o = 0x164 → w = BitVec.ofNat 32 s.part.depot.water.quota) ∧
      (o = 0x168 → w = BitVec.ofNat 32 s.part.depot.water.percent) ∧
      (o = 0x18C → w.toNat = if s.part.store.mode = .opportune then 1 else 0) ∧
      (o = 0x198 → w.toNat = s.part.depot.notices.mask.toNat) ∧
      -- Requests
      (o = 0x280 ∨ o = 0x290 ∨ o = 0x298 → w = 0) ∧
      (o = 0x288 → w = BitVec.ofNat 32 s.part.depot.journal.tail) ∧
      (o = 0x28C → w = s.part.depot.identity.stagedTagLow) ∧
      (o = 0x294 → w = s.part.calendar.stagedDate) ∧
      ((0x19C ≤ o ∧ o < 0x1C0) ∨ (0x29C ≤ o ∧ o < 0x300) → w = 0) ∧
      -- Account table
      (∀ a : Fin 64,
        (o = 0x300 + 16 * a.val → w.toNat = (s.part.depot.account a).haulier.toNat +
          (s.part.depot.account a).openCount % 16 * 2 ^ 24 + (s.part.depot.account a).band.val * 2 ^ 28 +
          (if (s.part.depot.account a).manualHold = true then 2 ^ 30 else 0) +
          if (s.part.depot.account a).valid = true then 2 ^ 31 else 0) ∧
        (o = 0x304 + 16 * a.val → w = BitVec.ofNat 32 (s.part.depot.account a).limit) ∧
        (o = 0x308 + 16 * a.val → w = BitVec.ofNat 32 (s.part.depot.account a).balance) ∧
        (o = 0x30C + 16 * a.val → w.toNat = (s.part.depot.account a).count % 65536 +
          (s.part.depot.account a).period.toNat * 2 ^ 16)) ∧
      -- Session views
      (∀ (b : Fin 8) (y : Bay), y = s.part.depot.bay b →
        (o = 0x700 + 176 * b.val → w.toNat = y.session.state.code + holdCode y.session.hold * 2 ^ 4 +
          (y.session.closeReason.map CloseReason.code).getD 0 * 2 ^ 8 +
          (y.session.account.map fun r => r.cls.val).getD 0 * 2 ^ 12 +
          (y.session.account.map fun r => r.index.val).getD 0 * 2 ^ 16 +
          (if y.session.account.map AccountRef.bound = some true then 2 ^ 22 else 0) +
          (if y.session.operatorAdmitted = true then 2 ^ 24 else 0) +
          (if y.session.abandoned = true then 2 ^ 25 else 0) + y.session.lines.length % 8 * 2 ^ 28) ∧
        (o = 0x704 + 176 * b.val → w.toNat = y.session.tag.toNat % 2 ^ 32) ∧
        (o = 0x708 + 176 * b.val → w.toNat = y.session.tag.toNat / 2 ^ 32 + y.session.dropped % 65536 * 2 ^ 16) ∧
        (o = 0x70C + 176 * b.val → w = (y.session.start.map Calendar.dateWord).getD 0) ∧
        (o = 0x710 + 176 * b.val → w = (y.session.start.map Calendar.timeWord).getD 0) ∧
        (o = 0x714 + 176 * b.val → w.toNat = y.session.unusedFresh % 2 ^ 24) ∧
        (o = 0x718 + 176 * b.val → w.toNat = y.session.unusedReclaim % 2 ^ 24) ∧
        (o = 0x71C + 176 * b.val → w.toNat = y.silence.getD 0 % 65536 + y.hold.getD 0 % 65536 * 2 ^ 16) ∧
        (o = 0x734 + 176 * b.val → w.toNat = y.conflicting % 65536 + y.parkOverwrite % 65536 * 2 ^ 16) ∧
        (o = 0x720 + 176 * b.val →
          (w.getLsbD 0 = true ↔ ∃ c ∈ s.part.depot.journal.waiting, c.claimant = b.val) ∧
          bits w 4 3 = ((s.part.depot.journal.waiting.find? fun c => c.claimant = b.val).map Claim.size).getD 0 % 8 ∧
          w.getLsbD 8 = y.parked.isSome ∧ bits w 16 4 = (y.parked.map Parked.quality).getD 0 % 16 ∧
          bits w 24 8 = (y.parked.map Parked.sequence).getD 0 % 256) ∧
        (o = 0x724 + 176 * b.val → w.toNat = (y.parked.map fun r => r.tag.toNat % 2 ^ 32).getD 0) ∧
        (o = 0x728 + 176 * b.val → w.toNat = (y.parked.map fun r => r.tag.toNat / 2 ^ 32).getD 0) ∧
        (o = 0x72C + 176 * b.val → w = (y.parked.map fun r => r.stamp.dateWord).getD 0) ∧
        (o = 0x730 + 176 * b.val → w = (y.parked.map fun r => r.stamp.timeWord).getD 0) ∧
        (o = 0x7A8 + 176 * b.val ∨ o = 0x7AC + 176 * b.val → w = 0) ∧
        (∀ n : Fin 4, y.session.lines[n.val]? = none → 0x738 + 176 * b.val + 28 * n.val ≤ o →
          o < 0x754 + 176 * b.val + 28 * n.val → w = 0) ∧
        ∀ (n : Fin 4) (l : Line), y.session.lines[n.val]? = some l →
          (o = 0x738 + 176 * b.val + 28 * n.val → w = l.start.dateWord) ∧
          (o = 0x73C + 176 * b.val + 28 * n.val → w = l.start.timeWord) ∧
          (o = 0x740 + 176 * b.val + 28 * n.val → w = (l.stop.map Calendar.dateWord).getD 0) ∧
          (o = 0x744 + 176 * b.val + 28 * n.val → w = (l.stop.map Calendar.timeWord).getD 0) ∧
          (o = 0x748 + 176 * b.val + 28 * n.val → w.toNat = l.fresh % 2 ^ 24 + l.program.val * 2 ^ 24) ∧
          (o = 0x74C + 176 * b.val + 28 * n.val → w.toNat = l.conceded % 2 ^ 24 +
            (match l.outcome with
             | .run => 0
             | .refused r => 2 ^ 24 + r.code * 2 ^ 25) + if l.stop = none then 2 ^ 28 else 0) ∧
          (o = 0x750 + 176 * b.val + 28 * n.val → w.toNat = l.reclaim % 2 ^ 24)) ∧
      -- Identity cache view
      (∀ (n : Fin 32) (c : CacheEntry), c = s.part.depot.identity.cache[n] →
        (o = 0xC80 + 16 * n.val → w.toNat = c.tag.toNat % 2 ^ 32) ∧
        (o = 0xC84 + 16 * n.val → w.toNat = c.tag.toNat / 2 ^ 32) ∧
        (o = 0xC88 + 16 * n.val → w.toNat = c.slot % 65536) ∧
        (o = 0xC8C + 16 * n.val → w.toNat = c.account.val + c.cls.val * 2 ^ 8 +
          (if c.barred = true then 2 ^ 16 else 0) +
          (if n.val < s.part.depot.identity.pinCount then 2 ^ 17 else 0) + if c.valid = true then 2 ^ 31 else 0)) ∧
      -- Meter and water views
      (∀ m : Fin 20,
        (o = 0xE80 + 8 * m.val → w = BitVec.ofNat 32 (s.part.depot.water.meters[m].baseline.getD 0)) ∧
        (o = 0xE84 + 8 * m.val → w.toNat = (if s.part.depot.water.meters[m].baseline = none then 0 else 1) +
          (if s.part.depot.water.meters[m].faultPending = true then 2 else 0) +
          s.part.depot.water.meters[m].jumps % 65536 * 2 ^ 16)) ∧
      (o = 0xF20 → w = BitVec.ofNat 32 s.part.depot.water.level) ∧
      (o = 0xF24 → s.part.depot.water.turbidity ≤ 65535 → w.toNat = s.part.depot.water.turbidity) ∧
      (o = 0xF28 → bits w 0 3 = s.part.depot.water.quality.code ∧ w.getLsbD 3 = false ∧
        w.getLsbD 4 = s.part.depot.water.available ∧ bits w 5 3 = 0 ∧ bits w 8 2 = s.part.depot.water.stage.code ∧
        bits w 10 6 = 0 ∧ bits w 16 8 = s.part.depot.water.badSamples % 256 ∧ bits w 24 4 = 0 ∧
        (w.getLsbD 28 = true ↔ ∃ c ∈ s.part.depot.journal.waiting, c.claimant = 9) ∧
        (w.getLsbD 29 = true ↔ ∃ totals stamp, .quotaDay totals stamp true ∈ s.part.depot.journal.waiting) ∧
        bits w 30 2 = 0) ∧
      (o = 0xF2C → w.toNat = s.part.depot.water.qualityTimer.getD 0 % 65536) ∧
      (∀ k n, o = 0xF30 + 4 * k → [s.part.depot.water.totals.intake, s.part.depot.water.totals.makeup,
        s.part.depot.water.totals.returned, s.part.depot.water.totals.discharge, s.part.depot.water.totals.bayFresh,
        s.part.depot.water.totals.bayReclaim, s.part.depot.water.totals.concededFresh,
        s.part.depot.water.totals.unattributedFresh, s.part.depot.water.totals.unattributedReclaim][k]? = some n →
          w = BitVec.ofNat 32 n) ∧
      ∀ b : Fin 8,
        (o = 0xF54 + 8 * b.val → w.toNat = s.part.depot.water.unattributed[b].fresh % 2 ^ 24) ∧
        (o = 0xF58 + 8 * b.val → w.toNat = s.part.depot.water.unattributed[b].reclaim % 2 ^ 24)

/-- R19, R83: a permitted read of bay b's word of the GRANT window is answered from the part's state, with the fields
of R83 in the bits of R206; a read at any other offset returns zero. -/
def Obligations.GrantReadShowsTheBay : Prop :=
  ∀ (s : State) (addr : Addr) (req : Requester) (e : Fin 8), s.busFree → addr.toNat % 4 = 0 →
    s.part.path.classify addr = .window e .grant →
    s.part.path.windows[e].readPermit.getLsbD (Requester.code req) = true →
    ∃ t w, exec (.upstreamRead addr req) s = .next t ∧
      s.becomes { s.part with path := { s.part.path with done := [⟨.read addr req, w⟩] } } t ∧
      (∀ b : Fin 8, addr.toNat = s.part.path.windows[e].base.toNat * 4096 + 4 * b.val →
        bits w 0 3 = (s.part.depot.session b).state.code ∧
        bits w 3 3 = holdCode (s.part.depot.session b).hold ∧
        bits w 6 2 = ((s.part.depot.session b).account.map fun r => r.cls.val).getD 0 ∧
        bits w 8 4 = ((s.part.depot.session b).runningLine.map fun l => l.program.val).getD 0 ∧
        w.getLsbD 12 = (s.part.depot.session b).runningLine.isSome ∧
        bits w 13 3 = (s.part.depot.session b).lines.length % 8 ∧
        w.getLsbD 16 = decide (s.part.depot.water.stage = .normal) ∧
        w.getLsbD 17 = decide (s.part.depot.water.stage ≠ .exhausted) ∧
        w.getLsbD 18 = s.part.depot.water.available ∧
        bits w 19 2 = s.part.depot.water.stage.code ∧ bits w 21 3 = s.part.depot.water.quality.code ∧
        w.getLsbD 24 = s.part.calendar.now.isSet) ∧
      (s.part.path.windows[e].base.toNat * 4096 + 32 ≤ addr.toNat → w = 0)

/-- R17, R182: while the run state is CLEARING an access waits unclassified; once it is RUNNING the access held goes
on as if it had just arrived. That a command can stand for the resumption is the model's reading (log 3). -/
def Obligations.AccessWaitsThroughClearing : Prop :=
  (∀ s : State, s.part.store.run = .clearing → s.part.path.held = none → s.part.path.deferred = [] →
    (∀ (addr : Addr) (data : Word) (be : Enables) (req : Requester), addr.toNat % 4 = 0 →
      ∃ t, exec (.upstreamWrite addr data be req) s = .next t ∧
        s.becomes { s.part with path := { s.part.path with
          done := [], held := some (.clearing (.write addr data be req)) } } t) ∧
    ∀ (addr : Addr) (req : Requester), addr.toNat % 4 = 0 →
      ∃ t, exec (.upstreamRead addr req) s = .next t ∧
        s.becomes { s.part with path := { s.part.path with
          done := [], held := some (.clearing (.read addr req)) } } t) ∧
  ∀ s : State, s.part.store.run = .running → s.part.path.deferred = [] →
    (∀ (addr : Addr) (data : Word) (be : Enables) (req : Requester), addr.toNat % 4 = 0 →
      s.part.path.held = some (.clearing (.write addr data be req)) →
      ∃ t, exec .accessResumedAfterClearing s = .next t ∧
        exec (.upstreamWrite addr data be req)
          { s with part := { s.part with path := { s.part.path with held := none } } } = .next t) ∧
    ∀ (addr : Addr) (req : Requester), addr.toNat % 4 = 0 →
      s.part.path.held = some (.clearing (.read addr req)) →
      ∃ t, exec .accessResumedAfterClearing s = .next t ∧
        exec (.upstreamRead addr req)
          { s with part := { s.part with path := { s.part.path with held := none } } } = .next t

/-! ## The depot store -/

/-- R14, R176, R178, R179, R180: the drain of an entry whose byte enables cover whole halfwords writes those halfwords
with check bits that match and leaves every other byte and check bit. The drain of an entry with one byte of a
halfword enabled writes the whole word read, merged with the enabled bytes and with check bits that match, and leaves
every other word; a failing halfword found by the read half is latched with kind RMW and the entry's requester. The
entry leaves the queue. No access waits on the bus (DrainEndsTheWaits says what the end of a drain does to one that
waits). The lost bits of the operand are the model's (log 11). -/
def Obligations.DrainWritesTheEnabledBytes : Prop :=
  (∀ (s : State) (u : Upset) (e : PostedEntry) (rest : List PostedEntry), s.mem.wf = true →
    s.part.store.grant = some .drain → s.part.path.posted = e :: rest → s.part.path.held = none →
    s.part.path.deferred = [] → e.be.getLsbD 0 = e.be.getLsbD 1 → e.be.getLsbD 2 = e.be.getLsbD 3 →
    ∃ t o, exec (.postedDrainDone u) s = .next t ∧ t.pending = s.pending ∧
      PortOnly
        { s.part with
          path := { s.part.path with posted := rest, done := [] }
          store := { s.part.store with opportune := o } } t.part ∧
      (e.be.getLsbD 0 = true → t.mem.half (2 * (e.addr.toNat / 4)) = e.data.extractLsb' 0 16 ∧
        t.mem.halfFails (2 * (e.addr.toNat / 4)) = false) ∧
      (e.be.getLsbD 2 = true → t.mem.half (2 * (e.addr.toNat / 4) + 1) = e.data.extractLsb' 16 16 ∧
        t.mem.halfFails (2 * (e.addr.toNat / 4) + 1) = false) ∧
      (∀ x, x / 4 ≠ e.addr.toNat / 4 ∨ e.be.getLsbD (x % 4) = false → t.mem.byte x = s.mem.byte x) ∧
      ∀ h, h / 2 ≠ e.addr.toNat / 4 ∨ e.be.getLsbD (2 * (h % 2)) = false → t.mem.check h = s.mem.check h) ∧
  ∀ (s : State) (u : Upset) (e : PostedEntry) (rest : List PostedEntry), s.mem.wf = true →
    s.part.store.grant = some .drain → s.part.path.posted = e :: rest → s.part.path.held = none →
    s.part.path.deferred = [] → (e.be.getLsbD 0 ≠ e.be.getLsbD 1 ∨ e.be.getLsbD 2 ≠ e.be.getLsbD 3) →
    ∃ t, exec (.postedDrainDone u) s = .next t ∧
      t.part.path = { s.part.path with posted := rest, done := [] } ∧
      t.mem.readWord (e.addr.toNat / 4) =
        mergeBytes ((s.mem.lose (e.addr.toNat / 4) u).readWord (e.addr.toNat / 4)) e.data e.be ∧
      t.mem.wordFails (e.addr.toNat / 4) = none ∧
      (∀ x, x / 4 ≠ e.addr.toNat / 4 → t.mem.byte x = s.mem.byte x) ∧
      (∀ h, h / 2 ≠ e.addr.toNat / 4 → t.mem.check h = s.mem.check h) ∧
      ((s.mem.lose (e.addr.toNat / 4) u).wordFails (e.addr.toNat / 4) = none →
        t.part.store.latch = s.part.store.latch ∧ t.part.depot.notices = s.part.depot.notices) ∧
      ∀ halves, (s.mem.lose (e.addr.toNat / 4) u).wordFails (e.addr.toNat / 4) = some halves →
        t.part.depot.notices.isPending .storeParity = true ∧
        t.part.store.latch = (match s.part.store.latch with
          | none => some ⟨e.addr, halves, .rmw, some e.req, false⟩
          | some r => some { r with more := true })

/-- R15, R177: the data of an upstream read completes it, delivered as read; a failing word is latched with kind
UPSTREAM_READ and the read's requester. No later access waits for the bus. The lost bits of the operand are the
model's (log 11). -/
def Obligations.StoreReadReturnsTheWord : Prop :=
  ∀ (s : State) (u : Upset) (addr : Addr) (req : Requester), s.mem.wf = true →
    s.part.store.grant = some .upstreamRead → s.part.path.held = some (.claimed addr req) → s.part.path.deferred = [] →
    ∃ t, exec (.upstreamReadDone u) s = .next t ∧ t.pending = s.pending ∧
      t.part.path = { s.part.path with
        held := none
        done := [⟨.read addr req, (s.mem.lose (addr.toNat / 4) u).readWord (addr.toNat / 4)⟩] } ∧
      t.mem = s.mem.lose (addr.toNat / 4) u ∧
      (∀ x, x / 4 ≠ addr.toNat / 4 → t.mem.byte x = s.mem.byte x) ∧
      ((s.mem.lose (addr.toNat / 4) u).wordFails (addr.toNat / 4) = none →
        t.part.store.latch = s.part.store.latch ∧ t.part.depot.notices = s.part.depot.notices) ∧
      ∀ halves, (s.mem.lose (addr.toNat / 4) u).wordFails (addr.toNat / 4) = some halves →
        t.part.depot.notices.isPending .storeParity = true ∧
        t.part.store.latch = (match s.part.store.latch with
          | none => some ⟨addr, halves, .upstreamRead, some req, false⟩
          | some r => some { r with more := true })

/-- R173, R175: each expiry of the refresh interval raises the debt by one; at 8 it stays at 8 and REFRESH_LATE is
raised. In OPPORTUNE mode the last drain or read of a burst sets the opportune request, and at a debt below 4 the
refresh takes the port that nobody else claims. The lost bits of the operand are the model's (log 11). -/
def Obligations.RefreshFollowsIntervalAndTraffic : Prop :=
  (∀ s : State, s.part.path.deferred = [] →
    (s.part.store.debt < 8 → ∃ t, exec .refreshIntervalExpiry s = .next t ∧
      s.becomes { s.part with
        path := { s.part.path with done := [] }, store := { s.part.store with debt := s.part.store.debt + 1 } } t) ∧
    (s.part.store.debt = 8 → ∃ t, exec .refreshIntervalExpiry s = .next t ∧
      s.becomes { s.part with
        path := { s.part.path with done := [] }
        depot := { s.part.depot with
          notices := { s.part.depot.notices with pending := s.part.depot.notices.pending ||| 0x2000#16 } } } t)) ∧
  ∀ (s : State) (u : Upset), s.part.store.run = .running → s.part.store.mode = .opportune → s.part.store.debt < 4 →
    s.part.path.deferred = [] → s.part.depot.identity.fetch = none → s.part.depot.journal.writing = none →
    ((∃ e, s.part.path.posted = [e] ∧ s.part.path.held = none ∧ s.part.store.grant = some .drain) →
      ∃ t, exec (.postedDrainDone u) s = .next t ∧ t.part.store.opportune = true ∧
        t.part.store.grant = some .refresh) ∧
    ((∃ addr req, s.part.path.posted = [] ∧ s.part.path.held = some (.claimed addr req) ∧
        s.part.store.grant = some .upstreamRead) →
      ∃ t, exec (.upstreamReadDone u) s = .next t ∧ t.part.store.opportune = true ∧
        t.part.store.grant = some .refresh)

/-- R174: when a refresh ends the row counter advances by one, from 4095 to 0, the debt falls by one or stays at 0,
and the opportune request is cleared. Nothing else changes. -/
def Obligations.RowRefreshEndsUnderItsRule : Prop :=
  ∀ s : State, s.part.path.deferred = [] → s.part.store.grant = some .refresh → s.part.store.row ≤ 4095 →
    ∃ t, exec .rowRefreshEnd s = .next t ∧
      s.becomes { s.part with
        path := { s.part.path with done := [] }
        store := { s.part.store with
          row := if s.part.store.row = 4095 then 0 else s.part.store.row + 1
          debt := if s.part.store.debt = 0 then 0 else s.part.store.debt - 1
          opportune := false } } t

/-- R17, R181, R182: a clearing write writes zero with check bits 1 at the pointer, which advances by one; the write of
word 4,194,303 makes the run state RUNNING. The access that waited on the bus then goes on as if it had just arrived.
That it does so within the event of the last write, and after the grant of the port that this write frees, is the
model's choice (logs 3, 26). -/
def Obligations.ClearingWritesZeroWords : Prop :=
  ∀ (s : State) (x : Part), s.mem.wf = true → s.part.store.run = .clearing → s.part.store.grant = some .clearing →
    s.part.store.clearing < 4194304 →
    x = { s.part with
      path := { s.part.path with done := [] }
      store := { s.part.store with
        clearing := s.part.store.clearing + 1
        run := if s.part.store.clearing = 4194303 then .running else .clearing
        grant := none } } →
    ∃ t, exec .clearingWriteEnd s = .next t ∧
      (t.mem.readWord s.part.store.clearing = 0 ∧ t.mem.check (2 * s.part.store.clearing) = true ∧
        t.mem.check (2 * s.part.store.clearing + 1) = true ∧
        (∀ n, n / 4 ≠ s.part.store.clearing → t.mem.byte n = s.mem.byte n) ∧
        ∀ h, h / 2 ≠ s.part.store.clearing → t.mem.check h = s.mem.check h) ∧
      (s.part.path.deferred = [] ∨ s.part.path.held ≠ none →
        (s.part.store.clearing = 4194303 → ∀ a, s.part.path.held ≠ some (.clearing a)) →
        t.pending = s.pending ∧ PortOnly x t.part) ∧
      (s.part.store.clearing = 4194303 → s.part.path.deferred = [] → ∀ v : State,
        v = { s with mem := t.mem, part := ({ x with path := { x.path with held := none } } : Part).arbitrate } →
        (∀ (addr : Addr) (data : Word) (be : Enables) (req : Requester), addr.toNat % 4 = 0 →
          s.part.path.held = some (.clearing (.write addr data be req)) →
          exec (.upstreamWrite addr data be req) v = .next t) ∧
        ∀ (addr : Addr) (req : Requester), addr.toNat % 4 = 0 →
          s.part.path.held = some (.clearing (.read addr req)) → exec (.upstreamRead addr req) v = .next t)

/-- R172: the free port goes to the first waiting claimant in the order of the nine ranks, and to none where none
waits. The effective mode is SCHEDULED while the run state is CLEARING (R175); the walker claims a slot while no read
of its fetch is in progress and no posted entry lies in it (R46). -/
def Obligations.PortFollowsTheRanks : Prop :=
  ∀ p : Part, p.store.grant = none →
    p.arbitrate.store.grant =
      (if 4 ≤ p.store.debt then some .refresh
       else if p.store.run = .clearing then some .clearing
       else if 4 ≤ p.path.posted.length then some .drain
       else if p.path.held.map Held.isClaimed = some true then some .upstreamRead
       else if p.path.posted ≠ [] then some .drain
       else if 1 ≤ p.store.debt ∧ p.store.mode = .scheduled then some .refresh
       else
         match p.depot.identity.fetch with
         | some f =>
           if f.reading = false then some (.walker (f.base + 16 * ((f.home + f.position) % f.slotcount)))
           else if p.depot.journal.writing.isSome then some .journal
           else if p.store.mode = .opportune ∧ p.store.opportune = true then some .refresh
           else none
         | none =>
           if p.depot.journal.writing.isSome then some .journal
           else if p.store.mode = .opportune ∧ p.store.opportune = true then some .refresh
           else none)

/-! ## Vehicle identification -/

/-- R39, R45, R46, R54: the idle walker takes the head of the lookup queue and begins a fetch at the tag's home slot, in
the window in force; with no directory the fetch ends at once and the bay is held as DIRECTORY_FAULT. With an empty
queue it takes the pending preload, which stays pending through its fetch; with no directory the preload ends, refused
with NOT_FOUND at the second preload word's offset. The walker's claim for its next slot stands exactly while no
posted entry lies in that slot (the port has another owner here, so the claim is not granted at once). That the start
is an event of its own and that a command can stand for the claim are the model's readings (logs 3, 5). -/
def Obligations.WalkerStartsAFetchAndClaimsItsSlot : Prop :=
  (∀ (s : State) (l : Lookup) (rest : List Lookup), s.part.path.deferred = [] →
    s.part.depot.identity.fetch = none → s.part.depot.identity.discarded = false →
    s.part.depot.identity.lookups = l :: rest →
    (∀ base size, s.part.path.windowOf .directory = some (base, size) →
      ∃ t, exec .fetchStart s = .next t ∧
        s.becomes { s.part with
          path := { s.part.path with done := [] }
          depot := { s.part.depot with
            identity := { s.part.depot.identity with
              lookups := rest
              fetch := some
                { purpose := .lookup l.bay, tag := l.tag, base := base, slotcount := size / 16
                  home := ((l.tag.toNat % 65536) ^^^ (l.tag.toNat / 65536 % 65536) ^^^ (l.tag.toNat / 4294967296)) %
                    (size / 16) } } } } t) ∧
    (s.part.path.windowOf .directory = none → (s.part.depot.session l.bay).state = .lookup →
      (s.part.depot.session l.bay).tag = l.tag →
      ∃ t, exec .fetchStart s = .next t ∧
        s.becomes { s.part with
          path := { s.part.path with done := [] }
          depot := { s.part.depot with
            identity := { s.part.depot.identity with lookups := rest }
            sessions := { s.part.depot.sessions with
              bays := s.part.depot.sessions.bays.set l.bay
                { s.part.depot.bay l.bay with
                  session := { s.part.depot.session l.bay with state := .held, hold := some .directoryFault }
                  hold := some (2 * s.part.depot.sessions.holdLimit) } }
            notices := { s.part.depot.notices with pending := s.part.depot.notices.pending ||| 8#16 } } } t)) ∧
  (∀ (s : State) (pl : Preload) (x : Part), s.part.path.deferred = [] → s.part.depot.identity.fetch = none →
    s.part.depot.identity.discarded = false → s.part.depot.identity.lookups = [] →
    s.part.depot.identity.preload = some pl → x = { s.part with path := { s.part.path with done := [] } } →
    (∀ base size, s.part.path.windowOf .directory = some (base, size) →
      ∃ t, exec .fetchStart s = .next t ∧
        s.becomes
          (x.withIdentity
            { s.part.depot.identity with
              fetch := some
                { purpose := .preload, tag := pl.tag, base := base, slotcount := size / 16
                  home := ((pl.tag.toNat % 65536) ^^^ (pl.tag.toNat / 65536 % 65536) ^^^ (pl.tag.toNat / 4294967296)) %
                    (size / 16) } }) t) ∧
    (s.part.path.windowOf .directory = none →
      ∃ t, exec .fetchStart s = .next t ∧
        s.becomes (Part.afterRefusal 0x290 .notFound (x.withIdentity { s.part.depot.identity with preload := none }))
          t)) ∧
  ∀ (s : State) (f : Fetch) (g : Grant), s.part.path.deferred = [] → s.part.store.grant = some g →
    s.part.depot.identity.fetch = some f → f.reading = false →
    ∃ t, exec .walkerClaimAfterDrain s = .next t ∧ t.pending = s.pending ∧ t.mem = s.mem ∧
      t.part = { s.part with
        path := { s.part.path with done := [] }
        depot := { s.part.depot with
          identity := { s.part.depot.identity with
            fetch := some { f with
              claimed := decide (∀ e ∈ s.part.path.posted,
                ¬ (f.base + 16 * ((f.home + f.position) % f.slotcount) ≤ e.addr.toNat ∧
                  e.addr.toNat < f.base + 16 * ((f.home + f.position) % f.slotcount) + 16)) } } } }

/-- R42, R47, R48, R50, R55, R56: what a completed slot read of a lookup fetch does, by the first case that holds: a
parity error holds the bay as DIRECTORY_FAULT; a pending restart returns to the home slot, or holds it as
DIRECTORY_BUSY at the fourth; a match fills the entry that holds the tag, else the one at the victim pointer, and
delivers the evaluated outcome; an invalid slot, or another tag at position 3, holds it as UNKNOWN; another tag before
position 3 moves the probe on. A withdrawn fetch fills alike and delivers nothing.
R45, R52, R60, R177, R180: a failing word of any slot read, one that is discarded included, raises STORE_PARITY and
stands in the latch; the return of a read whose fetch was abandoned does nothing more but end the wait for it. The
lost bits of the operand are the model's (log 11). -/
def Obligations.SlotReadEndsOrMovesTheFetch : Prop :=
  (∀ (s : State) (a : Nat) (u : SlotUpset) (m : Memory), s.part.path.deferred = [] →
    s.part.store.grant = some (.walker a) → m = s.mem.loseSlot a u →
    ∃ t x, exec (.slotReadComplete u) s = .next t ∧
      Part.slotReported m a { s.part with path := { s.part.path with done := [] } } x ∧
      t.part.store.latch = x.store.latch ∧
      (s.part.depot.identity.fetch = none ∨
          (∃ f, s.part.depot.identity.fetch = some f ∧ f.reading = false) →
        ({ s with mem := m } : State).becomes
          (x.withIdentity { s.part.depot.identity with discarded := false }) t)) ∧
  ∀ (s : State) (a : Nat) (u : SlotUpset) (f : Fetch) (b : Fin 8) (m : Memory) (w0 w1 : Word),
    s.part.path.deferred = [] → s.part.store.grant = some (.walker a) → s.part.depot.identity.fetch = some f →
    f.reading = true → f.purpose = .lookup b →
    (f.withdrawn = false → (s.part.depot.session b).state = .lookup ∧ (s.part.depot.session b).tag = f.tag) →
    m = s.mem.loseSlot a u → w0 = m.readWord (a / 4) → w1 = m.readWord (a / 4 + 1) →
    ∃ t, exec (.slotReadComplete u) s = .next t ∧ t.mem = m ∧ t.part.path = { s.part.path with done := [] } ∧
      (∀ c : Fin 8, c ≠ b → t.part.depot.bay c = s.part.depot.bay c) ∧
      (f.withdrawn = true → t.part.depot.sessions = s.part.depot.sessions ∧
        t.part.depot.charge = s.part.depot.charge) ∧
      ((∃ i : Fin 4, m.wordFails (a / 4 + i.val) ≠ none) →
        t.part.depot.identity.fetch = none ∧ t.part.depot.identity.cache = s.part.depot.identity.cache ∧
        t.part.depot.notices.isPending .storeParity = true ∧
        (f.withdrawn = false → (t.part.depot.session b).state = .held ∧
          (t.part.depot.session b).hold = some .directoryFault)) ∧
      ((∀ i : Fin 4, m.wordFails (a / 4 + i.val) = none) →
        (f.restartPending = true →
          t.part.depot.identity.cache = s.part.depot.identity.cache ∧
          (f.restarts < 3 →
            t.part.depot.identity.fetch.map Fetch.quiet =
              some { f with
                restarts := f.restarts + 1, restartPending := false, position := 0, reading := false
                claimed := false } ∧
            t.part.depot.sessions = s.part.depot.sessions) ∧
          (3 ≤ f.restarts →
            t.part.depot.identity.fetch = none ∧
            (f.withdrawn = false → (t.part.depot.session b).state = .held ∧
              (t.part.depot.session b).hold = some .directoryBusy))) ∧
        (f.restartPending = false →
          (w1.getLsbD 24 = false ∨ (tagOf w0 (bits w1 0 16) ≠ f.tag ∧ 3 ≤ f.position) →
            t.part.depot.identity.fetch = none ∧ t.part.depot.identity.cache = s.part.depot.identity.cache ∧
            (f.withdrawn = false → (t.part.depot.session b).state = .held ∧
              (t.part.depot.session b).hold = some .unknown)) ∧
          (w1.getLsbD 24 = true → tagOf w0 (bits w1 0 16) ≠ f.tag → f.position < 3 →
            t.part.depot.identity.fetch.map Fetch.quiet =
              some { f with position := f.position + 1, reading := false, claimed := false } ∧
            t.part.depot.identity.cache = s.part.depot.identity.cache ∧
            t.part.depot.sessions = s.part.depot.sessions) ∧
          (w1.getLsbD 24 = true → tagOf w0 (bits w1 0 16) = f.tag → ∀ x : CacheEntry,
            x = ⟨true, f.tag, (f.home + f.position) % f.slotcount, Fin.ofNat 64 (bits w1 16 6),
              Fin.ofNat 4 (bits w1 22 2), w1.getLsbD 25⟩ →
            t.part.depot.identity.fetch = none ∧
            ((∀ n : Fin 32, s.part.depot.identity.cache[n].valid = true →
                s.part.depot.identity.cache[n].tag ≠ f.tag) →
              ∀ v : Fin 32, s.part.depot.identity.victim = v.val →
                t.part.depot.identity.cache = s.part.depot.identity.cache.set v x ∧
                t.part.depot.identity.victim =
                  (if v.val = 31 then s.part.depot.identity.pinCount else v.val + 1)) ∧
            (∀ n : Fin 32, s.cacheOk → s.part.depot.identity.cache[n].valid = true →
              s.part.depot.identity.cache[n].tag = f.tag →
              t.part.depot.identity.cache = s.part.depot.identity.cache.set n x ∧
              t.part.depot.identity.victim = s.part.depot.identity.victim) ∧
            (f.withdrawn = false → ∀ hold : Option HoldReason,
              hold = s.part.depot.holdOf b f.tag x.barred x.account →
              t.part.depot.bay b =
                { s.part.depot.bay b with
                  session := { s.part.depot.session b with
                    state := if hold = none then .admitted else .held
                    hold := hold
                    account := some ⟨x.account, x.cls, (s.part.depot.account x.account).valid⟩ }
                  hold := if hold = none then none else some (2 * s.part.depot.sessions.holdLimit)
                  silence := if hold = none then some (2 * s.part.depot.sessions.silenceLimit)
                    else (s.part.depot.bay b).silence } ∧
              (hold ≠ none → t.part.depot.notices.isPending .holdRaised = true) ∧
              ∀ y : Fin 64, t.part.depot.account y =
                { s.part.depot.account y with
                  openCount := (s.part.depot.account y).openCount +
                    if y = x.account ∧ (s.part.depot.account y).valid = true then 1 else 0 }))))

/-- R47, R50, R54: what a completed slot read of the preload's fetch does. A hit with the index still below P fills
that pinned entry and invalidates every other entry of the tag, without a notice; the victim pointer stands. With the
index now P or more the preload is refused with OUT_OF_RANGE, and after a miss, a parity error or a fourth restart
with NOT_FOUND, at the second preload word's offset. The preload ends with its fetch, and stays pending while the
probe moves on or returns to the home slot. The lost bits of the operand are the model's (log 11). -/
def Obligations.PreloadFetchFillsThePinnedEntry : Prop :=
  ∀ (s : State) (a : Nat) (u : SlotUpset) (f : Fetch) (pl : Preload) (m : Memory) (w0 w1 : Word),
    s.part.path.deferred = [] → s.part.store.grant = some (.walker a) → s.part.depot.identity.fetch = some f →
    f.reading = true → f.purpose = .preload → s.part.depot.identity.preload = some pl →
    m = s.mem.loseSlot a u → w0 = m.readWord (a / 4) → w1 = m.readWord (a / 4 + 1) →
    ∃ t, exec (.slotReadComplete u) s = .next t ∧ t.mem = m ∧ t.part.path = { s.part.path with done := [] } ∧
      t.part.depot.sessions = s.part.depot.sessions ∧ t.part.depot.charge = s.part.depot.charge ∧
      t.part.depot.identity.victim = s.part.depot.identity.victim ∧
      t.part.depot.identity.lookups = s.part.depot.identity.lookups ∧
      ((∀ i : Fin 4, m.wordFails (a / 4 + i.val) = none) →
        (f.restartPending = false → w1.getLsbD 24 = true → tagOf w0 (bits w1 0 16) = f.tag →
          t.part.depot.identity.fetch = none ∧ t.part.depot.identity.preload = none ∧
          (∀ v : Fin 32, pl.index = v.val → pl.index < s.part.depot.identity.pinCount →
            (∀ n : Fin 32, t.part.depot.identity.cache[n] =
              if n = v then
                ⟨true, f.tag, (f.home + f.position) % f.slotcount, Fin.ofNat 64 (bits w1 16 6),
                  Fin.ofNat 4 (bits w1 22 2), w1.getLsbD 25⟩
              else
                { s.part.depot.identity.cache[n] with
                  valid := s.part.depot.identity.cache[n].valid && s.part.depot.identity.cache[n].tag != f.tag }) ∧
            t.part.depot.notices = s.part.depot.notices) ∧
          (s.part.depot.identity.pinCount ≤ pl.index →
            t.part.depot.identity.cache = s.part.depot.identity.cache ∧
            t.part.depot.notices =
              { s.part.depot.notices with
                pending := s.part.depot.notices.pending ||| 4#16
                refusal := match s.part.depot.notices.refusal with
                  | none => some ⟨0x290, .outOfRange, false⟩
                  | some r => some { r with more := true } })) ∧
        (f.restartPending = false → w1.getLsbD 24 = true → tagOf w0 (bits w1 0 16) ≠ f.tag → f.position < 3 →
          t.part.depot.identity.fetch.map Fetch.quiet =
            some { f with position := f.position + 1, reading := false, claimed := false } ∧
          t.part.depot.identity.preload = some pl ∧ t.part.depot.identity.cache = s.part.depot.identity.cache) ∧
        (f.restartPending = true → f.restarts < 3 →
          t.part.depot.identity.fetch.map Fetch.quiet =
            some { f with
              restarts := f.restarts + 1, restartPending := false, position := 0, reading := false, claimed := false } ∧
          t.part.depot.identity.preload = some pl ∧ t.part.depot.identity.cache = s.part.depot.identity.cache)) ∧
      ((∃ i : Fin 4, m.wordFails (a / 4 + i.val) ≠ none) ∨
          (f.restartPending = true ∧ 3 ≤ f.restarts) ∨
          (f.restartPending = false ∧
            (w1.getLsbD 24 = false ∨ (tagOf w0 (bits w1 0 16) ≠ f.tag ∧ 3 ≤ f.position))) →
        t.part.depot.identity.fetch = none ∧ t.part.depot.identity.preload = none ∧
        t.part.depot.identity.cache = s.part.depot.identity.cache ∧
        t.part.depot.notices.isPending .configRefused = true ∧
        t.part.depot.notices.refusal =
          match s.part.depot.notices.refusal with
          | none => some ⟨0x290, .notFound, false⟩
          | some r => some { r with more := true })

/-- R49, R50: a posted write into slot s of the directory invalidates every valid cache entry that names the slot,
keeps its other fields, and raises PIN_DROPPED exactly where a pinned one was valid. A fetch whose probe range holds
the slot is to restart once its read in progress completes; with no read in progress it returns to its home slot, or
at the fourth restart ends as DIRECTORY_BUSY, which for the preload is a refusal with NOT_FOUND. Any other fetch goes
on. -/
def Obligations.DirectoryWriteInvalidatesTheSlot : Prop :=
  ∀ (s : State) (addr : Addr) (data : Word) (be : Enables) (req : Requester) (e : Fin 8) (slot : Nat)
    (pending : Causes),
    s.ready → addr.toNat % 4 = 0 → be ≠ 0 → s.part.path.classify addr = .window e .directory →
    s.part.path.windows[e].writePermit.getLsbD (Requester.code req) = true →
    slot = (addr.toNat - s.part.path.windows[e].base.toNat * 4096) / 16 →
    pending =
      (if ∃ n : Fin 32, n.val < s.part.depot.identity.pinCount ∧ s.part.depot.identity.cache[n].valid = true ∧
          s.part.depot.identity.cache[n].slot = slot
        then s.part.depot.notices.pending ||| 0x4000#16 else s.part.depot.notices.pending) →
    ∃ t, exec (.upstreamWrite addr data be req) s = .next t ∧ t.mem = s.mem ∧
      t.part.path = (s.part.withPosted ⟨addr, data, be, req, .window e .directory⟩).path ∧
      (∀ n : Fin 32, t.part.depot.identity.cache[n] =
        { s.part.depot.identity.cache[n] with
          valid := s.part.depot.identity.cache[n].valid && s.part.depot.identity.cache[n].slot != slot }) ∧
      t.part.depot.identity.lookups = s.part.depot.identity.lookups ∧
      t.part.depot.charge = s.part.depot.charge ∧ t.part.depot.water = s.part.depot.water ∧
      t.part.depot.journal = s.part.depot.journal ∧
      (s.part.depot.identity.fetch = none →
        t.part.depot.identity.fetch = none ∧ t.part.depot.notices = { s.part.depot.notices with pending := pending } ∧
        t.part.depot.sessions = s.part.depot.sessions) ∧
      ∀ f, s.part.depot.identity.fetch = some f →
        (¬ ((∃ i : Fin 4, (f.home + i.val) % f.slotcount = slot) ∧ f.reading = false ∧ 3 ≤ f.restarts) →
          t.part.depot.identity.fetch.map Fetch.quiet =
            some (if ∃ i : Fin 4, (f.home + i.val) % f.slotcount = slot then
              if f.reading = true then { f with restartPending := true, reading := false, claimed := false }
              else
                { f with
                  restarts := f.restarts + 1, restartPending := false, position := 0, reading := false
                  claimed := false }
              else { f with reading := false, claimed := false }) ∧
          t.part.depot.identity.preload = s.part.depot.identity.preload ∧
          t.part.depot.notices = { s.part.depot.notices with pending := pending } ∧
          t.part.depot.sessions = s.part.depot.sessions) ∧
        ((∃ i : Fin 4, (f.home + i.val) % f.slotcount = slot) → f.reading = false → 3 ≤ f.restarts →
          t.part.depot.identity.fetch = none ∧
          (f.purpose = .preload →
            t.part.depot.identity.preload = none ∧ t.part.depot.sessions = s.part.depot.sessions ∧
            t.part.depot.notices.pending = pending ||| 4#16 ∧
            t.part.depot.notices.refusal =
              match s.part.depot.notices.refusal with
              | none => some ⟨0x290, .notFound, false⟩
              | some r => some { r with more := true }) ∧
          ∀ b : Fin 8, f.purpose = .lookup b →
            (f.withdrawn = true → t.part.depot.sessions = s.part.depot.sessions ∧
              t.part.depot.notices = { s.part.depot.notices with pending := pending }) ∧
            (f.withdrawn = false → (s.part.depot.session b).state = .lookup → (s.part.depot.session b).tag = f.tag →
              t.part.depot.sessions =
                { s.part.depot.sessions with
                  bays := s.part.depot.sessions.bays.set b
                    { s.part.depot.bay b with
                      session := { s.part.depot.session b with state := .held, hold := some .directoryBusy }
                      hold := some (2 * s.part.depot.sessions.holdLimit) } } ∧
              t.part.depot.notices = { s.part.depot.notices with pending := pending ||| 8#16 }))

/-- R6, R35, R52: what a taken window commit leaves behind. One that changes the entry's permit sets alone changes
nothing else. A record window that is disabled, moved, resized or taken over by another kind loses its open assembly
without a reject. A changed DIRECTORY window abandons the fetch, holds every bay that waits for a result as
DIRECTORY_FAULT, empties the lookup queue, ends a preload with a refusal as NOT_FOUND and invalidates the whole cache,
with PIN_DROPPED where a pinned entry was valid; the victim pointer is P. Nothing is emptied for GRANT, GUARDED or an
entry that was disabled. That this holds of an entry which is enabled as the first DIRECTORY window while lookups are
queued is the model's choice: they stay queued (log 19). A JOURNAL window put in force sets head and tail to 0 (R135).
The command is a bus write of the item's word (log 2). -/
def Obligations.ChangedWindowEmptiesItsUnit : Prop :=
  ∀ (s : State) (e : Fin 8) (data : Word) (be : Enables) (old w : WindowEntry) (y x : Part), s.ready → be ≠ 0 →
    old = s.part.path.windows[e] → w = windowEntryOf s.part.path.staged[e] (mergeBytes old.second data be) →
    s.part.path.allows e w →
    y =
      { s.afterControl (0x104 + 8 * e.val) data be .maint with
        path := { (s.afterControl (0x104 + 8 * e.val) data be .maint).path with
          windows := s.part.path.windows.set e w } } →
    x =
      { y with
        depot := { s.part.depot with
          journal := { s.part.depot.journal with
            head := if w.enabled = true ∧ w.kind = 5 then 0 else s.part.depot.journal.head
            tail := if w.enabled = true ∧ w.kind = 5 then 0 else s.part.depot.journal.tail } } } →
    (old.sameExtent w → ∃ t, exec (.windowCommit e data be .maint) s = .next t ∧ s.becomes y t) ∧
    (¬ old.sameExtent w →
      (w.enabled = true → w.kind = 5 →
        s.part.depot.journal.head = s.part.depot.journal.tail ∧ s.part.depot.journal.writing = none) →
      (old.enabled = false ∨ old.kind = 6 ∨ old.kind = 7 →
        ∃ t, exec (.windowCommit e data be .maint) s = .next t ∧ s.becomesOrWrites x t) ∧
      (∀ kind : RecordKind, old.enabled = true → windowKindOf old.kind = some kind.windowKind →
        ∃ t, exec (.windowCommit e data be .maint) s = .next t ∧
          s.becomesOrWrites { x with capture := s.part.capture.withoutAssembly kind } t) ∧
      (old.enabled = true → old.kind = 4 →
        ∃ t bays cache, ∃ held ended dropped reading : Bool, exec (.windowCommit e data be .maint) s = .next t ∧
          (∀ b : Fin 8, (s.part.depot.awaitsDirectory b → bays[b] = s.part.depot.faultedBay b) ∧
            (¬ s.part.depot.awaitsDirectory b → bays[b] = s.part.depot.bay b)) ∧
          (∀ n : Fin 32, cache[n] = { s.part.depot.identity.cache[n] with valid := false }) ∧
          (held = true ↔ ∃ b, s.part.depot.awaitsDirectory b) ∧
          (ended = true ↔ s.part.depot.identity.preload ≠ none ∨
            ∃ f, s.part.depot.identity.fetch = some f ∧ f.purpose = .preload) ∧
          (dropped = true ↔ ∃ n : Fin 32, n.val < s.part.depot.identity.pinCount ∧
            s.part.depot.identity.cache[n].valid = true) ∧
          (reading = true ↔ ∃ f, s.part.depot.identity.fetch = some f ∧ f.reading = true) ∧
          s.becomesOrWrites
            { x with
              depot := { x.depot with
                sessions := { s.part.depot.sessions with bays := bays }
                identity := { s.part.depot.identity with
                  cache := cache, victim := s.part.depot.identity.pinCount, lookups := [], fetch := none
                  preload := none, discarded := s.part.depot.identity.discarded || reading }
                notices := { s.part.depot.notices with
                  pending := s.part.depot.notices.pending ||| (if held then 8#16 else 0) |||
                    (if ended then 4#16 else 0) ||| (if dropped then 0x4000#16 else 0)
                  refusal := if ended = true then
                      match s.part.depot.notices.refusal with
                      | none => some ⟨0x290, .notFound, false⟩
                      | some r => some { r with more := true }
                    else s.part.depot.notices.refusal } } } t))

/-! ## Records: visits and wash water -/

/-- R22, R23, R24, R25, R26, R27, R29: what a write into a record window does to its assembly where no record is
taken. A write into another slot abandons the open assembly as TORN; the write is merged into the assembly of its
slot, or into a fresh one. While word 3 is not whole the assembly stays open. A slot completed without one of words 0
to 2 is TORN; a record whose checksum fails is CHECK, and one whose fields are out of range RANGE: each closes the
assembly, counts at its counter, which stops at 65535, and raises RECORD_REJECT. -/
def Obligations.RecordWritesAreGatheredOrRejected : Prop :=
  ∀ (s : State) (addr : Addr) (data : Word) (be : Enables) (req : Requester) (kind : RecordKind) (slot torn : Nat)
    (abandoned : Bool) (new : Assembly) (w : CaptureWindow) (update : CaptureWindow → Part),
    s.Gathers kind addr data be req slot abandoned new → w = s.part.capture.window kind →
    torn = (if abandoned = true then min 65535 (w.torn + 1) else w.torn) →
    update = (fun y => { s.part.withPosted ⟨addr, data, be, req, s.part.path.classify addr⟩ with
      capture := s.part.capture.setWindow kind y }) →
    (new.seen[(3 : Fin 4)] ≠ 0xF#4 →
      ∃ t, exec (.upstreamWrite addr data be req) s = .next t ∧
        s.becomes ((update { w with assembly := some new, torn := torn }).withPending
          (if abandoned = true then 1#16 else 0)) t) ∧
    (new.seen[(3 : Fin 4)] = 0xF#4 →
      ((∃ m : Fin 4, new.seen[m] ≠ 0xF#4) →
        ∃ t, exec (.upstreamWrite addr data be req) s = .next t ∧
          s.becomes ((update { w with assembly := none, torn := min 65535 (torn + 1) }).withPending 1#16) t) ∧
      ((∀ m : Fin 4, new.seen[m] = 0xF#4) → recordSum new.words % 65536 ≠ 0 →
        ∃ t, exec (.upstreamWrite addr data be req) s = .next t ∧
          s.becomes ((update { w with assembly := none, torn := torn, check := min 65535 (w.check + 1) }).withPending
            1#16) t) ∧
      ((∀ m : Fin 4, new.seen[m] = 0xF#4) → recordSum new.words % 65536 = 0 →
        kind.fails s.part.capture.minQuality new.words →
        ∃ t, exec (.upstreamWrite addr data be req) s = .next t ∧
          s.becomes ((update { w with assembly := none, torn := torn, range := min 65535 (w.range + 1) }).withPending
            1#16) t))

/-- R30, R32, R36, R43, R55, R61, R64 to R67, R118: the write that completes an IDENTITY record with a good checksum
and quality takes it, and it stands as the last identity record. What it does goes by the state of the bay's session.
In VACANT the arrival is searched in the cache: it enters LOOKUP, or is ADMITTED or HELD by its evaluation. In LOOKUP,
HELD, ADMITTED and WASHING a repeat of the session's tag is ignored, and another tag advances the bay's CONFLICTING
counter alone. In CLOSING the record is parked with its stamp; one that it replaces advances PARK_OVERWRITE. Both
counters stop at 65535. -/
def Obligations.IdentityRecordStartsAVisit : Prop :=
  ∀ (s : State) (addr : Addr) (data : Word) (be : Enables) (req : Requester) (slot : Nat) (r : Vector Word 4)
    (b : Fin 8) (tag : Tag) (x : Part) (y : Bay), s.Completes .identity addr data be req slot r →
    firstByte r = b.val → secondByte r ≤ 15 → s.part.capture.minQuality ≤ secondByte r →
    tag.toNat = r[(1 : Fin 4)].toNat + r[(2 : Fin 4)].toNat % 65536 * 4294967296 → y = s.part.depot.bay b →
    x = { s.recordTaken .identity addr data be req slot with
      capture := { s.part.capture.withTaken .identity slot with
        lastIdentity := some ⟨b, secondByte r, thirdByte r⟩ } } →
    (y.session.state = .vacant →
      ∃ t q, exec (.upstreamWrite addr data be req) s = .next t ∧ x.arrived b tag s.part.calendar.now q ∧
        s.becomesOrWrites q t) ∧
    (y.session.state = .lookup ∨ y.session.state = .held ∨ y.session.state = .admitted ∨
        y.session.state = .washing →
      (y.session.tag = tag → ∃ t, exec (.upstreamWrite addr data be req) s = .next t ∧ s.becomesOrWrites x t) ∧
      (y.session.tag ≠ tag →
        ∃ t, exec (.upstreamWrite addr data be req) s = .next t ∧
          s.becomesOrWrites (x.withBay b { y with conflicting := min 65535 (y.conflicting + 1) }) t)) ∧
    (y.session.state = .closing →
      ∃ t, exec (.upstreamWrite addr data be req) s = .next t ∧
        s.becomesOrWrites
          (x.withBay b
            { y with
              parked := some ⟨tag, secondByte r, thirdByte r, s.part.calendar.now⟩
              parkOverwrite := if y.parked = none then y.parkOverwrite else min 65535 (y.parkOverwrite + 1) }) t)

/-- R34, R62, R73, R74, R75: what a taken PROGRAM_START, PROGRAM_END or BAY_ALIVE record does. In ADMITTED and WASHING
it restarts the silence timer; the running line ends at the record's stamp where a program ends or starts; a start
adds one line, RUN or REFUSED by its judgement, or is dropped where the list holds four. In every other state it is
ignored. -/
def Obligations.BayRecordsKeepTheProgramList : Prop :=
  ∀ (s : State) (addr : Addr) (data : Word) (be : Enables) (req : Requester) (slot : Nat) (r : Vector Word 4)
    (b : Fin 8) (x : Part) (y : Bay) (ended : List Line), s.Completes .bay addr data be req slot r →
    firstByte r = b.val → x = s.recordTaken .bay addr data be req slot → y = s.part.depot.bay b →
    ended = (y.session.lines.map fun l => if l.stop = none then { l with stop := some s.part.calendar.now } else l) →
    (y.session.state ≠ .admitted → y.session.state ≠ .washing →
      (secondByte r = 1 ∧ thirdByte r ≤ 15) ∨ secondByte r = 2 ∨ secondByte r = 4 →
      ∃ t, exec (.upstreamWrite addr data be req) s = .next t ∧ s.becomesOrWrites x t) ∧
    (y.session.state = .admitted ∨ y.session.state = .washing →
      (secondByte r = 4 →
        ∃ t, exec (.upstreamWrite addr data be req) s = .next t ∧
          s.becomesOrWrites
            (x.withBay b { y with silence := some (2 * s.part.depot.sessions.silenceLimit) }) t) ∧
      (secondByte r = 2 →
        ∃ t, exec (.upstreamWrite addr data be req) s = .next t ∧
          s.becomesOrWrites
            (x.withBay b
              { y with
                silence := some (2 * s.part.depot.sessions.silenceLimit)
                session := { y.session with state := .admitted, lines := ended } }) t) ∧
      (∀ p : Fin 16, secondByte r = 1 → thirdByte r = p.val →
        (4 ≤ y.session.lines.length →
          ∃ t, exec (.upstreamWrite addr data be req) s = .next t ∧
            s.becomesOrWrites
              (x.withBay b
                { y with
                  silence := some (2 * s.part.depot.sessions.silenceLimit)
                  session := { y.session with
                    state := .admitted, lines := ended, dropped := min 65535 (y.session.dropped + 1) } }) t) ∧
        (y.session.lines.length < 4 → ∀ o : LineOutcome,
          o = (if s.part.depot.charge.programs[p].enabled = false then .refused .disabled
               else if s.part.depot.charge.programs[p].freshRequired = true then
                 if s.part.depot.water.stage = .exhausted then .refused .quota else .run
               else if s.part.depot.water.stage = .normal ∨ s.part.depot.water.available = true then .run
               else .refused .noWater) →
          ∃ t, exec (.upstreamWrite addr data be req) s = .next t ∧
            s.becomesOrWrites
              (x.withBay b
                { y with
                  silence := some (2 * s.part.depot.sessions.silenceLimit)
                  session := { y.session with
                    state := if o = .run then .washing else .admitted
                    lines := ended ++
                      [{ program := p, outcome := o, start := s.part.calendar.now
                         stop := if o = .run then none else some s.part.calendar.now }] } }) t)))

/-- R34, R70, R71, R73, R75, R80, R81, R82, R129, R142, R144: a taken VEHICLE_EXIT record closes the session, with
reason DEPARTED from LOOKUP and HELD and EXIT from ADMITTED and WASHING, and is ignored in VACANT and CLOSING. The
running line ends, both timers stop, a lookup is withdrawn, and one claim is placed: for a TURNED_AWAY record from
LOOKUP and HELD; else for a VOID record where no line is RUN, and one CHARGE record for each RUN line. A claim that
does not fit waits, with JOURNAL_STALLED. One that fits, where no other waits, is admitted within this event (log 3):
its records are queued, the charges applied, and the bay is VACANT, or takes its parked arrival. -/
def Obligations.VehicleExitClosesTheVisit : Prop :=
  ∀ (s : State) (addr : Addr) (data : Word) (be : Enables) (req : Requester) (slot : Nat) (r : Vector Word 4)
    (b : Fin 8) (x : Part) (y : Bay), s.Completes .bay addr data be req slot r → firstByte r = b.val →
    secondByte r = 3 → x = s.recordTaken .bay addr data be req slot → y = s.part.depot.bay b →
    (y.session.state = .vacant ∨ y.session.state = .closing →
      ∃ t, exec (.upstreamWrite addr data be req) s = .next t ∧ s.becomesOrWrites x t) ∧
    (y.session.state = .lookup ∨ y.session.state = .held →
      ∃ t q, exec (.upstreamWrite addr data be req) s = .next t ∧ x.closed b .departed s.part.calendar.now q ∧
        s.becomesOrWrites q t) ∧
    (y.session.state = .admitted ∨ y.session.state = .washing →
      ∃ t q, exec (.upstreamWrite addr data be req) s = .next t ∧ x.closed b .exit s.part.calendar.now q ∧
        s.becomesOrWrites q t)

/-- R33, R88, R89, R90, R98, R106, R107: what a taken METER record does at its meter. The first sample sets the
baseline alone. A later one forms its delta modulo 4,294,967,296; above the jump limit it moves the baseline, counts a
jump and, unless a fault is pending, sets that flag, raises METER_FAULT and claims its record. That claim waits, or is
admitted within this event, which clears the flag again (R91, R142; log 3). An applied delta of meters 16 to 19 joins
one day total, and that of meter 16 evaluates the stage. -/
def Obligations.MeterSamplesMoveTheBaseline : Prop :=
  ∀ (s : State) (addr : Addr) (data : Word) (be : Enables) (req : Requester) (slot : Nat) (r : Vector Word 4)
    (m : Fin 20) (x : Part) (w : Water) (v : Nat), s.Completes .plant addr data be req slot r → firstByte r = 1 →
    secondByte r = m.val → x = s.recordTaken .plant addr data be req slot → w = s.part.depot.water →
    v = r[(1 : Fin 4)].toNat →
    (w.meters[m].baseline = none →
      ∃ t, exec (.upstreamWrite addr data be req) s = .next t ∧
        s.becomesOrWrites
          (x.withWater { w with meters := w.meters.set m { w.meters[m] with baseline := some v } }) t) ∧
    (∀ old d : Nat, w.meters[m].baseline = some old → d = (v + 4294967296 - old) % 4294967296 →
      (0 < w.jumpLimit → w.jumpLimit < d →
        (w.meters[m].faultPending = true →
          ∃ t, exec (.upstreamWrite addr data be req) s = .next t ∧
            s.becomesOrWrites
              (x.withWater { w with
                meters := w.meters.set m ⟨some v, true, min 65535 (w.meters[m].jumps + 1)⟩ }) t) ∧
        (w.meters[m].faultPending = false →
          ∃ t q, exec (.upstreamWrite addr data be req) s = .next t ∧
            ((x.withWater { w with
              meters := w.meters.set m ⟨some v, true, min 65535 (w.meters[m].jumps + 1)⟩ }).withPending
                0x800#16).placed (.meter m old v s.part.calendar.now) q ∧
            s.becomesOrWrites q t)) ∧
      (w.jumpLimit = 0 ∨ d ≤ w.jumpLimit → ∀ w1 : Water,
        w1 = { w with meters := w.meters.set m { w.meters[m] with baseline := some v } } →
        (m.val = 16 → ∀ stage : Stage, stage = stageOf (min 4294967295 (w.totals.intake + d)) w.quota w.percent →
          ∃ t, exec (.upstreamWrite addr data be req) s = .next t ∧
            s.becomesOrWrites
              ((x.withWater { w1 with
                totals := { w.totals with intake := min 4294967295 (w.totals.intake + d) }
                stage := stage }).withPending (if stage = w.stage then 0 else 0x200#16)) t) ∧
        (m.val = 17 →
          ∃ t, exec (.upstreamWrite addr data be req) s = .next t ∧
            s.becomesOrWrites
              (x.withWater { w1 with
                totals := { w.totals with returned := min 4294967295 (w.totals.returned + d) } }) t) ∧
        (m.val = 18 →
          ∃ t, exec (.upstreamWrite addr data be req) s = .next t ∧
            s.becomesOrWrites
              (x.withWater { w1 with
                totals := { w.totals with discharge := min 4294967295 (w.totals.discharge + d) } }) t) ∧
        (m.val = 19 →
          ∃ t, exec (.upstreamWrite addr data be req) s = .next t ∧
            s.becomesOrWrites
              (x.withWater { w1 with
                totals := { w.totals with makeup := min 4294967295 (w.totals.makeup + d) } }) t)))

/-- R76, R96, R97: where an applied delta of a bay meter goes. In WASHING a reclaim delta joins the running line's
reclaim litres, and a fresh one its conceded litres where the program is not fresh-required and reclaim is
unavailable, else its fresh litres. In LOOKUP, HELD, ADMITTED and CLOSING it joins the session's unused-program
volumes, and in VACANT no session field; there it counts as unattributed. The day totals follow, and a delta of 1
litre or more restarts the silence timer in ADMITTED and WASHING. The running line is the last of the list. -/
def Obligations.BayWaterIsAttributed : Prop :=
  ∀ (s : State) (addr : Addr) (data : Word) (be : Enables) (req : Requester) (slot : Nat) (r : Vector Word 4)
    (b : Fin 8) (reclaim : Bool) (m : Fin 20) (x : Part) (y : Bay) (w : Water) (v old d : Nat) (silence : Option Nat),
    s.Completes .plant addr data be req slot r → firstByte r = 1 → secondByte r = m.val →
    m.val = (if reclaim = true then 8 + b.val else b.val) → x = s.recordTaken .plant addr data be req slot →
    y = s.part.depot.bay b → w = s.part.depot.water → v = r[(1 : Fin 4)].toNat → w.meters[m].baseline = some old →
    d = (v + 4294967296 - old) % 4294967296 → w.jumpLimit = 0 ∨ d ≤ w.jumpLimit →
    silence = (if 1 ≤ d ∧ (y.session.state = .admitted ∨ y.session.state = .washing)
      then some (2 * s.part.depot.sessions.silenceLimit) else y.silence) →
    (y.session.state = .washing → ∀ (done : List Line) (l : Line) (conceded : Bool), y.session.lines = done ++ [l] →
      l.stop = none → (∀ k ∈ done, k.stop ≠ none) →
      conceded = (!reclaim && !s.part.depot.charge.programs[l.program].freshRequired && !w.available) →
      ∃ t, exec (.upstreamWrite addr data be req) s = .next t ∧
        s.becomesOrWrites
          ((x.withBay b
            { y with
              silence := silence
              session := { y.session with
                lines := done ++
                  [{ l with
                     fresh := if reclaim = false ∧ conceded = false then min 16777215 (l.fresh + d) else l.fresh
                     conceded := if conceded = true then min 16777215 (l.conceded + d) else l.conceded
                     reclaim := if reclaim = true then min 16777215 (l.reclaim + d) else l.reclaim }] } }).withWater
            { w with
              meters := w.meters.set m { w.meters[m] with baseline := some v }
              totals := { w.totals with
                bayFresh := if reclaim = false then min 4294967295 (w.totals.bayFresh + d) else w.totals.bayFresh
                bayReclaim := if reclaim = true then min 4294967295 (w.totals.bayReclaim + d) else w.totals.bayReclaim
                concededFresh := if conceded = true then min 4294967295 (w.totals.concededFresh + d)
                  else w.totals.concededFresh } }) t) ∧
    (y.session.state ≠ .washing →
      ∃ t, exec (.upstreamWrite addr data be req) s = .next t ∧
        s.becomesOrWrites
          ((x.withBay b
            { y with
              silence := silence
              session := { y.session with
                unusedFresh := if y.session.state ≠ .vacant ∧ reclaim = false
                  then min 16777215 (y.session.unusedFresh + d) else y.session.unusedFresh
                unusedReclaim := if y.session.state ≠ .vacant ∧ reclaim = true
                  then min 16777215 (y.session.unusedReclaim + d) else y.session.unusedReclaim } }).withWater
            { w with
              meters := w.meters.set m { w.meters[m] with baseline := some v }
              totals := { w.totals with
                bayFresh := if reclaim = false then min 4294967295 (w.totals.bayFresh + d) else w.totals.bayFresh
                bayReclaim := if reclaim = true then min 4294967295 (w.totals.bayReclaim + d) else w.totals.bayReclaim
                unattributedFresh := if reclaim = false then min 4294967295 (w.totals.unattributedFresh + d)
                  else w.totals.unattributedFresh
                unattributedReclaim := if reclaim = true then min 4294967295 (w.totals.unattributedReclaim + d)
                  else w.totals.unattributedReclaim }
              unattributed := w.unattributed.set b
                { fresh := if reclaim = false then min 16777215 (w.unattributed[b].fresh + d)
                    else w.unattributed[b].fresh
                  reclaim := if reclaim = true then min 16777215 (w.unattributed[b].reclaim + d)
                    else w.unattributed[b].reclaim } }) t)

/-- R30, R33, R93, R94, R100, R101, R102, R103: a taken plant record empties its assembly and is shown as the last
taken. A LEVEL record sets the reclaim level. A TURBIDITY record sets the last turbidity and is judged in SAMPLING and
QUALIFIED against the limit in force. BACKWASH_START enters BACKWASH and stops the quality timer, and BACKWASH_END
leaves BACKWASH for SETTLING, or for SAMPLING at a settle time of 0. Every entry into SAMPLING starts the window by
its setting with the count 0. Availability is then judged, and a change of it raises RECLAIM_CHANGE. -/
def Obligations.PlantRecordsMoveTheQualityMachine : Prop :=
  ∀ (s : State) (addr : Addr) (data : Word) (be : Enables) (req : Requester) (slot : Nat) (r : Vector Word 4)
    (w u : Water) (v : Nat), s.Completes .plant addr data be req slot r → w = s.part.depot.water →
    v = r[(1 : Fin 4)].toNat →
    (firstByte r = 2 ∧ secondByte r = 0 ∧ u = { w with level := v }) ∨
      (firstByte r = 3 ∧ secondByte r = 1 ∧
        ((w.quality = .sampling ∧ v ≤ w.turbidityLimit ∧
            u = { w with turbidity := v, quality := .qualified, qualityTimer := none }) ∨
          (w.quality = .sampling ∧ w.turbidityLimit < v ∧
            u = { w with turbidity := v, badSamples := min 255 (w.badSamples + 1) }) ∨
          (w.quality = .qualified ∧ w.turbidityLimit < v ∧
            u = { w with
              turbidity := v
              badSamples := 0
              quality := if w.window = 0 then .rejected else .sampling
              qualityTimer := if w.window = 0 ∨ w.window = 255 then none else some (2 * w.window) }) ∨
          (w.quality = .qualified ∧ v ≤ w.turbidityLimit ∧ u = { w with turbidity := v }) ∨
          ((w.quality = .backwash ∨ w.quality = .settling ∨ w.quality = .rejected) ∧
            u = { w with turbidity := v }))) ∨
      (firstByte r = 4 ∧ u = { w with quality := .backwash, qualityTimer := none }) ∨
      (firstByte r = 5 ∧
        ((w.quality ≠ .backwash ∧ u = w) ∨
          (w.quality = .backwash ∧ w.settle ≠ 0 ∧
            u = { w with quality := .settling, qualityTimer := some (2 * w.settle) }) ∨
          (w.quality = .backwash ∧ w.settle = 0 ∧
            u = { w with
              badSamples := 0
              quality := if w.window = 0 then .rejected else .sampling
              qualityTimer := if w.window = 0 ∨ w.window = 255 then none else some (2 * w.window) }))) →
    ∃ t, exec (.upstreamWrite addr data be req) s = .next t ∧
      s.becomesOrWrites
        (((s.recordTaken .plant addr data be req slot).withWater
          { u with available := u.quality = .qualified ∧ u.floor ≤ u.level }).withPending
            (if w.available = decide (u.quality = .qualified ∧ u.floor ≤ u.level) then 0 else 0x400#16)) t

/-! ## Time -/

/-- R70, R78, R79, R80, R81, R82, R129, R142, R144: the expiry of a bay's silence timer in ADMITTED or WASHING sets
ABANDONED and closes the session with reason SILENCE, and the expiry of its hold timer in HELD with reason
HOLD_EXPIRED; the end records carry the calendar of the tick. The claim for them waits, with JOURNAL_STALLED, or is
admitted within this event (log 3). An expiry that is due stands at the count 0, and the kept stamp of the tick is the
model's (log 6). That an expiry taken after a calendar set still carries the stamp of its tick is the model's choice
(R160, R162; log 27). -/
def Obligations.TimerExpiryClosesTheSession : Prop :=
  ∀ (s : State) (b : Fin 8) (x : Part) (y : Bay), s.part.path.deferred = [] →
    x = { s.part with path := { s.part.path with done := [] } } → y = s.part.depot.bay b →
    (y.silence = some 0 → y.session.state = .admitted ∨ y.session.state = .washing →
      ∃ t q, exec (.silenceExpiry b) s = .next t ∧
        (x.withBay b { y with silence := none, session := { y.session with abandoned := true } }).closed b .silence
          s.part.calendar.tickStamp q ∧
        s.becomesOrWrites q t) ∧
    (y.hold = some 0 → y.session.state = .held →
      ∃ t q, exec (.holdExpiry b) s = .next t ∧
        (x.withBay b { y with hold := none }).closed b .holdExpired s.part.calendar.tickStamp q ∧
        s.becomesOrWrites q t)

/-- R102: the expiry of the quality timer in SETTLING enters SAMPLING, with the count 0 and the window started by its
setting (0: on at once to REJECTED; 255: no timer); in SAMPLING it enters REJECTED. Reclaim, if it stood available, is
not (R94). An expiry that is due stands at the count 0 (log 6). -/
def Obligations.QualityExpiryMovesTheMachine : Prop :=
  ∀ s : State, s.part.path.deferred = [] → s.part.depot.water.qualityTimer = some 0 →
    (s.part.depot.water.quality = .settling →
      ∃ t, exec .qualityTimerExpiry s = .next t ∧ t.mem = s.mem ∧
        t.part.depot.water =
          { s.part.depot.water with
            badSamples := 0
            quality := if s.part.depot.water.window = 0 then .rejected else .sampling
            qualityTimer := if s.part.depot.water.window = 0 ∨ s.part.depot.water.window = 255 then none
              else some (2 * s.part.depot.water.window)
            available := false } ∧
        t.part.depot.sessions = s.part.depot.sessions ∧ t.part.depot.charge = s.part.depot.charge) ∧
    (s.part.depot.water.quality = .sampling →
      ∃ t, exec .qualityTimerExpiry s = .next t ∧ t.mem = s.mem ∧
        t.part.depot.water =
          { s.part.depot.water with quality := .rejected, qualityTimer := none, available := false } ∧
        t.part.depot.sessions = s.part.depot.sessions ∧ t.part.depot.charge = s.part.depot.charge)

/-- R155, R158, R159, R164: a tick advances the calendar by a half second, with the carry of seconds, minutes, hours,
days, months and years and the weekday of each new day; after the last half second of 2147 it stands at the start of
2020, NOT_SET. The count of every running timer is lowered by one. Where no timer reaches 0 and no boundary fires
nothing else changes, whatever the order of the tick's events. The order operand and the kept stamp of the tick are
the model's (log 6). -/
def Obligations.TickAdvancesCalendarAndTimers : Prop :=
  ∀ (s : State) (o : TickOrder), s.calendarOk → s.part.path.deferred = [] →
    ∃ n : Calendar, halfSecondLater s.part.calendar.now n ∧
      (s.timersRunOn → ¬ s.part.calendar.quotaDayAt n → ¬ s.part.calendar.periodAt n →
        ∃ t, exec (.halfSecondTick o) s = .next t ∧ s.becomes (s.part.ticked n) t)

/-- R108, R109, R142, R164: on the tick that brings a SET calendar to the quota hour the day totals are claimed with
that stamp and start again from 0, and the stage is evaluated. A QUOTA_DAY claim that already waits is overwritten in
its place with the new totals and stamp and OVERRUN set. A new one waits, or is admitted within this event (log 3).
The period boundary does not fire, no timer expires, and no claim waits that fits. The order operand is the model's
(log 6). -/
def Obligations.QuotaHourClosesTheDay : Prop :=
  ∀ (s : State) (o : TickOrder) (n : Calendar) (x : Part) (w : Water) (stage : Stage), s.part.path.deferred = [] →
    s.timersRunOn → halfSecondLater s.part.calendar.now n → s.part.calendar.quotaDayAt n →
    ¬ s.part.calendar.periodAt n → x = s.part.ticked n →
    stage = (if s.part.depot.water.quota = 0 ∨
      0 < s.part.depot.water.quota * s.part.depot.water.percent / 100 then .normal else .conserve) →
    w = { x.depot.water with
      totals := ⟨0, 0, 0, 0, 0, 0, 0, 0, 0⟩, unattributed := Vector.replicate 8 ⟨0, 0⟩, stage := stage } →
    ((∀ c ∈ s.part.depot.journal.waiting, c.claimant ≠ 9) → s.claimsSettled →
      ∃ t q, exec (.halfSecondTick o) s = .next t ∧ x.placed (.quotaDay s.part.depot.water.totals n false) q ∧
        s.becomesOrWrites
          ((q.withWater w).withPending (if stage = s.part.depot.water.stage then 0 else 0x200#16)) t) ∧
    ∀ (older younger : List Claim) (totals : DayTotals) (stamp : Stamp) (overrun : Bool),
      s.part.depot.journal.waiting = older ++ .quotaDay totals stamp overrun :: younger →
      (∀ c ∈ older ++ younger, c.claimant ≠ 9) →
      ∃ t, exec (.halfSecondTick o) s = .next t ∧
        s.becomesOrWrites
          (((x.withJournal
            { s.part.depot.journal with
              waiting := older ++ .quotaDay s.part.depot.water.totals n true :: younger }).withWater w).withPending
            (if stage = s.part.depot.water.stage then 0 else 0x200#16)) t

/-- R120, R145, R146, R148, R164: the tick that fires the period boundary with no sweep running advances the period
number, and the sweep walks from account 0: accounts with charge count 0 are reset, and the first with charges gets
the sweep's claim, which is admitted at once where none waits and the queue has room. Where no account has charges the
sweep ends and PERIOD_CLOSED is raised. While a sweep runs the boundary becomes pending, or is merged into the pending
one with PERIOD_OVERRUN. The quota-day boundary does not fire, no timer expires and no session is held for credit. The
order operand is the model's (log 6). -/
def Obligations.PeriodBoundaryStartsTheSweep : Prop :=
  ∀ (s : State) (o : TickOrder) (n : Calendar) (x : Part) (j : Journal), s.part.path.deferred = [] → s.timersRunOn →
    halfSecondLater s.part.calendar.now n → s.part.calendar.periodAt n → ¬ s.part.calendar.quotaDayAt n →
    x = s.part.ticked n → j = s.part.depot.journal →
    (j.sweep ≠ none → j.boundaryPending = false →
      ∃ t, exec (.halfSecondTick o) s = .next t ∧
        s.becomesOrWrites { x with depot := { x.depot with journal := { j with boundaryPending := true } } } t) ∧
    (j.sweep ≠ none → j.boundaryPending = true →
      ∃ t, exec (.halfSecondTick o) s = .next t ∧ s.becomesOrWrites (x.withPending 0x100#16) t) ∧
    (j.sweep = none → s.part.depot.noCreditHold →
      ((∀ a : Fin 64, (s.part.depot.account a).count = 0) → j.waiting = [] ∨ s.journalStuck →
        ∃ t accounts, exec (.halfSecondTick o) s = .next t ∧
          (∀ a : Fin 64, accounts[a] = (s.part.depot.account a).zeroed (j.period + 1)) ∧
          s.becomesOrWrites
            (Part.withPending 0x80#16
              { x with
                depot := { x.depot with
                  charge := { x.depot.charge with accounts := accounts }
                  journal := { j with period := j.period + 1 } } }) t) ∧
      ∀ a : Fin 64, (s.part.depot.account a).count ≠ 0 →
        (∀ b : Fin 64, b < a → (s.part.depot.account b).count = 0) →
        (s.journalStuck →
          ∃ t accounts, exec (.halfSecondTick o) s = .next t ∧
            (∀ b : Fin 64, accounts[b] =
              if b < a then (s.part.depot.account b).zeroed (j.period + 1) else s.part.depot.account b) ∧
            s.becomesOrWrites
              (Part.withClaim (.sweep a)
                { x with
                  depot := { x.depot with
                    charge := { x.depot.charge with accounts := accounts }
                    journal := { j with period := j.period + 1, sweep := some a } } }) t) ∧
        (j.waiting = [] → j.queue.length < 8 → j.boundaryPending = false →
          ∃ t later, exec (.halfSecondTick o) s = .next t ∧ t.part.depot.journal.period = j.period + 1 ∧
            (t.part.depot.journal.queue.map fun r => (r.composed, r.period)) =
              (j.queue.map fun r => (r.composed, r.period)) ++
                (⟨.periodTotal a (s.part.depot.account a).haulier (s.part.depot.account a).balance
                  (s.part.depot.account a).count, none, n⟩, (s.part.depot.account a).period) :: later ∧
            ∀ b : Fin 64, b ≤ a →
              t.part.depot.account b = (s.part.depot.account b).zeroed (j.period + 1)))

/-! ## The journal -/

/-- R82, R91, R109, R120, R129, R142, R143, R146 to R148: the oldest waiting claim is admitted where the insertion queue
has room for all its records, with the effects of its claimant, and the next is not where it does not fit. A bay's
claim of any number of CHARGE records, or of a VOID or TURNED_AWAY record, applies the charges and returns the session
to VACANT; a QUOTA_DAY claim is queued as it stands; a meter's clears the fault-pending flag; the sweep's leaves its
PERIOD_TOTAL record, resets the account and moves on (for it no session is held for credit). That a command can stand
for the admission is the model's reading, for the event that gives the room admits the claim already (log 3); the
statements of those events say the same. -/
def Obligations.FittingClaimIsAdmitted : Prop :=
  ∀ (s : State) (c : Claim) (rest : List Claim) (x : Part), s.part.path.deferred = [] →
    s.part.depot.journal.waiting = c :: rest → s.part.depot.journal.queue.length + c.size ≤ 8 →
    x = Part.withJournal { s.part.depot.journal with waiting := rest }
      { s.part with path := { s.part.path with done := [] } } →
    (s.part.depot.journal.queue.length + c.size = 8 ∧ (∀ d ∈ rest, d.size ≠ 0)) ∨
      (rest = [] ∧ ∀ a, c = .sweep a → (∀ i : Fin 64, a < i → (s.part.depot.account i).count = 0) ∧
        (s.part.depot.journal.boundaryPending = true →
          ∀ i : Fin 64, i < a → (s.part.depot.account i).count = 0)) →
    (∀ a, c = .sweep a → s.part.depot.noCreditHold) →
    ∃ t q, exec .claimAdmission s = .next t ∧ x.admits c q ∧ s.becomesOrWrites q t

/-- R138, R139, R203, R205: the sixteen words of a record, by its kind. Word 0 holds the kind, the bay or 15, the
NOT_SET mark of the stamp, the flags of the kind and the period; word 1 the sequence number; words 2 and 3 the stamp;
words 4 to 15 the body, zero where the kind has no field. The stamps are of valid calendars. -/
def Obligations.JournalRecordLayout : Prop :=
  ∀ (r : JournalRecord) (bay mark : Nat) (header : Nat → Nat → Prop) (body : List Word → Prop),
    r.composed.stamp.valid = true →
    bay = (match r.composed.bay with | none => 15 | some b => b.val) →
    mark = (if r.composed.stamp.isSet = true then 0 else 2 ^ 8) →
    header = (fun kind flags => ∃ w0 date time, r.words.take 4 = [w0, r.sequence.getD 0, date, time] ∧
      w0.toNat = kind + bay * 2 ^ 4 + mark + flags + r.period.toNat * 2 ^ 16 ∧ stampShown r.composed.stamp date time) →
    body = (fun words => r.words.drop 4 = words) →
    r.words.length = 16 ∧
    (∀ c, r.composed.body = .charge c → c.lineStart.valid = true → c.lineStop.valid = true →
      header 1 ((if c.operatorAdmitted = true then 2 ^ 9 else 0) + (if c.abandoned = true then 2 ^ 10 else 0) +
        (if 0 < c.conceded then 2 ^ 11 else 0) + (if c.saturated = true then 2 ^ 12 else 0) +
        (if c.last = true then 2 ^ 13 else 0) + if c.notSet = true then 2 ^ 14 else 0) ∧
      ∃ d0 t0 d1 t1, stampShown c.lineStart d0 t0 ∧ stampShown c.lineStop d1 t1 ∧
        body [BitVec.ofNat 32 (c.account.val + c.cls.val * 2 ^ 8 + c.program.val * 2 ^ 16),
          BitVec.ofNat 32 c.haulier.toNat, BitVec.ofNat 32 c.tag.toNat, BitVec.ofNat 32 (c.tag.toNat / 2 ^ 32), d0, t0,
          d1, t1, BitVec.ofNat 32 c.fresh, BitVec.ofNat 32 c.conceded, BitVec.ofNat 32 c.reclaim,
          BitVec.ofNat 32 c.amount]) ∧
    (∀ account tag reason operator abandoned, r.composed.body = .void account tag reason operator abandoned →
      header 2 ((if operator = true then 2 ^ 9 else 0) + if abandoned = true then 2 ^ 10 else 0) ∧
      body [BitVec.ofNat 32 (account.val + reason.code * 2 ^ 8), 0, BitVec.ofNat 32 tag.toNat,
        BitVec.ofNat 32 (tag.toNat / 2 ^ 32), 0, 0, 0, 0, 0, 0, 0, 0]) ∧
    (∀ tag hold reason, r.composed.body = .turnedAway tag hold reason →
      header 3 0 ∧
      body [BitVec.ofNat 32 (reason.code * 2 ^ 8 + holdCode hold * 2 ^ 16), 0, BitVec.ofNat 32 tag.toNat,
        BitVec.ofNat 32 (tag.toNat / 2 ^ 32), 0, 0, 0, 0, 0, 0, 0, 0]) ∧
    (∀ account haulier total count, r.composed.body = .periodTotal account haulier total count →
      header 4 0 ∧
      body [BitVec.ofNat 32 account.val, BitVec.ofNat 32 haulier.toNat, 0, 0, BitVec.ofNat 32 total,
        BitVec.ofNat 32 count, 0, 0, 0, 0, 0, 0]) ∧
    (∀ t overrun, r.composed.body = .quotaDay t overrun →
      header 5 (if overrun = true then 2 ^ 9 else 0) ∧
      body [BitVec.ofNat 32 t.intake, BitVec.ofNat 32 t.makeup, BitVec.ofNat 32 t.returned, BitVec.ofNat 32 t.discharge,
        BitVec.ofNat 32 t.bayFresh, BitVec.ofNat 32 t.bayReclaim, BitVec.ofNat 32 t.concededFresh,
        BitVec.ofNat 32 t.unattributedFresh, BitVec.ofNat 32 t.unattributedReclaim, 0, 0, 0]) ∧
    (∀ m old new, r.composed.body = .meterFault m old new →
      header 6 0 ∧
      body [BitVec.ofNat 32 m.val, BitVec.ofNat 32 old, BitVec.ofNat 32 new, 0, 0, 0, 0, 0, 0, 0, 0, 0]) ∧
    (∀ lostBays lostRecords resumed, r.composed.body = .restart lostBays lostRecords resumed → lostRecords ≤ 8 →
      header 7 (if resumed = true then 2 ^ 9 else 0) ∧
      body [BitVec.ofNat 32 (lostBays.toNat + lostRecords * 2 ^ 8), 0, 0, 0, 0, 0, 0, 0, 0, 0, 0, 0]) ∧
    ([.exit, .silence, .operator, .displaced, .departed, .turnedAway, .holdExpired].map CloseReason.code =
        [1, 2, 3, 4, 5, 6, 7] ∧
      ([none, some .unknown, some .noAccount, some .barred, some .credit, some .duplicate, some .directoryFault,
        some .directoryBusy].map holdCode = [0, 1, 2, 3, 4, 5, 6, 7]))

/-- R133, R136, R137: with a window enabled, a record queued, no write in flight and room in the ring, the head record
takes the next-sequence value and its word 0 is claimed. A word of the record at the head is written whole, with check
bits that match, into the slot at the head, and every other word and check bit of the store is left; the next word is
then claimed. After word 15 the head and the next-sequence value advance and the record leaves the queue.
JOURNAL_READY is raised where the occupancy goes from 0 to 1, and JOURNAL_NEAR_FULL where it comes from below to the
threshold. R142, R143: the oldest waiting claim, which did not fit, is admitted within the event where it now does,
and waits on where it does not (log 3). That a command can stand for the start is the model's reading (log 3). -/
def Obligations.RecordWriteFillsTheHeadSlot : Prop :=
  (∀ (s : State) (g : Ring) (r : JournalRecord) (rest : List JournalRecord), s.part.path.deferred = [] →
    s.part.path.ring = some g → s.part.depot.journal.queue = r :: rest → s.part.depot.journal.writing = none →
    (s.part.depot.journal.head + g.slots - s.part.depot.journal.tail) % g.slots < g.slots - 1 →
    ∃ t, exec .recordWriteStart s = .next t ∧
      s.becomes { s.part with
        path := { s.part.path with done := [] }
        depot := { s.part.depot with
          journal := { s.part.depot.journal with
            queue := { r with sequence := some s.part.depot.journal.nextSeq } :: rest
            writing := some 0 } } } t) ∧
  ∀ (s : State) (g : Ring) (n at0 before after threshold : Nat) (r : JournalRecord) (rest : List JournalRecord)
    (j : Journal), s.mem.wf = true →
    s.part.path.deferred = [] → s.part.store.grant = some .journal → j = s.part.depot.journal → j.writing = some n →
    n < 16 → j.queue = r :: rest → s.part.path.ring = some g → g.base % 4 = 0 → g.base + 64 * g.slots ≤ 16777216 →
    j.head < g.slots → at0 = g.base / 4 + 16 * j.head →
    before = (j.head + g.slots - j.tail) % g.slots → after = ((j.head + 1) % g.slots + g.slots - j.tail) % g.slots →
    threshold = g.slots * j.nearFull / 100 →
    ∃ t, exec .journalWordWritten s = .next t ∧ t.pending = s.pending ∧
      t.mem.readWord (at0 + n) = r.words.getD n 0 ∧ t.mem.wordFails (at0 + n) = none ∧
      (∀ x, x / 4 ≠ at0 + n → t.mem.byte x = s.mem.byte x) ∧
      (∀ h, h / 2 ≠ at0 + n → t.mem.check h = s.mem.check h) ∧
      t.part.path = { s.part.path with done := [] } ∧ t.part.capture = s.part.capture ∧
      t.part.calendar = s.part.calendar ∧
      (n < 15 →
        ({ s with mem := t.mem } : State).becomes
          (Part.withJournal { j with writing := some (n + 1) } { s.part with path := { s.part.path with done := [] } })
          t) ∧
      (n = 15 → ∀ x : Part,
        x = Part.withPending
          ((if before = 0 ∧ after = 1 then 0x10#16 else 0) |||
            if before < threshold ∧ after = threshold then 0x20#16 else 0)
          (Part.withJournal
            { j with nextSeq := j.nextSeq + 1, head := (j.head + 1) % g.slots, queue := rest, writing := none }
            { s.part with path := { s.part.path with done := [] } }) →
        (j.waiting = [] ∨ (rest.length ≤ 8 ∧ ∃ c later, j.waiting = c :: later ∧ 8 < rest.length + c.size) →
          ({ s with mem := t.mem } : State).becomesOrWrites x t) ∧
        ∀ (c : Claim) (later : List Claim), j.waiting = c :: later → rest.length + c.size = 8 →
          (∀ d ∈ later, d.size ≠ 0) → (∀ a, c = .sweep a → s.part.depot.noCreditHold) →
          ∃ q, (x.withJournal { x.depot.journal with waiting := later }).admits c q ∧
            ({ s with mem := t.mem } : State).becomesOrWrites q t)

/-! ## Settings and requests -/

/-- R4, R53, R114, R161, R191: a write of a staged word replaces its enabled bytes and changes nothing else: the
window first word and the preload and calendar first words by MAINT, the account words by SITE or MAINT. The command
is a bus write of the item's word (log 2). -/
def Obligations.StagedWordsChangeNothingElse : Prop :=
  ∀ (s : State) (data : Word) (be : Enables), s.ready → be ≠ 0 →
    (∀ e : Fin 8, ∃ t, exec (.windowFirstWord e data be .maint) s = .next t ∧
      s.becomes
        { s.part with
          path := { (s.afterControl (0x100 + 8 * e.val) data be .maint).path with
            staged := s.part.path.staged.set e (mergeBytes s.part.path.staged[e] data be) } } t) ∧
    (∃ t, exec (.preloadFirstWord data be .maint) s = .next t ∧
      s.becomes
        { s.afterControl 0x28C data be .maint with
          depot := { s.part.depot with
            identity := { s.part.depot.identity with
              stagedTagLow := mergeBytes s.part.depot.identity.stagedTagLow data be } } } t) ∧
    (∃ t, exec (.calendarSetFirstWord data be .maint) s = .next t ∧
      s.becomes
        { s.afterControl 0x294 data be .maint with
          calendar := { s.part.calendar with
            stagedDate := mergeBytes s.part.calendar.stagedDate data be } } t) ∧
    ∀ (a : Fin 64) (req : Requester), req = .site ∨ req = .maint →
      (∃ t, exec (.accountStagedWrite a .word0 data be req) s = .next t ∧
        s.becomes
          { s.afterControl (0x300 + 16 * a.val) data be req with
            depot := { s.part.depot with
              charge := { s.part.depot.charge with
                staged := s.part.depot.charge.staged.set a
                  { s.part.depot.charge.staged[a] with
                    word0 := mergeBytes s.part.depot.charge.staged[a].word0 data be } } } } t) ∧
      ∃ t, exec (.accountStagedWrite a .word1 data be req) s = .next t ∧
        s.becomes
          { s.afterControl (0x304 + 16 * a.val) data be req with
            depot := { s.part.depot with
              charge := { s.part.depot.charge with
                staged := s.part.depot.charge.staged.set a
                  { s.part.depot.charge.staged[a] with
                    word1 := mergeBytes s.part.depot.charge.staged[a].word1 data be } } } } t

/-- R5, R6, R135: a window commit is judged by its checks in their order. One that passes puts the proposed entry in
force, here over a disabled entry. k outside 12 to 20, no defined kind or a base that is no multiple of the size is
refused with OUT_OF_RANGE, a window over the control window with OVERLAPS_CONTROL, a second enabled window of a kind
other than GUARDED with DUPLICATE_KIND. A changed JOURNAL window is refused with BUSY while the ring is not empty, a
record waits in the insertion queue or a record write is in flight, and else taken, which sets head and tail to 0.
That sessions are left as they were where the first DIRECTORY window is enabled while lookups are queued is the model's
choice (log 19). The command is a bus write of the item's word (log 2). -/
def Obligations.WindowCommitTakesOrRefuses : Prop :=
  ∀ (s : State) (e : Fin 8) (data : Word) (be : Enables) (old w : WindowEntry), s.ready → be ≠ 0 →
    old = s.part.path.windows[e] → w = windowEntryOf s.part.path.staged[e] (mergeBytes old.second data be) →
    (old.enabled = false → s.part.path.allows e w →
      (w.enabled = true → w.kind = 5 →
        s.part.depot.journal.head = s.part.depot.journal.tail ∧ s.part.depot.journal.writing = none) →
      ∃ t, exec (.windowCommit e data be .maint) s = .next t ∧ t.mem = s.mem ∧
        t.part.path =
          { (s.afterControl (0x104 + 8 * e.val) data be .maint).path with
            windows := s.part.path.windows.set e w } ∧
        t.part.capture = s.part.capture ∧ t.part.depot.sessions = s.part.depot.sessions ∧
        t.part.depot.identity.cache = s.part.depot.identity.cache ∧ t.part.depot.notices = s.part.depot.notices) ∧
    (w.enabled = true →
      (w.k.toNat < 12 ∨ 20 < w.k.toNat ∨ w.kind = 0 ∨ w.base.toNat * 4096 % 2 ^ w.k.toNat ≠ 0) →
      ∃ t, exec (.windowCommit e data be .maint) s = .next t ∧
        s.becomes (Part.afterRefusal (0x104 + 8 * e.val) .outOfRange
          (s.afterControl (0x104 + 8 * e.val) data be .maint)) t) ∧
    (w.enabled = true → 12 ≤ w.k.toNat → w.k.toNat ≤ 20 → w.kind ≠ 0 → w.base.toNat * 4096 % 2 ^ w.k.toNat = 0 →
      w.base.toNat * 4096 < s.part.path.straps.toNat * 0x100000 + 0x100000 →
      s.part.path.straps.toNat * 0x100000 + 0xFF000 < w.base.toNat * 4096 + 2 ^ w.k.toNat →
      ∃ t, exec (.windowCommit e data be .maint) s = .next t ∧
        s.becomes (Part.afterRefusal (0x104 + 8 * e.val) .overlapsControl
          (s.afterControl (0x104 + 8 * e.val) data be .maint)) t) ∧
    (∀ n : Fin 8, n ≠ e → s.part.path.windows[n].enabled = true → s.part.path.windows[n].kind = w.kind →
      w.enabled = true → 12 ≤ w.k.toNat → w.k.toNat ≤ 20 → w.kind ≠ 0 → w.kind ≠ 7 →
      w.base.toNat * 4096 % 2 ^ w.k.toNat = 0 →
      ¬ (w.base.toNat * 4096 < s.part.path.straps.toNat * 0x100000 + 0x100000 ∧
        s.part.path.straps.toNat * 0x100000 + 0xFF000 < w.base.toNat * 4096 + 2 ^ w.k.toNat) →
      ∃ t, exec (.windowCommit e data be .maint) s = .next t ∧
        s.becomes (Part.afterRefusal (0x104 + 8 * e.val) .duplicateKind
          (s.afterControl (0x104 + 8 * e.val) data be .maint)) t) ∧
    (old.enabled = true → old.kind = 5 → ¬ old.sameExtent w → s.part.path.allows e w →
      ((s.part.depot.journal.head ≠ s.part.depot.journal.tail ∨ s.part.depot.journal.queue ≠ [] ∨
          s.part.depot.journal.writing ≠ none) →
        ∃ t, exec (.windowCommit e data be .maint) s = .next t ∧
          s.becomes (Part.afterRefusal (0x104 + 8 * e.val) .busy
            (s.afterControl (0x104 + 8 * e.val) data be .maint)) t) ∧
      (s.part.depot.journal.head = s.part.depot.journal.tail → s.part.depot.journal.queue = [] →
        s.part.depot.journal.writing = none →
        ∃ t, exec (.windowCommit e data be .maint) s = .next t ∧
          s.becomes
            { s.afterControl (0x104 + 8 * e.val) data be .maint with
              path := { (s.afterControl (0x104 + 8 * e.val) data be .maint).path with
                windows := s.part.path.windows.set e w }
              depot := { s.part.depot with journal := { s.part.depot.journal with head := 0, tail := 0 } } } t)) ∧
    (old.enabled = false ∨ old.kind ≠ 5 → w.enabled = true → w.kind = 5 → s.part.path.allows e w →
      (s.part.depot.journal.head ≠ s.part.depot.journal.tail ∨ s.part.depot.journal.writing ≠ none) →
      ∃ t, exec (.windowCommit e data be .maint) s = .next t ∧
        s.becomes (Part.afterRefusal (0x104 + 8 * e.val) .busy
          (s.afterControl (0x104 + 8 * e.val) data be .maint)) t)

/-- R189, R190: MAINT's write of a general setting, a program entry or a tariff word forms its value from the enabled
bytes and the word in force. In range it is in force, every other setting as before; the write touches the settings of
its unit alone, and nothing else of any unit changes: no session, account, meter, timer or date, and of the journal
the near-full percent at most. Outside its range it is refused with OUT_OF_RANGE. The command is a bus write of the
item's word (log 2). -/
def Obligations.SettingWriteIsTakenOrRefused : Prop :=
  ∀ (s : State) (i : SettingItem) (data : Word) (be : Enables) (v : Word), s.ready → be ≠ 0 →
    v = mergeBytes (s.part.settingWord i) data be →
    (SettingItem.takes i v.toNat →
      ∃ t x, exec (.settingWrite i data be .maint) s = .next t ∧ s.becomes x t ∧
        x.settingWord i =
          (match i with
           | .program _ => BitVec.ofNat 32 (v.toNat % 4)
           | .periodSchedule =>
             BitVec.ofNat 32 (v.toNat % 8 + v.toNat / 2 ^ 8 % 32 * 2 ^ 8 + v.toNat / 2 ^ 16 % 8 * 2 ^ 16 +
               v.toNat / 2 ^ 24 % 32 * 2 ^ 24)
           | _ => v) ∧
        (∀ j, j ≠ i → x.settingWord j = s.part.settingWord j) ∧
        x =
          { s.afterControl (SettingItem.offset i) data be .maint with
            capture := { s.part.capture with minQuality := x.capture.minQuality }
            calendar := { s.part.calendar with
              schedule := x.calendar.schedule, quotaHour := x.calendar.quotaHour }
            depot := { s.part.depot with
              sessions := { s.part.depot.sessions with
                silenceLimit := x.depot.sessions.silenceLimit, holdLimit := x.depot.sessions.holdLimit }
              water := { s.part.depot.water with
                jumpLimit := x.depot.water.jumpLimit, settle := x.depot.water.settle
                window := x.depot.water.window, turbidityLimit := x.depot.water.turbidityLimit }
              charge := { s.part.depot.charge with
                programs := x.depot.charge.programs, tariff := x.depot.charge.tariff
                freshRate := x.depot.charge.freshRate, reclaimRate := x.depot.charge.reclaimRate
                abandonFee := x.depot.charge.abandonFee, discounts := x.depot.charge.discounts }
              journal := { s.part.depot.journal with nearFull := x.depot.journal.nearFull } } }) ∧
    (¬ SettingItem.takes i v.toNat →
      ∃ t, exec (.settingWrite i data be .maint) s = .next t ∧
        s.becomes (Part.afterRefusal (SettingItem.offset i) .outOfRange
          (s.afterControl (SettingItem.offset i) data be .maint)) t)

/-- R188: a SITE write of an item that is MAINT's alone is refused with NOT_PERMITTED and changes no setting, no
staged word and no request. A write by SITE or MAINT at an offset that holds no item is taken as nothing, though it is
posted all the same: the views, the unused offsets of the settings and requests areas, and word 2 of each account. The
commands are bus writes of the items' words (log 2). -/
def Obligations.WordsWithoutEffectAreRefusedOrTakenAsNothing : Prop :=
  (∀ (s : State) (data : Word) (be : Enables) (i : Item) (c : Instr), s.ready → be ≠ 0 →
    ((∃ e, i = .windowFirst e ∧ c = .windowFirstWord e data be .site) ∨
      (∃ e, i = .windowCommit e ∧ c = .windowCommit e data be .site) ∨
      (∃ x, i = .setting x ∧ c = .settingWrite x data be .site) ∨
      (i = .pinCount ∧ c = .pinCountWrite data be .site) ∨
      (∃ q, i = .quota q ∧ c = .quotaSettingWrite q data be .site) ∨
      (i = .reclaimFloor ∧ c = .reclaimFloorWrite data be .site) ∨
      (i = .refreshMode ∧ c = .refreshModeWrite data be .site) ∨
      (i = .noticeMask ∧ c = .noticeMaskWrite data be .site) ∨
      (i = .preloadFirst ∧ c = .preloadFirstWord data be .site) ∨
      (i = .preloadCommit ∧ c = .preloadCommit data be .site) ∨
      (i = .calendarFirst ∧ c = .calendarSetFirstWord data be .site) ∨
      (i = .calendarCommit ∧ c = .calendarSetCommit data be .site)) →
    ∃ t, exec c s = .next t ∧
      s.becomes (Part.afterRefusal i.offset .notPermitted (s.afterControl i.offset data be .site)) t) ∧
  ∀ (s : State) (o : BitVec 10) (data : Word) (be : Enables) (req : Requester), s.ready → be ≠ 0 →
    (req = .site ∨ req = .maint) →
    (4 * o.toNat < 0x100 ∨ (0x19C ≤ 4 * o.toNat ∧ 4 * o.toNat < 0x1C0) ∨
      (0x29C ≤ 4 * o.toNat ∧ 4 * o.toNat < 0x300) ∨
      (0x300 ≤ 4 * o.toNat ∧ 4 * o.toNat < 0x700 ∧ 4 * o.toNat % 16 = 8) ∨ 0x700 ≤ 4 * o.toNat) →
    ∃ t, exec (.controlWrite o data be req) s = .next t ∧
      s.becomes (s.afterControl (4 * o.toNat) data be req) t

/-- R41, R95, R106, R107, R175, R189, R197: a taken write of the quota or of the percent is followed by an evaluation
of the stage, and one of the reclaim floor by a judgement of availability; a change raises STAGE_CHANGE or
RECLAIM_CHANGE. Every quota and every floor is taken, and a percent from 50 to 99. The pin count takes 0 to 24, and a
change sets the victim pointer to the new P; the refresh mode takes its two values and clears the opportune request;
the notice mask takes every value. Other percents, pin counts and modes are refused with OUT_OF_RANGE. The commands
are bus writes of the items' words (log 2). -/
def Obligations.SettingsWithEffectsAreJudgedAtOnce : Prop :=
  (∀ (s : State) (data v : Word) (be : Enables), s.ready → be ≠ 0 →
    (v = mergeBytes (word s.part.depot.water.quota) data be →
      ∃ t, exec (.quotaSettingWrite .volume data be .maint) s = .next t ∧
      s.becomes
        { s.afterControl 0x164 data be .maint with
          depot := { s.part.depot with
            water := { s.part.depot.water with
              quota := v.toNat
              stage := stageOf s.part.depot.water.totals.intake v.toNat s.part.depot.water.percent }
            notices := { s.part.depot.notices with
              pending := if stageOf s.part.depot.water.totals.intake v.toNat s.part.depot.water.percent =
                  s.part.depot.water.stage
                then s.part.depot.notices.pending else s.part.depot.notices.pending ||| 0x200#16 } } } t) ∧
    (v = mergeBytes (word s.part.depot.water.percent) data be → 50 ≤ v.toNat → v.toNat ≤ 99 →
      ∃ t, exec (.quotaSettingWrite .percent data be .maint) s = .next t ∧
      s.becomes
        { s.afterControl 0x168 data be .maint with
          depot := { s.part.depot with
            water := { s.part.depot.water with
              percent := v.toNat
              stage := stageOf s.part.depot.water.totals.intake s.part.depot.water.quota v.toNat }
            notices := { s.part.depot.notices with
              pending := if stageOf s.part.depot.water.totals.intake s.part.depot.water.quota v.toNat =
                  s.part.depot.water.stage
                then s.part.depot.notices.pending else s.part.depot.notices.pending ||| 0x200#16 } } } t) ∧
    (v = mergeBytes (word s.part.depot.water.percent) data be → (v.toNat < 50 ∨ 99 < v.toNat) →
      ∃ t, exec (.quotaSettingWrite .percent data be .maint) s = .next t ∧
      s.becomes (Part.afterRefusal 0x168 .outOfRange (s.afterControl 0x168 data be .maint)) t) ∧
    (v = mergeBytes (word s.part.depot.water.floor) data be →
      ∃ t, exec (.reclaimFloorWrite data be .maint) s = .next t ∧
      s.becomes
        { s.afterControl 0x154 data be .maint with
          depot := { s.part.depot with
            water := { s.part.depot.water with
              floor := v.toNat
              available := s.part.depot.water.quality = .qualified ∧ v.toNat ≤ s.part.depot.water.level }
            notices := { s.part.depot.notices with
              pending := if s.part.depot.water.available =
                  decide (s.part.depot.water.quality = .qualified ∧ v.toNat ≤ s.part.depot.water.level)
                then s.part.depot.notices.pending else s.part.depot.notices.pending ||| 0x400#16 } } } t)) ∧
  ∀ (s : State) (data v : Word) (be : Enables), s.ready → be ≠ 0 →
    (v = mergeBytes (word s.part.depot.identity.pinCount) data be → v.toNat ≤ 24 →
      ∃ t, exec (.pinCountWrite data be .maint) s = .next t ∧
      s.becomes
        { s.afterControl 0x144 data be .maint with
          depot := { s.part.depot with
            identity := { s.part.depot.identity with
              pinCount := v.toNat
              victim := if s.part.depot.identity.pinCount = v.toNat then s.part.depot.identity.victim
                else v.toNat } } } t) ∧
    (v = mergeBytes (word s.part.depot.identity.pinCount) data be → 24 < v.toNat →
      ∃ t, exec (.pinCountWrite data be .maint) s = .next t ∧
      s.becomes (Part.afterRefusal 0x144 .outOfRange (s.afterControl 0x144 data be .maint)) t) ∧
    (v = mergeBytes (word s.part.store.mode.code) data be → v = 0 ∨ v = 1 →
      ∃ t, exec (.refreshModeWrite data be .maint) s = .next t ∧
      s.becomes
        { s.afterControl 0x18C data be .maint with
          store := { s.part.store with
            mode := if v = 0 then .scheduled else .opportune, opportune := false } } t) ∧
    (v = mergeBytes (word s.part.store.mode.code) data be → 1 < v.toNat →
      ∃ t, exec (.refreshModeWrite data be .maint) s = .next t ∧
      s.becomes (Part.afterRefusal 0x18C .outOfRange (s.afterControl 0x18C data be .maint)) t) ∧
    (v = mergeBytes (word s.part.depot.notices.mask.toNat) data be →
      ∃ t, exec (.noticeMaskWrite data be .maint) s = .next t ∧
      s.becomes
        { s.afterControl 0x198 data be .maint with
          depot := { s.part.depot with
            notices := { s.part.depot.notices with mask := v.extractLsb' 0 16 } } } t)

/-- R55, R72, R114, R115, R119: an account commit puts the five staged host fields in force and leaves the part-kept
fields. One that relaxes the credit hold re-evaluates each session held for credit that binds the account: it becomes
held as DUPLICATE where another bay holds its tag in ADMITTED or WASHING, stays while the account is on credit hold,
and is admitted else; of two with one tag, one is admitted and the other becomes DUPLICATE, in the order that log 9
leaves free. A commit that would invalidate an account with open count above 0 is refused with IN_USE. The command is
a bus write of the item's word (log 2). -/
def Obligations.AccountCommitTakesTheHostFields : Prop :=
  ∀ (s : State) (a : Fin 64) (data : Word) (be : Enables) (req : Requester) (x : Account) (y : Part), s.ready → be ≠ 0 →
    (req = .site ∨ req = .maint) →
    x = { s.part.depot.account a with
      valid := s.part.depot.charge.staged[a].word0.getLsbD 31
      manualHold := s.part.depot.charge.staged[a].word0.getLsbD 30
      band := Fin.ofNat 4 (s.part.depot.charge.staged[a].word0.toNat / 2 ^ 28 % 4)
      haulier := s.part.depot.charge.staged[a].word0.extractLsb' 0 24
      limit := s.part.depot.charge.staged[a].word1.toNat } →
    y = (s.afterControl (0x30C + 16 * a.val) data be req).withAccounts (s.part.depot.charge.accounts.set a x) →
    (x.valid = true ∨ (s.part.depot.account a).openCount = 0 →
      (¬ (s.part.depot.account a).relaxedTo x ∨ ∀ b, ¬ s.part.depot.heldForCredit a b) →
      ∃ t, exec (.accountCommit a data be req) s = .next t ∧ s.becomes y t) ∧
    (x.valid = true → (s.part.depot.account a).relaxedTo x →
      (∀ b c, s.part.depot.heldForCredit a b → s.part.depot.heldForCredit a c →
        (s.part.depot.session b).tag = (s.part.depot.session c).tag → b = c) →
      ∃ t bays draws raised, exec (.accountCommit a data be req) s = .next t ∧
        s.becomes
          ((({ y with depot := { y.depot with draws := draws } }).withBays bays).withPending
            (if raised = true then 8#16 else 0)) t ∧
        (raised = true ↔ ∃ b, s.part.depot.heldForCredit a b ∧
          ∃ c, s.part.depot.activeWith (s.part.depot.session b).tag c) ∧
        ∀ b : Fin 8,
          (¬ s.part.depot.heldForCredit a b → bays[b] = s.part.depot.bay b) ∧
          (s.part.depot.heldForCredit a b →
            ((∃ c, s.part.depot.activeWith (s.part.depot.session b).tag c) → bays[b] = s.part.depot.duplicateBay b) ∧
            ((∀ c, ¬ s.part.depot.activeWith (s.part.depot.session b).tag c) →
              (x.onCreditHold → bays[b] = s.part.depot.bay b) ∧
              (¬ x.onCreditHold → bays[b] = s.part.depot.admittedBay b)))) ∧
    (∀ b c : Fin 8, x.valid = true → (s.part.depot.account a).relaxedTo x → ¬ x.onCreditHold → b ≠ c →
      (∀ e, s.part.depot.heldForCredit a e ↔ e = b ∨ e = c) →
      (s.part.depot.session b).tag = (s.part.depot.session c).tag →
      (∀ e, ¬ s.part.depot.activeWith (s.part.depot.session b).tag e) →
      ∃ t draws first second, exec (.accountCommit a data be req) s = .next t ∧
        ((first = b ∧ second = c) ∨ (first = c ∧ second = b)) ∧
        s.becomes
          (((({ y with depot := { y.depot with draws := draws } }).withBay first
            (s.part.depot.admittedBay first)).withBay second (s.part.depot.duplicateBay second)).withPending 8#16) t) ∧
    (x.valid = false → 0 < (s.part.depot.account a).openCount →
      ∃ t, exec (.accountCommit a data be req) s = .next t ∧
        s.becomes (Part.afterRefusal (0x30C + 16 * a.val) .inUse
          (s.afterControl (0x30C + 16 * a.val) data be req)) t)

/-- R63, R68, R69, R80, R81, R117, R144, R194: an ADMIT of a HELD session, without override where the session binds an
account, or with an override (bit 16; index at bits 24 to 29, class at bits 30 and 31) that names a valid account and
replaces the binding and the class. The session enters ADMITTED with OPERATOR_ADMITTED; each account's open count
follows its bindings. A session of another bay that holds the tag in ADMITTED or WASHING is closed first with reason
DISPLACED, its claim waiting or admitted within this event (log 3). Outside HELD, and without override where no
account is bound, the decision is refused with WRONG_STATE; an override that names no valid account, with
OUT_OF_RANGE. No claim waits that fits. The command is a bus write of the decision word (log 2). -/
def Obligations.AdmitEntersAdmittedOrIsRefused : Prop :=
  ∀ (s : State) (b : Fin 8) (o : Option (Fin 64 × Fin 4)) (data v : Word) (be : Enables) (req : Requester) (y : Part),
    s.ready → be.getLsbD 0 = true → v = mergeBytes 0 data be → (req = .site ∨ req = .maint) → bits v 8 3 = b.val →
    (∀ a cls, o = some (a, cls) ↔ v.getLsbD 16 = true ∧ bits v 24 6 = a.val ∧ bits v 30 2 = cls.val) →
    y = s.afterControl 0x280 (withDecision 1 data) be req →
    (∀ r : AccountRef, (s.part.depot.session b).state = .held →
      (o = none → (s.part.depot.session b).account = some r ∧ r.bound = true) →
      (∀ a cls, o = some (a, cls) → (s.part.depot.account a).valid = true ∧ r = ⟨a, cls, true⟩) →
      ∀ z : Bay, z = { s.part.depot.admittedBay b with
          session := { (s.part.depot.admittedBay b).session with operatorAdmitted := true, account := some r } } →
        ((∀ c, c ≠ b → ¬ s.part.depot.activeWith (s.part.depot.session b).tag c) →
          ∃ t accounts, exec (.admitSession data be req) s = .next t ∧ s.part.depot.rebinds b o r accounts ∧
            s.becomesOrWrites ((y.withAccounts accounts).withBay b z) t) ∧
        ∀ c : Fin 8, c ≠ b → s.claimsSettled →
          (∀ e, e ≠ b → (s.part.depot.activeWith (s.part.depot.session b).tag e ↔ e = c)) →
          ∃ t q accounts, exec (.admitSession data be req) s = .next t ∧
            y.closed c .displaced s.part.calendar.now q ∧ q.depot.rebinds b o r accounts ∧
            s.becomesOrWrites ((q.withAccounts accounts).withBay b z) t) ∧
    ((s.part.depot.session b).state ≠ .held ∨
        (o = none ∧ ∀ r, (s.part.depot.session b).account = some r → r.bound = false) →
      ∃ t, exec (.admitSession data be req) s = .next t ∧ s.becomes (Part.afterRefusal 0x280 .wrongState y) t) ∧
    ∀ a cls, (s.part.depot.session b).state = .held → o = some (a, cls) → (s.part.depot.account a).valid = false →
      ∃ t, exec (.admitSession data be req) s = .next t ∧ s.becomes (Part.afterRefusal 0x280 .outOfRange y) t

/-- R68, R70, R71, R75, R80, R81, R82, R129, R142, R144: TURN_AWAY closes a HELD session with reason TURNED_AWAY, and
CLOSE a session in LOOKUP, HELD, ADMITTED or WASHING with reason OPERATOR. A lookup is withdrawn, the running line
ends, the timers stop, and the claim for the end records waits, with JOURNAL_STALLED, or is admitted within this event
(log 3). TURN_AWAY in any other state, and CLOSE in VACANT or CLOSING, is refused with WRONG_STATE. The command is a
bus write of the decision word with its decision set (log 2). -/
def Obligations.TurnAwayAndCloseEndTheVisit : Prop :=
  ∀ (s : State) (b : Fin 8) (data v : Word) (be : Enables) (req : Requester), s.ready → be.getLsbD 0 = true →
    v = mergeBytes 0 data be → (req = .site ∨ req = .maint) → bits v 8 3 = b.val →
    ((s.part.depot.session b).state = .held →
      ∃ t q, exec (.turnAway data be req) s = .next t ∧
        (s.afterControl 0x280 (withDecision 2 data) be req).closed b .turnedAway s.part.calendar.now q ∧
        s.becomesOrWrites q t) ∧
    ((s.part.depot.session b).state ≠ .vacant → (s.part.depot.session b).state ≠ .closing →
      ∃ t q, exec (.close data be req) s = .next t ∧
        (s.afterControl 0x280 (withDecision 3 data) be req).closed b .operator s.part.calendar.now q ∧
        s.becomesOrWrites q t) ∧
    ((s.part.depot.session b).state ≠ .held →
      ∃ t, exec (.turnAway data be req) s = .next t ∧
        s.becomes (Part.afterRefusal 0x280 .wrongState
          (s.afterControl 0x280 (withDecision 2 data) be req)) t) ∧
    ((s.part.depot.session b).state = .vacant ∨ (s.part.depot.session b).state = .closing →
      ∃ t, exec (.close data be req) s = .next t ∧
        s.becomes (Part.afterRefusal 0x280 .wrongState
          (s.afterControl 0x280 (withDecision 3 data) be req)) t)

/-- R105, R194: RELEASE_RECLAIM in REJECTED enters SAMPLING with the count 0 and the window started by its setting; in
any other state it is refused with WRONG_STATE; a decision word whose kind names no decision is refused with
OUT_OF_RANGE. The command is a bus write of the decision word with its decision set (log 2). -/
def Obligations.ReleaseReclaimOrNoDecision : Prop :=
  ∀ (s : State) (data : Word) (be : Enables) (req : Requester), s.ready → be ≠ 0 → (req = .site ∨ req = .maint) →
    (be.getLsbD 0 = true → s.part.depot.water.quality = .rejected →
      ∃ t, exec (.releaseReclaim data be req) s = .next t ∧ t.mem = s.mem ∧
        t.part.depot.water =
          { s.part.depot.water with
            badSamples := 0
            quality := if s.part.depot.water.window = 0 then .rejected else .sampling
            qualityTimer := if s.part.depot.water.window = 0 ∨ s.part.depot.water.window = 255 then none
              else some (2 * s.part.depot.water.window)
            available := false } ∧
        t.part.depot.sessions = s.part.depot.sessions ∧ t.part.depot.charge = s.part.depot.charge ∧
        t.part.depot.notices.refusal = s.part.depot.notices.refusal) ∧
    (be.getLsbD 0 = true → s.part.depot.water.quality ≠ .rejected →
      ∃ t, exec (.releaseReclaim data be req) s = .next t ∧
        s.becomes (Part.afterRefusal 0x280 .wrongState
          (s.afterControl 0x280 (withDecision 4 data) be req)) t) ∧
    (decisionField data be = 0 ∨ 5 ≤ decisionField data be →
      ∃ t, exec (.decisionNoKind data be req) s = .next t ∧
        s.becomes (Part.afterRefusal 0x280 .outOfRange (s.afterControl 0x280 data be req)) t)

/-- R198: an acknowledge word, formed as R189 says, clears the pending flag of every cause it names; naming
ACCESS_BLOCKED, CONFIG_REFUSED or STORE_PARITY also empties the latch tied to it. Nothing else changes. The command is
a bus write of the item's word (log 2). -/
def Obligations.AcknowledgeClearsTheNamedCauses : Prop :=
  ∀ (s : State) (data v : Word) (be : Enables) (req : Requester), s.ready → be ≠ 0 → (req = .site ∨ req = .maint) →
    v = mergeBytes 0 data be →
    ∃ t, exec (.noticeAcknowledge data be req) s = .next t ∧
      s.becomes
        { s.afterControl 0x284 data be req with
          path := { (s.afterControl 0x284 data be req).path with
            blockLatch := if v.getLsbD 1 then none else s.part.path.blockLatch }
          store := { s.part.store with latch := if v.getLsbD 12 then none else s.part.store.latch }
          depot := { s.part.depot with
            notices := { s.part.depot.notices with
              pending := s.part.depot.notices.pending &&& ~~~ v.extractLsb' 0 16
              refusal := if v.getLsbD 2 then none else s.part.depot.notices.refusal } } } t

/-- R134, R136: a tail write, its word formed as R189 says, within the occupied span sets the tail and leaves the
head, and any other index is refused with OUT_OF_RANGE. Where the write leaves room in the ring, a record waits and no
record write is in flight, one begins: the head record takes the next-sequence value and its word 0 is claimed. With
no JOURNAL window, where head and tail are equal, the index of the head is taken and changes nothing. The command is a
bus write of the item's word (log 2). -/
def Obligations.TailWriteReleasesSlots : Prop :=
  ∀ (s : State) (data v : Word) (be : Enables) (req : Requester) (j : Journal), s.ready → be ≠ 0 →
    (req = .site ∨ req = .maint) → v = mergeBytes 0 data be → j = s.part.depot.journal →
    (∀ g : Ring, s.part.path.ring = some g →
      (v.toNat % 65536 < g.slots →
        (v.toNat % 65536 + g.slots - j.tail) % g.slots ≤ (j.head + g.slots - j.tail) % g.slots →
        (j.writing ≠ none ∨ j.queue = [] ∨ g.slots - 1 ≤ (j.head + g.slots - v.toNat % 65536) % g.slots →
          ∃ t, exec (.journalTailWrite data be req) s = .next t ∧
            s.becomes
              { s.afterControl 0x288 data be req with
                depot := { s.part.depot with journal := { j with tail := v.toNat % 65536 } } } t) ∧
        (∀ r rest, j.writing = none → j.queue = r :: rest →
          (j.head + g.slots - v.toNat % 65536) % g.slots < g.slots - 1 →
          ∃ t, exec (.journalTailWrite data be req) s = .next t ∧
            s.becomes
              { s.afterControl 0x288 data be req with
                depot := { s.part.depot with
                  journal := { j with
                    tail := v.toNat % 65536
                    queue := { r with sequence := some j.nextSeq } :: rest
                    writing := some 0 } } } t)) ∧
      (g.slots ≤ v.toNat % 65536 ∨
          (j.head + g.slots - j.tail) % g.slots < (v.toNat % 65536 + g.slots - j.tail) % g.slots →
        ∃ t, exec (.journalTailWrite data be req) s = .next t ∧
          s.becomes (Part.afterRefusal 0x288 .outOfRange (s.afterControl 0x288 data be req)) t)) ∧
    (s.part.path.ring = none →
      (v.toNat % 65536 = j.head → j.tail = j.head →
        ∃ t, exec (.journalTailWrite data be req) s = .next t ∧ s.becomes (s.afterControl 0x288 data be req) t) ∧
      (v.toNat % 65536 ≠ j.head →
        ∃ t, exec (.journalTailWrite data be req) s = .next t ∧
          s.becomes (Part.afterRefusal 0x288 .outOfRange (s.afterControl 0x288 data be req)) t))

/-- R53: a preload commit, its word formed as R189 says, with an index below P makes the preload pending, with the tag
joined from the staged low word; an index at or above P is refused with OUT_OF_RANGE, and a commit while one is
pending with BUSY. The command is a bus write of the item's word (log 2). -/
def Obligations.PreloadCommitIsJudged : Prop :=
  ∀ (s : State) (data v : Word) (be : Enables), s.ready → be ≠ 0 → v = mergeBytes 0 data be →
    (v.toNat / 65536 % 32 < s.part.depot.identity.pinCount → s.part.depot.identity.preload = none →
      ∃ t, exec (.preloadCommit data be .maint) s = .next t ∧
        s.becomes
          { s.afterControl 0x290 data be .maint with
            depot := { s.part.depot with
              identity := { s.part.depot.identity with
                preload := some
                  { tag := BitVec.ofNat 48
                      (s.part.depot.identity.stagedTagLow.toNat + v.toNat % 65536 * 4294967296)
                    index := v.toNat / 65536 % 32 } } } } t) ∧
    (s.part.depot.identity.pinCount ≤ v.toNat / 65536 % 32 →
      ∃ t, exec (.preloadCommit data be .maint) s = .next t ∧
        s.becomes (Part.afterRefusal 0x290 .outOfRange (s.afterControl 0x290 data be .maint)) t) ∧
    (v.toNat / 65536 % 32 < s.part.depot.identity.pinCount → s.part.depot.identity.preload ≠ none →
      ∃ t, exec (.preloadCommit data be .maint) s = .next t ∧
        s.becomes (Part.afterRefusal 0x290 .busy (s.afterControl 0x290 data be .maint)) t)

/-- R156, R161, R162: a calendar set commit, its word formed as R189 says, in range, with no session in ADMITTED,
WASHING or CLOSING and no sweep or boundary pending, sets the calendar at once: the proposed date and time, half 0,
the derived weekday, SET. Out of range it is refused with OUT_OF_RANGE; in range with money in motion, with
WRONG_STATE. The command is a bus write of the item's word (log 2). That the first clause leaves calendar.tickStamp as
it was, so that an expiry left late keeps its tick's stamp, is the model's choice between R160 and R162 (log 27). -/
def Obligations.CalendarSetIsJudged : Prop :=
  ∀ (s : State) (data v : Word) (be : Enables), s.ready → be ≠ 0 → v = mergeBytes 0 data be →
    (proposalInRange s.part.calendar.stagedDate v →
      (∀ b : Fin 8, (s.part.depot.session b).state ≠ .admitted ∧ (s.part.depot.session b).state ≠ .washing ∧
        (s.part.depot.session b).state ≠ .closing) →
      s.part.depot.journal.sweep = none → s.part.depot.journal.boundaryPending = false →
      ∃ t, exec (.calendarSetCommit data be .maint) s = .next t ∧
        s.becomes
          { s.afterControl 0x298 data be .maint with
            calendar := { s.part.calendar with
              now :=
                { year := s.part.calendar.stagedDate.toNat % 65536
                  month := s.part.calendar.stagedDate.toNat / 65536 % 256
                  day := s.part.calendar.stagedDate.toNat / 16777216
                  weekday := weekdayOf (s.part.calendar.stagedDate.toNat % 65536)
                    (s.part.calendar.stagedDate.toNat / 65536 % 256) (s.part.calendar.stagedDate.toNat / 16777216)
                  hour := v.toNat / 65536 % 256, minute := v.toNat / 256 % 256, second := v.toNat % 256
                  half := 0, isSet := true } } } t) ∧
    (¬ proposalInRange s.part.calendar.stagedDate v →
      ∃ t, exec (.calendarSetCommit data be .maint) s = .next t ∧
        s.becomes (Part.afterRefusal 0x298 .outOfRange (s.afterControl 0x298 data be .maint)) t) ∧
    (proposalInRange s.part.calendar.stagedDate v →
      (∃ b : Fin 8, (s.part.depot.session b).state = .admitted ∨ (s.part.depot.session b).state = .washing ∨
        (s.part.depot.session b).state = .closing) ∨ s.part.depot.journal.sweep ≠ none ∨
        s.part.depot.journal.boundaryPending = true →
      ∃ t, exec (.calendarSetCommit data be .maint) s = .next t ∧
        s.becomes (Part.afterRefusal 0x298 .wrongState (s.afterControl 0x298 data be .maint)) t)

/-! ## Money -/

/-- R126, R127: the amount of the CHARGE record composed for a line: the water charge rounded down, plus the tariff
cell, plus the abandon fee for the last record of an abandoned session alone, less the band discount rounded down, and
never more than 4,294,967,295, with SATURATED set where it would be. -/
def Obligations.ChargeAmountFollowsItsRule : Prop :=
  ∀ (d : Depot) (b : Fin 8) (r : AccountRef) (stamp : Stamp) (l : Line) (last : Bool),
    ∃ body water subtotal amount,
      (d.composeCharge b r stamp l last) = ⟨.charge body, some b, stamp⟩ ∧
      water = (l.fresh * d.charge.freshRate + (l.conceded + l.reclaim) * d.charge.reclaimRate) / 100 ∧
      subtotal = d.charge.tariff[16 * r.cls.val + l.program.val].toNat + water +
        (if last = true ∧ (d.session b).abandoned = true then d.charge.abandonFee else 0) ∧
      amount = subtotal - subtotal * d.charge.discounts[(d.account r.index).band] / 100 ∧
      body.amount = (if 4294967295 < amount then 4294967295 else amount) ∧
      (body.saturated = true ↔ 4294967295 < amount) ∧ body.abandoned = (d.session b).abandoned ∧
      body.operatorAdmitted = (d.session b).operatorAdmitted ∧ body.last = last ∧
      body.account = r.index ∧ body.haulier = (d.account r.index).haulier ∧ body.conceded = l.conceded

/-! ## Invariants -/

/-- Every step keeps the canonical form of the depot store (log 12). -/
def Obligations.StoreStaysCanonical : Prop :=
  ∀ s t : State, s.memoryOk → step s = .next t → t.memoryOk

/-- R11, R140, R142, R173: every step keeps the refresh debt at most 8, the posted write queue at most four entries and
the insertion queue at most eight records, and leaves no claim waiting that fits and none without a record (log 3). -/
def Obligations.QueuesAndDebtStayBounded : Prop :=
  (∀ s t : State, s.debtOk → step s = .next t → t.debtOk) ∧
    (∀ s t : State, s.postedOk → step s = .next t → t.postedOk) ∧
    (∀ s t : State, s.queueOk → step s = .next t → t.queueOk) ∧
    ∀ s t : State, s.claimsOk → step s = .next t → t.claimsOk

/-- R155, R156: every step keeps a valid date and time in the calendar, and its weekday that of the date. The kept
stamp of the tick is the model's (log 6). -/
def Obligations.CalendarStaysValid : Prop :=
  ∀ s t : State, s.calendarOk → step s = .next t → t.calendarOk

/-- R40: every step keeps at most one valid cache entry for each tag. -/
def Obligations.CacheHoldsATagOnce : Prop :=
  ∀ s t : State, s.cacheOk → step s = .next t → t.cacheOk

/-- R171 and log 13: after every command but power-on reset no claim waits at a free port and no access waits for a
free bus. -/
def Obligations.PortAndBusAreNeverIdleForNothing : Prop :=
  ∀ (c : Instr) (s t : State), (∀ n, c ≠ .powerOnReset n) → exec c s = .next t → t.portOk ∧ t.busOk

/-- The machine right after reset: it is what power-on reset leaves with the straps at 0 (log 14), with no command
waiting and nothing listed in the store (log 12), and every invariant holds of it. -/
def Obligations.ResetStateMeetsTheInvariants : Prop :=
  (∀ s : State, exec (.powerOnReset 0) s = .next { s with part := State.reset.part }) ∧
    State.reset.pending = [] ∧ State.reset.mem = {} ∧ State.reset.memoryOk ∧ State.reset.debtOk ∧
    State.reset.postedOk ∧ State.reset.queueOk ∧ State.reset.claimsOk ∧ State.reset.calendarOk ∧ State.reset.cacheOk ∧
    State.reset.busOk
end

