-- ==== Sys2Proof/Laws/Calendar.lean ====
section
/-!
SUPPORT. The calendar stays sound: the months and years add up to the count of days that gives the weekday, and a tick
and a set request leave a valid date with its weekday (R155, R156, R158, R161).
-/

namespace Sys2Proof.Machine

open Sys2Proof

theorem daysToMonth_succ (y m : Nat) (h : 1 ≤ m) : daysToMonth y (m + 1) = daysToMonth y m + monthLength y m := by
  obtain ⟨k, rfl⟩ : ∃ k, m = k + 1 := ⟨m - 1, by omega⟩
  simp [daysToMonth, List.range_succ]

theorem daysToYear_succ (y : Nat) (h : 2020 ≤ y) :
    daysToYear (y + 1) = daysToYear y + if isLeap y then 366 else 365 := by
  have : y + 1 - 2020 = (y - 2020) + 1 := by omega
  simp only [daysToYear, this, List.range_succ, List.map_append, List.sum_append, List.map_cons, List.map_nil,
    List.sum_cons, List.sum_nil]
  rw [show 2020 + (y - 2020) = y by omega]; simp

/-- The days of a year. -/
theorem daysToMonth_12 (y : Nat) : daysToMonth y 12 + 31 = if isLeap y then 366 else 365 := by
  simp only [daysToMonth, List.range, List.range.loop, List.map, List.sum_cons, List.sum_nil, monthLength]
  cases isLeap y <;> simp

theorem monthLength_pos (y m : Nat) : 1 ≤ monthLength y m := by
  unfold monthLength; split <;> try omega
  split <;> omega

theorem Calendar.valid_iff (c : Calendar) :
    c.valid = true ↔
      (2020 ≤ c.year ∧ c.year ≤ 2147 ∧ 1 ≤ c.month ∧ c.month ≤ 12 ∧ 1 ≤ c.day ∧ c.day ≤ monthLength c.year c.month) ∧
        (c.hour ≤ 23 ∧ c.minute ≤ 59 ∧ c.second ≤ 59) ∧ c.half ≤ 1 ∧ c.weekday ≤ 6 := by
  simp [Calendar.valid, validDate, validTime]; tauto

theorem weekdayOf_le (y m d : Nat) : weekdayOf y m d ≤ 6 := by unfold weekdayOf; omega

/-- 1 January 2020 was a Wednesday (R153, R156). -/
theorem Calendar.start_sound : ({} : Calendar).sound := ⟨by decide, by decide⟩

/-- The next day is a valid date with its weekday (R158). -/
theorem Calendar.nextDay_sound (c : Calendar) (h : c.sound) : c.nextDay.sound := by
  obtain ⟨hv, hw⟩ := h
  rw [Calendar.valid_iff] at hv
  obtain ⟨⟨y1, y2, m1, m2, d1, d2⟩, ⟨h1, h2, h3⟩, h4, h5⟩ := hv
  have hpos := monthLength_pos c.year (c.month + 1)
  unfold Calendar.nextDay
  dsimp only
  have hle : (c.weekday + 1) % 7 ≤ 6 := by omega
  split
  · refine ⟨(Calendar.valid_iff _).2 ⟨⟨y1, y2, m1, m2, ?_, ?_⟩, ⟨Nat.zero_le _, Nat.zero_le _, Nat.zero_le _⟩,
      Nat.zero_le _, hle⟩, ?_⟩
    · show 1 ≤ c.day + 1; omega
    · show c.day + 1 ≤ monthLength c.year c.month; omega
    · show (c.weekday + 1) % 7 = weekdayOf c.year c.month (c.day + 1)
      rw [hw]; unfold weekdayOf; omega
  · have hd : c.day = monthLength c.year c.month := by omega
    split
    · refine ⟨(Calendar.valid_iff _).2 ⟨⟨y1, y2, ?_, ?_, ?_, ?_⟩, ⟨Nat.zero_le _, Nat.zero_le _, Nat.zero_le _⟩,
        Nat.zero_le _, hle⟩, ?_⟩
      · show 1 ≤ c.month + 1; omega
      · show c.month + 1 ≤ 12; omega
      · show 1 ≤ 1; omega
      · exact hpos
      · show (c.weekday + 1) % 7 = weekdayOf c.year (c.month + 1) 1
        rw [hw]; unfold weekdayOf; rw [daysToMonth_succ _ _ m1]; omega
    · have hm : c.month = 12 := by omega
      split
      · refine ⟨(Calendar.valid_iff _).2 ⟨⟨?_, ?_, ?_, ?_, ?_, ?_⟩, ⟨Nat.zero_le _, Nat.zero_le _, Nat.zero_le _⟩,
          Nat.zero_le _, hle⟩, ?_⟩
        · show 2020 ≤ c.year + 1; omega
        · show c.year + 1 ≤ 2147; omega
        · show 1 ≤ 1; omega
        · show 1 ≤ 12; omega
        · show 1 ≤ 1; omega
        · exact monthLength_pos _ _
        · show (c.weekday + 1) % 7 = weekdayOf (c.year + 1) 1 1
          have h12 := daysToMonth_12 c.year
          have hl : monthLength c.year 12 = 31 := rfl
          rw [hw]; unfold weekdayOf; rw [daysToYear_succ _ y1, hm, ← h12, hd, hm, hl]
          have : daysToMonth (c.year + 1) 1 = 0 := rfl
          rw [this]; omega
      · exact Calendar.start_sound

/-- A tick keeps the calendar sound (R155, R156, R158). -/
theorem Calendar.tick_sound (c : Calendar) (h : c.sound) : c.tick.sound := by
  have hs := h
  obtain ⟨hv, hw⟩ := h
  rw [Calendar.valid_iff] at hv
  obtain ⟨D, ⟨h1, h2, h3⟩, h4, h5⟩ := hv
  unfold Calendar.tick
  split
  · exact ⟨(Calendar.valid_iff _).2 ⟨D, ⟨h1, h2, h3⟩, by show 1 ≤ 1; omega, h5⟩, hw⟩
  · split
    · exact ⟨(Calendar.valid_iff _).2 ⟨D, ⟨h1, h2, by show c.second + 1 ≤ 59; omega⟩, Nat.zero_le _, h5⟩, hw⟩
    · split
      · exact ⟨(Calendar.valid_iff _).2
          ⟨D, ⟨h1, by show c.minute + 1 ≤ 59; omega, Nat.zero_le _⟩, Nat.zero_le _, h5⟩, hw⟩
      · split
        · exact ⟨(Calendar.valid_iff _).2
            ⟨D, ⟨by show c.hour + 1 ≤ 23; omega, Nat.zero_le _, Nat.zero_le _⟩, Nat.zero_le _, h5⟩, hw⟩
        · exact Calendar.nextDay_sound c hs

/-- A proposal in range is sound (R161, R162). -/
theorem Calendar.proposed_sound (d t : Word) (h : (proposedCalendar d t).proposable = true) :
    (proposedCalendar d t).sound := by
  refine ⟨?_, rfl⟩
  simp only [Calendar.proposable, Bool.and_eq_true] at h
  simp only [Calendar.valid, h.1, h.2, Bool.true_and, Bool.and_eq_true, decide_eq_true_eq]
  refine ⟨Nat.zero_le _, ?_⟩
  exact weekdayOf_le _ _ _

end Sys2Proof.Machine
end

