-- ==== Sys2Proof/Laws/State.lean ====
section
/-!
SUPPORT. What each named update of the state leaves: one lemma per update and field, true by definition.
-/

namespace Sys2Proof.Machine

open Sys2Proof

/-! ## Updates of the part -/

@[simp] theorem Part.complete_capture (a : Access) (d : Word) (p : Part) :
    (p.complete a d).capture = p.capture := rfl
@[simp] theorem Part.complete_calendar (a : Access) (d : Word) (p : Part) :
    (p.complete a d).calendar = p.calendar := rfl
@[simp] theorem Part.complete_store (a : Access) (d : Word) (p : Part) :
    (p.complete a d).store = p.store := rfl
@[simp] theorem Part.complete_depot (a : Access) (d : Word) (p : Part) :
    (p.complete a d).depot = p.depot := rfl
@[simp] theorem Part.complete_path_straps (a : Access) (d : Word) (p : Part) :
    (p.complete a d).path.straps = p.path.straps := rfl
@[simp] theorem Part.complete_path_windows (a : Access) (d : Word) (p : Part) :
    (p.complete a d).path.windows = p.path.windows := rfl
@[simp] theorem Part.complete_path_staged (a : Access) (d : Word) (p : Part) :
    (p.complete a d).path.staged = p.path.staged := rfl
@[simp] theorem Part.complete_path_posted (a : Access) (d : Word) (p : Part) :
    (p.complete a d).path.posted = p.path.posted := rfl
@[simp] theorem Part.complete_path_blockLatch (a : Access) (d : Word) (p : Part) :
    (p.complete a d).path.blockLatch = p.path.blockLatch := rfl
@[simp] theorem Part.complete_path_held (a : Access) (d : Word) (p : Part) :
    (p.complete a d).path.held = p.path.held := rfl
@[simp] theorem Part.complete_path_deferred (a : Access) (d : Word) (p : Part) :
    (p.complete a d).path.deferred = p.path.deferred := rfl
@[simp] theorem Part.hold_capture (h : Held) (p : Part) :
    (p.hold h).capture = p.capture := rfl
@[simp] theorem Part.hold_calendar (h : Held) (p : Part) :
    (p.hold h).calendar = p.calendar := rfl
@[simp] theorem Part.hold_store (h : Held) (p : Part) :
    (p.hold h).store = p.store := rfl
@[simp] theorem Part.hold_depot (h : Held) (p : Part) :
    (p.hold h).depot = p.depot := rfl
@[simp] theorem Part.hold_path_straps (h : Held) (p : Part) :
    (p.hold h).path.straps = p.path.straps := rfl
@[simp] theorem Part.hold_path_windows (h : Held) (p : Part) :
    (p.hold h).path.windows = p.path.windows := rfl
@[simp] theorem Part.hold_path_staged (h : Held) (p : Part) :
    (p.hold h).path.staged = p.path.staged := rfl
@[simp] theorem Part.hold_path_posted (h : Held) (p : Part) :
    (p.hold h).path.posted = p.path.posted := rfl
@[simp] theorem Part.hold_path_blockLatch (h : Held) (p : Part) :
    (p.hold h).path.blockLatch = p.path.blockLatch := rfl
@[simp] theorem Part.hold_path_deferred (h : Held) (p : Part) :
    (p.hold h).path.deferred = p.path.deferred := rfl
@[simp] theorem Part.hold_path_done (h : Held) (p : Part) :
    (p.hold h).path.done = p.path.done := rfl
@[simp] theorem Part.hold_path_held (h : Held) (p : Part) :
    (p.hold h).path.held = some h := rfl
@[simp] theorem Part.unhold_capture (p : Part) :
    (p.unhold).capture = p.capture := rfl
@[simp] theorem Part.unhold_calendar (p : Part) :
    (p.unhold).calendar = p.calendar := rfl
@[simp] theorem Part.unhold_store (p : Part) :
    (p.unhold).store = p.store := rfl
@[simp] theorem Part.unhold_depot (p : Part) :
    (p.unhold).depot = p.depot := rfl
@[simp] theorem Part.unhold_path_straps (p : Part) :
    (p.unhold).path.straps = p.path.straps := rfl
@[simp] theorem Part.unhold_path_windows (p : Part) :
    (p.unhold).path.windows = p.path.windows := rfl
@[simp] theorem Part.unhold_path_staged (p : Part) :
    (p.unhold).path.staged = p.path.staged := rfl
@[simp] theorem Part.unhold_path_posted (p : Part) :
    (p.unhold).path.posted = p.path.posted := rfl
@[simp] theorem Part.unhold_path_blockLatch (p : Part) :
    (p.unhold).path.blockLatch = p.path.blockLatch := rfl
@[simp] theorem Part.unhold_path_deferred (p : Part) :
    (p.unhold).path.deferred = p.path.deferred := rfl
@[simp] theorem Part.unhold_path_done (p : Part) :
    (p.unhold).path.done = p.path.done := rfl
@[simp] theorem Part.unhold_path_held (p : Part) :
    p.unhold.path.held = none := rfl
@[simp] theorem Part.enqueuePosted_capture (e : PostedEntry) (p : Part) :
    (p.enqueuePosted e).capture = p.capture := rfl
@[simp] theorem Part.enqueuePosted_calendar (e : PostedEntry) (p : Part) :
    (p.enqueuePosted e).calendar = p.calendar := rfl
@[simp] theorem Part.enqueuePosted_store (e : PostedEntry) (p : Part) :
    (p.enqueuePosted e).store = p.store := rfl
@[simp] theorem Part.enqueuePosted_depot (e : PostedEntry) (p : Part) :
    (p.enqueuePosted e).depot = p.depot := rfl
@[simp] theorem Part.enqueuePosted_path_straps (e : PostedEntry) (p : Part) :
    (p.enqueuePosted e).path.straps = p.path.straps := rfl
@[simp] theorem Part.enqueuePosted_path_windows (e : PostedEntry) (p : Part) :
    (p.enqueuePosted e).path.windows = p.path.windows := rfl
@[simp] theorem Part.enqueuePosted_path_staged (e : PostedEntry) (p : Part) :
    (p.enqueuePosted e).path.staged = p.path.staged := rfl
@[simp] theorem Part.enqueuePosted_path_blockLatch (e : PostedEntry) (p : Part) :
    (p.enqueuePosted e).path.blockLatch = p.path.blockLatch := rfl
@[simp] theorem Part.enqueuePosted_path_held (e : PostedEntry) (p : Part) :
    (p.enqueuePosted e).path.held = p.path.held := rfl
@[simp] theorem Part.enqueuePosted_path_deferred (e : PostedEntry) (p : Part) :
    (p.enqueuePosted e).path.deferred = p.path.deferred := rfl
@[simp] theorem Part.enqueuePosted_path_done (e : PostedEntry) (p : Part) :
    (p.enqueuePosted e).path.done = p.path.done := rfl
@[simp] theorem Part.enqueuePosted_path_posted (e : PostedEntry) (p : Part) :
    (p.enqueuePosted e).path.posted = p.path.posted ++ [e] := rfl
@[simp] theorem Part.begin_capture (p : Part) :
    (p.begin).capture = p.capture := rfl
@[simp] theorem Part.begin_calendar (p : Part) :
    (p.begin).calendar = p.calendar := rfl
@[simp] theorem Part.begin_store (p : Part) :
    (p.begin).store = p.store := rfl
@[simp] theorem Part.begin_depot (p : Part) :
    (p.begin).depot = p.depot := rfl
@[simp] theorem Part.begin_path_straps (p : Part) :
    (p.begin).path.straps = p.path.straps := rfl
@[simp] theorem Part.begin_path_windows (p : Part) :
    (p.begin).path.windows = p.path.windows := rfl
@[simp] theorem Part.begin_path_staged (p : Part) :
    (p.begin).path.staged = p.path.staged := rfl
@[simp] theorem Part.begin_path_posted (p : Part) :
    (p.begin).path.posted = p.path.posted := rfl
@[simp] theorem Part.begin_path_blockLatch (p : Part) :
    (p.begin).path.blockLatch = p.path.blockLatch := rfl
@[simp] theorem Part.begin_path_held (p : Part) :
    (p.begin).path.held = p.path.held := rfl
@[simp] theorem Part.begin_path_deferred (p : Part) :
    (p.begin).path.deferred = p.path.deferred := rfl
@[simp] theorem Part.begin_path_done (p : Part) :
    p.begin.path.done = [] := rfl
@[simp] theorem Part.endGrant_path (p : Part) :
    (p.endGrant).path = p.path := rfl
@[simp] theorem Part.endGrant_capture (p : Part) :
    (p.endGrant).capture = p.capture := rfl
@[simp] theorem Part.endGrant_calendar (p : Part) :
    (p.endGrant).calendar = p.calendar := rfl
@[simp] theorem Part.endGrant_depot (p : Part) :
    (p.endGrant).depot = p.depot := rfl
@[simp] theorem Part.endGrant_store_run (p : Part) :
    (p.endGrant).store.run = p.store.run := rfl
@[simp] theorem Part.endGrant_store_clearing (p : Part) :
    (p.endGrant).store.clearing = p.store.clearing := rfl
@[simp] theorem Part.endGrant_store_debt (p : Part) :
    (p.endGrant).store.debt = p.store.debt := rfl
@[simp] theorem Part.endGrant_store_row (p : Part) :
    (p.endGrant).store.row = p.store.row := rfl
@[simp] theorem Part.endGrant_store_opportune (p : Part) :
    (p.endGrant).store.opportune = p.store.opportune := rfl
@[simp] theorem Part.endGrant_store_mode (p : Part) :
    (p.endGrant).store.mode = p.store.mode := rfl
@[simp] theorem Part.endGrant_store_latch (p : Part) :
    (p.endGrant).store.latch = p.store.latch := rfl
@[simp] theorem Part.endGrant_store_grant (p : Part) :
    p.endGrant.store.grant = none := rfl
@[simp] theorem Part.settleWalker_path (p : Part) :
    (p.settleWalker).path = p.path := rfl
@[simp] theorem Part.settleWalker_capture (p : Part) :
    (p.settleWalker).capture = p.capture := rfl
@[simp] theorem Part.settleWalker_calendar (p : Part) :
    (p.settleWalker).calendar = p.calendar := rfl
@[simp] theorem Part.settleWalker_store (p : Part) :
    (p.settleWalker).store = p.store := rfl
@[simp] theorem Part.raise_path (c : Cause) (p : Part) :
    (p.raise c).path = p.path := rfl
@[simp] theorem Part.raise_capture (c : Cause) (p : Part) :
    (p.raise c).capture = p.capture := rfl
@[simp] theorem Part.raise_calendar (c : Cause) (p : Part) :
    (p.raise c).calendar = p.calendar := rfl
@[simp] theorem Part.raise_store (c : Cause) (p : Part) :
    (p.raise c).store = p.store := rfl
@[simp] theorem Part.refuse_path (o : Nat) (r : RefusalReason) (p : Part) :
    (p.refuse o r).path = p.path := rfl
@[simp] theorem Part.refuse_capture (o : Nat) (r : RefusalReason) (p : Part) :
    (p.refuse o r).capture = p.capture := rfl
@[simp] theorem Part.refuse_calendar (o : Nat) (r : RefusalReason) (p : Part) :
    (p.refuse o r).calendar = p.calendar := rfl
@[simp] theorem Part.refuse_store (o : Nat) (r : RefusalReason) (p : Part) :
    (p.refuse o r).store = p.store := rfl
@[simp] theorem Part.block_capture (a : Addr) (req : Requester) (d : Direction) (p : Part) :
    (p.block a req d).capture = p.capture := rfl
@[simp] theorem Part.block_calendar (a : Addr) (req : Requester) (d : Direction) (p : Part) :
    (p.block a req d).calendar = p.calendar := rfl
@[simp] theorem Part.block_store (a : Addr) (req : Requester) (d : Direction) (p : Part) :
    (p.block a req d).store = p.store := rfl
@[simp] theorem Part.block_path_straps (a : Addr) (req : Requester) (d : Direction) (p : Part) :
    (p.block a req d).path.straps = p.path.straps := rfl
@[simp] theorem Part.block_path_windows (a : Addr) (req : Requester) (d : Direction) (p : Part) :
    (p.block a req d).path.windows = p.path.windows := rfl
@[simp] theorem Part.block_path_staged (a : Addr) (req : Requester) (d : Direction) (p : Part) :
    (p.block a req d).path.staged = p.path.staged := rfl
@[simp] theorem Part.block_path_posted (a : Addr) (req : Requester) (d : Direction) (p : Part) :
    (p.block a req d).path.posted = p.path.posted := rfl
@[simp] theorem Part.block_path_held (a : Addr) (req : Requester) (d : Direction) (p : Part) :
    (p.block a req d).path.held = p.path.held := rfl
@[simp] theorem Part.block_path_deferred (a : Addr) (req : Requester) (d : Direction) (p : Part) :
    (p.block a req d).path.deferred = p.path.deferred := rfl
@[simp] theorem Part.block_path_done (a : Addr) (req : Requester) (d : Direction) (p : Part) :
    (p.block a req d).path.done = p.path.done := rfl
@[simp] theorem Part.parityError_path (a : Addr) (h : Halves) (k : ParityAccess) (req : Option Requester) (p : Part) :
    (p.parityError a h k req).path = p.path := rfl
@[simp] theorem Part.parityError_capture (a : Addr) (h : Halves) (k : ParityAccess) (req : Option Requester) (p : Part) :
    (p.parityError a h k req).capture = p.capture := rfl
@[simp] theorem Part.parityError_calendar (a : Addr) (h : Halves) (k : ParityAccess) (req : Option Requester) (p : Part) :
    (p.parityError a h k req).calendar = p.calendar := rfl
@[simp] theorem Part.parityError_store_run (a : Addr) (h : Halves) (k : ParityAccess) (req : Option Requester) (p : Part) :
    (p.parityError a h k req).store.run = p.store.run := rfl
@[simp] theorem Part.parityError_store_clearing (a : Addr) (h : Halves) (k : ParityAccess) (req : Option Requester) (p : Part) :
    (p.parityError a h k req).store.clearing = p.store.clearing := rfl
@[simp] theorem Part.parityError_store_debt (a : Addr) (h : Halves) (k : ParityAccess) (req : Option Requester) (p : Part) :
    (p.parityError a h k req).store.debt = p.store.debt := rfl
@[simp] theorem Part.parityError_store_row (a : Addr) (h : Halves) (k : ParityAccess) (req : Option Requester) (p : Part) :
    (p.parityError a h k req).store.row = p.store.row := rfl
@[simp] theorem Part.parityError_store_opportune (a : Addr) (h : Halves) (k : ParityAccess) (req : Option Requester) (p : Part) :
    (p.parityError a h k req).store.opportune = p.store.opportune := rfl
@[simp] theorem Part.parityError_store_mode (a : Addr) (h : Halves) (k : ParityAccess) (req : Option Requester) (p : Part) :
    (p.parityError a h k req).store.mode = p.store.mode := rfl
@[simp] theorem Part.parityError_store_grant (a : Addr) (h : Halves) (k : ParityAccess) (req : Option Requester) (p : Part) :
    (p.parityError a h k req).store.grant = p.store.grant := rfl
@[simp] theorem Part.onDepot_path (f : Calendar → Depot → Depot) (p : Part) :
    (p.onDepot f).path = p.path := rfl
@[simp] theorem Part.onDepot_capture (f : Calendar → Depot → Depot) (p : Part) :
    (p.onDepot f).capture = p.capture := rfl
@[simp] theorem Part.onDepot_calendar (f : Calendar → Depot → Depot) (p : Part) :
    (p.onDepot f).calendar = p.calendar := rfl
@[simp] theorem Part.onDepot_store (f : Calendar → Depot → Depot) (p : Part) :
    (p.onDepot f).store = p.store := rfl
@[simp] theorem Part.onTick_path (f : Calendar → Depot → Depot) (p : Part) :
    (p.onTick f).path = p.path := rfl
@[simp] theorem Part.onTick_capture (f : Calendar → Depot → Depot) (p : Part) :
    (p.onTick f).capture = p.capture := rfl
@[simp] theorem Part.onTick_calendar (f : Calendar → Depot → Depot) (p : Part) :
    (p.onTick f).calendar = p.calendar := rfl
@[simp] theorem Part.onTick_store (f : Calendar → Depot → Depot) (p : Part) :
    (p.onTick f).store = p.store := rfl
@[simp] theorem Part.modifyDepot_path (f : Depot → Depot) (p : Part) :
    (p.modifyDepot f).path = p.path := rfl
@[simp] theorem Part.modifyDepot_capture (f : Depot → Depot) (p : Part) :
    (p.modifyDepot f).capture = p.capture := rfl
@[simp] theorem Part.modifyDepot_calendar (f : Depot → Depot) (p : Part) :
    (p.modifyDepot f).calendar = p.calendar := rfl
@[simp] theorem Part.modifyDepot_store (f : Depot → Depot) (p : Part) :
    (p.modifyDepot f).store = p.store := rfl
@[simp] theorem Part.modifyDepot_depot (f : Depot → Depot) (p : Part) :
    (p.modifyDepot f).depot = f p.depot := rfl
@[simp] theorem Part.acknowledge_capture (c : Causes) (p : Part) :
    (p.acknowledge c).capture = p.capture := rfl
@[simp] theorem Part.acknowledge_calendar (c : Causes) (p : Part) :
    (p.acknowledge c).calendar = p.calendar := rfl
@[simp] theorem Part.acknowledge_path_straps (c : Causes) (p : Part) :
    (p.acknowledge c).path.straps = p.path.straps := rfl
@[simp] theorem Part.acknowledge_path_windows (c : Causes) (p : Part) :
    (p.acknowledge c).path.windows = p.path.windows := rfl
@[simp] theorem Part.acknowledge_path_staged (c : Causes) (p : Part) :
    (p.acknowledge c).path.staged = p.path.staged := rfl
@[simp] theorem Part.acknowledge_path_posted (c : Causes) (p : Part) :
    (p.acknowledge c).path.posted = p.path.posted := rfl
@[simp] theorem Part.acknowledge_path_held (c : Causes) (p : Part) :
    (p.acknowledge c).path.held = p.path.held := rfl
@[simp] theorem Part.acknowledge_path_deferred (c : Causes) (p : Part) :
    (p.acknowledge c).path.deferred = p.path.deferred := rfl
@[simp] theorem Part.acknowledge_path_done (c : Causes) (p : Part) :
    (p.acknowledge c).path.done = p.path.done := rfl
@[simp] theorem Part.acknowledge_store_run (c : Causes) (p : Part) :
    (p.acknowledge c).store.run = p.store.run := rfl
@[simp] theorem Part.acknowledge_store_clearing (c : Causes) (p : Part) :
    (p.acknowledge c).store.clearing = p.store.clearing := rfl
@[simp] theorem Part.acknowledge_store_debt (c : Causes) (p : Part) :
    (p.acknowledge c).store.debt = p.store.debt := rfl
@[simp] theorem Part.acknowledge_store_row (c : Causes) (p : Part) :
    (p.acknowledge c).store.row = p.store.row := rfl
@[simp] theorem Part.acknowledge_store_opportune (c : Causes) (p : Part) :
    (p.acknowledge c).store.opportune = p.store.opportune := rfl
@[simp] theorem Part.acknowledge_store_mode (c : Causes) (p : Part) :
    (p.acknowledge c).store.mode = p.store.mode := rfl
@[simp] theorem Part.acknowledge_store_grant (c : Causes) (p : Part) :
    (p.acknowledge c).store.grant = p.store.grant := rfl
@[simp] theorem Part.modifyCharge_path (f : Charge → Charge) (p : Part) :
    (p.modifyCharge f).path = p.path := rfl
@[simp] theorem Part.modifyCharge_capture (f : Charge → Charge) (p : Part) :
    (p.modifyCharge f).capture = p.capture := rfl
@[simp] theorem Part.modifyCharge_calendar (f : Charge → Charge) (p : Part) :
    (p.modifyCharge f).calendar = p.calendar := rfl
@[simp] theorem Part.modifyCharge_store (f : Charge → Charge) (p : Part) :
    (p.modifyCharge f).store = p.store := rfl
@[simp] theorem Part.modifyWater_path (f : Water → Water) (p : Part) :
    (p.modifyWater f).path = p.path := rfl
@[simp] theorem Part.modifyWater_capture (f : Water → Water) (p : Part) :
    (p.modifyWater f).capture = p.capture := rfl
@[simp] theorem Part.modifyWater_calendar (f : Water → Water) (p : Part) :
    (p.modifyWater f).calendar = p.calendar := rfl
@[simp] theorem Part.modifyWater_store (f : Water → Water) (p : Part) :
    (p.modifyWater f).store = p.store := rfl
@[simp] theorem Part.withPosted_capture (e : PostedEntry) (p : Part) :
    (p.withPosted e).capture = p.capture := rfl
@[simp] theorem Part.withPosted_calendar (e : PostedEntry) (p : Part) :
    (p.withPosted e).calendar = p.calendar := rfl
@[simp] theorem Part.withPosted_store (e : PostedEntry) (p : Part) :
    (p.withPosted e).store = p.store := rfl
@[simp] theorem Part.withPosted_depot (e : PostedEntry) (p : Part) :
    (p.withPosted e).depot = p.depot := rfl
@[simp] theorem Part.withPosted_path_straps (e : PostedEntry) (p : Part) :
    (p.withPosted e).path.straps = p.path.straps := rfl
@[simp] theorem Part.withPosted_path_windows (e : PostedEntry) (p : Part) :
    (p.withPosted e).path.windows = p.path.windows := rfl
@[simp] theorem Part.withPosted_path_staged (e : PostedEntry) (p : Part) :
    (p.withPosted e).path.staged = p.path.staged := rfl
@[simp] theorem Part.withPosted_path_blockLatch (e : PostedEntry) (p : Part) :
    (p.withPosted e).path.blockLatch = p.path.blockLatch := rfl
@[simp] theorem Part.withPosted_path_held (e : PostedEntry) (p : Part) :
    (p.withPosted e).path.held = p.path.held := rfl
@[simp] theorem Part.withPosted_path_deferred (e : PostedEntry) (p : Part) :
    (p.withPosted e).path.deferred = p.path.deferred := rfl
/-! ## Updates of the units behind the bus -/

@[simp] theorem Depot.raise_identity (c : Cause) (d : Depot) :
    (d.raise c).identity = d.identity := rfl
@[simp] theorem Depot.raise_sessions (c : Cause) (d : Depot) :
    (d.raise c).sessions = d.sessions := rfl
@[simp] theorem Depot.raise_water (c : Cause) (d : Depot) :
    (d.raise c).water = d.water := rfl
@[simp] theorem Depot.raise_charge (c : Cause) (d : Depot) :
    (d.raise c).charge = d.charge := rfl
@[simp] theorem Depot.raise_journal (c : Cause) (d : Depot) :
    (d.raise c).journal = d.journal := rfl
@[simp] theorem Depot.raise_draws (c : Cause) (d : Depot) :
    (d.raise c).draws = d.draws := rfl
@[simp] theorem Depot.raise_notices (c : Cause) (d : Depot) :
    (d.raise c).notices = d.notices.raise c := rfl
@[simp] theorem Depot.refuse_identity (o : Nat) (r : RefusalReason) (d : Depot) :
    (d.refuse o r).identity = d.identity := rfl
@[simp] theorem Depot.refuse_sessions (o : Nat) (r : RefusalReason) (d : Depot) :
    (d.refuse o r).sessions = d.sessions := rfl
@[simp] theorem Depot.refuse_water (o : Nat) (r : RefusalReason) (d : Depot) :
    (d.refuse o r).water = d.water := rfl
@[simp] theorem Depot.refuse_charge (o : Nat) (r : RefusalReason) (d : Depot) :
    (d.refuse o r).charge = d.charge := rfl
@[simp] theorem Depot.refuse_journal (o : Nat) (r : RefusalReason) (d : Depot) :
    (d.refuse o r).journal = d.journal := rfl
@[simp] theorem Depot.refuse_draws (o : Nat) (r : RefusalReason) (d : Depot) :
    (d.refuse o r).draws = d.draws := rfl
@[simp] theorem Depot.refuse_notices (o : Nat) (r : RefusalReason) (d : Depot) :
    (d.refuse o r).notices = d.notices.refuse o r := rfl
@[simp] theorem Depot.modifyBay_identity (b : Fin 8) (f : Bay → Bay) (d : Depot) :
    (d.modifyBay b f).identity = d.identity := rfl
@[simp] theorem Depot.modifyBay_water (b : Fin 8) (f : Bay → Bay) (d : Depot) :
    (d.modifyBay b f).water = d.water := rfl
@[simp] theorem Depot.modifyBay_charge (b : Fin 8) (f : Bay → Bay) (d : Depot) :
    (d.modifyBay b f).charge = d.charge := rfl
@[simp] theorem Depot.modifyBay_journal (b : Fin 8) (f : Bay → Bay) (d : Depot) :
    (d.modifyBay b f).journal = d.journal := rfl
@[simp] theorem Depot.modifyBay_notices (b : Fin 8) (f : Bay → Bay) (d : Depot) :
    (d.modifyBay b f).notices = d.notices := rfl
@[simp] theorem Depot.modifyBay_draws (b : Fin 8) (f : Bay → Bay) (d : Depot) :
    (d.modifyBay b f).draws = d.draws := rfl
@[simp] theorem Depot.modifySession_identity (b : Fin 8) (f : Session → Session) (d : Depot) :
    (d.modifySession b f).identity = d.identity := rfl
@[simp] theorem Depot.modifySession_water (b : Fin 8) (f : Session → Session) (d : Depot) :
    (d.modifySession b f).water = d.water := rfl
@[simp] theorem Depot.modifySession_charge (b : Fin 8) (f : Session → Session) (d : Depot) :
    (d.modifySession b f).charge = d.charge := rfl
@[simp] theorem Depot.modifySession_journal (b : Fin 8) (f : Session → Session) (d : Depot) :
    (d.modifySession b f).journal = d.journal := rfl
@[simp] theorem Depot.modifySession_notices (b : Fin 8) (f : Session → Session) (d : Depot) :
    (d.modifySession b f).notices = d.notices := rfl
@[simp] theorem Depot.modifySession_draws (b : Fin 8) (f : Session → Session) (d : Depot) :
    (d.modifySession b f).draws = d.draws := rfl
@[simp] theorem Depot.modifyAccount_identity (a : Fin 64) (f : Account → Account) (d : Depot) :
    (d.modifyAccount a f).identity = d.identity := rfl
@[simp] theorem Depot.modifyAccount_sessions (a : Fin 64) (f : Account → Account) (d : Depot) :
    (d.modifyAccount a f).sessions = d.sessions := rfl
@[simp] theorem Depot.modifyAccount_water (a : Fin 64) (f : Account → Account) (d : Depot) :
    (d.modifyAccount a f).water = d.water := rfl
@[simp] theorem Depot.modifyAccount_journal (a : Fin 64) (f : Account → Account) (d : Depot) :
    (d.modifyAccount a f).journal = d.journal := rfl
@[simp] theorem Depot.modifyAccount_notices (a : Fin 64) (f : Account → Account) (d : Depot) :
    (d.modifyAccount a f).notices = d.notices := rfl
@[simp] theorem Depot.modifyAccount_draws (a : Fin 64) (f : Account → Account) (d : Depot) :
    (d.modifyAccount a f).draws = d.draws := rfl
@[simp] theorem Depot.bind_identity (a : Fin 64) (d : Depot) :
    (d.bind a).identity = d.identity := rfl
@[simp] theorem Depot.bind_sessions (a : Fin 64) (d : Depot) :
    (d.bind a).sessions = d.sessions := rfl
@[simp] theorem Depot.bind_water (a : Fin 64) (d : Depot) :
    (d.bind a).water = d.water := rfl
@[simp] theorem Depot.bind_journal (a : Fin 64) (d : Depot) :
    (d.bind a).journal = d.journal := rfl
@[simp] theorem Depot.bind_notices (a : Fin 64) (d : Depot) :
    (d.bind a).notices = d.notices := rfl
@[simp] theorem Depot.bind_draws (a : Fin 64) (d : Depot) :
    (d.bind a).draws = d.draws := rfl
@[simp] theorem Depot.release_identity (a : Fin 64) (d : Depot) :
    (d.release a).identity = d.identity := rfl
@[simp] theorem Depot.release_sessions (a : Fin 64) (d : Depot) :
    (d.release a).sessions = d.sessions := rfl
@[simp] theorem Depot.release_water (a : Fin 64) (d : Depot) :
    (d.release a).water = d.water := rfl
@[simp] theorem Depot.release_journal (a : Fin 64) (d : Depot) :
    (d.release a).journal = d.journal := rfl
@[simp] theorem Depot.release_notices (a : Fin 64) (d : Depot) :
    (d.release a).notices = d.notices := rfl
@[simp] theorem Depot.release_draws (a : Fin 64) (d : Depot) :
    (d.release a).draws = d.draws := rfl
@[simp] theorem Depot.modifyJournal_identity (f : Journal → Journal) (d : Depot) :
    (d.modifyJournal f).identity = d.identity := rfl
@[simp] theorem Depot.modifyJournal_sessions (f : Journal → Journal) (d : Depot) :
    (d.modifyJournal f).sessions = d.sessions := rfl
@[simp] theorem Depot.modifyJournal_water (f : Journal → Journal) (d : Depot) :
    (d.modifyJournal f).water = d.water := rfl
@[simp] theorem Depot.modifyJournal_charge (f : Journal → Journal) (d : Depot) :
    (d.modifyJournal f).charge = d.charge := rfl
@[simp] theorem Depot.modifyJournal_notices (f : Journal → Journal) (d : Depot) :
    (d.modifyJournal f).notices = d.notices := rfl
@[simp] theorem Depot.modifyJournal_draws (f : Journal → Journal) (d : Depot) :
    (d.modifyJournal f).draws = d.draws := rfl
@[simp] theorem Depot.modifyJournal_journal (f : Journal → Journal) (d : Depot) :
    (d.modifyJournal f).journal = f d.journal := rfl
@[simp] theorem Depot.modifyWater_identity (f : Water → Water) (d : Depot) :
    (d.modifyWater f).identity = d.identity := rfl
@[simp] theorem Depot.modifyWater_sessions (f : Water → Water) (d : Depot) :
    (d.modifyWater f).sessions = d.sessions := rfl
@[simp] theorem Depot.modifyWater_charge (f : Water → Water) (d : Depot) :
    (d.modifyWater f).charge = d.charge := rfl
@[simp] theorem Depot.modifyWater_journal (f : Water → Water) (d : Depot) :
    (d.modifyWater f).journal = d.journal := rfl
@[simp] theorem Depot.modifyWater_notices (f : Water → Water) (d : Depot) :
    (d.modifyWater f).notices = d.notices := rfl
@[simp] theorem Depot.modifyWater_draws (f : Water → Water) (d : Depot) :
    (d.modifyWater f).draws = d.draws := rfl
@[simp] theorem Depot.modifyWater_water (f : Water → Water) (d : Depot) :
    (d.modifyWater f).water = f d.water := rfl
@[simp] theorem Depot.modifyIdentity_sessions (f : Identity → Identity) (d : Depot) :
    (d.modifyIdentity f).sessions = d.sessions := rfl
@[simp] theorem Depot.modifyIdentity_water (f : Identity → Identity) (d : Depot) :
    (d.modifyIdentity f).water = d.water := rfl
@[simp] theorem Depot.modifyIdentity_charge (f : Identity → Identity) (d : Depot) :
    (d.modifyIdentity f).charge = d.charge := rfl
@[simp] theorem Depot.modifyIdentity_journal (f : Identity → Identity) (d : Depot) :
    (d.modifyIdentity f).journal = d.journal := rfl
@[simp] theorem Depot.modifyIdentity_notices (f : Identity → Identity) (d : Depot) :
    (d.modifyIdentity f).notices = d.notices := rfl
@[simp] theorem Depot.modifyIdentity_draws (f : Identity → Identity) (d : Depot) :
    (d.modifyIdentity f).draws = d.draws := rfl
@[simp] theorem Depot.modifyIdentity_identity (f : Identity → Identity) (d : Depot) :
    (d.modifyIdentity f).identity = f d.identity := rfl
@[simp] theorem Depot.enqueue_identity (r : JournalRecord) (d : Depot) :
    (d.enqueue r).identity = d.identity := rfl
@[simp] theorem Depot.enqueue_sessions (r : JournalRecord) (d : Depot) :
    (d.enqueue r).sessions = d.sessions := rfl
@[simp] theorem Depot.enqueue_water (r : JournalRecord) (d : Depot) :
    (d.enqueue r).water = d.water := rfl
@[simp] theorem Depot.enqueue_charge (r : JournalRecord) (d : Depot) :
    (d.enqueue r).charge = d.charge := rfl
@[simp] theorem Depot.enqueue_notices (r : JournalRecord) (d : Depot) :
    (d.enqueue r).notices = d.notices := rfl
@[simp] theorem Depot.enqueue_draws (r : JournalRecord) (d : Depot) :
    (d.enqueue r).draws = d.draws := rfl
@[simp] theorem Depot.appendClaim_identity (c : Claim) (d : Depot) :
    (d.appendClaim c).identity = d.identity := rfl
@[simp] theorem Depot.appendClaim_sessions (c : Claim) (d : Depot) :
    (d.appendClaim c).sessions = d.sessions := rfl
@[simp] theorem Depot.appendClaim_water (c : Claim) (d : Depot) :
    (d.appendClaim c).water = d.water := rfl
@[simp] theorem Depot.appendClaim_charge (c : Claim) (d : Depot) :
    (d.appendClaim c).charge = d.charge := rfl
@[simp] theorem Depot.appendClaim_notices (c : Claim) (d : Depot) :
    (d.appendClaim c).notices = d.notices := rfl
@[simp] theorem Depot.appendClaim_draws (c : Claim) (d : Depot) :
    (d.appendClaim c).draws = d.draws := rfl
@[simp] theorem Depot.withdrawLookup_sessions (b : Fin 8) (d : Depot) :
    (d.withdrawLookup b).sessions = d.sessions := rfl
@[simp] theorem Depot.withdrawLookup_water (b : Fin 8) (d : Depot) :
    (d.withdrawLookup b).water = d.water := rfl
@[simp] theorem Depot.withdrawLookup_charge (b : Fin 8) (d : Depot) :
    (d.withdrawLookup b).charge = d.charge := rfl
@[simp] theorem Depot.withdrawLookup_journal (b : Fin 8) (d : Depot) :
    (d.withdrawLookup b).journal = d.journal := rfl
@[simp] theorem Depot.withdrawLookup_notices (b : Fin 8) (d : Depot) :
    (d.withdrawLookup b).notices = d.notices := rfl
@[simp] theorem Depot.withdrawLookup_draws (b : Fin 8) (d : Depot) :
    (d.withdrawLookup b).draws = d.draws := rfl
@[simp] theorem Depot.restartSilence_identity (b : Fin 8) (d : Depot) :
    (d.restartSilence b).identity = d.identity := rfl
@[simp] theorem Depot.restartSilence_water (b : Fin 8) (d : Depot) :
    (d.restartSilence b).water = d.water := rfl
@[simp] theorem Depot.restartSilence_charge (b : Fin 8) (d : Depot) :
    (d.restartSilence b).charge = d.charge := rfl
@[simp] theorem Depot.restartSilence_journal (b : Fin 8) (d : Depot) :
    (d.restartSilence b).journal = d.journal := rfl
@[simp] theorem Depot.restartSilence_notices (b : Fin 8) (d : Depot) :
    (d.restartSilence b).notices = d.notices := rfl
@[simp] theorem Depot.restartSilence_draws (b : Fin 8) (d : Depot) :
    (d.restartSilence b).draws = d.draws := rfl
@[simp] theorem Depot.enterAdmitted_identity (b : Fin 8) (d : Depot) :
    (d.enterAdmitted b).identity = d.identity := rfl
@[simp] theorem Depot.enterAdmitted_water (b : Fin 8) (d : Depot) :
    (d.enterAdmitted b).water = d.water := rfl
@[simp] theorem Depot.enterAdmitted_charge (b : Fin 8) (d : Depot) :
    (d.enterAdmitted b).charge = d.charge := rfl
@[simp] theorem Depot.enterAdmitted_journal (b : Fin 8) (d : Depot) :
    (d.enterAdmitted b).journal = d.journal := rfl
@[simp] theorem Depot.enterAdmitted_notices (b : Fin 8) (d : Depot) :
    (d.enterAdmitted b).notices = d.notices := rfl
@[simp] theorem Depot.enterAdmitted_draws (b : Fin 8) (d : Depot) :
    (d.enterAdmitted b).draws = d.draws := rfl
@[simp] theorem Depot.enterHeld_identity (b : Fin 8) (r : HoldReason) (d : Depot) :
    (d.enterHeld b r).identity = d.identity := rfl
@[simp] theorem Depot.enterHeld_water (b : Fin 8) (r : HoldReason) (d : Depot) :
    (d.enterHeld b r).water = d.water := rfl
@[simp] theorem Depot.enterHeld_charge (b : Fin 8) (r : HoldReason) (d : Depot) :
    (d.enterHeld b r).charge = d.charge := rfl
@[simp] theorem Depot.enterHeld_journal (b : Fin 8) (r : HoldReason) (d : Depot) :
    (d.enterHeld b r).journal = d.journal := rfl
@[simp] theorem Depot.enterHeld_draws (b : Fin 8) (r : HoldReason) (d : Depot) :
    (d.enterHeld b r).draws = d.draws := rfl
/-! ## Events of the state -/

@[simp] theorem State.event_pending (f : Part → Part) (s : State) :
    (s.event f).pending = s.pending := rfl
@[simp] theorem State.event_mem (f : Part → Part) (s : State) :
    (s.event f).mem = s.mem := rfl
@[simp] theorem State.event_part (f : Part → Part) (s : State) :
    (s.event f).part = (f s.part.begin).finish := rfl
@[simp] theorem State.storeEvent_pending (f : Part → Memory → Part × Memory) (s : State) :
    (s.storeEvent f).pending = s.pending := rfl
@[simp] theorem State.storeEvent_mem (f : Part → Memory → Part × Memory) (s : State) :
    (s.storeEvent f).mem = (f s.part.begin s.mem).2 := rfl
@[simp] theorem State.storeEvent_part (f : Part → Memory → Part × Memory) (s : State) :
    (s.storeEvent f).part = (f s.part.begin s.mem).1.finish := rfl

end Sys2Proof.Machine
end

