-- ==== Sys2Proof/Laws/Memory.lean ====
section
/-!
SUPPORT. The depot store: what each operation leaves at every byte and check bit, and that each keeps the canonical form.
-/

namespace Sys2Proof.Machine

open Sys2Proof

/-! ## Sparse maps -/

theorem sparseRead_below {α : Type} (d : α) (m : List (Nat × α)) (a : Nat) (h : ∀ b ∈ m.map Prod.fst, a < b) :
    sparseRead d m a = d := by
  induction m with
  | nil => rfl
  | cons c m ih =>
    obtain ⟨b, v⟩ := c
    have hb : a < b := h b (by simp)
    have hm : ∀ x ∈ m.map Prod.fst, a < x := fun x hx => h x (by simp at hx ⊢; right; exact hx)
    simp [sparseRead, Nat.ne_of_lt hb, ih hm]

/-- Reading after a write: the value written at the address, every other address as before. -/
theorem sparseRead_write {α : Type} [DecidableEq α] (d : α) (m : List (Nat × α)) (a : Nat) (v : α) (x : Nat)
    (h : (m.map Prod.fst).Pairwise (· < ·)) :
    sparseRead d (sparseWrite d m a v) x = if x = a then v else sparseRead d m x := by
  induction m with
  | nil =>
    by_cases hv : v = d
    · subst hv; simp [sparseWrite, sparseRead]
    · simp [sparseWrite, hv, sparseRead]
  | cons c m ih =>
    obtain ⟨b, w⟩ := c
    simp only [List.map_cons, List.pairwise_cons] at h
    obtain ⟨hb, hm⟩ := h
    unfold sparseWrite
    by_cases h1 : a < b
    · simp only [h1, if_true]
      by_cases hv : v = d
      · subst hv
        simp only [if_true]
        by_cases hx : x = a
        · subst hx
          simp only [if_true]
          apply sparseRead_below
          intro y hy
          simp only [List.map_cons, List.mem_cons] at hy
          rcases hy with rfl | hy
          · exact h1
          · exact Nat.lt_trans h1 (hb y hy)
        · simp [hx]
      · simp [hv, sparseRead]
    · simp only [h1, if_false]
      by_cases h2 : a = b
      · subst h2
        simp only [if_true]
        by_cases hv : v = d
        · subst hv
          simp only [if_true, sparseRead]
          by_cases hx : x = a
          · subst hx; simp only [if_true]
            exact sparseRead_below v m x hb
          · simp [hx]
        · simp only [hv, if_false, sparseRead]
          by_cases hx : x = a <;> simp [hx]
      · simp only [h2, if_false, sparseRead]
        by_cases hx : x = b
        · subst hx
          simp [Ne.symm h2]
        · simp [hx, ih hm]

theorem sparseWrite_keys {α : Type} [DecidableEq α] (d : α) (m : List (Nat × α)) (a : Nat) (v : α) (x : Nat)
    (hx : x ∈ (sparseWrite d m a v).map Prod.fst) : x = a ∨ x ∈ m.map Prod.fst := by
  induction m with
  | nil =>
    by_cases hv : v = d <;> simp_all [sparseWrite]
  | cons c m ih =>
    obtain ⟨b, w⟩ := c
    unfold sparseWrite at hx
    split at hx
    · split at hx
      · exact Or.inr hx
      · simp only [List.map_cons, List.mem_cons] at hx ⊢; exact hx
    · split at hx
      · split at hx
        · simp only [List.map_cons, List.mem_cons]; exact Or.inr (Or.inr hx)
        · simp only [List.map_cons, List.mem_cons] at hx ⊢
          rcases hx with h | h
          · exact Or.inl h
          · exact Or.inr (Or.inr h)
      · simp only [List.map_cons, List.mem_cons] at hx ⊢
        rcases hx with h | h
        · exact Or.inr (Or.inl h)
        · rcases ih h with h | h
          · exact Or.inl h
          · exact Or.inr (Or.inr h)

/-- The canonical form as a proposition. -/
theorem sparseWf_iff {α : Type} [DecidableEq α] (d : α) (size : Nat) (m : List (Nat × α)) :
    sparseWf d size m = true ↔
      (m.map Prod.fst).Pairwise (· < ·) ∧ ∀ c ∈ m, c.1 < size ∧ c.2 ≠ d := by
  simp [sparseWf]

theorem sparseWrite_mem {α : Type} [DecidableEq α] (d : α) (m : List (Nat × α)) (a : Nat) (v : α) (c : Nat × α)
    (hc : c ∈ sparseWrite d m a v) : (c = (a, v) ∧ v ≠ d) ∨ c ∈ m := by
  induction m with
  | nil =>
    by_cases hv : v = d
    · simp [sparseWrite, hv] at hc
    · simp [sparseWrite, hv] at hc; exact Or.inl ⟨hc, hv⟩
  | cons x m ih =>
    obtain ⟨b, w⟩ := x
    unfold sparseWrite at hc
    split at hc
    · split at hc
      · exact Or.inr hc
      · rename_i hv
        rcases List.mem_cons.1 hc with h | h
        · exact Or.inl ⟨h, hv⟩
        · exact Or.inr h
    · split at hc
      · split at hc
        · exact Or.inr (List.mem_cons_of_mem _ hc)
        · rename_i hv
          rcases List.mem_cons.1 hc with h | h
          · exact Or.inl ⟨h, hv⟩
          · exact Or.inr (List.mem_cons_of_mem _ h)
      · rcases List.mem_cons.1 hc with h | h
        · exact Or.inr (h ▸ List.mem_cons_self ..)
        · rcases ih h with h | h
          · exact Or.inl h
          · exact Or.inr (List.mem_cons_of_mem _ h)

theorem sparseWrite_sorted {α : Type} [DecidableEq α] (d : α) (m : List (Nat × α)) (a : Nat) (v : α)
    (h : (m.map Prod.fst).Pairwise (· < ·)) : ((sparseWrite d m a v).map Prod.fst).Pairwise (· < ·) := by
  induction m with
  | nil => by_cases hv : v = d <;> simp [sparseWrite, hv]
  | cons x m ih =>
    obtain ⟨b, w⟩ := x
    simp only [List.map_cons, List.pairwise_cons] at h
    obtain ⟨hb, hm⟩ := h
    unfold sparseWrite
    split
    · rename_i hab
      split
      · simp only [List.map_cons, List.pairwise_cons]; exact ⟨hb, hm⟩
      · simp only [List.map_cons, List.pairwise_cons, List.mem_cons]
        refine ⟨?_, hb, hm⟩
        intro y hy
        rcases hy with rfl | hy
        · exact hab
        · exact Nat.lt_trans hab (hb y hy)
    · rename_i hab
      split
      · rename_i he
        subst he
        split
        · exact hm
        · simp only [List.map_cons, List.pairwise_cons]; exact ⟨hb, hm⟩
      · rename_i hne
        simp only [List.map_cons, List.pairwise_cons]
        refine ⟨?_, ih hm⟩
        intro y hy
        rcases sparseWrite_keys d m a v y hy with rfl | hy
        · omega
        · exact hb y hy

/-- A write keeps the canonical form. -/
theorem sparseWrite_wf {α : Type} [DecidableEq α] (d : α) (size : Nat) (m : List (Nat × α)) (a : Nat) (v : α)
    (ha : a < size) (h : sparseWf d size m = true) : sparseWf d size (sparseWrite d m a v) = true := by
  rw [sparseWf_iff] at h ⊢
  refine ⟨sparseWrite_sorted d m a v h.1, ?_⟩
  intro c hc
  rcases sparseWrite_mem d m a v c hc with ⟨rfl, hv⟩ | hc
  · exact ⟨ha, hv⟩
  · exact h.2 c hc

/-! ## Bytes and check bits -/

theorem Memory.wf_iff (m : Memory) :
    m.wf = true ↔ sparseWf 0#8 16777216 m.bytes = true ∧ sparseWf true 8388608 m.checks = true := by
  simp [Memory.wf]

theorem Memory.setByte_wf (m : Memory) (a : Nat) (v : Byte) (h : m.wf = true) : (m.setByte a v).wf = true := by
  rw [Memory.wf_iff] at h
  unfold Memory.setByte
  split
  · rename_i ha
    rw [Memory.wf_iff]
    exact ⟨sparseWrite_wf _ _ _ _ _ ha h.1, h.2⟩
  · exact (Memory.wf_iff m).2 h

theorem Memory.setCheck_wf (m : Memory) (k : Nat) (c : Bool) (h : m.wf = true) : (m.setCheck k c).wf = true := by
  rw [Memory.wf_iff] at h
  unfold Memory.setCheck
  split
  · rename_i ha
    rw [Memory.wf_iff]
    exact ⟨h.1, sparseWrite_wf _ _ _ _ _ ha h.2⟩
  · exact (Memory.wf_iff m).2 h

theorem Memory.sorted_bytes (m : Memory) (h : m.wf = true) : (m.bytes.map Prod.fst).Pairwise (· < ·) :=
  ((sparseWf_iff _ _ _).1 ((Memory.wf_iff m).1 h).1).1

theorem Memory.sorted_checks (m : Memory) (h : m.wf = true) : (m.checks.map Prod.fst).Pairwise (· < ·) :=
  ((sparseWf_iff _ _ _).1 ((Memory.wf_iff m).1 h).2).1

/-- Writing a byte. -/
theorem Memory.byte_setByte (m : Memory) (a : Nat) (v : Byte) (x : Nat) (h : m.wf = true) (ha : a < 16777216) :
    (m.setByte a v).byte x = if x = a then v else m.byte x := by
  simp only [Memory.setByte, ha, if_true, Memory.byte]
  exact sparseRead_write _ _ _ _ _ (m.sorted_bytes h)

@[simp] theorem Memory.check_setByte (m : Memory) (a : Nat) (v : Byte) (x : Nat) :
    (m.setByte a v).check x = m.check x := by
  unfold Memory.setByte Memory.check; split <;> rfl

@[simp] theorem Memory.byte_setCheck (m : Memory) (a : Nat) (c : Bool) (x : Nat) :
    (m.setCheck a c).byte x = m.byte x := by
  unfold Memory.setCheck Memory.byte; split <;> rfl

/-- Writing a check bit. -/
theorem Memory.check_setCheck (m : Memory) (a : Nat) (c : Bool) (x : Nat) (h : m.wf = true) (ha : a < 8388608) :
    (m.setCheck a c).check x = if x = a then c else m.check x := by
  simp only [Memory.setCheck, ha, if_true, Memory.check]
  exact sparseRead_write _ _ _ _ _ (m.sorted_checks h)

/-! ## Halfwords -/

theorem Memory.writeHalf_wf (m : Memory) (k : Nat) (v : Half) (h : m.wf = true) : (m.writeHalf k v).wf = true := by
  unfold Memory.writeHalf
  exact Memory.setCheck_wf _ _ _ (Memory.setByte_wf _ _ _ (Memory.setByte_wf _ _ _ h))

/-- Bytes after a halfword write. -/
theorem Memory.byte_writeHalf (m : Memory) (k : Nat) (v : Half) (x : Nat) (h : m.wf = true) (hk : k < 8388608) :
    (m.writeHalf k v).byte x =
      if x = 2 * k + 1 then BitVec.ofNat 8 (v.toNat / 2 ^ 8)
      else if x = 2 * k then BitVec.ofNat 8 v.toNat else m.byte x := by
  unfold Memory.writeHalf
  rw [Memory.byte_setCheck, Memory.byte_setByte _ _ _ _ (Memory.setByte_wf _ _ _ h) (by omega),
    Memory.byte_setByte _ _ _ _ h (by omega)]

/-- Check bits after a halfword write. -/
theorem Memory.check_writeHalf (m : Memory) (k : Nat) (v : Half) (x : Nat) (h : m.wf = true) (hk : k < 8388608) :
    (m.writeHalf k v).check x = if x = k then oddCheck v else m.check x := by
  unfold Memory.writeHalf
  rw [Memory.check_setCheck _ _ _ _ (Memory.setByte_wf _ _ _ (Memory.setByte_wf _ _ _ h)) hk]
  simp

/-- The halfword just written reads back. -/
theorem Memory.half_writeHalf_same (m : Memory) (k : Nat) (v : Half) (h : m.wf = true) (hk : k < 8388608) :
    (m.writeHalf k v).half k = v := by
  unfold Memory.half
  rw [Memory.byte_writeHalf _ _ _ _ h hk, Memory.byte_writeHalf _ _ _ _ h hk]
  apply BitVec.eq_of_toNat_eq
  have := v.isLt
  simp
  omega

/-- Other halfwords keep their data. -/
theorem Memory.half_writeHalf_other (m : Memory) (k j : Nat) (v : Half) (h : m.wf = true) (hk : k < 8388608)
    (hj : j ≠ k) : (m.writeHalf k v).half j = m.half j := by
  unfold Memory.half
  rw [Memory.byte_writeHalf _ _ _ _ h hk, Memory.byte_writeHalf _ _ _ _ h hk]
  have h1 : ¬ 2 * j = 2 * k + 1 := by omega
  have h2 : ¬ 2 * j = 2 * k := by omega
  have h3 : ¬ 2 * j + 1 = 2 * k + 1 := by omega
  have h4 : ¬ 2 * j + 1 = 2 * k := by omega
  simp [h1, h2, h4]

/-- A halfword written passes its check (R176). -/
theorem Memory.halfFails_writeHalf_same (m : Memory) (k : Nat) (v : Half) (h : m.wf = true) (hk : k < 8388608) :
    (m.writeHalf k v).halfFails k = false := by
  unfold Memory.halfFails
  rw [Memory.half_writeHalf_same _ _ _ h hk, Memory.check_writeHalf _ _ _ _ h hk]
  simp

/-- Other halfwords pass or fail as before. -/
theorem Memory.halfFails_writeHalf_other (m : Memory) (k j : Nat) (v : Half) (h : m.wf = true) (hk : k < 8388608)
    (hj : j ≠ k) : (m.writeHalf k v).halfFails j = m.halfFails j := by
  unfold Memory.halfFails
  rw [Memory.half_writeHalf_other _ _ _ _ h hk hj, Memory.check_writeHalf _ _ _ _ h hk]
  simp [hj]

theorem Memory.loseHalf_wf (m : Memory) (k : Nat) (u : BitVec 17) (h : m.wf = true) : (m.loseHalf k u).wf = true := by
  unfold Memory.loseHalf
  split
  · exact h
  · exact Memory.setCheck_wf _ _ _ (Memory.setByte_wf _ _ _ (Memory.setByte_wf _ _ _ h))

@[simp] theorem Memory.loseHalf_zero (m : Memory) (k : Nat) : m.loseHalf k 0 = m := by simp [Memory.loseHalf]

/-- Bytes outside a halfword that lost bits are as before. -/
theorem Memory.byte_loseHalf (m : Memory) (k : Nat) (u : BitVec 17) (x : Nat) (h : m.wf = true) (hk : k < 8388608)
    (hx : x / 2 ≠ k) : (m.loseHalf k u).byte x = m.byte x := by
  unfold Memory.loseHalf
  split
  · rfl
  · simp only [Memory.byte_setCheck]
    rw [Memory.byte_setByte _ _ _ _ (Memory.setByte_wf _ _ _ h) (by omega),
      Memory.byte_setByte _ _ _ _ h (by omega)]
    have h1 : ¬ x = 2 * k + 1 := by omega
    have h2 : ¬ x = 2 * k := by omega
    simp [h1, h2]

/-- Check bits of other halfwords are as before. -/
theorem Memory.check_loseHalf (m : Memory) (k : Nat) (u : BitVec 17) (x : Nat) (h : m.wf = true) (hk : k < 8388608)
    (hx : x ≠ k) : (m.loseHalf k u).check x = m.check x := by
  unfold Memory.loseHalf
  split
  · rfl
  · simp only
    rw [Memory.check_setCheck _ _ _ _ (Memory.setByte_wf _ _ _ (Memory.setByte_wf _ _ _ h)) hk]
    simp [hx]

/-! ## Words -/

theorem Memory.writeWord_wf (m : Memory) (w : Nat) (v : Word) (h : m.wf = true) : (m.writeWord w v).wf = true :=
  Memory.writeHalf_wf _ _ _ (Memory.writeHalf_wf _ _ _ h)

theorem Memory.lose_wf (m : Memory) (w : Nat) (u : Upset) (h : m.wf = true) : (m.lose w u).wf = true :=
  Memory.loseHalf_wf _ _ _ (Memory.loseHalf_wf _ _ _ h)

/-- Where no bits were lost the store is as it was. -/
@[simp] theorem Memory.lose_none (m : Memory) (w : Nat) : m.lose w {} = m := by
  unfold Memory.lose
  exact (Memory.loseHalf_zero _ _).trans (Memory.loseHalf_zero _ _)

/-- The bytes of a word are those of its two halfwords. -/
theorem Memory.readWord_toNat (m : Memory) (w : Nat) :
    (m.readWord w).toNat = (m.half (2 * w)).toNat + (m.half (2 * w + 1)).toNat * 65536 := by
  have h0 := (m.byte (4 * w)).isLt
  have h1 := (m.byte (4 * w + 1)).isLt
  have h2 := (m.byte (4 * w + 2)).isLt
  have h3 := (m.byte (4 * w + 3)).isLt
  have e0 : 2 * (2 * w) = 4 * w := by omega
  have e1 : 2 * (2 * w + 1) = 4 * w + 2 := by omega
  have e2 : 4 * w + 2 + 1 = 4 * w + 3 := by omega
  simp only [Memory.readWord, wordOfBytes, word, Memory.half, BitVec.toNat_ofNat, e0, e1, e2]
  omega

theorem halfOf_toNat (v : Word) (i : Nat) : (halfOf v i).toNat = v.toNat / 2 ^ (16 * i) % 65536 := by
  simp [halfOf]

/-- The word just written reads back. -/
theorem Memory.readWord_writeWord_same (m : Memory) (w : Nat) (v : Word) (h : m.wf = true) (hw : w < 4194304) :
    (m.writeWord w v).readWord w = v := by
  apply BitVec.eq_of_toNat_eq
  rw [Memory.readWord_toNat]
  unfold Memory.writeWord
  rw [Memory.half_writeHalf_other _ _ _ _ (Memory.writeHalf_wf _ _ _ h) (by omega) (by omega),
    Memory.half_writeHalf_same _ _ _ h (by omega),
    Memory.half_writeHalf_same _ _ _ (Memory.writeHalf_wf _ _ _ h) (by omega), halfOf_toNat, halfOf_toNat]
  have := v.isLt
  simp
  omega

/-- A word written passes its check (R176). -/
theorem Memory.wordFails_writeWord_same (m : Memory) (w : Nat) (v : Word) (h : m.wf = true) (hw : w < 4194304) :
    (m.writeWord w v).wordFails w = none := by
  unfold Memory.wordFails Memory.writeWord
  rw [Memory.halfFails_writeHalf_other _ _ _ _ (Memory.writeHalf_wf _ _ _ h) (by omega) (by omega),
    Memory.halfFails_writeHalf_same _ _ _ h (by omega),
    Memory.halfFails_writeHalf_same _ _ _ (Memory.writeHalf_wf _ _ _ h) (by omega)]

/-- Bytes outside a word written are as before. -/
theorem Memory.byte_writeWord_other (m : Memory) (w : Nat) (v : Word) (x : Nat) (h : m.wf = true) (hw : w < 4194304)
    (hx : x / 4 ≠ w) : (m.writeWord w v).byte x = m.byte x := by
  unfold Memory.writeWord
  rw [Memory.byte_writeHalf _ _ _ _ (Memory.writeHalf_wf _ _ _ h) (by omega),
    Memory.byte_writeHalf _ _ _ _ h (by omega)]
  have h1 : ¬ x = 2 * (2 * w + 1) + 1 := by omega
  have h2 : ¬ x = 2 * (2 * w + 1) := by omega
  have h3 : ¬ x = 2 * (2 * w) + 1 := by omega
  have h4 : ¬ x = 2 * (2 * w) := by omega
  simp [h1, h2, h3, h4]

/-- Check bits outside a word written are as before. -/
theorem Memory.check_writeWord_other (m : Memory) (w : Nat) (v : Word) (x : Nat) (h : m.wf = true) (hw : w < 4194304)
    (hx : x / 2 ≠ w) : (m.writeWord w v).check x = m.check x := by
  unfold Memory.writeWord
  rw [Memory.check_writeHalf _ _ _ _ (Memory.writeHalf_wf _ _ _ h) (by omega),
    Memory.check_writeHalf _ _ _ _ h (by omega)]
  have h1 : ¬ x = 2 * w + 1 := by omega
  have h2 : ¬ x = 2 * w := by omega
  simp [h1, h2]

/-- Bytes outside a word that lost bits are as before. -/
theorem Memory.byte_lose_other (m : Memory) (w : Nat) (u : Upset) (x : Nat) (h : m.wf = true) (hw : w < 4194304)
    (hx : x / 4 ≠ w) : (m.lose w u).byte x = m.byte x := by
  unfold Memory.lose
  rw [Memory.byte_loseHalf _ _ _ _ (Memory.loseHalf_wf _ _ _ h) (by omega) (by omega),
    Memory.byte_loseHalf _ _ _ _ h (by omega) (by omega)]

/-- Check bits outside a word that lost bits are as before. -/
theorem Memory.check_lose_other (m : Memory) (w : Nat) (u : Upset) (x : Nat) (h : m.wf = true) (hw : w < 4194304)
    (hx : x / 2 ≠ w) : (m.lose w u).check x = m.check x := by
  unfold Memory.lose
  rw [Memory.check_loseHalf _ _ _ _ (Memory.loseHalf_wf _ _ _ h) (by omega) (by omega),
    Memory.check_loseHalf _ _ _ _ h (by omega) (by omega)]

/-! ## Drains and slot reads -/

/-- An address lies in the store. -/
theorem wordIndex_lt (a : Addr) : wordIndex a < 4194304 := by
  have := a.isLt
  unfold wordIndex
  omega

theorem Memory.drain_wf (m : Memory) (e : PostedEntry) (u : Upset) (h : m.wf = true) : (m.drain e u).wf = true := by
  unfold Memory.drain
  split
  · rename_i hr
    simp only [Memory.drainRmw, Memory.beforeDrain, hr, if_true]
    exact Memory.writeWord_wf _ _ _ (Memory.lose_wf _ _ _ h)
  · unfold Memory.drainHalves
    simp only
    split <;> split <;> first
      | exact Memory.writeHalf_wf _ _ _ (Memory.writeHalf_wf _ _ _ h)
      | exact Memory.writeHalf_wf _ _ _ h
      | exact h

theorem Memory.loseSlot_wf (m : Memory) (a : Nat) (u : SlotUpset) (h : m.wf = true) : (m.loseSlot a u).wf = true := by
  unfold Memory.loseSlot
  simp only [List.range, List.range.loop, List.foldl]
  exact Memory.lose_wf _ _ _ (Memory.lose_wf _ _ _ (Memory.lose_wf _ _ _ (Memory.lose_wf _ _ _ h)))

/-- A drain changes no byte outside its word. -/
theorem Memory.byte_drain_other (m : Memory) (e : PostedEntry) (u : Upset) (x : Nat) (h : m.wf = true)
    (hx : x / 4 ≠ wordIndex e.addr) : (m.drain e u).byte x = m.byte x := by
  have hw := wordIndex_lt e.addr
  unfold Memory.drain
  split
  · rename_i hr
    unfold Memory.drainRmw Memory.beforeDrain
    simp only [hr, if_true]
    rw [Memory.byte_writeWord_other _ _ _ _ (Memory.lose_wf _ _ _ h) hw hx, Memory.byte_lose_other _ _ _ _ h hw hx]
  · unfold Memory.drainHalves
    have h1 : ¬ x = 2 * (2 * wordIndex e.addr) + 1 := by omega
    have h2 : ¬ x = 2 * (2 * wordIndex e.addr) := by omega
    have h3 : ¬ x = 2 * (2 * wordIndex e.addr + 1) + 1 := by omega
    have h4 : ¬ x = 2 * (2 * wordIndex e.addr + 1) := by omega
    simp only
    split <;> split
    · rw [Memory.byte_writeHalf _ _ _ _ (Memory.writeHalf_wf _ _ _ h) (by omega),
        Memory.byte_writeHalf _ _ _ _ h (by omega)]
      simp [h1, h2, h3, h4]
    · rw [Memory.byte_writeHalf _ _ _ _ h (by omega)]
      simp [h3, h4]
    · rw [Memory.byte_writeHalf _ _ _ _ h (by omega)]
      simp [h1, h2]
    · rfl

/-- The store after power-on has the canonical form. -/
theorem Memory.reset_wf : State.reset.mem.wf = true := by decide

end Sys2Proof.Machine
end

