-- ==== Sys2Proof/Laws/Port.lean ====
section
/-!
SUPPORT. What an arbitration can do: it changes the port's grant and, at the fetch in flight, its claim and its read in
progress; and the frame of an event of the part.
-/

namespace Sys2Proof.Machine

open Sys2Proof

/-! ## Part is its five units -/

theorem Part.ext_units {p q : Part} (h1 : p.path = q.path) (h2 : p.capture = q.capture) (h3 : p.calendar = q.calendar)
    (h4 : p.store = q.store) (h5 : p.depot = q.depot) : p = q := by
  cases p; cases q; simp_all

/-! ## PortOnly is an order of changes -/

theorem PortOnly.refl (p : Part) : PortOnly p p := ⟨rfl, rfl⟩

theorem PortOnly.trans {p q r : Part} (h1 : PortOnly p q) (h2 : PortOnly q r) : PortOnly p r := by
  obtain ⟨a1, b1⟩ := h1
  obtain ⟨a2, b2⟩ := h2
  refine ⟨?_, b2.trans b1⟩
  rw [a2, a1]

theorem PortOnly.path {p q : Part} (h : PortOnly p q) : q.path = p.path := by rw [h.1]

theorem PortOnly.capture {p q : Part} (h : PortOnly p q) : q.capture = p.capture := by rw [h.1]

theorem PortOnly.calendar {p q : Part} (h : PortOnly p q) : q.calendar = p.calendar := by rw [h.1]

theorem PortOnly.store {p q : Part} (h : PortOnly p q) : q.store = { p.store with grant := q.store.grant } :=
  congrArg Part.store h.1

theorem PortOnly.depot {p q : Part} (h : PortOnly p q) :
    q.depot = { p.depot with identity := { p.depot.identity with fetch := q.depot.identity.fetch } } :=
  congrArg Part.depot h.1

/-! ## Arbitration -/

theorem Part.settleWalker_portOnly (p : Part) : PortOnly p p.settleWalker := by
  refine ⟨rfl, ?_⟩
  simp only [Part.settleWalker, Depot.modifyIdentity, Option.map_map]
  rfl

theorem Part.give_portOnly (g : Grant) (p : Part) : PortOnly p (p.give g) := by
  cases g with
  | walker a =>
    refine ⟨rfl, ?_⟩
    simp only [Part.give, Depot.modifyIdentity, Option.map_map]
    rfl
  | _ => exact ⟨rfl, rfl⟩

/-- An arbitration changes nothing but the port. -/
theorem Part.arbitrate_portOnly (p : Part) : PortOnly p p.arbitrate := by
  unfold Part.arbitrate
  simp only
  split
  · exact (p.settleWalker_portOnly).trans (Part.give_portOnly _ _)
  · exact p.settleWalker_portOnly

@[simp] theorem Part.arbitrate_path (p : Part) : p.arbitrate.path = p.path := p.arbitrate_portOnly.path

@[simp] theorem Part.arbitrate_capture (p : Part) : p.arbitrate.capture = p.capture := p.arbitrate_portOnly.capture

@[simp] theorem Part.arbitrate_calendar (p : Part) : p.arbitrate.calendar = p.calendar := p.arbitrate_portOnly.calendar

/-- Settling the walker's claim twice is settling it once. -/
@[simp] theorem Part.settleWalker_settleWalker (p : Part) : p.settleWalker.settleWalker = p.settleWalker := by
  apply Part.ext_units <;> try rfl
  simp only [Part.settleWalker, Depot.modifyIdentity, Option.map_map]
  cases p.depot.identity.fetch <;> rfl

/-- A port that has an owner keeps it. -/
theorem Part.arbitrate_busy (p : Part) (h : p.store.grant ≠ none) : p.arbitrate = p.settleWalker := by
  unfold Part.arbitrate
  simp only
  split
  · rename_i h1 _
    exact absurd h1 h
  · rfl

/-- A free port is given to the best claim (R171). -/
theorem Part.arbitrate_gives (p : Part) (g : Grant) (h : p.store.grant = none) (hb : p.settleWalker.bestClaim = some g) :
    p.arbitrate = p.settleWalker.give g := by
  unfold Part.arbitrate
  simp [h, hb]

/-- A free port that nobody claims stays free. -/
theorem Part.arbitrate_idle (p : Part) (hb : p.settleWalker.bestClaim = none) : p.arbitrate = p.settleWalker := by
  unfold Part.arbitrate
  simp only [hb]
  split
  · rename_i h; cases h
  · rfl

@[simp] theorem Part.give_store_grant (g : Grant) (p : Part) : (p.give g).store.grant = some g := by
  cases g <;> rfl

/-- After an arbitration no claim waits at a free port (R171). -/
theorem Part.arbitrate_portOk (p : Part) (h : p.arbitrate.store.grant = none) :
    p.arbitrate.settleWalker.bestClaim = none := by
  cases hb : p.settleWalker.bestClaim with
  | none => rw [Part.arbitrate_idle p hb] at h ⊢; simpa using hb
  | some g =>
    by_cases hg : p.store.grant = none
    · rw [Part.arbitrate_gives p g hg hb] at h
      simp at h
    · rw [Part.arbitrate_busy p hg] at h
      exact absurd h hg

/-- An arbitration settles the walker's claim first. -/
theorem Part.settleWalker_arbitrate (p : Part) : p.settleWalker.arbitrate = p.arbitrate := by
  unfold Part.arbitrate
  rw [Part.settleWalker_settleWalker]

/-- The grant does not depend on an access that holds the bus without a claim. -/
theorem Part.arbitrate_unhold (p : Part) (h : p.path.held.map Held.isClaimed ≠ some true) :
    p.arbitrate.unhold = p.unhold.arbitrate := by
  have hr : p.settleWalker.path.readWaits = false := by
    show p.path.readWaits = false
    unfold PathUnit.readWaits
    cases hh : p.path.held with
    | none => rfl
    | some w => rw [hh] at h; cases w <;> simp_all [Held.isClaimed]
  have hb : p.unhold.settleWalker.bestClaim = p.settleWalker.bestClaim := by
    unfold Part.bestClaim
    rw [hr, show p.unhold.settleWalker.path.readWaits = false from rfl]
    rfl
  cases hc : p.settleWalker.bestClaim with
  | none =>
    rw [Part.arbitrate_idle p hc, Part.arbitrate_idle p.unhold (hb.trans hc)]
    rfl
  | some g =>
    by_cases hg : p.store.grant = none
    · rw [Part.arbitrate_gives p g hg hc, Part.arbitrate_gives p.unhold g hg (hb.trans hc)]
      cases g <;> rfl
    · rw [Part.arbitrate_busy p hg, Part.arbitrate_busy p.unhold hg]
      rfl

/-! ## The end of an event -/

/-- Where no access waits behind the bus, the end of an event is one arbitration. -/
theorem Part.finish_free (p : Part) (h : p.path.deferred = []) : p.finish = p.arbitrate := by
  unfold Part.finish
  simp only [Part.arbitrate_path, h, Part.runDeferred]
  apply Part.ext_units <;> try rfl
  simp only [Part.arbitrate_path]
  rw [← h]

/-- While an access holds the bus, the end of an event is one arbitration. -/
theorem Part.finish_held (p : Part) (h : p.path.held ≠ none) : p.finish = p.arbitrate := by
  have hh : p.arbitrate.path.held.isSome = true := by
    rw [Part.arbitrate_path]
    exact Option.isSome_iff_ne_none.mpr h
  unfold Part.finish
  dsimp only
  have e : ∀ l, p.arbitrate.path.deferred = l →
      ({ p.arbitrate with path := { p.arbitrate.path with deferred := l } } : Part) = p.arbitrate := by
    intro l hl
    subst hl
    rfl
  cases hd : p.arbitrate.path.deferred with
  | nil => exact e _ hd
  | cons a rest =>
    unfold Part.runDeferred
    rw [if_pos hh]
    exact e _ hd

/-- An access that is commanded on a free bus arrives at once. -/
theorem Part.access_free (a : Access) (p : Part) (h1 : p.path.held = none) (h2 : p.path.deferred = []) :
    p.access a = p.arrive (atWord a) := by
  simp [Part.access, PathUnit.busy, h1, h2]

/-! ## What an arbitration leaves, field by field -/

@[simp] theorem Part.arbitrate_sessions (p : Part) : p.arbitrate.depot.sessions = p.depot.sessions := by
  rw [p.arbitrate_portOnly.depot]
@[simp] theorem Part.arbitrate_water (p : Part) : p.arbitrate.depot.water = p.depot.water := by
  rw [p.arbitrate_portOnly.depot]
@[simp] theorem Part.arbitrate_charge (p : Part) : p.arbitrate.depot.charge = p.depot.charge := by
  rw [p.arbitrate_portOnly.depot]
@[simp] theorem Part.arbitrate_journal (p : Part) : p.arbitrate.depot.journal = p.depot.journal := by
  rw [p.arbitrate_portOnly.depot]
@[simp] theorem Part.arbitrate_notices (p : Part) : p.arbitrate.depot.notices = p.depot.notices := by
  rw [p.arbitrate_portOnly.depot]
@[simp] theorem Part.arbitrate_draws (p : Part) : p.arbitrate.depot.draws = p.depot.draws := by
  rw [p.arbitrate_portOnly.depot]
@[simp] theorem Part.arbitrate_cache (p : Part) :
    p.arbitrate.depot.identity.cache = p.depot.identity.cache := by
  rw [p.arbitrate_portOnly.depot]
@[simp] theorem Part.arbitrate_pinCount (p : Part) :
    p.arbitrate.depot.identity.pinCount = p.depot.identity.pinCount := by
  rw [p.arbitrate_portOnly.depot]
@[simp] theorem Part.arbitrate_victim (p : Part) :
    p.arbitrate.depot.identity.victim = p.depot.identity.victim := by
  rw [p.arbitrate_portOnly.depot]
@[simp] theorem Part.arbitrate_lookups (p : Part) :
    p.arbitrate.depot.identity.lookups = p.depot.identity.lookups := by
  rw [p.arbitrate_portOnly.depot]
@[simp] theorem Part.arbitrate_discarded (p : Part) :
    p.arbitrate.depot.identity.discarded = p.depot.identity.discarded := by
  rw [p.arbitrate_portOnly.depot]
@[simp] theorem Part.arbitrate_preload (p : Part) :
    p.arbitrate.depot.identity.preload = p.depot.identity.preload := by
  rw [p.arbitrate_portOnly.depot]
@[simp] theorem Part.arbitrate_stagedTagLow (p : Part) :
    p.arbitrate.depot.identity.stagedTagLow = p.depot.identity.stagedTagLow := by
  rw [p.arbitrate_portOnly.depot]
@[simp] theorem Part.arbitrate_run (p : Part) : p.arbitrate.store.run = p.store.run := by
  rw [p.arbitrate_portOnly.store]
@[simp] theorem Part.arbitrate_clearing (p : Part) : p.arbitrate.store.clearing = p.store.clearing := by
  rw [p.arbitrate_portOnly.store]
@[simp] theorem Part.arbitrate_debt (p : Part) : p.arbitrate.store.debt = p.store.debt := by
  rw [p.arbitrate_portOnly.store]
@[simp] theorem Part.arbitrate_row (p : Part) : p.arbitrate.store.row = p.store.row := by
  rw [p.arbitrate_portOnly.store]
@[simp] theorem Part.arbitrate_opportune (p : Part) : p.arbitrate.store.opportune = p.store.opportune := by
  rw [p.arbitrate_portOnly.store]
@[simp] theorem Part.arbitrate_mode (p : Part) : p.arbitrate.store.mode = p.store.mode := by
  rw [p.arbitrate_portOnly.store]
@[simp] theorem Part.arbitrate_latch (p : Part) : p.arbitrate.store.latch = p.store.latch := by
  rw [p.arbitrate_portOnly.store]
@[simp] theorem Part.arbitrate_session (p : Part) (b : Fin 8) : p.arbitrate.depot.session b = p.depot.session b := by
  rw [p.arbitrate_portOnly.depot]; rfl
@[simp] theorem Part.arbitrate_bay (p : Part) (b : Fin 8) : p.arbitrate.depot.bay b = p.depot.bay b := by
  rw [p.arbitrate_portOnly.depot]; rfl
@[simp] theorem Part.arbitrate_account (p : Part) (a : Fin 64) : p.arbitrate.depot.account a = p.depot.account a := by
  rw [p.arbitrate_portOnly.depot]; rfl

/-! ## The next state of an event -/

/-- A change of the part, taken together with what the arbiter may then do. -/
theorem State.becomes_arbitrate (s : State) (q : Part) : s.becomes q { s with part := q.arbitrate } :=
  ⟨rfl, rfl, q.arbitrate_portOnly⟩

/-- A state whose part is an arbitrated `q` is `s` with its part changed to `q`, but for the grant. -/
theorem State.becomes_of_eq {s t : State} {q q' : Part} (h : t = { s with part := q.arbitrate }) (hq : q = q') :
    s.becomes q' t := by
  subst h
  subst hq
  exact State.becomes_arbitrate s q

/-- An access commanded on a free bus: its arrival, then the grant. -/
theorem State.event_access (s : State) (a : Access) (x : Part) (h1 : s.part.path.held = none)
    (h2 : s.part.path.deferred = []) (hx : s.part.begin.arrive (atWord a) = x) (hd : x.path.deferred = []) :
    s.event (Part.access a) = { s with part := x.arbitrate } := by
  unfold State.event
  rw [Part.access_free _ _ (by simpa using h1) (by simpa using h2), hx, Part.finish_free _ hd]

/-- An event that leaves the store alone, with no access behind the bus. -/
theorem State.event_eq (s : State) (f : Part → Part) (x : Part) (hx : f s.part.begin = x)
    (hd : x.path.deferred = []) :
    s.event f = { s with part := x.arbitrate } := by
  unfold State.event
  rw [hx, Part.finish_free _ hd]

/-- An event that makes a store operation, with no access behind the bus. -/
theorem State.storeEvent_eq (s : State) (f : Part → Memory → Part × Memory) (x : Part) (m : Memory)
    (hx : f s.part.begin s.mem = (x, m)) (hd : x.path.deferred = []) :
    s.storeEvent f = { s with part := x.arbitrate, mem := m } := by
  unfold State.storeEvent
  rw [hx]
  dsimp only
  rw [Part.finish_free _ hd]

end Sys2Proof.Machine
end

