-- ==== Sys2Proof/Laws/Depot.lean ====
section
/-!
SUPPORT. What the operations of the units behind the bus can do: bays and accounts under an update, the record write
that may begin, the waiting list where its oldest claim does not fit, and three relations that the operations keep: the
insertion queue, the cache and the waiting list as before (`Steady`); claims listed that are not judged yet (`Lists`);
and the bounds and the settled list kept (`KeepsBounds`).
-/

namespace Sys2Proof.Machine

open Sys2Proof

/-! ## Bays, sessions and accounts under an update -/

@[simp] theorem Depot.bay_modifyBay (b : Fin 8) (f : Bay → Bay) (d : Depot) :
    (d.modifyBay b f).bay b = f (d.bay b) := by
  simp [Depot.bay, Depot.modifyBay, modifyAt]

theorem Depot.bay_modifyBay_other (b c : Fin 8) (f : Bay → Bay) (d : Depot) (h : c ≠ b) :
    (d.modifyBay b f).bay c = d.bay c := by
  have h' : b.val ≠ c.val := fun x => h (Fin.ext x.symm)
  simp [Depot.bay, Depot.modifyBay, modifyAt, h']

@[simp] theorem Depot.session_modifySession (b : Fin 8) (f : Session → Session) (d : Depot) :
    (d.modifySession b f).session b = f (d.session b) := by
  simp [Depot.modifySession, Depot.session]

/-- An account under an update of one account. -/
theorem Depot.account_modifyAccount (a x : Fin 64) (f : Account → Account) (d : Depot) :
    (d.modifyAccount a f).account x = if x = a then f (d.account x) else d.account x := by
  by_cases h : x = a
  · subst h
    simp [Depot.account, Depot.modifyAccount, modifyAt]
  · have : ¬ a.val = x.val := fun k => h (Fin.ext k.symm)
    simp [Depot.account, Depot.modifyAccount, modifyAt, this, h]

/-- The running line ends at a stamp (R75). -/
theorem Session.endLine_eq (stamp : Stamp) (s : Session) : s.endLine stamp =
    { s with lines := s.lines.map fun l => if l.stop = none then { l with stop := some stamp } else l } := by
  simp [Session.endLine, Line.running, Option.isNone_iff_eq_none]

/-! ## Judgements as one update -/

/-- The judgement of availability as one update (R94). -/
theorem Depot.judgeAvailability_eq (d : Depot) :
    d.judgeAvailability =
      { d with
        water := { d.water with available := d.water.judgedAvailable }
        notices := { d.notices with
          pending := if d.water.judgedAvailable = d.water.available then d.notices.pending
            else d.notices.pending ||| 0x400#16 } } := by
  unfold Depot.judgeAvailability
  by_cases h : d.water.judgedAvailable = d.water.available
  · simp only [h, if_true]
  · simp only [h, if_false, Depot.modifyWater]
    rfl

/-- An evaluation of the stage as one update (R106, R107). -/
theorem Depot.evaluateStage_eq (d : Depot) :
    d.evaluateStage =
      { d with
        water := { d.water with stage := stageOf d.water.totals.intake d.water.quota d.water.percent }
        notices := { d.notices with
          pending := if stageOf d.water.totals.intake d.water.quota d.water.percent = d.water.stage
            then d.notices.pending else d.notices.pending ||| 0x200#16 } } := by
  have h : d.water.judgedStage = stageOf d.water.totals.intake d.water.quota d.water.percent := rfl
  unfold Depot.evaluateStage
  rw [h]
  by_cases hs : stageOf d.water.totals.intake d.water.quota d.water.percent = d.water.stage
  · simp only [hs, if_true]
  · simp only [hs, if_false, Depot.modifyWater, h]
    rfl

/-- An entry into SAMPLING as one update (R102). -/
theorem Water.enterSampling_eq (w : Water) :
    w.enterSampling =
      { w with
        badSamples := 0
        quality := if w.window = 0 then .rejected else .sampling
        qualityTimer := if w.window = 0 ∨ w.window = 255 then none else some (2 * w.window) } := by
  unfold Water.enterSampling startTimer
  split
  · rename_i h
    simp [h]
  · split <;> rename_i h h2 <;> simp [h, h2]

/-- Re-evaluation where no session is held for credit (R119). -/
theorem Depot.reevaluateAll_none (a : Fin 64) (d : Depot) (h : ∀ b : Fin 8, (d.session b).hold ≠ some .credit) :
    d.reevaluateAll a = d := by
  have : allBays.filter (d.awaitsCredit a) = [] := by
    rw [List.filter_eq_nil_iff]
    intro b _
    have := h b
    simp [Depot.awaitsCredit, this]
  simp [Depot.reevaluateAll, this, orderByRank]

/-- No session is displaced where no other bay holds the tag (R69). -/
theorem Depot.displace_none (now : Calendar) (b : Fin 8) (t : Tag) (d : Depot)
    (h : ∀ c : Fin 8, c ≠ b → (d.session c).state = .admitted ∨ (d.session c).state = .washing →
      (d.session c).tag ≠ t) : d.displace now b t = d := by
  unfold Depot.displace
  generalize allBays = l
  induction l with
  | nil => rfl
  | cons c l ih =>
    rw [List.foldl_cons, if_neg]
    · exact ih
    · rintro ⟨h1, h2⟩
      simp only [Depot.holds, SessionState.active, Bool.and_eq_true, Bool.or_eq_true, beq_iff_eq] at h2
      exact h c h1 h2.1 h2.2

/-! ## The cache search (R40) -/

theorem Identity.search_none (i : Identity) (t : Tag)
    (h : ∀ n : Fin 32, i.cache[n].valid = true → i.cache[n].tag ≠ t) : i.search t = none := by
  unfold Identity.search
  rw [List.find?_eq_none]
  intro x hx
  obtain ⟨n, hn, rfl⟩ := List.getElem_of_mem hx
  have hn' : n < 32 := by simpa using hn
  have := h ⟨n, hn'⟩
  simp at this ⊢
  exact this

theorem Identity.search_some (i : Identity) (t : Tag) (n : Fin 32) (hok : i.cacheOk) (hv : i.cache[n].valid = true)
    (ht : i.cache[n].tag = t) : i.search t = some i.cache[n] := by
  unfold Identity.search
  cases hf : i.cache.toList.find? fun e => e.valid && e.tag == t with
  | none =>
    rw [List.find?_eq_none] at hf
    have := hf i.cache[n] (by simp)
    simp only [Bool.and_eq_true, beq_iff_eq, not_and] at this
    exact absurd ht (this hv)
  | some x =>
    have h1 := List.find?_some hf
    have h2 := List.mem_of_find?_eq_some hf
    obtain ⟨m, hm, rfl⟩ := List.getElem_of_mem h2
    have hm' : m < 32 := by simpa using hm
    simp only [Bool.and_eq_true, beq_iff_eq] at h1
    have : (⟨m, hm'⟩ : Fin 32) = n := hok _ _ (by simpa using h1.1) hv (by rw [ht]; simpa using h1.2)
    subst this
    simp

/-! ## The record write that may begin (R136) -/

/-- No record write begins while one is in flight (R136). -/
theorem Depot.startWrite_writing (ring : Option Ring) (d : Depot) (h : d.journal.writing ≠ none) :
    d.startWrite ring = d := by
  unfold Depot.startWrite
  split
  · rename_i hw; exact absurd hw h
  · rfl

/-- A record write that begins changes the head record's number and the word in flight alone (R136). -/
theorem Depot.startWrite_frame (ring : Option Ring) (d : Depot) :
    ∃ q w, d.startWrite ring = { d with journal := { d.journal with queue := q, writing := w } } ∧
      q.map (fun r => (r.composed, r.period)) = d.journal.queue.map (fun r => (r.composed, r.period)) := by
  unfold Depot.startWrite
  split
  · rename_i g r rest h1 h2
    split
    · exact ⟨_, _, rfl, by simp [h1]⟩
    · exact ⟨_, _, rfl, rfl⟩
  · exact ⟨_, _, rfl, rfl⟩

/-! ## A journal whose oldest claim does not fit -/

/-- No claim is admitted while the oldest does not fit (R142). -/
theorem Depot.admitUpTo_stuck (now : Calendar) (n : Nat) (d : Depot) (c : Claim) (rest : List Claim)
    (hw : d.journal.waiting = c :: rest) (h : 8 < d.journal.queue.length + c.size)
    (hq : d.journal.queue.length ≤ 8) : d.admitUpTo now n = d := by
  cases n with
  | zero => rfl
  | succ n =>
    unfold Depot.admitUpTo
    simp only [hw]
    rw [if_neg]
    unfold Journal.room Config.insertionDepth
    omega

/-- A claim that joins behind one that does not fit waits. -/
theorem Depot.placeClaim_stuck (now : Calendar) (x : Claim) (d : Depot) (c : Claim) (rest : List Claim)
    (hw : d.journal.waiting = c :: rest) (h : 8 < d.journal.queue.length + c.size)
    (hq : d.journal.queue.length ≤ 8) : d.placeClaim now x = d.appendClaim x := by
  unfold Depot.placeClaim Depot.judgeClaims
  exact Depot.admitUpTo_stuck now _ _ c (rest ++ [x])
    (by simp [Depot.appendClaim, Depot.modifyJournal, hw]) h hq

/-- A bay's claim that joins behind one that does not fit raises JOURNAL_STALLED (R144). -/
theorem Depot.placeBayClaim_stuck (now : Calendar) (b : Fin 8) (x : List Composed) (d : Depot) (c : Claim)
    (rest : List Claim) (hw : d.journal.waiting = c :: rest) (h : 8 < d.journal.queue.length + c.size)
    (hq : d.journal.queue.length ≤ 8) :
    d.placeBayClaim now b x = (d.appendClaim (.bay b x)).raise .journalStalled := by
  unfold Depot.placeBayClaim
  simp only [Depot.placeClaim_stuck now (.bay b x) d c rest hw h hq]
  rw [if_pos]
  simp [Journal.bayWaits, Depot.appendClaim, Depot.modifyJournal, Claim.claimant]

/-- The close of a session that is not in LOOKUP, while the oldest claim does not fit (R80, R144). -/
theorem Depot.closeSession_stuck (now : Calendar) (b : Fin 8) (reason : CloseReason) (d : Depot) (c : Claim)
    (rest : List Claim) (hw : d.journal.waiting = c :: rest) (h : 8 < d.journal.queue.length + c.size)
    (hq : d.journal.queue.length ≤ 8) (hl : (d.session b).state ≠ .lookup) :
    d.closeSession now b reason =
      (((d.modifySession b (Session.endLine now)).modifyBay b fun y =>
        { y with session := { y.session with state := .closing, closeReason := some reason }
                 silence := none
                 hold := none }).appendClaim
          (.bay b ((d.modifySession b (Session.endLine now)).endRecords b reason now))).raise .journalStalled := by
  unfold Depot.closeSession
  simp only [hl, if_false]
  exact Depot.placeBayClaim_stuck now b _ _ c rest hw h hq

/-- What the close of a session leaves of its own bay, while the oldest claim does not fit. -/
def closedBay (now : Calendar) (reason : CloseReason) (y : Bay) : Bay :=
  { y with session := { y.session.endLine now with state := .closing, closeReason := some reason }
           silence := none
           hold := none }

theorem Depot.closeSession_stuck_bay (now : Calendar) (b : Fin 8) (reason : CloseReason) (d : Depot) (c : Claim)
    (rest : List Claim) (hw : d.journal.waiting = c :: rest) (h : 8 < d.journal.queue.length + c.size)
    (hq : d.journal.queue.length ≤ 8) (hl : (d.session b).state ≠ .lookup) :
    (d.closeSession now b reason).bay b = closedBay now reason (d.bay b) ∧
    (∀ e, e ≠ b → (d.closeSession now b reason).bay e = d.bay e) ∧
    (d.closeSession now b reason).journal.waiting = d.journal.waiting ++
      [.bay b ((d.modifySession b (Session.endLine now)).endRecords b reason now)] ∧
    (d.closeSession now b reason).charge = d.charge ∧ (d.closeSession now b reason).water = d.water ∧
    (d.closeSession now b reason).notices = d.notices.raise .journalStalled := by
  rw [Depot.closeSession_stuck now b reason d c rest hw h hq hl]
  refine ⟨?_, fun e he => ?_, rfl, rfl, rfl, rfl⟩
  · have : ∀ x : Depot, ∀ cl, ((x.appendClaim cl).raise .journalStalled).bay b = x.bay b := fun _ _ => rfl
    rw [this, Depot.bay_modifyBay, Depot.modifySession, Depot.bay_modifyBay]; rfl
  · have : ∀ x : Depot, ∀ cl, ((x.appendClaim cl).raise .journalStalled).bay e = x.bay e := fun _ _ => rfl
    rw [this, Depot.bay_modifyBay_other _ _ _ _ he, Depot.modifySession, Depot.bay_modifyBay_other _ _ _ _ he]

/-! ## The insertion queue, the cache and the waiting list -/

/-- The insertion queue, the cache and the waiting list are as before. -/
def Steady (d e : Depot) : Prop :=
  e.journal.queue = d.journal.queue ∧ e.identity.cache = d.identity.cache ∧ e.journal.waiting = d.journal.waiting

/-- The insertion queue and the cache are as before, and every waiting claim still holds a record: claims may have been
listed, and are not judged yet. -/
def Lists (d e : Depot) : Prop :=
  e.journal.queue = d.journal.queue ∧ e.identity.cache = d.identity.cache ∧ (d.journal.sized → e.journal.sized)

/-- The queue bound, the cache's soundness and the settled waiting list are kept. -/
def KeepsBounds (d e : Depot) : Prop :=
  (d.journal.queue.length ≤ 8 → e.journal.queue.length ≤ 8) ∧ (d.identity.cacheOk → e.identity.cacheOk) ∧
    (d.journal.claimsOk → e.journal.claimsOk)

theorem Identity.cacheOk_congr {i j : Identity} (h : j.cache = i.cache) (k : i.cacheOk) : j.cacheOk := by
  unfold Identity.cacheOk at *; rw [h]; exact k

theorem Steady.refl (d : Depot) : Steady d d := ⟨rfl, rfl, rfl⟩

theorem Steady.trans {d e f : Depot} (h : Steady d e) (k : Steady e f) : Steady d f :=
  ⟨k.1.trans h.1, k.2.1.trans h.2.1, k.2.2.trans h.2.2⟩

theorem Journal.sized_congr {j k : Journal} (h : k.waiting = j.waiting) (x : j.sized) : k.sized := by
  unfold Journal.sized at *; rw [h]; exact x

theorem Journal.claimsOk_congr {j k : Journal} (hq : k.queue = j.queue) (hw : k.waiting = j.waiting)
    (x : j.claimsOk) : k.claimsOk := by
  unfold Journal.claimsOk Journal.sized Journal.settled at *; rw [hq, hw]; exact x

theorem Steady.sound {d e : Depot} (h : Steady d e) : KeepsBounds d e :=
  ⟨fun k => by rw [h.1]; exact k, fun k => Identity.cacheOk_congr h.2.1 k, Journal.claimsOk_congr h.1 h.2.2⟩

theorem Steady.lists {d e : Depot} (h : Steady d e) : Lists d e := ⟨h.1, h.2.1, Journal.sized_congr h.2.2⟩

theorem Lists.refl (d : Depot) : Lists d d := ⟨rfl, rfl, id⟩

theorem Lists.trans {d e f : Depot} (h : Lists d e) (k : Lists e f) : Lists d f :=
  ⟨k.1.trans h.1, k.2.1.trans h.2.1, k.2.2 ∘ h.2.2⟩

theorem KeepsBounds.refl (d : Depot) : KeepsBounds d d := ⟨id, id, id⟩

theorem KeepsBounds.trans {d e f : Depot} (h : KeepsBounds d e) (k : KeepsBounds e f) : KeepsBounds d f :=
  ⟨k.1 ∘ h.1, k.2.1 ∘ h.2.1, k.2.2 ∘ h.2.2⟩

namespace Steady

theorem foldl {α} (f : Depot → α → Depot) (h : ∀ x a, Steady x (f x a)) (l : List α) (d : Depot) :
    Steady d (l.foldl f d) := by
  induction l generalizing d with
  | nil => exact refl _
  | cons a l ih => exact (h d a).trans (ih _)

theorem raise (c d) : Steady d (Depot.raise c d) := ⟨rfl, rfl, rfl⟩

theorem refuse (o r d) : Steady d (Depot.refuse o r d) := ⟨rfl, rfl, rfl⟩

theorem modifyBay (b f d) : Steady d (Depot.modifyBay b f d) := ⟨rfl, rfl, rfl⟩

theorem modifySession (b f d) : Steady d (Depot.modifySession b f d) := ⟨rfl, rfl, rfl⟩

theorem modifyAccount (a f d) : Steady d (Depot.modifyAccount a f d) := ⟨rfl, rfl, rfl⟩

theorem modifyWater (f d) : Steady d (Depot.modifyWater f d) := ⟨rfl, rfl, rfl⟩

theorem releaseBinding (b d) : Steady d (Depot.releaseBinding b d) := by
  unfold Depot.releaseBinding; split
  · split
    · exact modifyAccount _ _ _
    · exact refl _
  · exact refl _

theorem takeAccount (b a c d) : Steady d (Depot.takeAccount b a c d) := by
  unfold Depot.takeAccount; dsimp only; split <;> exact ⟨rfl, rfl, rfl⟩

theorem enterHeld (b r d) : Steady d (Depot.enterHeld b r d) := ⟨rfl, rfl, rfl⟩

theorem enterAdmitted (b d) : Steady d (Depot.enterAdmitted b d) := ⟨rfl, rfl, rfl⟩

theorem takeVerdict (b c v d) : Steady d (Depot.takeVerdict b c v d) := by
  unfold Depot.takeVerdict
  cases v <;> cases c
  · exact enterAdmitted _ _
  · exact (takeAccount _ _ _ _).trans (enterAdmitted _ _)
  · exact enterHeld _ _ _
  · exact (takeAccount _ _ _ _).trans (enterHeld _ _ _)

theorem deliver (b t c v d) : Steady d (Depot.deliver b t c v d) := by
  unfold Depot.deliver; split
  · exact takeVerdict _ _ _ _
  · exact refl _

theorem arriveVacant (b t st d) : Steady d (Depot.arriveVacant b t st d) := by
  unfold Depot.arriveVacant; dsimp only
  split
  · exact (modifySession _ _ _).trans (takeVerdict _ _ _ _)
  · exact ⟨rfl, rfl, rfl⟩

theorem vacate (b d) : Steady d (Depot.vacate b d) := by
  unfold Depot.vacate; dsimp only
  have h := (releaseBinding b d).trans (modifyBay b (fun y => { y with session := {}, parked := none }) _)
  split
  · exact h.trans (arriveVacant _ _ _ _)
  · exact h

theorem identityRecord (b r d) : Steady d (Depot.identityRecord b r d) := by
  unfold Depot.identityRecord; split
  · exact arriveVacant _ _ _ _
  · exact ⟨rfl, rfl, rfl⟩
  · split <;> exact ⟨rfl, rfl, rfl⟩

theorem reevaluate (b d) : Steady d (Depot.reevaluate b d) := by
  unfold Depot.reevaluate; dsimp only
  split
  · exact refl _
  · split
    · split
      · exact enterAdmitted _ _
      · split <;> exact ⟨rfl, rfl, rfl⟩
    · exact refl _

theorem reevaluateAll (a d) : Steady d (Depot.reevaluateAll a d) := by
  unfold Depot.reevaluateAll; dsimp only
  refine Steady.trans (e := { d with draws := _ }) ⟨rfl, rfl, rfl⟩ (foldl _ (fun x b => reevaluate b x) _ _)

theorem programStart (b c s d) : Steady d (Depot.programStart b c s d) := by
  unfold Depot.programStart; split <;> exact ⟨rfl, rfl, rfl⟩

theorem programEnd (b s d) : Steady d (Depot.programEnd b s d) := by
  unfold Depot.programEnd; split <;> exact ⟨rfl, rfl, rfl⟩

theorem bayAlive (b d) : Steady d (Depot.bayAlive b d) := by
  unfold Depot.bayAlive; split <;> exact ⟨rfl, rfl, rfl⟩

theorem modifyJournal (f d) (h : ∀ j : Journal, (f j).queue = j.queue) (k : ∀ j : Journal, (f j).waiting = j.waiting) :
    Steady d (Depot.modifyJournal f d) := ⟨h _, rfl, k _⟩

theorem resetAccount (a d) : Steady d (Depot.resetAccount a d) := by
  unfold Depot.resetAccount
  exact (modifyAccount _ _ _).trans (reevaluateAll _ _)

theorem judgeAvailability (d) : Steady d (Depot.judgeAvailability d) := by
  unfold Depot.judgeAvailability; split <;> exact ⟨rfl, rfl, rfl⟩

theorem evaluateStage (d) : Steady d (Depot.evaluateStage d) := by
  unfold Depot.evaluateStage; split <;> exact ⟨rfl, rfl, rfl⟩

theorem qualityEvent (f d) : Steady d (Depot.qualityEvent f d) := by
  unfold Depot.qualityEvent; exact (modifyWater _ _).trans (judgeAvailability _)

theorem drawSession (b k n d) : Steady d (Depot.drawSession b k n d) := by
  unfold Depot.drawSession; dsimp only
  split <;> split <;> exact ⟨rfl, rfl, rfl⟩

theorem applyDelta (m n d) : Steady d (Depot.applyDelta m n d) := by
  unfold Depot.applyDelta Depot.bayDelta; dsimp only
  split
  · exact (drawSession _ _ _ _).trans (modifyWater _ _)
  · split
    · exact (drawSession _ _ _ _).trans (modifyWater _ _)
    · split
      · exact (modifyWater _ _).trans (evaluateStage _)
      · exact modifyWater _ _

theorem withdrawLookup (b d) : Steady d (Depot.withdrawLookup b d) := ⟨rfl, rfl, rfl⟩

theorem override (b o d) : Steady d (Depot.override b o d) := by
  unfold Depot.override; split
  · exact (releaseBinding _ _).trans (takeAccount _ _ _ _)
  · exact refl _

theorem abandonFetch (d) : Steady d (Depot.abandonFetch d) := by
  unfold Depot.abandonFetch; split
  · exact Steady.refl _
  · dsimp only; split
    · split
      · exact ⟨rfl, rfl, rfl⟩
      · refine Steady.trans ?_ (Steady.deliver _ _ _ _ _); exact ⟨rfl, rfl, rfl⟩
    · exact ⟨rfl, rfl, rfl⟩

theorem faultLookups (d) : Steady d (Depot.faultLookups d) := by
  unfold Depot.faultLookups
  refine Steady.trans ?_ (Steady.foldl _ (fun x l => Steady.deliver _ _ _ _ _) _ _); exact ⟨rfl, rfl, rfl⟩

theorem dropPreload (d) : Steady d (Depot.dropPreload d) := by
  unfold Depot.dropPreload; split <;> exact ⟨rfl, rfl, rfl⟩

end Steady

namespace Lists

theorem appendClaim (c d) (h : 1 ≤ c.size) : Lists d (Depot.appendClaim c d) := by
  refine ⟨rfl, rfl, fun k x hx => ?_⟩
  rcases List.mem_append.mp hx with h1 | h1
  · exact k x h1
  · rw [List.mem_singleton.mp h1]; exact h

theorem walk (l d) : Lists d (Depot.walk l d) := by
  induction l generalizing d with
  | nil => exact Steady.lists ⟨rfl, rfl, rfl⟩
  | cons a l ih =>
    unfold Depot.walk; split
    · exact (Steady.resetAccount _ _).lists.trans (ih _)
    · exact Lists.trans (Steady.lists ⟨rfl, rfl, rfl⟩) (appendClaim (.sweep a) _ (Nat.le_refl 1))

theorem beginPeriod (d) : Lists d (Depot.beginPeriod d) := by
  unfold Depot.beginPeriod
  exact Lists.trans (Steady.lists ⟨rfl, rfl, rfl⟩) (walk _ _)

theorem continueSweep (n d) : Lists d (Depot.continueSweep n d) := by
  unfold Depot.continueSweep; dsimp only
  split
  · refine (walk (accountsFrom n) d).trans (Lists.trans ?_ (beginPeriod _))
    exact Steady.lists ⟨rfl, rfl, rfl⟩
  · exact walk _ _

theorem listQuotaDay (now d) : Lists d (Depot.listQuotaDay now d) := by
  unfold Depot.listQuotaDay; split
  · refine ⟨rfl, rfl, fun k x hx => ?_⟩
    obtain ⟨c, hc, rfl⟩ := List.mem_map.mp hx
    unfold Claim.overwrite
    split
    · exact Nat.le_refl 1
    · exact k c hc
  · exact appendClaim _ _ (Nat.le_refl 1)

theorem takeBoundary (d) : Lists d (Depot.takeBoundary d) := by
  unfold Depot.takeBoundary; split
  · split <;> exact Steady.lists ⟨rfl, rfl, rfl⟩
  · exact beginPeriod _

end Lists

namespace KeepsBounds

theorem foldl {α} (f : Depot → α → Depot) (h : ∀ x a, KeepsBounds x (f x a)) (l : List α) (d : Depot) :
    KeepsBounds d (l.foldl f d) := by
  induction l generalizing d with
  | nil => exact refl _
  | cons a l ih => exact (h d a).trans (ih _)

theorem startWrite (r d) : KeepsBounds d (Depot.startWrite r d) := by
  obtain ⟨q, w, h, hq⟩ := Depot.startWrite_frame r d
  rw [h]
  have e : q.length = d.journal.queue.length := by simpa using congrArg List.length hq
  refine ⟨fun k => ?_, id, fun k => ⟨?_, fun c rest hc => ?_, k.2.2⟩⟩
  · rw [e]; exact k
  · rw [e]; exact k.1
  · rw [e]; exact k.2.1 c rest hc

theorem applyRecords_queue (l d) :
    (Depot.applyRecords l d).journal.queue.length = d.journal.queue.length + l.length ∧
      (Depot.applyRecords l d).identity = d.identity ∧
      (Depot.applyRecords l d).journal.waiting = d.journal.waiting := by
  induction l generalizing d with
  | nil => exact ⟨rfl, rfl, rfl⟩
  | cons c l ih =>
    unfold Depot.applyRecords; dsimp only
    have h1 : (d.applyRecord c).1.journal = d.journal ∧ (d.applyRecord c).1.identity = d.identity := by
      unfold Depot.applyRecord; split <;> exact ⟨rfl, rfl⟩
    obtain ⟨e1, e2, e3⟩ := ih ({ (d.applyRecord c).1 with
      journal := { (d.applyRecord c).1.journal with
        queue := (d.applyRecord c).1.journal.queue ++ [(d.applyRecord c).2] } })
    refine ⟨e1.trans ?_, e2.trans h1.2, e3.trans ?_⟩
    · simp [h1.1]; omega
    · rw [h1.1]

/-- An admission adds the claim's records to the queue, and lists none but a claim of one record. -/
theorem admitClaim (now c d) :
    (Depot.admitClaim now c d).journal.queue.length = d.journal.queue.length + c.size ∧
      (Depot.admitClaim now c d).identity.cache = d.identity.cache ∧
      (d.journal.sized → (Depot.admitClaim now c d).journal.sized) := by
  unfold Depot.admitClaim
  split
  · obtain ⟨e1, e2, e3⟩ := applyRecords_queue (by assumption) d
    have := Steady.vacate (by assumption) (Depot.applyRecords (by assumption) d)
    refine ⟨?_, ?_, Journal.sized_congr (this.2.2.trans e3)⟩
    · rw [this.1, e1]; rfl
    · rw [this.2.1, e2]
  · dsimp only
    rename_i a
    have h := fun x : Depot => ((Steady.resetAccount a x).lists).trans (Lists.continueSweep (a.val + 1) _)
    refine ⟨?_, ?_, fun k => (h _).2.2 k⟩
    · rw [(h _).1]; simp [Depot.enqueue, Depot.modifyJournal, Claim.size]
    · rw [(h _).2.1]; rfl
  all_goals
    refine ⟨?_, rfl, fun k => k⟩
    simp [Depot.enqueue, Depot.modifyJournal, Claim.size]

theorem admitUpTo (now n d) :
    (d.journal.queue.length ≤ 8 → (Depot.admitUpTo now n d).journal.queue.length ≤ 8) ∧
      (d.identity.cacheOk → (Depot.admitUpTo now n d).identity.cacheOk) ∧
      (d.journal.queue.length ≤ 8 → 8 ≤ d.journal.queue.length + n → d.journal.sized →
        (Depot.admitUpTo now n d).journal.claimsOk) := by
  induction n generalizing d with
  | zero =>
    refine ⟨id, id, fun h8 hn hz => ⟨h8, fun c rest hc => ?_, hz⟩⟩
    have := hz c (by show c ∈ d.journal.waiting; rw [show d.journal.waiting = c :: rest from hc]; simp)
    show 8 < d.journal.queue.length + c.size
    omega
  | succ n ih =>
    unfold Depot.admitUpTo; split
    · rename_i hw
      exact ⟨id, id, fun h8 _ hz => ⟨h8, fun c rest hc => by simp [hw] at hc, hz⟩⟩
    · rename_i c rest hw
      split
      · rename_i hr
        obtain ⟨e1, e2, e3⟩ := admitClaim now c (d.modifyJournal fun j => { j with waiting := rest })
        obtain ⟨i1, i2, i3⟩ := ih ((d.modifyJournal fun j => { j with waiting := rest }).admitClaim now c)
        have e1' : (Depot.admitClaim now c (d.modifyJournal fun j => { j with waiting := rest })).journal.queue.length =
            d.journal.queue.length + c.size := e1
        rw [e1'] at i1 i3
        have hs : d.journal.queue.length ≤ 8 → d.journal.queue.length + c.size ≤ 8 := by
          intro k; unfold Journal.room Config.insertionDepth at hr; omega
        refine ⟨fun k => i1 (hs k), fun k => i2 (Identity.cacheOk_congr e2 k), fun h8 hn hz => i3 (hs h8) ?_ (e3 ?_)⟩
        · have := hz c (by rw [hw]; simp)
          omega
        · exact fun x hx => hz x (by rw [hw]; exact List.mem_cons_of_mem _ hx)
      · rename_i hr
        refine ⟨id, id, fun h8 _ hz => ⟨h8, fun c' rest' hc => ?_, hz⟩⟩
        rw [hw] at hc
        cases hc
        unfold Journal.room Config.insertionDepth at hr
        omega

/-- A judgement settles a list of claims that each hold a record. -/
theorem judged (now d e) (hq : d.journal.queue.length ≤ 8 → e.journal.queue.length ≤ 8)
    (hc : d.identity.cacheOk → e.identity.cacheOk) (hz : d.journal.sized → e.journal.sized) :
    KeepsBounds d (Depot.judgeClaims now e) := by
  obtain ⟨h1, h2, h3⟩ := admitUpTo now Config.insertionDepth e
  refine ⟨h1 ∘ hq, h2 ∘ hc, fun k => h3 (hq k.1) ?_ (hz k.2.2)⟩
  unfold Config.insertionDepth
  omega

theorem lists_judged {d e} (now) (h : Lists d e) : KeepsBounds d (Depot.judgeClaims now e) :=
  judged now d e (fun k => by rw [h.1]; exact k) (Identity.cacheOk_congr h.2.1) h.2.2

theorem judgeClaims (now d) : KeepsBounds d (Depot.judgeClaims now d) := lists_judged now (Lists.refl d)

theorem placeClaim (now c d) (h : 1 ≤ c.size) : KeepsBounds d (Depot.placeClaim now c d) :=
  lists_judged now (Lists.appendClaim c d h)

theorem placeBayClaim (now b r d) (h : 1 ≤ r.length) : KeepsBounds d (Depot.placeBayClaim now b r d) := by
  unfold Depot.placeBayClaim; dsimp only; split
  · exact (placeClaim now (.bay b r) d h).trans (Steady.raise _ _).sound
  · exact placeClaim now (.bay b r) d h

theorem endRecords_length (d : Depot) (b reason stamp) : 1 ≤ (d.endRecords b reason stamp).length := by
  have hl : ∀ s r, 1 ≤ (Depot.endRecords.close d b reason stamp s r).length := by
    intro s r
    unfold Depot.endRecords.close; dsimp only
    split
    · exact Nat.le_refl 1
    · rename_i h
      generalize (s.lines.filter fun l => l.outcome == .run) = l at h
      rcases l with _ | ⟨x, _ | ⟨y, l⟩⟩
      · exact absurd rfl h
      · exact Nat.le_refl 1
      · exact Nat.le_add_left 1 _
  unfold Depot.endRecords; dsimp only
  split
  · exact hl _ _
  · exact hl _ _
  · exact Nat.le_refl 1

theorem closeSession (now b r d) : KeepsBounds d (Depot.closeSession now b r d) := by
  unfold Depot.closeSession; dsimp only
  refine KeepsBounds.trans (Steady.sound ?_) (placeBayClaim _ _ _ _ (endRecords_length _ _ _ _))
  split <;> exact ⟨rfl, rfl, rfl⟩

theorem vehicleExit (now b d) : KeepsBounds d (Depot.vehicleExit now b d) := by
  unfold Depot.vehicleExit; split <;> first | exact refl _ | exact closeSession _ _ _ _

theorem silenceExpiry (now b d) : KeepsBounds d (Depot.silenceExpiry now b d) := by
  unfold Depot.silenceExpiry; dsimp only; split
  · refine KeepsBounds.trans (Steady.sound ?_) (closeSession _ _ _ _); exact ⟨rfl, rfl, rfl⟩
  · exact Steady.sound ⟨rfl, rfl, rfl⟩

theorem holdExpiry (now b d) : KeepsBounds d (Depot.holdExpiry now b d) := by
  unfold Depot.holdExpiry; dsimp only; split
  · refine KeepsBounds.trans (Steady.sound ?_) (closeSession _ _ _ _); exact ⟨rfl, rfl, rfl⟩
  · exact Steady.sound ⟨rfl, rfl, rfl⟩

theorem displace (now b t d) : KeepsBounds d (Depot.displace now b t d) := by
  unfold Depot.displace
  refine foldl _ (fun x c => ?_) _ _
  split
  · exact closeSession _ _ _ _
  · exact refl _

theorem admitTaken (now b o d) : KeepsBounds d (Depot.admitTaken now b o d) := by
  unfold Depot.admitTaken
  have h := displace now b (d.session b).tag d
  generalize Depot.displace now b (d.session b).tag d = x at *
  refine h.trans (Steady.sound ?_)
  have k := Steady.override b o x
  generalize Depot.override b o x = y at *
  refine k.trans ?_
  exact ⟨rfl, rfl, rfl⟩

theorem startDay (d) : KeepsBounds d (Depot.startDay d) :=
  Steady.sound ((Steady.modifyWater _ _).trans (Steady.evaluateStage _))

theorem quotaBoundary (now d) : KeepsBounds d (Depot.quotaBoundary now d) := by
  unfold Depot.quotaBoundary Depot.claimQuotaDay
  refine KeepsBounds.trans ?_ (startDay _)
  split
  · rename_i h
    unfold Depot.listQuotaDay
    rw [if_pos h]
    refine ⟨id, id, fun k => ⟨k.1, fun c rest hc => ?_, ?_⟩⟩
    · have hz : ∀ x : Claim, (Claim.overwrite d.water.totals now x).size = x.size := by
        intro x; unfold Claim.overwrite; cases x <;> rfl
      have hc' : d.journal.waiting.map (Claim.overwrite d.water.totals now) = c :: rest := hc
      cases hw : d.journal.waiting with
      | nil => rw [hw] at hc'; cases hc'
      | cons a l =>
        rw [hw] at hc'
        cases hc'
        show 8 < d.journal.queue.length + (Claim.overwrite d.water.totals now a).size
        rw [hz]
        exact k.2.1 a l hw
    · have := (Lists.listQuotaDay now d).2.2 k.2.2
      unfold Depot.listQuotaDay at this
      rw [if_pos h] at this
      exact this
  · exact lists_judged _ (Lists.listQuotaDay _ _)

theorem periodBoundary (now d) : KeepsBounds d (Depot.periodBoundary now d) := by
  unfold Depot.periodBoundary; split
  · rename_i h
    unfold Depot.takeBoundary
    rw [if_pos h]
    split <;> exact Steady.sound ⟨rfl, rfl, rfl⟩
  · exact lists_judged _ (Lists.takeBoundary _)

theorem endWrite (now g d) : KeepsBounds d (Depot.endWrite now g d) := by
  unfold Depot.endWrite; dsimp only
  have h : ∀ a b c x, Steady x (Depot.headNotices a b c x) := by
    intro a b c x; unfold Depot.headNotices; dsimp only
    split <;> split <;> exact ⟨rfl, rfl, rfl⟩
  refine judged now d _ (fun k => ?_) (fun k => Identity.cacheOk_congr (h _ _ _ _).2.1 k)
    (fun k => Journal.sized_congr (h _ _ _ _).2.2 k)
  rw [(h _ _ _ _).1]
  simp [Depot.modifyJournal]; omega

theorem meterSample (now m v d) : KeepsBounds d (Depot.meterSample now m v d) := by
  unfold Depot.meterSample; split
  · exact Steady.sound ⟨rfl, rfl, rfl⟩
  · split
    · unfold Depot.meterJump; dsimp only; split
      · exact Steady.sound ⟨rfl, rfl, rfl⟩
      · refine KeepsBounds.trans (Steady.sound ?_) (placeClaim _ _ _ (Nat.le_refl 1)); exact ⟨rfl, rfl, rfl⟩
    · refine Steady.sound (Steady.trans ?_ (Steady.applyDelta _ _ _)); exact ⟨rfl, rfl, rfl⟩

theorem plantRecord (r now d) : KeepsBounds d (Depot.plantRecord r now d) := by
  unfold Depot.plantRecord; split
  · exact meterSample _ _ _ _
  · exact Steady.sound ((Steady.modifyWater _ _).trans (Steady.judgeAvailability _))
  all_goals first | exact Steady.sound (Steady.qualityEvent _ _) | exact refl _

theorem bayRecord (r now d) : KeepsBounds d (Depot.bayRecord r now d) := by
  unfold Depot.bayRecord; dsimp only; split
  · exact Steady.sound (Steady.programStart _ _ _ _)
  · exact Steady.sound (Steady.programEnd _ _ _)
  · exact vehicleExit _ _ _
  · exact Steady.sound (Steady.bayAlive _ _)
  · exact refl _

theorem cache_invalidate (test) (i : Identity) (h : i.cacheOk) : (i.invalidate test).cacheOk := by
  intro m n hm hn ht
  simp only [Identity.invalidate, Fin.getElem_fin, Vector.getElem_map] at hm hn ht
  refine h m n ?_ ?_ ?_
  · split at hm
    · simp at hm
    · exact hm
  · split at hn
    · simp at hn
    · exact hn
  · split at ht <;> split at ht <;> exact ht

theorem cache_set (i : Identity) (x : Fin 32) (e : CacheEntry) (h : i.cacheOk)
  (hx : ∀ n : Fin 32, n ≠ x → i.cache[n].valid = true → i.cache[n].tag ≠ e.tag) (cc : Vector CacheEntry 32)
  (hc : cc = i.cache.set x.val e x.isLt)
  : ∀ m n : Fin 32, cc[m].valid = true → cc[n].valid = true → cc[m].tag = cc[n].tag → m = n := by
  subst hc
  intro m n hm hn ht
  simp only [Fin.getElem_fin, Vector.getElem_set] at hm hn ht
  by_cases h1 : x.val = m.val <;> by_cases h2 : x.val = n.val
  · exact Fin.ext (h1.symm.trans h2)
  · rw [if_neg h2] at hn ht; rw [if_pos h1] at ht
    exact absurd ht.symm (hx n (fun k => h2 (by rw [k])) hn)
  · rw [if_neg h1] at hm ht; rw [if_pos h2] at ht
    exact absurd ht (hx m (fun k => h1 (by rw [k])) hm)
  · rw [if_neg h1] at hm ht; rw [if_neg h2] at hn ht
    exact h m n hm hn ht

theorem indexOf_none (i : Identity) (t : Tag) (h : i.indexOf t = none) (n : Fin 32)
    (hv : i.cache[n].valid = true) : i.cache[n].tag ≠ t := by
  unfold Identity.indexOf at h
  rw [List.find?_eq_none] at h
  have := h n (List.mem_finRange n)
  simp at this
  intro ht
  exact this hv ht

theorem indexOf_some (i : Identity) (t : Tag) (n) (h : i.indexOf t = some n) :
    i.cache[n].valid = true ∧ i.cache[n].tag = t := by
  unfold Identity.indexOf at h
  have := List.find?_some h
  simpa using this

theorem cache_fill (t s x) (i : Identity) (h : i.cacheOk) : (i.fill t s x).cacheOk := by
  unfold Identity.fill; split
  · rename_i n hn
    have k := indexOf_some i t n hn
    refine cache_set i n (cacheEntryOf t s x) h (fun m hm hv ht => hm (h m n hv k.1 (ht.trans k.2.symm))) _ rfl
  · rename_i hn
    exact cache_set i (Fin.ofNat 32 i.victim) (cacheEntryOf t s x) h (fun m _ hv => indexOf_none i t hn m hv) _ rfl

theorem cache_fillPinned (n t s x) (i : Identity) (h : i.cacheOk) : (i.fillPinned n t s x).cacheOk := by
  unfold Identity.fillPinned; dsimp only
  refine cache_set (i.invalidate fun e => e.tag == t) (Fin.ofNat 32 n) (cacheEntryOf t s x)
    (cache_invalidate _ _ h) (fun m _ hv => ?_) _ rfl
  intro ht
  simp only [Identity.invalidate, Fin.getElem_fin, Vector.getElem_map] at hv ht
  split at hv
  · simp at hv
  · rename_i h2
    rw [if_neg h2] at ht
    exact h2 (by simp [ht, cacheEntryOf])

theorem identity (d : Depot) (f : Identity → Identity) (h : ∀ i : Identity, i.cacheOk → (f i).cacheOk) :
    KeepsBounds d (d.modifyIdentity f) := ⟨id, h _, id⟩

theorem endFetch (f r d) : KeepsBounds d (Depot.endFetch f r d) := by
  unfold Depot.endFetch; dsimp only
  refine KeepsBounds.trans (e := d.modifyIdentity fun i => { i with fetch := none }) (identity _ _ fun i h => h) ?_
  split
  · unfold Depot.endLookup; split
    · dsimp only; split
      · exact identity _ _ (cache_fill _ _ _)
      · exact (identity _ _ (cache_fill _ _ _)).trans (Steady.sound (Steady.deliver _ _ _ _ _))
    · split
      · exact refl _
      · exact Steady.sound (Steady.deliver _ _ _ _ _)
  · unfold Depot.endPreload; split
    · split
      · refine identity _ _ fun i h => ?_
        exact Identity.cacheOk_congr rfl (cache_fillPinned _ _ _ _ i h)
      · exact Steady.sound ⟨rfl, rfl, rfl⟩
    · exact Steady.sound ⟨rfl, rfl, rfl⟩

theorem restartFetch (f d) : KeepsBounds d (Depot.restartFetch f d) := by
  unfold Depot.restartFetch; split
  · exact endFetch _ _ _
  · exact Steady.sound ⟨rfl, rfl, rfl⟩

theorem slotRead (f b x d) : KeepsBounds d (Depot.slotRead f b x d) := by
  unfold Depot.slotRead
  split
  · exact endFetch _ _ _
  · split
    · exact restartFetch _ _
    · split
      · exact endFetch _ _ _
      · split
        · exact endFetch _ _ _
        · exact Steady.sound ⟨rfl, rfl, rfl⟩

theorem slotReturns (b x d) : KeepsBounds d (Depot.slotReturns b x d) := by
  unfold Depot.slotReturns; split
  · split
    · exact slotRead _ _ _ _
    · exact Steady.sound ⟨rfl, rfl, rfl⟩
  · exact Steady.sound ⟨rfl, rfl, rfl⟩

theorem snoop (s d) : KeepsBounds d (Depot.snoop s d) := by
  unfold Depot.snoop
  have h1 : KeepsBounds d (d.snoopCache s) := by
    unfold Depot.snoopCache; dsimp only
    split
    · exact (identity _ _ (cache_invalidate _)).trans (Steady.raise _ _).sound
    · exact identity _ _ (cache_invalidate _)
  refine h1.trans ?_
  unfold Depot.snoopFetch; split
  · exact refl _
  · split
    · split
      · exact Steady.sound ⟨rfl, rfl, rfl⟩
      · exact restartFetch _ _
    · exact refl _

theorem startFetch (w d) : KeepsBounds d (Depot.startFetch w d) := by
  unfold Depot.startFetch; split
  · exact refl _
  · split
    · exact refl _
    · dsimp only
      split <;> split <;> first
        | exact Steady.sound ⟨rfl, rfl, rfl⟩
        | exact endFetch _ _ _
        | (refine KeepsBounds.trans (Steady.sound ?_) (endFetch _ _ _); exact ⟨rfl, rfl, rfl⟩)

theorem emptyCache (d) : KeepsBounds d (Depot.emptyCache d) := by
  unfold Depot.emptyCache; dsimp only
  have h : KeepsBounds d (d.modifyIdentity fun i => { i.invalidate (fun _ => true) with victim := i.pinCount }) :=
    identity _ _ fun i hi => Identity.cacheOk_congr rfl (cache_invalidate (fun _ => true) i hi)
  split
  · exact h.trans (Steady.raise _ _).sound
  · exact h

theorem directoryChanged (d) : KeepsBounds d (Depot.directoryChanged d) :=
  ((Steady.abandonFetch d).trans ((Steady.faultLookups _).trans (Steady.dropPreload _))).sound.trans (emptyCache _)

end KeepsBounds

end Sys2Proof.Machine
end

