-- ==== Sys2Proof/Laws/Control.lean ====
section
/-!
SUPPORT. Addresses, and what a write of the control window can do: the one lemma from which each item's effect follows.
-/

namespace Sys2Proof.Machine

open Sys2Proof

/-! ## Addresses -/

theorem wordAddr_aligned (a : Addr) (h : a.toNat % 4 = 0) : wordAddr a = a := by
  apply BitVec.eq_of_toNat_eq
  have := a.isLt
  simp only [wordAddr, BitVec.toNat_ofNat]
  omega

theorem PathUnit.controlBase_le (u : PathUnit) : u.controlBase ≤ 0xFFF000 := by
  have := u.straps.isLt
  unfold PathUnit.controlBase
  omega

theorem PathUnit.controlBase_mod (u : PathUnit) : u.controlBase % 4 = 0 := by
  unfold PathUnit.controlBase
  omega

theorem PathUnit.controlAddr_toNat (u : PathUnit) (o : Nat) (h : o < 4096) :
    (u.controlAddr o).toNat = u.controlBase + o := by
  have := u.controlBase_le
  simp only [PathUnit.controlAddr, BitVec.toNat_ofNat]
  omega

theorem PathUnit.wordAddr_controlAddr (u : PathUnit) (o : Nat) (h : o < 4096) (h4 : o % 4 = 0) :
    wordAddr (u.controlAddr o) = u.controlAddr o := by
  apply wordAddr_aligned
  rw [u.controlAddr_toNat o h]
  have := u.controlBase_mod
  omega

theorem PathUnit.classify_controlAddr (u : PathUnit) (o : Nat) (h : o < 4096) :
    u.classify (u.controlAddr o) = .control := by
  unfold PathUnit.classify PathUnit.inControl
  rw [u.controlAddr_toNat o h]
  have h1 : u.controlBase ≤ u.controlBase + o := by omega
  have h2 : u.controlBase + o < u.controlBase + 4096 := by omega
  simp [h]

/-! ## Items and their offsets (R187) -/

theorem Item.offset_lt (i : Item) : i.offset < 4096 := by
  cases i with
  | setting s => cases s <;> simp only [Item.offset, SettingItem.offset] <;> omega
  | quota q => cases q <;> simp [Item.offset]
  | accountStaged a w => cases w <;> (simp only [Item.offset]; omega)
  | _ => simp only [Item.offset]; omega

theorem Item.offset_mod (i : Item) : i.offset % 4 = 0 := by
  cases i with
  | setting s => cases s <;> simp only [Item.offset, SettingItem.offset] <;> omega
  | quota q => cases q <;> simp [Item.offset]
  | accountStaged a w => cases w <;> (simp only [Item.offset]; omega)
  | _ => simp only [Item.offset] <;> omega

theorem itemAt_windows (e : Fin 8) :
    itemAt (Item.offset (.windowFirst e)) = some (.windowFirst e) ∧
      itemAt (Item.offset (.windowCommit e)) = some (.windowCommit e) := by
  revert e; decide

theorem itemAt_programs (p : Fin 16) : itemAt (0x1C0 + 4 * p.val) = some (.setting (.program p)) := by
  revert p; decide

theorem itemAt_tariffs (w : Fin 32) : itemAt (0x200 + 4 * w.val) = some (.setting (.tariff w)) := by
  revert w; decide

theorem itemAt_accounts (a : Fin 64) :
    itemAt (0x300 + 16 * a.val) = some (.accountStaged a .word0) ∧
      itemAt (0x304 + 16 * a.val) = some (.accountStaged a .word1) ∧
        itemAt (0x30C + 16 * a.val) = some (.accountCommit a) := by
  revert a; decide

theorem itemAt_discounts (b : Fin 4) : itemAt (0x178 + 4 * b.val) = some (.setting (.bandDiscount b)) := by
  revert b; decide

/-- The item at an item's offset is that item. -/
theorem itemAt_offset (i : Item) : itemAt i.offset = some i := by
  cases i with
  | windowFirst e => exact (itemAt_windows e).1
  | windowCommit e => exact (itemAt_windows e).2
  | setting s =>
    cases s with
    | program p => exact itemAt_programs p
    | tariff w => exact itemAt_tariffs w
    | bandDiscount b => exact itemAt_discounts b
    | _ => decide
  | quota q => cases q <;> decide
  | accountStaged a w =>
    cases w
    · exact (itemAt_accounts a).1
    · exact (itemAt_accounts a).2.1
  | accountCommit a => exact (itemAt_accounts a).2.2
  | _ => decide

/-! ## What an item leaves alone -/

/-- The parts of the path and of the store that no item of the control window touches. -/
structure SamePort (p q : Part) : Prop where
  straps : q.path.straps = p.path.straps
  posted : q.path.posted = p.path.posted
  held : q.path.held = p.path.held
  deferred : q.path.deferred = p.path.deferred
  done : q.path.done = p.path.done
  run : q.store.run = p.store.run
  clearing : q.store.clearing = p.store.clearing
  debt : q.store.debt = p.store.debt
  row : q.store.row = p.store.row
  grant : q.store.grant = p.store.grant

theorem SamePort.refl (p : Part) : SamePort p p := ⟨rfl, rfl, rfl, rfl, rfl, rfl, rfl, rfl, rfl, rfl⟩

theorem SamePort.trans {p q r : Part} (h1 : SamePort p q) (h2 : SamePort q r) : SamePort p r :=
  ⟨h2.straps.trans h1.straps, h2.posted.trans h1.posted, h2.held.trans h1.held, h2.deferred.trans h1.deferred,
    h2.done.trans h1.done, h2.run.trans h1.run, h2.clearing.trans h1.clearing, h2.debt.trans h1.debt,
    h2.row.trans h1.row, h2.grant.trans h1.grant⟩

/-- A change behind the bus alone. -/
theorem SamePort.of_units {p q : Part} (h1 : q.path = p.path) (h2 : q.store = p.store) : SamePort p q := by
  constructor <;> simp [h1, h2]

theorem Part.reportOld_samePort (old : Option (WindowKind × Nat × Nat)) (p : Part) : SamePort p (p.reportOld old) := by
  unfold Part.reportOld
  split <;> exact SamePort.of_units rfl rfl

theorem Part.reportJournal_samePort (old new : Option (WindowKind × Nat × Nat)) (p : Part) :
    SamePort p (p.reportJournal old new) := by
  unfold Part.reportJournal
  split <;> exact SamePort.of_units rfl rfl

theorem Part.takeWindow_samePort (e : Fin 8) (w : WindowEntry) (p : Part) : SamePort p (p.takeWindow e w) := by
  unfold Part.takeWindow
  simp only
  split
  · exact ⟨rfl, rfl, rfl, rfl, rfl, rfl, rfl, rfl, rfl, rfl⟩
  · refine SamePort.trans (q := { p with path := { p.path with windows := p.path.windows.set e w e.isLt } })
      ⟨rfl, rfl, rfl, rfl, rfl, rfl, rfl, rfl, rfl, rfl⟩ ?_
    exact ((Part.reportOld_samePort _ _).trans (Part.reportJournal_samePort _ _ _)).trans
      (SamePort.of_units rfl rfl)

theorem Part.setSetting_samePort (i : SettingItem) (v : Word) (p q : Part) (h : p.setSetting i v = some q) :
    SamePort p q := by
  unfold Part.setSetting at h
  cases i <;> simp only at h
  all_goals first
    | (split at h
       · cases h; exact SamePort.of_units rfl rfl
       · cases h)
    | (cases h; exact SamePort.of_units rfl rfl)

theorem Part.setQuota_samePort (i : QuotaItem) (v : Word) (p q : Part) (h : p.setQuota i v = some q) :
    SamePort p q := by
  unfold Part.setQuota at h
  cases i <;> simp only at h
  · cases h; exact SamePort.of_units rfl rfl
  · split at h
    · cases h; exact SamePort.of_units rfl rfl
    · cases h

theorem Part.decide_samePort (w : Word) (p q : Part) (h : p.decide w = .ok q) : SamePort p q := by
  unfold Part.decide at h
  simp only at h
  split at h
  all_goals first
    | (simp only [Except.map] at h
       split at h
       · cases h
       · cases h; exact SamePort.of_units rfl rfl)
    | cases h

theorem orOutOfRange_ok {x : Option Part} {q : Part} (h : orOutOfRange x = .ok q) : x = some q := by
  cases x <;> simp_all [orOutOfRange]

/-- A taken item touches neither the queue, the bus nor the port. -/
theorem Part.takeItem_samePort (i : Item) (v : Word) (p q : Part) (h : p.takeItem i v = .ok q) : SamePort p q := by
  cases i <;> simp only [Part.takeItem] at h
  case windowFirst => cases h; exact ⟨rfl, rfl, rfl, rfl, rfl, rfl, rfl, rfl, rfl, rfl⟩
  case windowCommit =>
    split at h
    · cases h
    · cases h; exact Part.takeWindow_samePort _ _ _
  case setting => exact Part.setSetting_samePort _ _ _ _ (orOutOfRange_ok h)
  case pinCount =>
    split at h
    · cases h; exact SamePort.of_units rfl rfl
    · cases h
  case quota => exact Part.setQuota_samePort _ _ _ _ (orOutOfRange_ok h)
  case refreshMode =>
    split at h
    · cases h; exact ⟨rfl, rfl, rfl, rfl, rfl, rfl, rfl, rfl, rfl, rfl⟩
    · cases h
  case decision => exact Part.decide_samePort _ _ _ h
  case acknowledge => cases h; exact ⟨rfl, rfl, rfl, rfl, rfl, rfl, rfl, rfl, rfl, rfl⟩
  case journalTail =>
    unfold Part.writeTail at h
    split at h
    · cases h; exact SamePort.of_units rfl rfl
    · cases h
  case preloadCommit =>
    simp only [Except.map] at h
    split at h
    · cases h
    · cases h; exact SamePort.of_units rfl rfl
  case calendarCommit =>
    split at h
    · cases h
    · cases h; exact SamePort.of_units rfl rfl
  case accountCommit =>
    simp only [Except.map] at h
    split at h
    · cases h
    · cases h; exact SamePort.of_units rfl rfl
  all_goals (cases h; exact SamePort.of_units rfl rfl)

/-- Whatever a control-window word does, it touches neither the queue, the bus nor the port. -/
theorem Part.controlWord_samePort (o : Nat) (data : Word) (be : Enables) (req : Requester) (p : Part) :
    SamePort p (p.controlWord o data be req) := by
  unfold Part.controlWord
  split
  · exact SamePort.refl p
  · split
    · exact SamePort.of_units rfl rfl
    · split
      · rename_i h
        exact Part.takeItem_samePort _ _ _ _ h
      · exact SamePort.of_units rfl rfl

/-! ## The one lemma of control-window writes -/

/-- On a free bus with room in the queue, a control-window write of SITE or MAINT is posted and completed, handed to the
Settings and Notice Unit, and followed by one arbitration (R11, R13). -/
theorem State.controlAccess_ready (s : State) (o : Nat) (data : Word) (be : Enables) (req : Requester) (hs : s.ready)
    (ho : o < 4096) (h4 : o % 4 = 0) (hbe : be ≠ 0) (hreq : req = .site ∨ req = .maint) :
    s.controlAccess o data be req =
      { s with part := ((s.afterControl o data be req).controlWord o data be req).arbitrate } := by
  obtain ⟨⟨hrun, hheld, hdef⟩, hroom⟩ := hs
  have hcls := s.part.path.classify_controlAddr o ho
  have hadr := s.part.path.controlAddr_toNat o ho
  have hblk : s.part.path.writeBlocked .control req = false := by
    rcases hreq with rfl | rfl <;> rfl
  have hfull : s.part.path.full = false := by
    unfold PathUnit.full Config.postedDepth
    exact decide_eq_false (by omega)
  unfold State.controlAccess State.event
  congr 1
  rw [Part.access_free _ _ (by simpa using hheld) (by simpa using hdef)]
  simp only [atWord, PathUnit.wordAddr_controlAddr _ o ho h4]
  have harr : s.part.begin.arrive (.write (s.part.path.controlAddr o) data be req) =
      (s.afterControl o data be req).controlWord o data be req := by
    unfold Part.arrive
    simp only [Part.begin_store, hrun]
    have hb1 : s.part.begin.path.classify (s.part.path.controlAddr o) = .control := hcls
    have hb2 : s.part.begin.path.writeBlocked .control req = false := hblk
    have hb3 : s.part.begin.path.full = false := hfull
    have hoff : (s.part.path.controlAddr o).toNat - (s.afterControl o data be req).path.controlBase = o := by
      have : (s.afterControl o data be req).path.controlBase = s.part.path.controlBase := rfl
      omega
    have hpost : (s.part.begin.enqueuePosted (s.controlEntry o data be req)).complete
        (s.controlEntry o data be req).access 0 = s.afterControl o data be req := rfl
    have hand : (s.afterControl o data be req).handOver (s.controlEntry o data be req) =
        (s.afterControl o data be req).controlWord
          ((s.part.path.controlAddr o).toNat - (s.afterControl o data be req).path.controlBase) data be req := rfl
    rw [hoff] at hand
    simp only [Part.arriveWrite, hbe, if_false, hb1, hb2, Bool.false_eq_true, Part.postOrWait, hb3, Part.post]
    rw [← hand, ← hpost]
    rfl
  rw [harr, Part.finish_free]
  rw [(Part.controlWord_samePort o data be req _).deferred]
  exact hdef

/-- What an item's write does where its owner takes it. -/
theorem State.itemAccess_taken (s : State) (i : Item) (data : Word) (be : Enables) (req : Requester) (q : Part)
    (hs : s.ready) (hbe : be ≠ 0) (hreq : req = .maint ∨ (req = .site ∧ i.maintOnly = false))
    (hq : (s.afterControl i.offset data be req).takeItem i (s.part.formed i data be) = .ok q) :
    s.itemAccess i data be req = { s with part := q.arbitrate } := by
  have hformed : (s.afterControl i.offset data be req).formed i data be = s.part.formed i data be := by
    cases i <;> rfl
  unfold State.itemAccess
  rw [State.controlAccess_ready s _ data be req hs i.offset_lt i.offset_mod hbe
    (by rcases hreq with h | h; exact Or.inr h; exact Or.inl h.1)]
  unfold Part.controlWord
  rw [itemAt_offset]
  have hnot : ¬ (i.maintOnly = true ∧ req ≠ .maint) := by
    rcases hreq with rfl | ⟨rfl, h⟩ <;> simp_all
  simp only [hnot, if_false, hformed, hq]

/-- What an item's write does where its owner refuses it (R195). -/
theorem State.itemAccess_refused (s : State) (i : Item) (data : Word) (be : Enables) (req : Requester)
    (reason : RefusalReason) (hs : s.ready) (hbe : be ≠ 0)
    (hreq : req = .maint ∨ (req = .site ∧ i.maintOnly = false))
    (hq : (s.afterControl i.offset data be req).takeItem i (s.part.formed i data be) = .error reason) :
    s.itemAccess i data be req =
      { s with part := ((s.afterControl i.offset data be req).refuse i.offset reason).arbitrate } := by
  have hformed : (s.afterControl i.offset data be req).formed i data be = s.part.formed i data be := by
    cases i <;> rfl
  unfold State.itemAccess
  rw [State.controlAccess_ready s _ data be req hs i.offset_lt i.offset_mod hbe
    (by rcases hreq with h | h; exact Or.inr h; exact Or.inl h.1)]
  unfold Part.controlWord
  rw [itemAt_offset]
  have hnot : ¬ (i.maintOnly = true ∧ req ≠ .maint) := by
    rcases hreq with rfl | ⟨rfl, h⟩ <;> simp_all
  simp only [hnot, if_false, hformed, hq]

/-- A SITE write of an item that is MAINT's alone (R188). -/
theorem State.itemAccess_notPermitted (s : State) (i : Item) (data : Word) (be : Enables) (hs : s.ready) (hbe : be ≠ 0)
    (hi : i.maintOnly = true) :
    s.itemAccess i data be .site =
      { s with part := ((s.afterControl i.offset data be .site).refuse i.offset .notPermitted).arbitrate } := by
  unfold State.itemAccess
  rw [State.controlAccess_ready s _ data be .site hs i.offset_lt i.offset_mod hbe (Or.inl rfl)]
  unfold Part.controlWord
  rw [itemAt_offset]
  simp [hi]

/-! ## What a control-window write leaves before its word's own effect -/

@[simp] theorem State.afterControl_depot (s : State) (o : Nat) (data : Word) (be : Enables) (req : Requester) :
    (s.afterControl o data be req).depot = s.part.depot := rfl
@[simp] theorem State.afterControl_store (s : State) (o : Nat) (data : Word) (be : Enables) (req : Requester) :
    (s.afterControl o data be req).store = s.part.store := rfl
@[simp] theorem State.afterControl_calendar (s : State) (o : Nat) (data : Word) (be : Enables) (req : Requester) :
    (s.afterControl o data be req).calendar = s.part.calendar := rfl
@[simp] theorem State.afterControl_capture (s : State) (o : Nat) (data : Word) (be : Enables) (req : Requester) :
    (s.afterControl o data be req).capture = s.part.capture := rfl
@[simp] theorem State.afterControl_windows (s : State) (o : Nat) (data : Word) (be : Enables) (req : Requester) :
    (s.afterControl o data be req).path.windows = s.part.path.windows := rfl
@[simp] theorem State.afterControl_staged (s : State) (o : Nat) (data : Word) (be : Enables) (req : Requester) :
    (s.afterControl o data be req).path.staged = s.part.path.staged := rfl
@[simp] theorem State.afterControl_straps (s : State) (o : Nat) (data : Word) (be : Enables) (req : Requester) :
    (s.afterControl o data be req).path.straps = s.part.path.straps := rfl
@[simp] theorem State.afterControl_blockLatch (s : State) (o : Nat) (data : Word) (be : Enables) (req : Requester) :
    (s.afterControl o data be req).path.blockLatch = s.part.path.blockLatch := rfl

/-- The requesters that may write an item that is not MAINT's alone (R188). -/
theorem Item.permitted_shared {i : Item} {req : Requester} (hi : i.maintOnly = false)
    (h : req = .site ∨ req = .maint) :
    req = .maint ∨ (req = .site ∧ i.maintOnly = false) := by
  rcases h with h | h
  · exact Or.inr ⟨h, hi⟩
  · exact Or.inl h

theorem PathUnit.ring_congr {u v : PathUnit} (h : u.windows = v.windows) : u.ring = v.ring := by
  unfold PathUnit.ring PathUnit.windowOf; rw [h]

@[simp] theorem State.afterControl_ring (s : State) (o : Nat) (data : Word) (be : Enables) (req : Requester) :
    (s.afterControl o data be req).path.ring = s.part.path.ring := PathUnit.ring_congr rfl

/-- The pin count as one update (R41). -/
theorem Identity.setPinCount_eq (n : Nat) (i : Identity) :
    i.setPinCount n = { i with pinCount := n, victim := if i.pinCount = n then i.victim else n } := by
  unfold Identity.setPinCount
  split
  · rename_i h; simp only [← h]
  · rfl

end Sys2Proof.Machine
end

