-- ==== Sys2Proof/Laws/Words.lean ====
section
/-!
SUPPORT. Words by their bits: merged words, fields, and the word of a decision command.
-/

namespace Sys2Proof.Machine

open Sys2Proof

/-- A word with all four bytes enabled replaces the old one. -/
@[simp] theorem mergeBytes_all (old new : Word) : mergeBytes old new 15#4 = new := by
  unfold mergeBytes
  have : enableMask 0xF#4 = BitVec.allOnes 32 := by decide
  rw [this]
  have h1 : ~~~ BitVec.allOnes 32 = 0#32 := by decide
  rw [h1, BitVec.and_zero, BitVec.zero_or, BitVec.and_allOnes]

/-- A mask has a byte's bits where the byte is enabled. -/
theorem enableMask_getLsbD (be : Enables) (i : Fin 32) : (enableMask be).getLsbD i.val = be.getLsbD (i.val / 8) := by
  revert i be; decide

/-- A merged word has each byte from the new word where it is enabled, from the old one where it is not (R189). -/
theorem mergeBytes_getLsbD (old new : Word) (be : Enables) (i : Nat) (hi : i < 32) :
    (mergeBytes old new be).getLsbD i = if be.getLsbD (i / 8) then new.getLsbD i else old.getLsbD i := by
  have h := enableMask_getLsbD be ⟨i, hi⟩
  simp only at h
  simp only [mergeBytes, BitVec.getLsbD_or, BitVec.getLsbD_and, BitVec.getLsbD_not, h, hi]
  cases be.getLsbD (i / 8) <;> simp

/-- A field as a slice. -/
theorem bits_eq (w : Word) (lo k : Nat) : bits w lo k = (w.extractLsb' lo k).toNat := by
  simp [bits, BitVec.extractLsb'_toNat, Nat.shiftRight_eq_div_pow]

/-- A field is the same in two words whose bits in it are. -/
theorem bits_congr (v w : Word) (lo k : Nat) (h : ∀ i, i < k → v.getLsbD (lo + i) = w.getLsbD (lo + i)) :
    bits v lo k = bits w lo k := by
  rw [bits_eq, bits_eq]
  congr 1
  apply BitVec.eq_of_getLsbD_eq
  intro i hi
  simp only [BitVec.getLsbD_extractLsb', hi, decide_true, Bool.true_and]
  exact h i hi

/-- A decision command's word is its data but for the decision field. -/
theorem withDecision_getLsbD (code : Nat) (data : Word) (i : Nat) (h : 3 ≤ i) :
    (withDecision code data).getLsbD i = data.getLsbD i := by
  have hd := data.isLt
  have e : (withDecision code data).toNat = data.toNat / 8 * 8 + code % 8 := by
    simp only [withDecision, word, BitVec.toNat_ofNat]; omega
  simp only [BitVec.getLsbD, e, Nat.testBit_eq_decide_div_mod_eq]
  obtain ⟨k, rfl⟩ : ∃ k, i = 3 + k := ⟨i - 3, by omega⟩
  have h2 : (data.toNat / 8 * 8 + code % 8) / 2 ^ (3 + k) = data.toNat / 2 ^ (3 + k) := by
    rw [Nat.pow_add, ← Nat.div_div_eq_div_mul, ← Nat.div_div_eq_div_mul]
    congr 1
    omega
  rw [h2]

/-- The decision field of a decision command's word. -/
theorem bits_withDecision (code : Nat) (data : Word) : bits (withDecision code data) 0 3 = code % 8 := by
  have hd := data.isLt
  have e : (withDecision code data).toNat = data.toNat / 8 * 8 + code % 8 := by
    simp only [withDecision, word, BitVec.toNat_ofNat]; omega
  simp only [bits, e]
  omega

/-- The decision field of a decision command's word: byte 0 is enabled (R194). -/
theorem decision_code (code : Nat) (data : Word) (be : Enables) (h : be.getLsbD 0 = true) :
    bits (mergeBytes 0 (withDecision code data) be) 0 3 = code % 8 := by
  rw [← bits_withDecision code data]
  apply bits_congr
  intro i hi
  rw [mergeBytes_getLsbD _ _ _ _ (by omega), show (0 + i) / 8 = 0 by omega, h]; rfl

/-- A field above the decision field is that of the written word. -/
theorem decision_field (code : Nat) (data : Word) (be : Enables) (lo k : Nat) (h : 3 ≤ lo) (hk : lo + k ≤ 32) :
    bits (mergeBytes 0 (withDecision code data) be) lo k = bits (mergeBytes 0 data be) lo k := by
  apply bits_congr
  intro i hi
  rw [mergeBytes_getLsbD _ _ _ _ (by omega), mergeBytes_getLsbD _ _ _ _ (by omega),
    withDecision_getLsbD _ _ _ (by omega)]

/-- A decision word is judged by its decision field (R194). -/
theorem Part.decide_code (p : Part) (w : Word) (n : Nat) : bits w 0 3 = n → p.decide w =
    match n with
    | 1 => (p.depot.decideAdmit p.calendar.now (decisionBay w) (decisionOverride w)).map fun d =>
        { p with depot := d.startWrite p.path.ring }
    | 2 => (p.depot.decideTurnAway p.calendar.now (decisionBay w)).map fun d =>
        { p with depot := d.startWrite p.path.ring }
    | 3 => (p.depot.decideClose p.calendar.now (decisionBay w)).map fun d =>
        { p with depot := d.startWrite p.path.ring }
    | 4 => p.depot.releaseReclaim.map fun d => { p with depot := d.startWrite p.path.ring }
    | _ => .error .outOfRange := by
  rintro rfl
  rfl

end Sys2Proof.Machine
end

