-- ==== Sys2Proof/Laws/Path.lean ====
section
/-!
SUPPORT. The arrival of an access: what decides it, what is handed over, and what no arrival touches.
-/

namespace Sys2Proof.Machine

open Sys2Proof

/-! ## The arrival -/

theorem Part.arrive_write (p : Part) (hr : p.store.run = .running) (addr : Addr) (data : Word) (be : Enables)
    (req : Requester) : p.arrive (.write addr data be req) = p.arriveWrite addr data be req := by
  unfold Part.arrive
  rw [hr]

theorem Part.arrive_read (p : Part) (hr : p.store.run = .running) (addr : Addr) (req : Requester) :
    p.arrive (.read addr req) = p.arriveRead addr req := by
  unfold Part.arrive
  rw [hr]

/-- A write that is not blocked, with room in the queue, is posted and handed over (R11, R12). -/
theorem State.arrive_posts (s : State) (addr : Addr) (data : Word) (be : Enables) (req : Requester) (e : Fin 8)
    (k : WindowKind) (hs : s.ready) (ha : addr.toNat % 4 = 0) (hbe : be ≠ 0)
    (hc : s.part.path.classify addr = .window e k) (hk : k ≠ .journal) (hk2 : k ≠ .grant)
    (hp : s.part.path.windows[e].writePermit.getLsbD (Requester.code req) = true) :
    s.part.begin.arrive (atWord (.write addr data be req)) =
      (s.part.withPosted ⟨addr, data, be, req, .window e k⟩).handOver ⟨addr, data, be, req, .window e k⟩ := by
  obtain ⟨⟨hrun, hheld, hdef⟩, hroom⟩ := hs
  have hfull : s.part.begin.path.full = false := by
    unfold PathUnit.full Config.postedDepth
    exact decide_eq_false (by show ¬ 4 ≤ s.part.path.posted.length; omega)
  simp only [atWord, wordAddr_aligned _ ha]
  rw [Part.arrive_write _ (by simpa using hrun)]
  have hcl : s.part.begin.path.classify addr = s.part.path.classify addr := rfl
  have hbl : s.part.begin.path.writeBlocked (s.part.begin.path.classify addr) req = false := by
    have h2 : s.part.begin.path.windows[e].writePermit.getLsbD (Requester.code req) = true := hp
    rw [hcl, hc]
    show (!s.part.begin.path.windows[e].writePermit.getLsbD (Requester.code req) || k == .journal || k == .grant) =
      false
    rw [h2]
    simp [hk, hk2]
  unfold Part.arriveWrite
  rw [if_neg hbe, hbl, if_neg (by simp), Part.postOrWait, hfull, if_neg (by simp), hcl, hc]
  rfl

/-! ## Assembly (R23, R24) -/

theorem Assembly.merge_word (a : Assembly) (n m : Fin 4) (d : Word) (be : Enables) :
    (a.merge n d be).words[m] = if m = n then mergeBytes a.words[m] d be else a.words[m] := by
  simp only [Assembly.merge, modifyAt, Fin.getElem_fin, Vector.getElem_set]
  by_cases h : n.val = m.val
  · rw [if_pos h, if_pos (Fin.ext h.symm)]
    simp only [h]
  · rw [if_neg h, if_neg (fun x => h (by rw [x]))]

theorem Assembly.merge_seen (a : Assembly) (n m : Fin 4) (d : Word) (be : Enables) :
    (a.merge n d be).seen[m] = if m = n then a.seen[m] ||| be else a.seen[m] := by
  simp only [Assembly.merge, modifyAt, Fin.getElem_fin, Vector.getElem_set]
  by_cases h : n.val = m.val
  · rw [if_pos h, if_pos (Fin.ext h.symm)]
    simp only [h]
  · rw [if_neg h, if_neg (fun x => h (by rw [x]))]

/-! ## The accesses behind the bus -/

theorem Part.controlWord_deferred (o data be req) (p : Part) :
    (p.controlWord o data be req).path.deferred = p.path.deferred := by
  have hr : ∀ o r (x : Part), (x.refuse o r).path = x.path := fun _ _ _ => rfl
  unfold Part.controlWord
  generalize itemAt o = x
  cases x with
  | none => rfl
  | some i =>
    dsimp only
    split
    · rw [hr]
    · generalize hx : Part.takeItem _ _ _ = x
      cases x with
      | ok q => exact (Part.takeItem_samePort _ _ _ _ hx).deferred
      | error r => dsimp only; rw [hr]

theorem Part.deliverRecord_path (k r) (y : Part) : (y.deliverRecord k r).path = y.path := by
  cases k <;> rfl

theorem Part.recordWord_path (k o d b) (x : Part) : (x.recordWord k o d b).path = x.path := by
  unfold Part.recordWord
  generalize CaptureWindow.receive _ _ _ _ _ _ _ = r
  dsimp only
  have hraise : ∀ c (x : Part), (x.raise c).path = x.path := fun _ _ => rfl
  cases r.taken <;> dsimp only
  · split
    · rw [hraise]
    · rfl
  · rw [Part.deliverRecord_path]
    split
    · rw [hraise]
    · rfl

theorem Part.handOver_deferred (e) (p : Part) : (p.handOver e).path.deferred = p.path.deferred := by
  unfold Part.handOver
  cases e.cls with
  | control => dsimp only; rw [Part.controlWord_deferred]
  | plain => rfl
  | window n k =>
    cases k <;> dsimp only <;> first | rfl | rw [Part.recordWord_path]

theorem Part.overlayRead_deferred (addr req) (p : Part) :
    (p.overlayRead addr req).path.deferred = p.path.deferred := by
  have hbc : ∀ o (x : Part), (x.beforeControlRead o).path = x.path := by
    intro o x; unfold Part.beforeControlRead; split <;> rfl
  have h : ∀ (o : Nat) (q : Part),
      (Part.complete (.read addr req) (q.readControl o) q).path.deferred = q.path.deferred := fun _ _ => rfl
  rw [Part.overlayRead]
  generalize addr.toNat - p.path.controlBase = o
  rw [h, hbc]

theorem Part.arriveRead_deferred (addr req) (p : Part) :
    (p.arriveRead addr req).path.deferred = p.path.deferred := by
  have hc : ∀ a w (x : Part), (x.complete a w).path.deferred = x.path.deferred := fun _ _ _ => rfl
  have hb : ∀ a r d (x : Part), (x.block a r d).path.deferred = x.path.deferred := fun _ _ _ _ => rfl
  have hs : ∀ (x : Part), (x.storeRead addr req).path.deferred = x.path.deferred := by
    intro x; unfold Part.storeRead; split <;> rfl
  rw [Part.arriveRead]
  generalize p.path.classify addr = c
  split
  · rw [hc, hb]
  · cases c with
    | control => dsimp only; rw [Part.overlayRead_deferred]
    | plain => dsimp only; rw [hs]
    | window e k => cases k <;> dsimp only <;> first | rw [hs] | rw [hc]

/-- No arrival touches the accesses that wait behind the bus (log 13). -/
theorem Part.arrive_deferred (a) (p : Part) : (p.arrive a).path.deferred = p.path.deferred := by
  have hh : ∀ h (x : Part), (x.hold h).path.deferred = x.path.deferred := fun _ _ => rfl
  have hc : ∀ a w (x : Part), (x.complete a w).path.deferred = x.path.deferred := fun _ _ _ => rfl
  have hb : ∀ a r d (x : Part), (x.block a r d).path.deferred = x.path.deferred := fun _ _ _ _ => rfl
  have hq : ∀ e (x : Part), (x.enqueuePosted e).path.deferred = x.path.deferred := fun _ _ => rfl
  have hbc : ∀ o (x : Part), (x.beforeControlRead o).path = x.path := by
    intro o x; unfold Part.beforeControlRead; split <;> rfl
  unfold Part.arrive
  cases p.store.run <;> dsimp only
  · rw [hh]
  · cases a <;> dsimp only
    · exact Part.arriveRead_deferred _ _ _
    · unfold Part.arriveWrite; split
      · rw [hc]
      · split
        · rw [hc, hb]
        · unfold Part.postOrWait; split
          · rw [hh]
          · unfold Part.post; rw [Part.handOver_deferred, hc, hq]

end Sys2Proof.Machine
end

