-- ==== Sys2Proof/Laws/Records.lean ====
section
/-!
SUPPORT. The write that completes a record (02, sections 2.2 and 2.3): the bytes of a record, the tests it passes, and
the one lemma of its command; and the record write that may begin after an event.
-/

namespace Sys2Proof.Machine

open Sys2Proof

/-! ## A record write that may begin (R136) -/

/-- An event at the units behind the bus changes the part, and a record write may begin. -/
theorem State.becomesOrWrites_startWrite (s : State) (x : Part) (ring : Option Ring) :
    s.becomesOrWrites x { s with part := ({ x with depot := x.depot.startWrite ring } : Part).arbitrate } := by
  obtain ⟨q, w, hj, hq⟩ := x.depot.startWrite_frame ring
  refine ⟨q, w, hq, fun h => ?_, ?_⟩
  · rw [Depot.startWrite_writing ring x.depot h] at hj
    have := congrArg Depot.journal hj
    exact ⟨(congrArg Journal.queue this).symm, (congrArg Journal.writing this).symm⟩
  · rw [hj]
    exact State.becomes_arbitrate s _

/-- The same of a next state given by an equation. -/
theorem State.becomesOrWrites_of_eq {s t : State} {x x' : Part} {ring : Option Ring}
    (h : t = { s with part := ({ x with depot := x.depot.startWrite ring } : Part).arbitrate }) (hx : x = x') :
    s.becomesOrWrites x' t := by
  subst h
  subst hx
  exact State.becomesOrWrites_startWrite s x ring

/-- Who owned the port before the arbitration does not matter. -/
theorem State.becomesOrWrites_of_grant {s t : State} {x : Part} {g : Option Grant}
    (h : s.becomesOrWrites { x with store := { x.store with grant := g } } t) : s.becomesOrWrites x t := by
  obtain ⟨q, w, h1, h2, h3, h4, h5⟩ := h
  exact ⟨q, w, h1, h2, h3, h4, PortOnly.trans ⟨rfl, rfl⟩ h5⟩

/-- A state that a change leaves alone but for the grant is one that a record write may follow. -/
theorem State.becomesOrWrites_of_becomes {s t : State} {x : Part} (h : s.becomes x t) : s.becomesOrWrites x t :=
  ⟨_, _, rfl, fun _ => ⟨rfl, rfl⟩, h⟩

/-- An event at the units behind the bus, and the record write that may begin after it (R136). -/
theorem State.event_onDepot (s : State) (f : Calendar → Depot → Depot) (d : Depot)
    (hf : f s.part.calendar.now s.part.depot = d) (hd : s.part.path.deferred = []) :
    s.event (fun p => p.onDepot f) =
      { s with part := ({ s.part.begin with depot := d.startWrite s.part.path.ring } : Part).arbitrate } := by
  refine State.event_eq s _ _ ?_ hd
  subst hf
  rfl

/-! ## The bytes of a record (R203, R204) -/

theorem recordByte_zero (r : Vector Word 4) : recordByte r 0 = firstByte r := by
  show (byteOf r[(0 : Fin 4)] 0).toNat = _
  simp [byteOf, firstByte]

theorem recordByte_one (r : Vector Word 4) : recordByte r 1 = secondByte r := by
  show (byteOf r[(0 : Fin 4)] 1).toNat = _
  simp [byteOf, secondByte]

theorem recordByte_two (r : Vector Word 4) : recordByte r 2 = thirdByte r := by
  show (byteOf r[(0 : Fin 4)] 2).toNat = _
  simp [byteOf, thirdByte]

/-- The two halfwords of a word. -/
theorem halfOf_pair (w : Word) : (halfOf w 0).toNat = w.toNat % 65536 ∧ (halfOf w 1).toNat = w.toNat / 65536 := by
  have := w.isLt
  simp [halfOf]
  omega

/-- The words of a record as a list. -/
theorem record_toList (r : Vector Word 4) :
    r.toList = [r[(0 : Fin 4)], r[(1 : Fin 4)], r[(2 : Fin 4)], r[(3 : Fin 4)]] := by
  apply List.ext_getElem
  · simp
  · intro i h1 h2
    have : i < 4 := by simpa using h1
    interval_cases i <;> simp

/-- The checksum test as one sum (R26). -/
theorem checksumOk_of_sum (r : Vector Word 4)
    (h : (r[(0 : Fin 4)].toNat % 65536 + r[(0 : Fin 4)].toNat / 65536 + r[(1 : Fin 4)].toNat % 65536 +
      r[(1 : Fin 4)].toNat / 65536 + r[(2 : Fin 4)].toNat % 65536 + r[(2 : Fin 4)].toNat / 65536 +
      r[(3 : Fin 4)].toNat % 65536 + r[(3 : Fin 4)].toNat / 65536) % 65536 = 0) : checksumOk r = true := by
  unfold checksumOk
  rw [record_toList]
  simp only [List.map_cons, List.map_nil, List.sum_cons, List.sum_nil, halfOf_pair]
  rw [beq_iff_eq]
  omega

/-! ## The completing write -/

theorem Part.handOver_record (p : Part) (e : PostedEntry) (n : Fin 8) (kind : RecordKind)
    (h : e.cls = .window n kind.windowKind) :
    p.handOver e = p.recordWord kind (p.path.entryOffset n e) e.data e.be := by
  unfold Part.handOver
  rw [h]
  cases kind <;> rfl

/-- The window that classified an address holds it. -/
theorem PathUnit.classify_base (u : PathUnit) (a : Addr) (e : Fin 8) (k : WindowKind)
    (h : u.classify a = .window e k) : u.windows[e].base.toNat * 4096 ≤ a.toNat := by
  unfold PathUnit.classify at h
  split at h
  · cases h
  · split at h
    · rename_i n hn
      have hcov := List.find?_some hn
      split at h
      · cases h
        simp only [WindowEntry.covers, WindowEntry.baseAddr, Bool.and_eq_true] at hcov
        exact of_decide_eq_true hcov.1.2
      · cases h
    · cases h

/-- The open assembly with the completing write merged is the record (R23, R24). -/
theorem Assembly.merge_completes (old : Assembly) (data : Word) (be : Enables) (r : Vector Word 4)
    (h : ∀ n : Fin 4, n ≠ 3 → old.seen[n] = 0xF#4 ∧ r[n] = old.words[n])
    (h3 : old.seen[(3 : Fin 4)] ||| be = 0xF#4) (hr : r[(3 : Fin 4)] = mergeBytes old.words[(3 : Fin 4)] data be) :
    (old.merge 3 data be).words = r ∧ ∀ n, (old.merge 3 data be).present n = true := by
  refine ⟨?_, fun n => ?_⟩
  · apply Vector.ext
    intro i hi
    have := Assembly.merge_word old 3 ⟨i, hi⟩ data be
    by_cases h4 : (⟨i, hi⟩ : Fin 4) = 3
    · have hi3 : i = 3 := congrArg Fin.val h4
      subst hi3
      rw [if_pos h4] at this
      exact this.trans hr.symm
    · rw [if_neg h4, ← (h _ h4).2] at this
      exact this
  · unfold Assembly.present
    rw [Assembly.merge_seen]
    by_cases h4 : n = 3
    · rw [if_pos h4, h4, h3]
      rfl
    · rw [if_neg h4, (h n h4).1]
      rfl

/-- The command that completes a record in range: the write is posted and complete, the record is taken, and its owner
takes its event, followed by one arbitration (R11, R25 to R31). -/
theorem State.Completes.exec_eq {s : State} {kind : RecordKind} {addr : Addr} {data : Word} {be : Enables}
    {req : Requester} {slot : Nat} {r : Vector Word 4} (h : s.Completes kind addr data be req slot r)
    (hr : inRange kind s.part.capture.minQuality r = true) :
    exec (.upstreamWrite addr data be req) s =
      .next { s with part := ((s.recordTaken kind addr data be req slot).deliverRecord kind r).arbitrate } := by
  obtain ⟨hs, hbe, h12, ⟨e, hc, hp, hslot⟩, ⟨old, hold, hos, hw, hb3, hw3⟩, hsum⟩ := h
  have key := State.arrive_posts s addr data be req e kind.windowKind hs (by omega) hbe hc (by cases kind <;> decide)
    (by cases kind <;> decide) hp
  have hbase := PathUnit.classify_base _ _ _ _ hc
  obtain ⟨⟨hrun, hheld, hdef⟩, hroom⟩ := hs
  obtain ⟨hwords, hpres⟩ := Assembly.merge_completes old data be r hw hb3 hw3
  have hck := checksumOk_of_sum r hsum
  obtain ⟨off, hoff⟩ : ∃ off, off = addr.toNat - s.part.path.windows[e].base.toNat * 4096 := ⟨_, rfl⟩
  have hn : Fin.ofNat 4 (off / 4) = (3 : Fin 4) := by apply Fin.ext; simp; omega
  have hrec : (s.part.capture.window kind).receive kind s.part.capture.minQuality (off / 16) 3 data be =
      ⟨{ s.part.capture.window kind with assembly := none, last := some slot }, false, some r⟩ := by
    have hj : (s.part.capture.window kind).joined (off / 16) = old := by
      unfold CaptureWindow.joined
      rw [hold]
      dsimp only
      rw [if_pos (by rw [hoff]; exact hos.trans hslot)]
    have hab : (s.part.capture.window kind).abandons (off / 16) = false := by
      unfold CaptureWindow.abandons
      rw [hold, hoff]
      exact bne_eq_false_iff_eq.mpr (hos.trans hslot)
    have hms : (old.merge 3 data be).slot = slot := hos
    unfold CaptureWindow.receive
    simp only [hj, hpres, hab]
    unfold CaptureWindow.judge
    simp only [hpres, hwords, hck, hr, hms]
    rfl
  have ho : (s.part.withPosted ⟨addr, data, be, req, .window e kind.windowKind⟩).handOver
      ⟨addr, data, be, req, .window e kind.windowKind⟩ =
        (s.recordTaken kind addr data be req slot).deliverRecord kind r := by
    rw [Part.handOver_record _ _ e kind rfl]
    have h1 : (s.part.withPosted ⟨addr, data, be, req, .window e kind.windowKind⟩).path.entryOffset e
        ⟨addr, data, be, req, .window e kind.windowKind⟩ = off := hoff.symm
    rw [h1]
    unfold Part.recordWord
    rw [hn]
    have h2 : ∀ x : Word, ∀ y : Enables,
        ((s.part.withPosted ⟨addr, data, be, req, .window e kind.windowKind⟩).capture.window kind).receive kind
          (s.part.withPosted ⟨addr, data, be, req, .window e kind.windowKind⟩).capture.minQuality (off / 16) 3 x y =
        (s.part.capture.window kind).receive kind s.part.capture.minQuality (off / 16) 3 x y := fun _ _ => rfl
    rw [h2, hrec]
    unfold State.recordTaken
    rw [hc]
    rfl
  have hdef2 : ((s.recordTaken kind addr data be req slot).deliverRecord kind r).path.deferred = [] := by
    rw [Part.deliverRecord_path]
    exact hdef
  have hE := State.event_access s _ _ hheld hdef (key.trans ho) hdef2
  exact congrArg Host.Outcome.next hE

end Sys2Proof.Machine
end

