-- ==== Sys2Proof/Laws/Sweep.lean ====
section
/-!
SUPPORT. The sweep where no session is held for credit (07, section 7.4): the reset of accounts, the walk to the first
account with records, and what the admission of sweep claims can do.
-/

namespace Sys2Proof.Machine

open Sys2Proof

/-! ## Resets of accounts (R120) -/

theorem Depot.resetAccount_eq (a : Fin 64) (d : Depot) (h : d.noCreditHold) :
    d.resetAccount a = d.modifyAccount a (Account.zeroed d.journal.period) :=
  Depot.reevaluateAll_none a _ h

/-- The resets of a list of accounts. -/
def Depot.resetAccounts (l : List (Fin 64)) (d : Depot) : Depot := l.foldl (fun x a => x.resetAccount a) d

/-- What the resets of a list of accounts leave: those accounts at 0 with the current period, nothing else changed. -/
theorem Depot.resetAccounts_spec (l : List (Fin 64)) (d : Depot) (h : d.noCreditHold) :
    d.resetAccounts l = { d with charge := { d.charge with accounts := (d.resetAccounts l).charge.accounts } } ∧
      ∀ x, (d.resetAccounts l).account x =
        if x ∈ l then (d.account x).zeroed d.journal.period else d.account x := by
  induction l generalizing d with
  | nil => exact ⟨rfl, fun x => by simp [Depot.resetAccounts]⟩
  | cons a l ih =>
    have e : d.resetAccounts (a :: l) = (d.modifyAccount a (Account.zeroed d.journal.period)).resetAccounts l := by
      rw [← d.resetAccount_eq a h]
      rfl
    obtain ⟨h1, h2⟩ := ih (d.modifyAccount a (Account.zeroed d.journal.period)) h
    rw [e]
    refine ⟨by rw [h1]; rfl, fun x => ?_⟩
    rw [h2, Depot.account_modifyAccount]
    by_cases hx : x = a
    · subst hx
      simp [Account.zeroed]
    · simp [hx]

/-! ## The walk (R146) -/

/-- The walk resets the accounts without records that it comes to first. -/
theorem Depot.walk_append (l rest : List (Fin 64)) (d : Depot) (h : d.noCreditHold)
    (hl : ∀ x ∈ l, (d.account x).count = 0) : Depot.walk (l ++ rest) d = Depot.walk rest (d.resetAccounts l) := by
  induction l generalizing d with
  | nil => rfl
  | cons a l ih =>
    rw [List.cons_append, Depot.walk, if_pos (hl a List.mem_cons_self)]
    refine ih (d.resetAccount a) (by rw [d.resetAccount_eq a h]; exact h) fun x hx => ?_
    rw [d.resetAccount_eq a h, Depot.account_modifyAccount]
    split
    · rfl
    · exact hl x (List.mem_cons_of_mem _ hx)

/-- The accounts from an index upward, and below a later one. -/
theorem accountsFrom_cons (a : Fin 64) : accountsFrom a.val = a :: accountsFrom (a.val + 1) := by
  revert a
  decide

theorem mem_accountsFrom (n : Nat) (x : Fin 64) (h : x ∈ accountsFrom n) : n ≤ x.val := by
  unfold accountsFrom at h
  obtain ⟨i, hi, rfl⟩ := List.getElem_of_mem h
  simp

theorem mem_accountsFrom_iff (n : Nat) (x : Fin 64) : x ∈ accountsFrom n ↔ n ≤ x.val := by
  refine ⟨mem_accountsFrom n x, fun h => ?_⟩
  unfold accountsFrom
  rw [List.mem_drop_iff_getElem]
  exact ⟨x.val - n, by simp; omega, by apply Fin.ext; simp; omega⟩

theorem accountsFrom_split (n : Nat) (a : Fin 64) (h : n ≤ a.val) :
    accountsFrom n = (accountsFrom n).take (a.val - n) ++ accountsFrom a.val ∧
      ∀ x, x ∈ (accountsFrom n).take (a.val - n) ↔ n ≤ x.val ∧ x < a := by
  constructor
  · unfold accountsFrom
    have : (List.finRange 64).drop a.val = ((List.finRange 64).drop n).drop (a.val - n) := by
      rw [List.drop_drop]
      congr 1
      omega
    rw [this, List.take_append_drop]
  · intro x
    unfold accountsFrom
    rw [List.mem_iff_getElem]
    constructor
    · rintro ⟨i, hi, rfl⟩
      simp only [List.length_take, List.length_drop, List.length_finRange] at hi
      simp only [List.getElem_take, List.getElem_drop, List.getElem_finRange, Fin.lt_def, Fin.val_cast]
      omega
    · rintro ⟨h1, h2⟩
      have h3 : x.val < a.val := h2
      refine ⟨x.val - n, ?_, ?_⟩
      · simp only [List.length_take, List.length_drop, List.length_finRange]
        omega
      · apply Fin.ext
        simp only [List.getElem_take, List.getElem_drop, List.getElem_finRange, Fin.val_cast]
        omega

/-- The walk stops at the first account with records, which gets its claim (R146). -/
theorem Depot.walk_stops (n : Nat) (a : Fin 64) (d : Depot) (h : d.noCreditHold) (hn : n ≤ a.val)
    (hl : ∀ x : Fin 64, n ≤ x.val → x < a → (d.account x).count = 0) (ha : (d.account a).count ≠ 0) :
    Depot.walk (accountsFrom n) d =
      ((d.resetAccounts ((accountsFrom n).take (a.val - n))).modifyJournal
        fun j => { j with sweep := some a }).appendClaim (.sweep a) := by
  obtain ⟨h1, h2⟩ := accountsFrom_split n a hn
  conv_lhs => rw [h1]
  rw [Depot.walk_append _ _ d h fun x hx => hl x ((h2 x).1 hx).1 ((h2 x).1 hx).2, accountsFrom_cons]
  unfold Depot.walk
  rw [if_neg]
  have hm : a ∉ (accountsFrom n).take (a.val - n) := fun hx => lt_irrefl _ ((h2 a).1 hx).2
  rw [(Depot.resetAccounts_spec _ d h).2, if_neg hm]
  exact ha

/-- The walk ends where no account still to come has records (R146). -/
theorem Depot.walk_ends (n : Nat) (d : Depot) (h : d.noCreditHold)
    (hl : ∀ x : Fin 64, n ≤ x.val → (d.account x).count = 0) :
    Depot.walk (accountsFrom n) d =
      ((d.resetAccounts (accountsFrom n)).modifyJournal fun j => { j with sweep := none }).raise .periodClosed := by
  have := Depot.walk_append (accountsFrom n) [] d h fun x hx => hl x (mem_accountsFrom n x hx)
  rw [List.append_nil] at this
  exact this

/-- The walk to the first account with records, as one update. -/
theorem Depot.walk_stops_eq (n : Nat) (a : Fin 64) (d : Depot) (h : d.noCreditHold) (hn : n ≤ a.val)
    (hl : ∀ x : Fin 64, n ≤ x.val → x < a → (d.account x).count = 0) (ha : (d.account a).count ≠ 0) :
    ∃ accounts : Vector Account 64,
      Depot.walk (accountsFrom n) d =
        { d with
          charge := { d.charge with accounts := accounts }
          journal := { d.journal with sweep := some a, waiting := d.journal.waiting ++ [.sweep a] } } ∧
      ∀ x : Fin 64, accounts[x] =
        if n ≤ x.val ∧ x < a then (d.account x).zeroed d.journal.period else d.account x := by
  obtain ⟨h1, h2⟩ := Depot.resetAccounts_spec ((accountsFrom n).take (a.val - n)) d h
  obtain ⟨_, h4⟩ := accountsFrom_split n a hn
  refine ⟨_, (Depot.walk_stops n a d h hn hl ha).trans ?_, fun x => (h2 x).trans ?_⟩
  · rw [h1]
    rfl
  · by_cases hx : n ≤ x.val ∧ x < a
    · rw [if_pos hx, if_pos ((h4 x).2 hx)]
    · rw [if_neg hx, if_neg (mt (h4 x).1 hx)]

/-- The walk to the end, as one update. -/
theorem Depot.walk_ends_eq (n : Nat) (d : Depot) (h : d.noCreditHold)
    (hl : ∀ x : Fin 64, n ≤ x.val → (d.account x).count = 0) :
    ∃ accounts : Vector Account 64,
      Depot.walk (accountsFrom n) d =
        { d with
          charge := { d.charge with accounts := accounts }
          journal := { d.journal with sweep := none }
          notices := { d.notices with pending := d.notices.pending ||| 0x80#16 } } ∧
      ∀ x : Fin 64, accounts[x] = if n ≤ x.val then (d.account x).zeroed d.journal.period else d.account x := by
  obtain ⟨h1, h2⟩ := Depot.resetAccounts_spec (accountsFrom n) d h
  refine ⟨_, (Depot.walk_ends n d h hl).trans ?_, fun x => (h2 x).trans ?_⟩
  · rw [h1]
    rfl
  · by_cases hx : n ≤ x.val
    · rw [if_pos hx, if_pos ((mem_accountsFrom_iff n x).2 hx)]
    · rw [if_neg hx, if_neg (mt (mem_accountsFrom_iff n x).1 hx)]

/-! ## The judgement of the waiting list (R142, R147) -/

theorem Depot.admitUpTo_empty (now : Calendar) (n : Nat) (d : Depot) (h : d.journal.waiting = []) :
    d.admitUpTo now n = d := by
  cases n with
  | zero => rfl
  | succ n =>
    unfold Depot.admitUpTo
    rw [h]

/-- No claim is admitted where none waits or the oldest does not fit. -/
theorem Depot.judgeClaims_idle (now : Calendar) (d : Depot)
    (h : d.journal.waiting = [] ∨ ∃ c rest, d.journal.waiting = c :: rest ∧ 8 < d.journal.queue.length + c.size ∧
      d.journal.queue.length ≤ 8) : d.judgeClaims now = d := by
  rcases h with h | ⟨c, rest, h1, h2, h3⟩
  · exact Depot.admitUpTo_empty now _ d h
  · exact Depot.admitUpTo_stuck now _ d c rest h1 h2 h3

/-- The only waiting claim fits, and its admission leaves none waiting. -/
theorem Depot.judgeClaims_one (now : Calendar) (c : Claim) (d : Depot) (hw : d.journal.waiting = [c])
    (hs : c.size ≤ d.journal.room)
    (hn : ((d.modifyJournal fun j => { j with waiting := [] }).admitClaim now c).journal.waiting = []) :
    d.judgeClaims now = (d.modifyJournal fun j => { j with waiting := [] }).admitClaim now c := by
  unfold Depot.judgeClaims Config.insertionDepth Depot.admitUpTo
  rw [hw]
  dsimp only
  rw [if_pos hs]
  exact Depot.admitUpTo_empty now 7 _ hn

/-- The PERIOD_TOTAL record of an account (R147). -/
def Depot.totalOf (now : Calendar) (a : Fin 64) (d : Depot) : JournalRecord :=
  { composed := ⟨.periodTotal a (d.account a).haulier (d.account a).balance (d.account a).count, none, now⟩
    period := (d.account a).period }

/-- The only waiting claim is the sweep's, and it fits: its record enters the queue, the account is reset and the walk
goes on; then the claim that the walk places is judged (R147). -/
theorem Depot.judgeClaims_sweep (now : Calendar) (a : Fin 64) (d : Depot) (hw : d.journal.waiting = [.sweep a])
    (hq : d.journal.queue.length < 8) :
    d.judgeClaims now =
      Depot.admitUpTo now 7
        (((((d.modifyJournal fun j => { j with waiting := [] }).enqueue (d.totalOf now a)).resetAccount a).continueSweep
          (a.val + 1))) := by
  unfold Depot.judgeClaims Config.insertionDepth
  rw [Depot.admitUpTo, hw]
  dsimp only
  rw [if_pos]
  · rfl
  · show 1 ≤ 8 - d.journal.queue.length
    omega

/-! ## What sweeps can do where only sweep claims wait -/

/-- No session is held for credit, and only sweep claims wait. -/
structure Sweeping (d : Depot) : Prop where
  calm : d.noCreditHold
  claims : ∀ c ∈ d.journal.waiting, ∃ a, c = .sweep a

/-- The ring's indices, the next sequence value, the near-full percent and the word in flight are as before. -/
def Journal.sameRing (i j : Journal) : Prop :=
  i.head = j.head ∧ i.tail = j.tail ∧ i.nextSeq = j.nextSeq ∧ i.nearFull = j.nearFull ∧ i.writing = j.writing

theorem Journal.sameRing_refl (j : Journal) : j.sameRing j := ⟨rfl, rfl, rfl, rfl, rfl⟩

/-- What sweeps leave and what they add: the accounts' host fields and bindings, and all else but the journal's sweep,
claims and records and the cause PERIOD_CLOSED, are as before; the records added are PERIOD_TOTAL records. -/
structure Sweeps (d e : Depot) : Prop where
  eq : e =
    { d with
      charge := { d.charge with accounts := e.charge.accounts }
      journal := e.journal
      notices := { d.notices with pending := e.notices.pending } }
  ring : e.journal.sameRing d.journal
  accounts : ∀ a, ∃ balance count period,
    e.account a = { d.account a with balance := balance, count := count, period := period }
  records : ∃ more, e.journal.queue = d.journal.queue ++ more ∧ ∀ r ∈ more, r.composed.body.code = 4
  pending : ∀ c : Cause, e.notices.isPending c = true → d.notices.isPending c = true ∨ c = .periodClosed
  sweeping : Sweeping e

namespace Sweeps

theorem refl {d : Depot} (h : Sweeping d) : Sweeps d d :=
  ⟨rfl, Journal.sameRing_refl _, fun _ => ⟨_, _, _, rfl⟩, ⟨[], by simp, by simp⟩, fun _ h => Or.inl h, h⟩

theorem trans {d e f : Depot} (h : Sweeps d e) (k : Sweeps e f) : Sweeps d f where
  eq := by rw [k.eq, h.eq]
  ring := ⟨k.ring.1.trans h.ring.1, k.ring.2.1.trans h.ring.2.1, k.ring.2.2.1.trans h.ring.2.2.1,
    k.ring.2.2.2.1.trans h.ring.2.2.2.1, k.ring.2.2.2.2.trans h.ring.2.2.2.2⟩
  accounts a := by
    obtain ⟨_, _, _, h1⟩ := h.accounts a
    obtain ⟨_, _, _, h2⟩ := k.accounts a
    exact ⟨_, _, _, by rw [h2, h1]⟩
  records := by
    obtain ⟨m, h1, h2⟩ := h.records
    obtain ⟨n, k1, k2⟩ := k.records
    refine ⟨m ++ n, by rw [k1, h1, List.append_assoc], fun r hr => ?_⟩
    rcases List.mem_append.1 hr with hr | hr
    · exact h2 r hr
    · exact k2 r hr
  pending c hc := (k.pending c hc).elim (h.pending c) Or.inr
  sweeping := k.sweeping

/-- A change of the journal's period, sweep, pending boundary and claims. -/
theorem modifyJournal (f : Journal → Journal) {d : Depot} (h : Sweeping d)
    (hf : ∀ j, (f j).sameRing j) (hq : ∀ j, (f j).queue = j.queue)
    (hw : ∀ c ∈ (f d.journal).waiting, ∃ a, c = .sweep a) : Sweeps d (d.modifyJournal f) :=
  ⟨rfl, hf _, fun _ => ⟨_, _, _, rfl⟩, ⟨[], by rw [List.append_nil]; exact hq _, by simp⟩, fun _ h => Or.inl h,
    ⟨h.calm, hw⟩⟩

theorem resetAccount (a : Fin 64) {d : Depot} (h : Sweeping d) : Sweeps d (d.resetAccount a) := by
  rw [d.resetAccount_eq a h.calm]
  refine ⟨rfl, Journal.sameRing_refl _, fun x => ?_, ⟨[], by simp, by simp⟩, fun _ h => Or.inl h, h.calm, h.claims⟩
  rw [Depot.account_modifyAccount]
  split
  · exact ⟨_, _, _, rfl⟩
  · exact ⟨_, _, _, rfl⟩

theorem raiseClosed {d : Depot} (h : Sweeping d) : Sweeps d (d.raise .periodClosed) := by
  refine ⟨rfl, Journal.sameRing_refl _, fun _ => ⟨_, _, _, rfl⟩, ⟨[], by simp, by simp⟩, fun c hc => ?_,
    h.calm, h.claims⟩
  have hb : (d.notices.pending.getLsbD c.position || (Cause.only .periodClosed).getLsbD c.position) = true := by
    rw [← BitVec.getLsbD_or]
    exact hc
  rw [Bool.or_eq_true] at hb
  rcases hb with hb | hb
  · exact Or.inl hb
  · revert hb
    cases c <;> simp [Cause.only, Cause.position]

/-- A claim of the sweep, with its pointer. -/
theorem claim (a : Fin 64) {d : Depot} (h : Sweeping d) :
    Sweeps d ((d.modifyJournal fun j => { j with sweep := some a }).appendClaim (.sweep a)) := by
  have h1 : Sweeps d (d.modifyJournal fun j => { j with sweep := some a }) :=
      modifyJournal _ h Journal.sameRing_refl (fun _ => rfl) h.claims
  refine h1.trans (modifyJournal (fun j => { j with waiting := j.waiting ++ [.sweep a] }) h1.sweeping
    Journal.sameRing_refl (fun _ => rfl) ?_)
  intro c hc
  rcases List.mem_append.1 hc with hc | hc
  · exact h1.sweeping.claims c hc
  · exact ⟨a, List.mem_singleton.1 hc⟩

theorem walk (l : List (Fin 64)) {d : Depot} (h : Sweeping d) : Sweeps d (Depot.walk l d) := by
  induction l generalizing d with
  | nil =>
    have h1 : Sweeps d (d.modifyJournal fun j => { j with sweep := none }) :=
      modifyJournal _ h Journal.sameRing_refl (fun _ => rfl) h.claims
    exact h1.trans (raiseClosed h1.sweeping)
  | cons a l ih =>
    unfold Depot.walk
    split
    · have h1 := resetAccount a h
      exact h1.trans (ih h1.sweeping)
    · exact claim a h

theorem beginPeriod {d : Depot} (h : Sweeping d) : Sweeps d d.beginPeriod := by
  have h1 : Sweeps d (d.modifyJournal fun j => { j with period := j.period + 1, sweep := some 0 }) :=
    
      modifyJournal _ h Journal.sameRing_refl (fun _ => rfl) h.claims
  exact h1.trans (walk _ h1.sweeping)

theorem continueSweep (n : Nat) {d : Depot} (h : Sweeping d) : Sweeps d (d.continueSweep n) := by
  have h1 := walk (accountsFrom n) h
  unfold Depot.continueSweep
  dsimp only
  split
  · have h2 : Sweeps (Depot.walk (accountsFrom n) d)
        ((Depot.walk (accountsFrom n) d).modifyJournal fun j => { j with boundaryPending := false }) :=
      modifyJournal _ h1.sweeping Journal.sameRing_refl (fun _ => rfl) h1.sweeping.claims
    exact (h1.trans h2).trans (beginPeriod h2.sweeping)
  · exact h1

/-- A PERIOD_TOTAL record that joins the queue. -/
theorem enqueue (r : JournalRecord) {d : Depot} (h : Sweeping d) (hr : r.composed.body.code = 4) :
    Sweeps d (d.enqueue r) :=
  ⟨rfl, Journal.sameRing_refl _, fun _ => ⟨_, _, _, rfl⟩, ⟨[r], rfl, by simpa using hr⟩,
    fun _ h => Or.inl h, ⟨h.calm, h.claims⟩⟩

theorem admitUpTo (now : Calendar) (n : Nat) {d : Depot} (h : Sweeping d) : Sweeps d (d.admitUpTo now n) := by
  induction n generalizing d with
  | zero => exact refl h
  | succ n ih =>
    unfold Depot.admitUpTo
    split
    · exact refl h
    · rename_i c rest hw
      split
      · have h1 : Sweeps d (d.modifyJournal fun j => { j with waiting := rest }) :=
          modifyJournal _ h Journal.sameRing_refl (fun _ => rfl) fun x hx =>
            h.claims x (by rw [hw]; exact List.mem_cons_of_mem _ hx)
        obtain ⟨a, rfl⟩ := h.claims c (by rw [hw]; exact List.mem_cons_self)
        have h2 : Sweeps (d.modifyJournal fun j => { j with waiting := rest })
            ((d.modifyJournal fun j => { j with waiting := rest }).admitClaim now (.sweep a)) := by
          have k1 := enqueue
            { composed :=
                ⟨.periodTotal a (d.account a).haulier (d.account a).balance (d.account a).count, none, now⟩
              period := (d.account a).period } h1.sweeping rfl
          have k2 := resetAccount a k1.sweeping
          exact (k1.trans k2).trans (continueSweep _ k2.sweeping)
        exact (h1.trans h2).trans (ih h2.sweeping)
      · exact refl h

theorem judgeClaims (now : Calendar) {d : Depot} (h : Sweeping d) : Sweeps d (d.judgeClaims now) := admitUpTo _ _ h

theorem resumeSweep (now : Calendar) {d : Depot} (h : Sweeping d) : Sweeps d (d.resumeSweep now) := by
  unfold Depot.resumeSweep
  split
  · rename_i a _
    have k := continueSweep a.val h
    exact k.trans (judgeClaims _ k.sweeping)
  · exact refl h

end Sweeps

/-! ## Accounts that a sweep has passed (R146, R151) -/

/-- No boundary is pending, and only claims for accounts from `n` upward wait. -/
structure Above (n : Nat) (d : Depot) : Prop where
  calm : d.noCreditHold
  idle : d.journal.boundaryPending = false
  claims : ∀ c ∈ d.journal.waiting, ∃ a : Fin 64, n ≤ a.val ∧ c = .sweep a

/-- What a sweep of the accounts from `n` upward leaves: the accounts below `n`, and the period. -/
structure KeepsBelow (n : Nat) (d e : Depot) : Prop where
  accounts : ∀ x : Fin 64, x.val < n → e.account x = d.account x
  period : e.journal.period = d.journal.period
  above : Above n e

namespace KeepsBelow

theorem refl {n : Nat} {d : Depot} (h : Above n d) : KeepsBelow n d d := ⟨fun _ _ => rfl, rfl, h⟩

theorem trans {n : Nat} {d e f : Depot} (h : KeepsBelow n d e) (k : KeepsBelow n e f) : KeepsBelow n d f :=
  ⟨fun x hx => (k.accounts x hx).trans (h.accounts x hx), k.period.trans h.period, k.above⟩

theorem resetAccount {n : Nat} (a : Fin 64) {d : Depot} (h : Above n d) (ha : n ≤ a.val) :
    KeepsBelow n d (d.resetAccount a) := by
  rw [d.resetAccount_eq a h.calm]
  refine ⟨fun x hx => ?_, rfl, h.calm, h.idle, h.claims⟩
  rw [Depot.account_modifyAccount, if_neg]
  rintro rfl
  omega

theorem walk {n : Nat} (l : List (Fin 64)) {d : Depot} (h : Above n d) (hl : ∀ x ∈ l, n ≤ x.val) :
    KeepsBelow n d (Depot.walk l d) := by
  induction l generalizing d with
  | nil => exact ⟨fun _ _ => rfl, rfl, h.calm, h.idle, h.claims⟩
  | cons a l ih =>
    have ha := hl a List.mem_cons_self
    unfold Depot.walk
    split
    · have h1 := resetAccount a h ha
      exact h1.trans (ih h1.above fun x hx => hl x (List.mem_cons_of_mem _ hx))
    · refine ⟨fun _ _ => rfl, rfl, h.calm, h.idle, fun c hc => ?_⟩
      rcases List.mem_append.1 hc with hc | hc
      · exact h.claims c hc
      · exact ⟨a, ha, List.mem_singleton.1 hc⟩

theorem continueSweep {n : Nat} (m : Nat) {d : Depot} (h : Above n d) (hm : n ≤ m) :
    KeepsBelow n d (d.continueSweep m) := by
  have h1 := walk (accountsFrom m) h fun x hx => hm.trans (mem_accountsFrom m x hx)
  unfold Depot.continueSweep
  dsimp only
  rw [if_neg (by rw [h1.above.idle]; simp)]
  exact h1

theorem admitUpTo {n : Nat} (now : Calendar) (k : Nat) {d : Depot} (h : Above n d) :
    KeepsBelow n d (d.admitUpTo now k) := by
  induction k generalizing d with
  | zero => exact refl h
  | succ k ih =>
    unfold Depot.admitUpTo
    split
    · exact refl h
    · rename_i c rest hw
      split
      · obtain ⟨a, ha, rfl⟩ := h.claims c (by rw [hw]; exact List.mem_cons_self)
        have h1 : Above n ((d.modifyJournal fun j => { j with waiting := rest }).enqueue
            { composed :=
                ⟨.periodTotal a (d.account a).haulier (d.account a).balance (d.account a).count, none, now⟩
              period := (d.account a).period }) :=
          ⟨h.calm, h.idle, fun x hx => h.claims x (by rw [hw]; exact List.mem_cons_of_mem _ hx)⟩
        have h2 := resetAccount a h1 ha
        have h3 := continueSweep (a.val + 1) h2.above (by omega)
        have h4 : KeepsBelow n d
            ((d.modifyJournal fun j => { j with waiting := rest }).admitClaim now (.sweep a)) :=
          ⟨fun x hx => (h2.trans h3).accounts x hx, (h2.trans h3).period, h3.above⟩
        exact h4.trans (ih h4.above)
      · exact refl h

end KeepsBelow

end Sys2Proof.Machine
end

