-- ==== Sys2Proof/Laws/Boundaries.lean ====
section
/-!
SUPPORT. The half-second tick where no timer expires (08, sections 8.1 and 8.2): the advance of the calendar as a
relation, which boundary fires, and the tick as its boundaries alone.
-/

namespace Sys2Proof.Machine

open Sys2Proof

/-! ## The advance of the calendar (R155, R158) -/

theorem monthDays_eq (y m : Nat) : monthDays y m = monthLength y m := by
  unfold monthDays monthLength isLeap
  split <;> rename_i h
  · subst h
    simp only [Bool.and_eq_true, beq_iff_eq, bne_iff_ne]
  · split <;> rename_i h2
    · rcases h2 with rfl | rfl | rfl | rfl <;> rfl
    · split <;> simp_all

theorem halfSecondLater_tick {c n : Calendar} (h : halfSecondLater c n) : n = c.tick := by
  unfold halfSecondLater at h
  unfold Calendar.tick Calendar.nextDay
  rcases h with ⟨h, rfl⟩ | ⟨h, h1, rfl⟩ | ⟨h, h1, h2, rfl⟩ | ⟨h, h1, h2, ⟨h3, rfl⟩ | ⟨h3, h4⟩⟩
  · rw [if_pos h]
  · rw [if_neg (by omega), if_pos h1]
  · rw [if_neg (by omega), if_neg (by omega), if_pos h2]
  · rw [if_neg (by omega), if_neg (by omega), if_neg (by omega), if_pos h3]
  · rw [if_neg (by omega), if_neg (by omega), if_neg (by omega), if_neg (by omega)]
    dsimp only
    rcases h4 with ⟨h4, rfl⟩ | ⟨h4, h5, rfl⟩ | ⟨h4, h5, h6, rfl⟩ | ⟨h4, h5, h6, rfl⟩
    · rw [monthDays_eq] at h4
      rw [if_pos h4]
    · rw [monthDays_eq] at h4
      rw [if_neg (by omega), if_pos h5]
    · have : monthLength c.year c.month = 31 := by
        rw [h5]
        rfl
      rw [if_neg (by omega), if_neg (by omega), if_pos h6]
    · have : monthLength c.year c.month = 31 := by
        rw [h5]
        rfl
      rw [if_neg (by omega), if_neg (by omega), if_neg (by omega)]

theorem halfSecondLater_of_sound {c : Calendar} (h : c.sound) : halfSecondLater c c.tick := by
  obtain ⟨hv, _⟩ := h
  simp only [Calendar.valid, validDate, validTime, Bool.and_eq_true, decide_eq_true_eq] at hv
  unfold halfSecondLater
  by_cases h0 : c.half = 0
  · exact Or.inl ⟨h0, by unfold Calendar.tick; rw [if_pos h0]⟩
  · have h1 : c.half = 1 := by omega
    refine Or.inr ?_
    by_cases h2 : c.second < 59
    · exact Or.inl ⟨h1, h2, by unfold Calendar.tick; rw [if_neg h0, if_pos h2]⟩
    · refine Or.inr ?_
      by_cases h3 : c.minute < 59
      · exact Or.inl ⟨h1, by omega, h3, by unfold Calendar.tick; rw [if_neg h0, if_neg h2, if_pos h3]⟩
      · refine Or.inr ⟨h1, by omega, by omega, ?_⟩
        by_cases h4 : c.hour < 23
        · exact Or.inl ⟨h4, by unfold Calendar.tick; rw [if_neg h0, if_neg h2, if_neg h3, if_pos h4]⟩
        · refine Or.inr ⟨by omega, ?_⟩
          have e : c.tick = c.nextDay := by
            unfold Calendar.tick
            rw [if_neg h0, if_neg h2, if_neg h3, if_neg h4]
          rw [e]
          unfold Calendar.nextDay
          rw [monthDays_eq]
          by_cases h5 : c.day < monthLength c.year c.month
          · exact Or.inl ⟨h5, by rw [if_pos h5]⟩
          · refine Or.inr ?_
            by_cases h6 : c.month < 12
            · exact Or.inl ⟨by omega, h6, by rw [if_neg h5, if_pos h6]⟩
            · refine Or.inr ?_
              have hm : c.month = 12 := by omega
              have h7 : monthLength c.year c.month = 31 := by
                rw [hm]
                rfl
              by_cases h8 : c.year < 2147
              · exact Or.inl ⟨by omega, hm, h8, by rw [if_neg h5, if_neg h6, if_pos h8]⟩
              · exact Or.inr ⟨by omega, hm, by omega, by rw [if_neg h5, if_neg h6, if_neg h8]⟩

/-! ## Which boundary fires (R164) -/

theorem CalendarUnit.quotaDayFires_iff (u : CalendarUnit) : u.quotaDayFires = true ↔ u.quotaDayAt u.now := by
  unfold CalendarUnit.quotaDayFires CalendarUnit.quotaDayAt Calendar.onHour Calendar.atHour
  simp only [Bool.and_eq_true, beq_iff_eq]
  tauto

theorem CalendarUnit.periodFires_iff (u : CalendarUnit) : u.periodFires = true ↔ u.periodAt u.now := by
  unfold CalendarUnit.periodFires CalendarUnit.periodAt Calendar.onHour Calendar.atHour
  simp only [Bool.and_eq_true, Bool.or_eq_true, beq_iff_eq]
  tauto

/-! ## The tick where no timer expires (R159) -/

/-- No expiry is due. -/
def Depot.noneDue (d : Depot) : Prop :=
  (∀ b : Fin 8, (d.bay b).silence ≠ some 0 ∧ (d.bay b).hold ≠ some 0) ∧ d.water.qualityTimer ≠ some 0

theorem Part.expireAll_idle (l : List Timer) (p : Part) (h : p.depot.noneDue) : p.expireAll l = p := by
  unfold Part.expireAll
  induction l with
  | nil => rfl
  | cons t l ih =>
    rw [List.foldl_cons]
    have : p.expire t = p := by
      unfold Part.expire
      rw [if_neg]
      cases t with
      | silence b => simpa [Depot.expiryDue] using (h.1 b).1
      | hold b => simpa [Depot.expiryDue] using (h.1 b).2
      | quality => simpa [Depot.expiryDue] using h.2
    rw [this]
    exact ih

theorem Part.advance_noneDue (s : State) (h : s.timersRunOn) : s.part.begin.advance.depot.noneDue := by
  have key : ∀ t : Option Nat, timerRunsOn t → tickTimer t ≠ some 0 := by
    rintro (_ | n) ⟨a, b⟩
    · simp [tickTimer]
    · simp only [tickTimer, Option.map_some, ne_eq, Option.some.injEq] at a b ⊢
      omega
  refine ⟨fun b => ?_, key _ h.2⟩
  have : s.part.begin.advance.depot.bay b = (s.part.depot.bay b).tick := by
    unfold Part.advance Depot.tickTimers Depot.bay
    simp
  rw [this]
  exact ⟨key _ (h.1 b).1, key _ (h.1 b).2⟩

theorem Part.advance_ticked (s : State) : s.part.begin.advance = s.part.ticked s.part.calendar.now.tick := rfl

/-- A tick where no timer expires is its boundaries alone. -/
theorem Part.tick_quiet (s : State) (o : TickOrder) (n : Calendar) (hn : halfSecondLater s.part.calendar.now n)
    (h : s.timersRunOn) : s.part.begin.tick o = (s.part.ticked n).boundaries o ∧ (s.part.ticked n).depot.noneDue := by
  have h0 : s.part.begin.depot.noneDue :=
    ⟨fun b => ⟨(h.1 b).1.1, (h.1 b).2.1⟩, h.2.1⟩
  have h1 := Part.advance_noneDue s h
  have e := halfSecondLater_tick hn
  subst e
  rw [← Part.advance_ticked]
  refine ⟨?_, h1⟩
  unfold Part.tick
  rw [Part.expireAll_idle _ _ h0, Part.expireAll_idle _ _ h1, Part.expireAll_idle _ _ h1]

/-- No boundary fires. -/
theorem Part.boundaries_none (p : Part) (o : TickOrder) (hd : p.depot.noneDue)
    (hq : ¬ p.calendar.quotaDayAt p.calendar.now) (hp : ¬ p.calendar.periodAt p.calendar.now) : p.boundaries o = p := by
  have e1 : p.quotaDay = p := by
    unfold Part.quotaDay
    rw [if_neg (mt p.calendar.quotaDayFires_iff.1 hq)]
  have e2 : p.periodEnd = p := by
    unfold Part.periodEnd
    rw [if_neg (mt p.calendar.periodFires_iff.1 hp)]
  unfold Part.boundaries
  split
  · rw [e2, Part.expireAll_idle _ _ hd, e1]
  · rw [e1, Part.expireAll_idle _ _ hd, e2]

/-- The quota-day boundary alone fires. -/
theorem Part.boundaries_quotaDay (p : Part) (o : TickOrder) (hd : p.depot.noneDue)
    (hd2 : (p.onTick Depot.quotaBoundary).depot.noneDue) (hq : p.calendar.quotaDayAt p.calendar.now)
    (hp : ¬ p.calendar.periodAt p.calendar.now) : p.boundaries o = p.onTick Depot.quotaBoundary := by
  have e1 : p.quotaDay = p.onTick Depot.quotaBoundary := by
    unfold Part.quotaDay
    rw [if_pos (p.calendar.quotaDayFires_iff.2 hq)]
  have e2 : p.periodEnd = p := by
    unfold Part.periodEnd
    rw [if_neg (mt p.calendar.periodFires_iff.1 hp)]
  have e3 : (p.onTick Depot.quotaBoundary).periodEnd = p.onTick Depot.quotaBoundary := by
    unfold Part.periodEnd
    exact if_neg (mt p.calendar.periodFires_iff.1 hp)
  unfold Part.boundaries
  split
  · rw [e2, Part.expireAll_idle _ _ hd, e1]
  · rw [e1, Part.expireAll_idle _ _ hd2, e3]

/-- The period boundary alone fires. -/
theorem Part.boundaries_period (p : Part) (o : TickOrder) (hd : p.depot.noneDue)
    (hd2 : (p.onTick Depot.periodBoundary).depot.noneDue) (hq : ¬ p.calendar.quotaDayAt p.calendar.now)
    (hp : p.calendar.periodAt p.calendar.now) : p.boundaries o = p.onTick Depot.periodBoundary := by
  have e1 : p.periodEnd = p.onTick Depot.periodBoundary := by
    unfold Part.periodEnd
    rw [if_pos (p.calendar.periodFires_iff.2 hp)]
  have e2 : p.quotaDay = p := by
    unfold Part.quotaDay
    rw [if_neg (mt p.calendar.quotaDayFires_iff.1 hq)]
  have e3 : (p.onTick Depot.periodBoundary).quotaDay = p.onTick Depot.periodBoundary := by
    unfold Part.quotaDay
    exact if_neg (mt p.calendar.quotaDayFires_iff.1 hq)
  unfold Part.boundaries
  split
  · rw [e1, Part.expireAll_idle _ _ hd2, e3]
  · rw [e2, Part.expireAll_idle _ _ hd, e1]

/-- The new day as one update (R108). -/
theorem Depot.startDay_eq (d : Depot) (stage : Stage) (h : stageOf 0 d.water.quota d.water.percent = stage) :
    d.startDay =
      { d with
        water := { d.water with totals := {}, unattributed := Vector.replicate 8 {}, stage := stage }
        notices := { d.notices with
          pending := d.notices.pending ||| if stage = d.water.stage then 0 else 0x200#16 } } := by
  have key : ∀ p q : Causes, ∀ c : Prop, ∀ _ : Decidable c, (if c then p else p ||| q) = p ||| if c then 0 else q := by
    intro p q c _
    split
    · exact (BitVec.or_zero).symm
    · rfl
  unfold Depot.startDay
  rw [Depot.evaluateStage_eq, key]
  subst h
  rfl

/-- A change of the units behind the bus that leaves the timers leaves no expiry due. -/
theorem Depot.noneDue_congr {d e : Depot} (h : d.noneDue) (hs : e.sessions = d.sessions)
    (hw : e.water.qualityTimer = d.water.qualityTimer) : e.noneDue := by
  refine ⟨fun b => ?_, by rw [hw]; exact h.2⟩
  have : e.bay b = d.bay b := by
    unfold Depot.bay
    rw [hs]
  rw [this]
  exact h.1 b

/-- The same through an event of the tick. -/
theorem Part.onTick_noneDue {p : Part} {f : Calendar → Depot → Depot} (h : p.depot.noneDue)
    (hs : (f p.calendar.tickStamp p.depot).sessions = p.depot.sessions)
    (hw : (f p.calendar.tickStamp p.depot).water.qualityTimer = p.depot.water.qualityTimer) :
    (p.onTick f).depot.noneDue := by
  obtain ⟨q, w, hj, _⟩ := Depot.startWrite_frame p.path.ring (f p.calendar.tickStamp p.depot)
  refine Depot.noneDue_congr h ?_ ?_
  · show ((f p.calendar.tickStamp p.depot).startWrite p.path.ring).sessions = _
    rw [hj]
    exact hs
  · show ((f p.calendar.tickStamp p.depot).startWrite p.path.ring).water.qualityTimer = _
    rw [hj]
    exact hw

end Sys2Proof.Machine
end

