-- ==== Sys2Proof/Laws/Walker.lean ====
section
/-!
SUPPORT. The directory walker (03, sections 3.3 and 3.4): what a slot read reports, what an outcome leaves of its
session and account, what a snoop leaves of the cache, and the one lemma of the slot read's command.
-/

namespace Sys2Proof.Machine

open Sys2Proof

/-! ## The report of a slot read (R177, R180) -/

theorem Memory.slotFails_iff (m : Memory) (a : Nat) :
    m.slotFails a = true ↔ ∃ i : Fin 4, m.wordFails (a / 4 + i.val) ≠ none := by
  unfold Memory.slotFails
  rw [List.any_eq_true]
  constructor
  · rintro ⟨i, hi, h⟩
    exact ⟨⟨i, by simpa using hi⟩, by simpa [Option.isSome_iff_ne_none] using h⟩
  · rintro ⟨i, h⟩
    exact ⟨i.val, by simp, by simpa [Option.isSome_iff_ne_none] using h⟩

theorem Part.reportParity_frame (addr : Addr) (found : Option Halves) (k : ParityAccess) (req : Option Requester)
    (p : Part) :
    p.reportParity addr found k req =
        { p with
          store := (p.reportParity addr found k req).store
          depot := { p.depot with
            notices := { p.depot.notices with pending := (p.reportParity addr found k req).depot.notices.pending } } } ∧
      (p.reportParity addr found k req).store.grant = p.store.grant ∧
      (found = none → p.reportParity addr found k req = p) ∧
      (p.depot.notices.isPending .storeParity = true ∨ found ≠ none →
        (p.reportParity addr found k req).depot.notices.isPending .storeParity = true) := by
  cases found with
  | none => exact ⟨rfl, rfl, fun _ => rfl, fun h => h.resolve_right fun x => x rfl⟩
  | some x =>
    refine ⟨rfl, rfl, fun h => (nomatch h), fun _ => ?_⟩
    show BitVec.getLsbD (p.depot.notices.pending ||| 0x1000#16) 12 = true
    rw [BitVec.getLsbD_or]
    simp

/-- The report of a list of words of a slot. -/
def Part.reportWords (m : Memory) (a : Nat) (l : List Nat) (p : Part) : Part :=
  l.foldl (fun q i => q.reportParity (BitVec.ofNat 24 (a + 4 * i)) (m.wordFails (a / 4 + i)) .walker none) p

theorem Part.reportWords_frame (m : Memory) (a : Nat) (l : List Nat) (p : Part) :
    p.reportWords m a l =
        { p with
          store := (p.reportWords m a l).store
          depot := { p.depot with
            notices := { p.depot.notices with pending := (p.reportWords m a l).depot.notices.pending } } } ∧
      (p.reportWords m a l).store.grant = p.store.grant ∧
      ((∀ i ∈ l, m.wordFails (a / 4 + i) = none) → p.reportWords m a l = p) ∧
      ((p.depot.notices.isPending .storeParity = true ∨ ∃ i ∈ l, m.wordFails (a / 4 + i) ≠ none) →
        (p.reportWords m a l).depot.notices.isPending .storeParity = true) := by
  induction l generalizing p with
  | nil => exact ⟨rfl, rfl, fun _ => rfl, fun h => h.resolve_right (by simp)⟩
  | cons i l ih =>
    obtain ⟨f1, f2, f3, f4⟩ :=
      p.reportParity_frame (BitVec.ofNat 24 (a + 4 * i)) (m.wordFails (a / 4 + i)) .walker none
    obtain ⟨h1, h2, h3, h4⟩ :=
      ih (p.reportParity (BitVec.ofNat 24 (a + 4 * i)) (m.wordFails (a / 4 + i)) .walker none)
    have e : p.reportWords m a (i :: l) =
        (p.reportParity (BitVec.ofNat 24 (a + 4 * i)) (m.wordFails (a / 4 + i)) .walker none).reportWords m a l := rfl
    rw [e]
    refine ⟨h1.trans ?_, h2.trans f2, fun h => ?_, fun h => h4 ?_⟩
    · unfold Part.reportParity
      split <;> rfl
    · exact (h3 fun j hj => h j (List.mem_cons_of_mem _ hj)).trans (f3 (h i List.mem_cons_self))
    · rcases h with h | ⟨j, hj, h⟩
      · exact Or.inl (f4 (Or.inl h))
      · rw [List.mem_cons] at hj
        rcases hj with rfl | hj
        · exact Or.inl (f4 (Or.inr h))
        · exact Or.inr ⟨j, hj, h⟩

/-- What the report of a slot read touches: the parity error latch and the pending set; nothing where no word fails, and
STORE_PARITY is pending where one does. -/
theorem Part.reportSlot_frame (m : Memory) (a : Nat) (p : Part) :
    p.reportSlot m a =
        { p with
          store := (p.reportSlot m a).store
          depot := { p.depot with
            notices := { p.depot.notices with pending := (p.reportSlot m a).depot.notices.pending } } } ∧
      (p.reportSlot m a).store.grant = p.store.grant ∧
      (m.slotFails a = false → p.reportSlot m a = p) ∧
      (m.slotFails a = true → (p.reportSlot m a).depot.notices.isPending .storeParity = true) := by
  obtain ⟨h1, h2, h3, h4⟩ := p.reportWords_frame m a (List.range 4)
  refine ⟨h1, h2, fun h => h3 fun i hi => ?_, fun h => h4 (Or.inr ?_)⟩
  · by_contra hn
    have : m.slotFails a = true := (m.slotFails_iff a).2 ⟨⟨i, by simpa using hi⟩, hn⟩
    rw [h] at this
    cases this
  · obtain ⟨i, hi⟩ := (m.slotFails_iff a).1 h
    exact ⟨i.val, by simp, hi⟩

/-- What a full or an empty latch takes of the words of a slot that fail, told one by one (R180). -/
theorem Part.reportWords_latch (m : Memory) (a : Nat) (l : List Nat) (p : Part) (r : ParityRecord)
    (hr : p.store.latch = some r) (hp : p.depot.notices.pending ||| 0x1000#16 = p.depot.notices.pending) :
    p.reportWords m a l =
      { p with store := { p.store with
        latch := some { r with more := r.more || l.any fun i => (m.wordFails (a / 4 + i)).isSome } } } := by
  induction l generalizing p r with
  | nil =>
    simp only [List.any_nil, Bool.or_false]
    rw [← hr]
    rfl
  | cons i l ih =>
    show (p.reportParity _ (m.wordFails (a / 4 + i)) .walker none).reportWords m a l = _
    cases hw : m.wordFails (a / 4 + i) with
    | none =>
      rw [show p.reportParity (BitVec.ofNat 24 (a + 4 * i)) none .walker none = p from rfl, ih p r hr hp]
      simp [hw]
    | some h =>
      have e : p.reportParity (BitVec.ofNat 24 (a + 4 * i)) (some h) .walker none =
          { p with store := { p.store with latch := some { r with more := true } } } := by
        have : p.depot.raise .storeParity = p.depot := by
          show ({ p.depot with
            notices := { p.depot.notices with pending := p.depot.notices.pending ||| 0x1000#16 } } : Depot) = _
          rw [hp]
        unfold Part.reportParity Part.parityError Part.raise
        dsimp only
        rw [this, hr]
      rw [e, ih { p with store := { p.store with latch := some { r with more := true } } } { r with more := true } rfl
        hp]
      simp [hw]

/-- What a slot read reports. -/
theorem Part.slotReported_reportSlot (m : Memory) (a : Nat) (p : Part) : p.slotReported m a (p.reportSlot m a) := by
  refine ⟨fun h => (p.reportSlot_frame m a).2.2.1 ?_, fun i halves hi hl => ?_⟩
  · rw [← Bool.not_eq_true, m.slotFails_iff]
    rintro ⟨i, k⟩
    exact k (h i)
  · have hsplit : ∀ i : Fin 4, List.range 4 = List.range i.val ++ i.val :: (List.range 4).drop (i.val + 1) := by decide
    have hmem : ∀ i k : Fin 4, k.val ∈ (List.range 4).drop (i.val + 1) ↔ i < k := by decide
    have hlow : (p.reportWords m a (List.range i.val)) = p := (p.reportWords_frame m a _).2.2.1 fun k hk => by
      have hk' : k < i.val := by simpa using hk
      exact hl ⟨k, by omega⟩ hk'
    have hmore : ((List.range 4).drop (i.val + 1)).any (fun k => (m.wordFails (a / 4 + k)).isSome) =
        Decidable.decide (∃ k : Fin 4, i < k ∧ m.wordFails (a / 4 + k.val) ≠ none) := by
      rw [Bool.eq_iff_iff, List.any_eq_true, decide_eq_true_eq]
      constructor
      · rintro ⟨k, hk, h⟩
        have h4 : k < 4 := by simpa using List.mem_of_mem_drop hk
        exact ⟨⟨k, h4⟩, (hmem i ⟨k, h4⟩).1 hk, by simpa [Option.isSome_iff_ne_none] using h⟩
      · rintro ⟨k, hk, h⟩
        exact ⟨k.val, (hmem i k).2 hk, by simpa [Option.isSome_iff_ne_none] using h⟩
    have hR : p.reportSlot m a =
        (p.parityError (BitVec.ofNat 24 (a + 4 * i.val)) halves .walker none).reportWords m a
          ((List.range 4).drop (i.val + 1)) := by
      show p.reportWords m a (List.range 4) = _
      rw [hsplit i]
      unfold Part.reportWords at hlow ⊢
      rw [List.foldl_append, hlow, List.foldl_cons, hi]
      rw [← hsplit i]
      rfl
    have hlat : (p.parityError (BitVec.ofNat 24 (a + 4 * i.val)) halves .walker none).store.latch =
        some (match p.store.latch with
          | none => ⟨BitVec.ofNat 24 (a + 4 * i.val), halves, .walker, none, false⟩
          | some r => { r with more := true }) := by
      unfold Part.parityError
      cases p.store.latch <;> rfl
    rw [hR, Part.reportWords_latch m a _ _ _ hlat (by
      show p.depot.notices.pending ||| 0x1000#16 ||| 0x1000#16 = p.depot.notices.pending ||| 0x1000#16
      rw [BitVec.or_assoc, BitVec.or_self]), hmore]
    unfold Part.parityError Part.withPending Part.raise Depot.raise Notices.raise
    cases p.store.latch <;> simp [Cause.only, Cause.position]

/-! ## An outcome (R55, R56, R63, R66, R118) -/

theorem Depot.duplicate_iff (d : Depot) (b : Fin 8) (t : Tag) : d.duplicate b t = true ↔
    ∃ c : Fin 8, c ≠ b ∧ ((d.session c).state = .admitted ∨ (d.session c).state = .washing) ∧
      (d.session c).tag = t := by
  unfold Depot.duplicate
  rw [List.any_eq_true]
  constructor
  · rintro ⟨c, _, h⟩
    simp only [Depot.holds, SessionState.active, Bool.and_eq_true, Bool.or_eq_true, beq_iff_eq, bne_iff_ne] at h
    exact ⟨c, h⟩
  · rintro ⟨c, h⟩
    refine ⟨c, (by decide : ∀ c : Fin 8, c ∈ allBays) c, ?_⟩
    simp only [Depot.holds, SessionState.active, Bool.and_eq_true, Bool.or_eq_true, beq_iff_eq, bne_iff_ne]
    exact h

theorem Account.onHold_iff (a : Account) :
    a.onHold = true ↔ a.manualHold = true ∨ (0 < a.limit ∧ a.limit ≤ a.balance) := by
  simp [Account.onHold]

theorem Depot.judge_eq (d : Depot) (b : Fin 8) (t : Tag) (a : Fin 64) :
    d.judge b t a = match d.holdOf b t false a with
      | none => .admitted
      | some r => .held r := by
  unfold Depot.judge Depot.holdOf
  simp only [d.duplicate_iff, Account.onHold_iff, Bool.false_eq_true, if_false]
  by_cases h1 : (d.account a).valid = false
  · simp [h1]
  · simp only [h1]
    repeat' split
    all_goals simp_all

theorem Depot.evaluate_eq (d : Depot) (b : Fin 8) (t : Tag) (barred : Bool) (a : Fin 64) :
    d.evaluate b t barred a = match d.holdOf b t barred a with
      | none => .admitted
      | some r => .held r := by
  unfold Depot.evaluate
  cases barred with
  | true => rfl
  | false =>
    simp only [Bool.false_eq_true, if_false]
    exact d.judge_eq b t a

/-- Entry into HELD as one update of its bay (R67, R79). -/
theorem Depot.enterHeld_eq (b : Fin 8) (r : HoldReason) (d : Depot) :
    d.enterHeld b r =
      { d with
        sessions := { d.sessions with
          bays := d.sessions.bays.set b
            { d.bay b with
              session := { d.session b with state := .held, hold := some r }
              hold := some (2 * d.sessions.holdLimit) } }
        notices := { d.notices with pending := d.notices.pending ||| 8#16 } } := rfl

/-- An outcome that carries an account, as one update: of its bay, of the open counts and of the pending set (R63, R66,
R67). -/
theorem Depot.takeVerdict_eq (b : Fin 8) (a : Fin 64) (cls : Fin 4) (hold : Option HoldReason) (v : Verdict)
    (d : Depot) (hv : v = match hold with
      | none => .admitted
      | some r => .held r) :
    ∃ accounts : Vector Account 64,
      d.takeVerdict b (some (a, cls)) v =
        { d with
          sessions := { d.sessions with
            bays := d.sessions.bays.set b
              { d.bay b with
                session := { d.session b with
                  state := if hold = none then .admitted else .held
                  hold := hold
                  account := some ⟨a, cls, (d.account a).valid⟩ }
                hold := if hold = none then none else some (2 * d.sessions.holdLimit)
                silence := if hold = none then some (2 * d.sessions.silenceLimit) else (d.bay b).silence } }
          charge := { d.charge with accounts := accounts }
          notices := { d.notices with pending := d.notices.pending ||| if hold = none then 0 else 8#16 } } ∧
      ∀ y : Fin 64, accounts[y] =
        { d.account y with
          openCount := (d.account y).openCount + if y = a ∧ (d.account y).valid = true then 1 else 0 } := by
  have ht : ∃ accounts : Vector Account 64,
      d.takeAccount b a cls =
        { d with
          sessions := { d.sessions with
            bays := d.sessions.bays.set b
              { d.bay b with session := { d.session b with account := some ⟨a, cls, (d.account a).valid⟩ } } }
          charge := { d.charge with accounts := accounts } } ∧
      ∀ y : Fin 64, accounts[y] =
        { d.account y with
          openCount := (d.account y).openCount + if y = a ∧ (d.account y).valid = true then 1 else 0 } := by
    unfold Depot.takeAccount
    dsimp only
    by_cases h : (d.account a).valid = true
    · rw [if_pos h]
      refine ⟨_, rfl, fun y => ?_⟩
      show (d.modifyAccount a _).account y = _
      rw [Depot.account_modifyAccount]
      by_cases hy : y = a
      · subst hy
        rw [if_pos rfl, if_pos ⟨rfl, h⟩]
      · rw [if_neg hy, if_neg fun x => hy x.1]
        rfl
    · rw [if_neg h]
      refine ⟨_, rfl, fun y => ?_⟩
      rw [if_neg (fun x : y = a ∧ (d.account y).valid = true => h (x.1 ▸ x.2))]
      rfl
  obtain ⟨accounts, h1, h2⟩ := ht
  refine ⟨accounts, ?_, h2⟩
  unfold Depot.takeVerdict
  dsimp only
  rw [h1]
  subst hv
  cases hold with
  | none =>
    simp [Depot.enterAdmitted, Depot.modifyBay, modifyAt, Depot.bay, Depot.session, startTimer]
  | some r =>
    simp [Depot.enterHeld, Depot.modifyBay, modifyAt, Depot.bay, Depot.session, startTimer, Depot.raise, Notices.raise,
      Cause.only, Cause.position]

/-- What an outcome that carries an account leaves of its bay, of the other bays, of the accounts and of the rest. -/
theorem Depot.takeVerdict_carried (b : Fin 8) (a : Fin 64) (cls : Fin 4) (hold : Option HoldReason) (v : Verdict)
    (d : Depot) (hv : v = match hold with
      | none => .admitted
      | some r => .held r) :
    (d.takeVerdict b (some (a, cls)) v).bay b =
        { d.bay b with
          session := { d.session b with
            state := if hold = none then .admitted else .held
            hold := hold
            account := some ⟨a, cls, (d.account a).valid⟩ }
          hold := if hold = none then none else some (2 * d.sessions.holdLimit)
          silence := if hold = none then some (2 * d.sessions.silenceLimit) else (d.bay b).silence } ∧
      (∀ c : Fin 8, c ≠ b → (d.takeVerdict b (some (a, cls)) v).bay c = d.bay c) ∧
      (∀ y : Fin 64, (d.takeVerdict b (some (a, cls)) v).account y =
        { d.account y with
          openCount := (d.account y).openCount + if y = a ∧ (d.account y).valid = true then 1 else 0 }) ∧
      (d.takeVerdict b (some (a, cls)) v).identity = d.identity ∧
      (hold ≠ none → (d.takeVerdict b (some (a, cls)) v).notices.isPending .holdRaised = true) := by
  obtain ⟨accounts, h1, h2⟩ := d.takeVerdict_eq b a cls hold v hv
  rw [h1]
  refine ⟨?_, fun c hc => ?_, h2, rfl, fun h => ?_⟩
  · simp [Depot.bay]
  · have : ¬ b.val = c.val := fun k => hc (Fin.ext k.symm)
    simp [Depot.bay, this]
  · show BitVec.getLsbD (d.notices.pending ||| if hold = none then 0 else 8#16) 3 = true
    rw [if_neg h, BitVec.getLsbD_or]
    simp

theorem Depot.deliver_held (b : Fin 8) (t : Tag) (r : HoldReason) (d : Depot) (h1 : (d.session b).state = .lookup)
    (h2 : (d.session b).tag = t) : d.deliver b t none (.held r) = d.enterHeld b r := by
  unfold Depot.deliver
  rw [if_pos ⟨h1, h2⟩]
  rfl

/-! ## The cache (R40, R42, R49) -/

theorem Identity.pinnedHit_iff (i : Identity) (t : CacheEntry → Bool) :
    i.pinnedHit t = true ↔ ∃ n : Fin 32, n.val < i.pinCount ∧ i.cache[n].valid = true ∧ t i.cache[n] = true := by
  unfold Identity.pinnedHit
  rw [List.any_eq_true]
  constructor
  · rintro ⟨x, hx, h⟩
    rw [List.mem_take_iff_getElem] at hx
    obtain ⟨j, hj, rfl⟩ := hx
    have hl : j < 32 := by
      simp at hj
      omega
    refine ⟨⟨j, hl⟩, by simp at hj ⊢; omega, ?_⟩
    simpa using h
  · rintro ⟨n, h1, h2, h3⟩
    refine ⟨i.cache[n], ?_, by rw [h2, h3]; rfl⟩
    rw [List.mem_take_iff_getElem]
    exact ⟨n.val, by simp; omega, by simp⟩

theorem Identity.invalidate_get (i : Identity) (t : CacheEntry → Bool) (n : Fin 32) :
    (i.invalidate t).cache[n] = { i.cache[n] with valid := i.cache[n].valid && !t i.cache[n] } := by
  simp only [Identity.invalidate, Fin.getElem_fin, Vector.getElem_map]
  cases t i.cache[n.val] <;> simp

/-- A snoop at the cache as one update (R49). -/
theorem Depot.snoopCache_eq (n : Nat) (d : Depot) :
    d.snoopCache n =
      { d with
        identity := d.identity.invalidate fun x => x.slot == n
        notices := { d.notices with
          pending := if d.identity.pinnedHit (fun e => e.slot == n) = true then d.notices.pending ||| 0x4000#16
            else d.notices.pending } } := by
  unfold Depot.snoopCache
  by_cases h : d.identity.pinnedHit (fun e => e.slot == n) = true
  · simp only [h, if_true]
    rfl
  · simp only [h]
    rfl

/-- The entry that holds a tag is the one that is found (R40). -/
theorem Identity.indexOf_eq (i : Identity) (t : Tag) (n : Fin 32) (hok : i.cacheOk) (hv : i.cache[n].valid = true)
    (ht : i.cache[n].tag = t) : i.indexOf t = some n := by
  cases h : i.indexOf t with
  | none => exact absurd ht (KeepsBounds.indexOf_none i t h n hv)
  | some m =>
    obtain ⟨h1, h2⟩ := KeepsBounds.indexOf_some i t m h
    rw [hok m n h1 hv (h2.trans ht.symm)]

theorem Identity.indexOf_absent (i : Identity) (t : Tag)
    (h : ∀ n : Fin 32, i.cache[n].valid = true → i.cache[n].tag ≠ t) : i.indexOf t = none := by
  unfold Identity.indexOf
  rw [List.find?_eq_none]
  intro n _
  simpa using h n

/-- A lookup fill (R42): the entry at the victim pointer, which advances, where the tag is absent; else the entry that
holds the tag. -/
theorem Identity.fill_spec (i : Identity) (t : Tag) (slot : Nat) (x : DirectorySlot) :
    ((∀ n : Fin 32, i.cache[n].valid = true → i.cache[n].tag ≠ t) → ∀ v : Fin 32, i.victim = v.val →
        (i.fill t slot x).cache = i.cache.set v (cacheEntryOf t slot x) ∧
          (i.fill t slot x).victim = if v.val = 31 then i.pinCount else v.val + 1) ∧
      (∀ n : Fin 32, i.cacheOk → i.cache[n].valid = true → i.cache[n].tag = t →
        (i.fill t slot x).cache = i.cache.set n (cacheEntryOf t slot x) ∧ (i.fill t slot x).victim = i.victim) ∧
      (i.fill t slot x).fetch = i.fetch := by
  refine ⟨fun h v hv => ?_, fun n hok hval ht => ?_, ?_⟩
  · unfold Identity.fill
    rw [Identity.indexOf_absent i t h]
    have : Fin.ofNat 32 i.victim = v := by
      rw [hv]
      simp
    dsimp only
    rw [this]
    refine ⟨rfl, ?_⟩
    unfold Identity.nextVictim
    rw [hv]
    have := v.isLt
    split <;> split <;> first | rfl | omega
  · unfold Identity.fill
    rw [Identity.indexOf_eq i t n hok hval ht]
    exact ⟨rfl, rfl⟩
  · unfold Identity.fill
    split <;> rfl

/-- The probe range of a fetch (R50). -/
theorem Fetch.inRange_iff (f : Fetch) (n : Nat) :
    f.inRange n = true ↔ ∃ i : Fin 4, (f.home + i.val) % f.slotcount = n := by
  unfold Fetch.inRange
  rw [List.any_eq_true]
  constructor
  · rintro ⟨i, hi, h⟩
    exact ⟨⟨i, by simpa using hi⟩, by simpa [Fetch.slotAt] using h⟩
  · rintro ⟨i, h⟩
    exact ⟨i.val, by simp, by simpa [Fetch.slotAt] using h⟩

/-! ## The hand-over of a write into the directory (R12, R49) -/

theorem Part.handOver_directory (p : Part) (e : PostedEntry) (n : Fin 8) (h : e.cls = .window n .directory) :
    p.handOver e = { p with depot := p.depot.snoop (p.path.entryOffset n e / 16) } := by
  unfold Part.handOver
  rw [h]

/-! ## The completed slot read -/

/-- The command of a slot read that returns to its fetch: the errors found are reported, the walker acts on the slot,
and one arbitration follows (R47, R177). -/
theorem State.slotReadComplete_eq (s : State) (a : Nat) (u : SlotUpset) (f : Fetch) (m : Memory)
    (hd : s.part.path.deferred = []) (hg : s.part.store.grant = some (.walker a))
    (hf : s.part.depot.identity.fetch = some f) (hr : f.reading = true) (hm : m = s.mem.loseSlot a u) :
    ∃ R : Part,
      exec (.slotReadComplete u) s =
        .next { s with
          mem := m
          part := ({ R with
            depot := R.depot.slotRead f (m.slotFails a)
              (directorySlotOf (m.readWord (a / 4)) (m.readWord (a / 4 + 1))) } : Part).arbitrate } ∧
      R.path = s.part.begin.path ∧
      R.depot =
        { s.part.depot with notices := { s.part.depot.notices with pending := R.depot.notices.pending } } ∧
      (m.slotFails a = false → R.depot = s.part.depot) ∧
      (m.slotFails a = true → R.depot.notices.isPending .storeParity = true) := by
  subst hm
  obtain ⟨r1, r2, r3, r4⟩ := Part.reportSlot_frame (s.mem.loseSlot a u) a s.part.begin
  have hD : ((s.part.begin.reportSlot (s.mem.loseSlot a u) a).endGrant).depot.identity.fetch = some f := by
    show (s.part.begin.reportSlot (s.mem.loseSlot a u) a).depot.identity.fetch = some f
    rw [r1]
    exact hf
  refine ⟨(s.part.begin.reportSlot (s.mem.loseSlot a u) a).endGrant, ?_, ?_, ?_, ?_, ?_⟩
  · have hx : Part.slotDone u s.part.begin s.mem =
        ({ (s.part.begin.reportSlot (s.mem.loseSlot a u) a).endGrant with
            depot := ((s.part.begin.reportSlot (s.mem.loseSlot a u) a).endGrant).depot.slotRead f
              ((s.mem.loseSlot a u).slotFails a)
              (directorySlotOf ((s.mem.loseSlot a u).readWord (a / 4)) ((s.mem.loseSlot a u).readWord (a / 4 + 1))) },
          s.mem.loseSlot a u) := by
      unfold Part.slotDone
      have : s.part.begin.store.grant = some (.walker a) := hg
      rw [this]
      dsimp only
      congr 1
      unfold Part.modifyDepot Depot.slotReturns
      rw [hD]
      dsimp only
      rw [if_pos hr]
    refine congrArg Host.Outcome.next (State.storeEvent_eq s _ _ _ hx ?_)
    show (s.part.begin.reportSlot (s.mem.loseSlot a u) a).path.deferred = []
    rw [r1]
    exact hd
  · show (s.part.begin.reportSlot (s.mem.loseSlot a u) a).path = _
    rw [r1]
  · show (s.part.begin.reportSlot (s.mem.loseSlot a u) a).depot = _
    exact congrArg Part.depot r1
  · intro h
    show (s.part.begin.reportSlot (s.mem.loseSlot a u) a).depot = _
    rw [r3 h]
    rfl
  · exact r4

end Sys2Proof.Machine
end

