-- ==== Sys2Proof/Laws/Sessions.lean ====
section
/-!
SUPPORT. What re-evaluation, displacement and a taken ADMIT can do to sessions and accounts, and the end records of a
session that closes with money in motion (04, section 4.5; 06, sections 6.1 and 6.4).
-/

namespace Sys2Proof.Machine

open Sys2Proof

theorem mem_allBays (b : Fin 8) : b ∈ allBays := by
  revert b
  decide

theorem allBays_nodup : allBays.Nodup := by decide

/-! ## Judgements in words -/

theorem Depot.holds_iff (d : Depot) (t : Tag) (c : Fin 8) : d.holds t c = true ↔ d.activeWith t c := by
  simp [Depot.holds, SessionState.active, Depot.activeWith]

theorem Depot.awaitsCredit_iff (d : Depot) (a : Fin 64) (b : Fin 8) : d.awaitsCredit a b = true ↔ d.heldForCredit a b := by
  unfold Depot.awaitsCredit Depot.heldForCredit
  cases h : (d.session b).account with
  | none => simp
  | some r =>
    obtain ⟨i, c, w⟩ := r
    simp only [Bool.and_eq_true, beq_iff_eq, Option.some.injEq, AccountRef.mk.injEq, exists_and_left]
    tauto

theorem relaxes_iff (old new : Account) : (old.valid && relaxes old new) = true ↔ old.relaxedTo new := by
  simp [relaxes, Account.relaxedTo, or_assoc]

/-- A session that is not active itself is a duplicate where any session is active with its tag (R55). -/
theorem Depot.duplicate_iff_active (d : Depot) (b : Fin 8) (h : (d.session b).state = .held) :
    d.duplicate b (d.session b).tag = true ↔ ∃ c, d.activeWith (d.session b).tag c := by
  rw [d.duplicate_iff]
  constructor
  · rintro ⟨c, _, h1, h2⟩
    exact ⟨c, h1, h2⟩
  · rintro ⟨c, h1, h2⟩
    refine ⟨c, ?_, h1, h2⟩
    rintro rfl
    rcases h1 with h1 | h1 <;> (rw [h] at h1; cases h1)

/-! ## Bays under an update of the bays -/

theorem Depot.bay_set (d : Depot) (b c : Fin 8) (y : Bay) :
    ({ d with sessions := { d.sessions with bays := d.sessions.bays.set b y } } : Depot).bay c =
      if c = b then y else d.bay c := by
  by_cases h : c = b
  · subst h
    simp [Depot.bay]
  · have : ¬ b.val = c.val := fun k => h (Fin.ext k.symm)
    simp [Depot.bay, this, h]

/-! ## Re-evaluation (R72) -/

open Classical in
/-- Re-evaluation of a session held for credit that binds a valid account, as one update of its bay. -/
theorem Depot.reevaluate_eq (d : Depot) (a : Fin 64) (b : Fin 8) (h : d.heldForCredit a b)
    (hv : (d.account a).valid = true) :
    d.reevaluate b =
      { d with
        sessions := { d.sessions with
          bays := d.sessions.bays.set b
            (if ∃ c, d.activeWith (d.session b).tag c then d.duplicateBay b
             else if (d.account a).onCreditHold then d.bay b
             else d.admittedBay b) }
        notices := { d.notices with
          pending := d.notices.pending ||| if ∃ c, d.activeWith (d.session b).tag c then 8#16 else 0 } } := by
  obtain ⟨h1, h2, cls, h3⟩ := h
  have z : ∀ x : Causes, x ||| 0 = x := fun x => BitVec.or_zero
  have self : d.sessions.bays.set b (d.bay b) = d.sessions.bays := by
    simp [Depot.bay]
  unfold Depot.reevaluate
  simp only [h3, h1, h2, and_self, if_true]
  have oh : ((d.account a).onHold = true) = (d.account a).onCreditHold := propext (Account.onHold_iff _)
  unfold Depot.judge
  simp only [hv, Bool.not_true, Bool.false_eq_true, if_false, d.duplicate_iff_active b h1, oh]
  by_cases hd : ∃ c, d.activeWith (d.session b).tag c
  · simp only [hd, if_true]
    rw [if_neg (by simp)]
    rfl
  · simp only [hd, if_false, z]
    by_cases hc : (d.account a).onCreditHold
    · rw [if_pos hc, if_pos hc, self]
      simp
    · rw [if_neg hc, if_neg hc]
      rfl

/-- The re-evaluations of sessions with pairwise different tags act each on its own bay. -/
theorem Depot.reevaluate_foldl (a : Fin 64) (l : List (Fin 8)) (d : Depot) (hn : l.Nodup)
    (h : ∀ b ∈ l, d.heldForCredit a b) (hv : (d.account a).valid = true)
    (ht : ∀ b ∈ l, ∀ c ∈ l, (d.session b).tag = (d.session c).tag → b = c) :
    ∃ (bays : Vector Bay 8) (raised : Bool),
      l.foldl (fun x b => x.reevaluate b) d =
        { d with
          sessions := { d.sessions with bays := bays }
          notices := { d.notices with pending := d.notices.pending ||| if raised then 8#16 else 0 } } ∧
      (raised = true ↔ ∃ b ∈ l, ∃ c, d.activeWith (d.session b).tag c) ∧
      ∀ b : Fin 8,
        (b ∉ l → bays[b] = d.bay b) ∧
        (b ∈ l →
          ((∃ c, d.activeWith (d.session b).tag c) → bays[b] = d.duplicateBay b) ∧
          ((∀ c, ¬ d.activeWith (d.session b).tag c) →
            ((d.account a).onCreditHold → bays[b] = d.bay b) ∧
            (¬ (d.account a).onCreditHold → bays[b] = d.admittedBay b))) := by
  classical
  induction l generalizing d with
  | nil =>
    refine ⟨d.sessions.bays, false, by simp, by simp, fun b => ⟨fun _ => rfl, by simp⟩⟩
  | cons e l ih =>
    have he := h e List.mem_cons_self
    obtain ⟨hel, hnl⟩ := List.nodup_cons.1 hn
    have hR := d.reevaluate_eq a e he hv
    obtain ⟨d1, hd1⟩ : ∃ d1, d1 = d.reevaluate e := ⟨_, rfl⟩
    obtain ⟨new, hnew⟩ : ∃ new, new = (if ∃ c, d.activeWith (d.session e).tag c then d.duplicateBay e
             else if (d.account a).onCreditHold then d.bay e else d.admittedBay e) := ⟨_, rfl⟩
    rw [← hnew, ← hd1] at hR
    have hbay : ∀ c, d1.bay c = if c = e then new else d.bay c := by
      intro c
      rw [hR]
      exact d.bay_set e c new
    have hother : ∀ c, c ≠ e → d1.bay c = d.bay c := fun c hc => by rw [hbay, if_neg hc]
    have htag : (d1.session e).tag = (d.session e).tag := by
      have : d1.session e = new.session := by
        show (d1.bay e).session = _
        rw [hbay, if_pos rfl]
      rw [this, hnew]
      split
      · rfl
      · split <;> rfl
    have hact : ∀ b ∈ l, ∀ c, d1.activeWith (d.session b).tag c ↔ d.activeWith (d.session b).tag c := by
      intro b hb c
      by_cases hc : c = e
      · subst hc
        have hne : (d.session c).tag ≠ (d.session b).tag := fun k =>
          hel (by rw [ht c List.mem_cons_self b (List.mem_cons_of_mem _ hb) k]; exact hb)
        constructor
        · rintro ⟨_, k⟩
          exact absurd (htag.symm.trans k) hne
        · rintro ⟨_, k⟩
          exact absurd k hne
      · have : d1.session c = d.session c := congrArg Bay.session (hother c hc)
        unfold Depot.activeWith
        rw [this]
    have hsl : ∀ b ∈ l, d1.session b = d.session b := fun b hb =>
      congrArg Bay.session (hother b fun k => hel (k ▸ hb))
    have hbl : ∀ b ∈ l, d1.bay b = d.bay b := fun b hb => hother b fun k => hel (k ▸ hb)
    have hacc : d1.account a = d.account a := by rw [hR]; rfl
    have hlim : d1.sessions.silenceLimit = d.sessions.silenceLimit := by rw [hR]
    obtain ⟨bays, raised, h1, h2, h3⟩ := ih d1 hnl
      (fun b hb => by
        unfold Depot.heldForCredit
        rw [hsl b hb]
        exact h b (List.mem_cons_of_mem _ hb))
      (by rw [hacc]; exact hv)
      (fun b hb c hc => by
        rw [hsl b hb, hsl c hc]
        exact ht b (List.mem_cons_of_mem _ hb) c (List.mem_cons_of_mem _ hc))
    refine ⟨bays, decide (∃ c, d.activeWith (d.session e).tag c) || raised, ?_, ?_, fun b => ⟨fun hb => ?_,
      fun hb => ?_⟩⟩
    · rw [List.foldl_cons, ← hd1, h1, hR]
      have : ∀ p q : Bool, (if (p || q) = true then (8#16 : Causes) else 0) =
          (if p = true then 8#16 else 0) ||| (if q = true then 8#16 else 0) := by
        intro p q
        cases p <;> cases q <;> simp
      rw [this]
      simp only [decide_eq_true_eq, BitVec.or_assoc]
    · rw [Bool.or_eq_true, decide_eq_true_eq, h2]
      constructor
      · rintro (k | ⟨b, hb, c, k⟩)
        · exact ⟨e, List.mem_cons_self, k⟩
        · rw [hsl b hb] at k
          exact ⟨b, List.mem_cons_of_mem _ hb, c, (hact b hb c).1 k⟩
      · rintro ⟨b, hb, c, k⟩
        rcases List.mem_cons.1 hb with rfl | hb
        · exact Or.inl ⟨c, k⟩
        · refine Or.inr ⟨b, hb, c, ?_⟩
          rw [hsl b hb]
          exact (hact b hb c).2 k
    · rw [(h3 b).1 fun k => hb (List.mem_cons_of_mem _ k)]
      exact hother b fun k => hb (k ▸ List.mem_cons_self)
    · rcases List.mem_cons.1 hb with rfl | hb
      · have : bays[b] = new := by
          rw [(h3 b).1 hel, hbay, if_pos rfl]
        rw [this, hnew]
        refine ⟨fun k => if_pos k, fun k => ?_⟩
        rw [if_neg (not_exists.2 k)]
        exact ⟨fun k => if_pos k, fun k => if_neg k⟩
      · obtain ⟨k1, k2⟩ := (h3 b).2 hb
        rw [hsl b hb] at k1 k2
        have e1 : d1.duplicateBay b = d.duplicateBay b := by
          unfold Depot.duplicateBay
          rw [hsl b hb, hbl b hb]
        have e2 : d1.admittedBay b = d.admittedBay b := by
          unfold Depot.admittedBay
          rw [hsl b hb, hbl b hb, hlim]
        rw [e1] at k1
        rw [e2, hbl b hb, hacc] at k2
        exact ⟨fun ⟨c, k⟩ => k1 ⟨c, (hact b hb c).2 k⟩, fun k => k2 fun c j => k c ((hact b hb c).1 j)⟩

/-- An order by rank is a rearrangement. -/
theorem insertByRank_perm (rank : Fin 8 → Nat) (b : Fin 8) (l : List (Fin 8)) :
    List.Perm (insertByRank rank b l) (b :: l) := by
  induction l with
  | nil => exact List.Perm.refl _
  | cons c l ih =>
    unfold insertByRank
    split
    · exact List.Perm.refl _
    · exact (List.Perm.cons c ih).trans (List.Perm.swap b c l)

theorem orderByRank_perm (rank : Fin 8 → Nat) (l : List (Fin 8)) : List.Perm (orderByRank rank l) l := by
  induction l with
  | nil => exact List.Perm.refl _
  | cons b l ih => exact (insertByRank_perm rank b _).trans (List.Perm.cons b ih)

/-- What the re-evaluations for an account run over: every session held for credit that binds it, once. -/
theorem Depot.reevaluateAll_order (a : Fin 64) (d : Depot) :
    ∃ (l : List (Fin 8)) (draws : Nat), l.Nodup ∧ (∀ b, b ∈ l ↔ d.heldForCredit a b) ∧
      d.reevaluateAll a = l.foldl (fun x b => x.reevaluate b) { d with draws := draws } := by
  refine ⟨orderByRank (Config.reevaluationRank d.draws) (allBays.filter (d.awaitsCredit a)), _, ?_, fun b => ?_, rfl⟩
  · exact (orderByRank_perm _ _).nodup_iff.2 (allBays_nodup.filter _)
  · rw [(orderByRank_perm _ _).mem_iff, List.mem_filter, d.awaitsCredit_iff]
    exact ⟨fun h => h.2, fun h => ⟨mem_allBays b, h⟩⟩

/-! ## Displacement (R69) -/

/-- The walk over bays, none of which but `b` is active with the tag, closes nothing. -/
theorem Depot.displace_foldl_none (now : Calendar) (b : Fin 8) (t : Tag) (l : List (Fin 8)) (d : Depot)
    (h : ∀ c ∈ l, c ≠ b → ¬ d.activeWith t c) :
    l.foldl (fun x c => if c ≠ b ∧ x.holds t c = true then x.closeSession now c .displaced else x) d = d := by
  induction l with
  | nil => rfl
  | cons c l ih =>
    rw [List.foldl_cons, if_neg]
    · exact ih fun e he => h e (List.mem_cons_of_mem _ he)
    · rintro ⟨h1, h2⟩
      exact h c List.mem_cons_self h1 ((d.holds_iff t c).1 h2)

/-- A split of the bays at one of them. -/
theorem allBays_split (c : Fin 8) : ∃ l1 l2, allBays = l1 ++ c :: l2 ∧ c ∉ l1 ∧ c ∉ l2 := by
  obtain ⟨l1, l2, h⟩ := List.append_of_mem (mem_allBays c)
  have hn := allBays_nodup
  rw [h, List.nodup_append] at hn
  refine ⟨l1, l2, h, fun k => ?_, (List.nodup_cons.1 hn.2.1).1⟩
  exact hn.2.2 c k c List.mem_cons_self rfl

/-- The one other session that is active with the tag is closed with reason DISPLACED, where its close leaves the other
sessions as they are. -/
theorem Depot.displace_one (now : Calendar) (b c : Fin 8) (t : Tag) (d : Depot) (hc : c ≠ b)
    (h : ∀ e, e ≠ b → (d.activeWith t e ↔ e = c))
    (hs : ∀ e, e ≠ c → (d.closeSession now c .displaced).session e = d.session e) :
    d.displace now b t = d.closeSession now c .displaced := by
  obtain ⟨l1, l2, hl, h1, h2⟩ := allBays_split c
  unfold Depot.displace
  rw [hl, List.foldl_append, d.displace_foldl_none now b t l1 fun e he hb k => h1 (((h e hb).1 k) ▸ he),
    List.foldl_cons,
    if_pos ⟨hc, (d.holds_iff t c).2 ((h c hc).2 rfl)⟩]
  refine Depot.displace_foldl_none now b t l2 _ fun e he hb k => ?_
  have hec : e ≠ c := fun k => h2 (k ▸ he)
  unfold Depot.activeWith at k
  rw [hs e hec] at k
  exact hec ((h e hb).1 k)

/-- The close of a session that is not in LOOKUP, as one update, while the oldest claim does not fit (R80, R144). -/
theorem Depot.closeSession_stuck_eq (now : Calendar) (b : Fin 8) (reason : CloseReason) (d : Depot) (c : Claim)
    (rest : List Claim) (hw : d.journal.waiting = c :: rest) (h : 8 < d.journal.queue.length + c.size)
    (hq : d.journal.queue.length ≤ 8) (hl : (d.session b).state ≠ .lookup) :
    d.closeSession now b reason =
      { d with
        sessions := { d.sessions with
          bays := d.sessions.bays.set b
            { d.bay b with
              session := { d.session b with
                state := .closing, closeReason := some reason
                lines := (d.session b).lines.map fun l => if l.stop = none then { l with stop := some now } else l }
              silence := none
              hold := none } }
        journal := { d.journal with
          waiting := d.journal.waiting ++
            [.bay b ((d.modifySession b (Session.endLine now)).endRecords b reason now)] }
        notices := { d.notices with pending := d.notices.pending ||| 0x40#16 } } := by
  rw [d.closeSession_stuck now b reason c rest hw h hq hl]
  have hm : (d.modifySession b (Session.endLine now)).modifyBay b (fun y =>
        { y with session := { y.session with state := .closing, closeReason := some reason }
                 silence := none
                 hold := none }) =
      { d with
        sessions := { d.sessions with
          bays := d.sessions.bays.set b
            { d.bay b with
              session := { d.session b with
                state := .closing, closeReason := some reason
                lines := (d.session b).lines.map fun l => if l.stop = none then { l with stop := some now } else l }
              silence := none
              hold := none } } } := by
    simp [Depot.modifySession, Depot.modifyBay, modifyAt, Session.endLine_eq, Depot.bay, Depot.session]
  rw [hm]
  rfl

/-! ## The end records of a session with money in motion (R81) -/

/-- One CHARGE record for each RUN line, in list order, the last marked as last. -/
theorem Depot.composeLines_spec (d : Depot) (b : Fin 8) (a : AccountRef) (stamp : Stamp) (l : List Line) :
    (d.composeLines b a stamp l).length = l.length ∧
      ∀ n x, l[n]? = some x →
        (d.composeLines b a stamp l)[n]? = some (d.composeCharge b a stamp x (decide (n + 1 = l.length))) := by
  induction l with
  | nil => exact ⟨rfl, by simp⟩
  | cons m l ih =>
    cases l with
    | nil =>
      refine ⟨rfl, fun n x h => ?_⟩
      cases n with
      | zero =>
        simp at h
        subst h
        rfl
      | succ n => simp at h
    | cons k l =>
      unfold Depot.composeLines
      refine ⟨by simp [ih.1], fun n x h => ?_⟩
      cases n with
      | zero =>
        simp at h
        subst h
        simp
      | succ n =>
        have := ih.2 n x (by simpa using h)
        simpa using this

/-- The end records of an ADMITTED or WASHING session with an account: one VOID record where no line ran, else the
CHARGE records of its RUN lines, the running line ended. -/
theorem Depot.endRecords_active (d : Depot) (b : Fin 8) (reason : CloseReason) (now : Calendar) (q : AccountRef)
    (old : Session) (ho : old = d.session b) (hs : old.state = .admitted ∨ old.state = .washing)
    (ha : old.account = some q) :
    ((∀ l ∈ old.lines, l.outcome ≠ .run) →
      (d.modifySession b (Session.endLine now)).endRecords b reason now =
        [⟨.void q.index old.tag reason old.operatorAdmitted old.abandoned, some b, now⟩]) ∧
    ∀ runs : List Line, runs ≠ [] →
      runs = (old.lines.filter fun l => l.outcome = .run).map (fun l =>
        if l.stop = none then { l with stop := some now } else l) →
      ((d.modifySession b (Session.endLine now)).endRecords b reason now).length = runs.length ∧
      ∀ (n : Nat) (l : Line), runs[n]? = some l →
        ((d.modifySession b (Session.endLine now)).endRecords b reason now)[n]? =
          some (d.composeCharge b q now l (decide (n + 1 = runs.length))) := by
  obtain ⟨d2, hd2⟩ : ∃ d2, d2 = d.modifySession b (Session.endLine now) := ⟨_, rfl⟩
  have hs2 : d2.session b =
      { old with lines := old.lines.map fun l => if l.stop = none then { l with stop := some now } else l } := by
    rw [hd2, Depot.session_modifySession, Session.endLine_eq, ← ho]
  have hER : d2.endRecords b reason now = Depot.endRecords.close d2 b reason now (d2.session b) q := by
    unfold Depot.endRecords
    rw [hs2]
    dsimp only
    rw [ha]
    rcases hs with h1 | h1 <;> simp only [h1]
  rw [← hd2, hER]
  unfold Depot.endRecords.close
  rw [hs2]
  dsimp only
  have hfil : ∀ L : List Line,
      (L.map fun l => if l.stop = none then { l with stop := some now } else l).filter (fun l => l.outcome == .run) =
        (L.filter fun l => l.outcome = .run).map (fun l => if l.stop = none then { l with stop := some now } else l) := by
    intro L
    rw [List.filter_map]
    congr 1
    apply List.filter_congr
    intro l _
    simp only [Function.comp]
    split <;> simp [BEq.beq]
  rw [hfil]
  refine ⟨fun hno => ?_, fun runs hne hru => ?_⟩
  · have : (old.lines.filter fun l => l.outcome = .run) = [] := by
      rw [List.filter_eq_nil_iff]
      intro l hl
      simpa using hno l hl
    rw [this]
    rfl
  · rw [← hru]
    have : runs.isEmpty = false := by cases runs <;> simp_all
    rw [if_neg (by simp [this])]
    have hcc : ∀ l f, d2.composeCharge b q now l f = d.composeCharge b q now l f := by
      intro l f
      have ec : d2.charge = d.charge := by rw [hd2]; rfl
      have ea : ∀ i, d2.account i = d.account i := by
        intro i
        unfold Depot.account
        rw [ec]
      unfold Depot.composeCharge
      rw [hs2, ← ho]
      simp only [ec, ea]
    obtain ⟨hl1, hl2⟩ := d2.composeLines_spec b q now runs
    refine ⟨hl1, fun n l hn => ?_⟩
    rw [hl2 n l hn, hcc]

/-! ## A taken ADMIT (R63, R68, R117) -/

/-- The release of what a bay's session binds, as one update of the open counts (R63). -/
theorem Depot.releaseBinding_eq (b : Fin 8) (d : Depot) :
    ∃ accounts : Vector Account 64, d.releaseBinding b = { d with charge := { d.charge with accounts := accounts } } ∧
      ∀ n : Fin 64, accounts[n] =
        { d.account n with
          openCount := (d.account n).openCount -
            if ∃ cls, (d.session b).account = some ⟨n, cls, true⟩ then 1 else 0 } := by
  unfold Depot.releaseBinding
  cases hacc : (d.session b).account with
  | none => exact ⟨d.charge.accounts, rfl, fun n => by simp [Depot.account]⟩
  | some q =>
    obtain ⟨i, c, w⟩ := q
    cases w with
    | false => exact ⟨d.charge.accounts, rfl, fun n => by simp [Depot.account]⟩
    | true =>
      refine ⟨_, rfl, fun n => ?_⟩
      show (d.modifyAccount i _).account n = _
      rw [Depot.account_modifyAccount]
      by_cases hn : n = i
      · subst hn
        simp
      · have : ¬ ∃ cls, (some ⟨i, c, true⟩ : Option AccountRef) = some ⟨n, cls, true⟩ := by
          rintro ⟨_, k⟩
          cases k
          exact hn rfl
        rw [if_neg hn, if_neg this]
        rfl

/-- What the override leaves: the sessions but for the account of its own, and the open counts. -/
theorem Depot.override_eq (b : Fin 8) (o : Override) (r : AccountRef) (d : Depot)
    (hn : o = none → (d.session b).account = some r)
    (ho : ∀ a cls, o = some (a, cls) → (d.account a).valid = true ∧ r = ⟨a, cls, true⟩) :
    ∃ accounts : Vector Account 64,
      d.override b o =
        { d with
          sessions := { d.sessions with
            bays := d.sessions.bays.set b { d.bay b with session := { d.session b with account := some r } } }
          charge := { d.charge with accounts := accounts } } ∧
      ∀ n : Fin 64, accounts[n] =
        { d.account n with
          openCount :=
            (d.account n).openCount -
              (if o ≠ none ∧ ∃ cls, (d.session b).account = some ⟨n, cls, true⟩ then 1 else 0) +
              (if o ≠ none ∧ n = r.index then 1 else 0) } := by
  cases o with
  | none =>
    refine ⟨d.charge.accounts, ?_, fun n => by simp [Depot.account]⟩
    have h := hn rfl
    have : ({ d.bay b with session := { d.session b with account := some r } } : Bay) = d.bay b := by
      unfold Depot.session at h ⊢
      rw [← h]
    rw [this]
    have self : d.sessions.bays.set b (d.bay b) = d.sessions.bays := by
      simp [Depot.bay]
    rw [self]
    rfl
  | some p =>
    obtain ⟨a, cls⟩ := p
    obtain ⟨hv, rfl⟩ := ho a cls rfl
    obtain ⟨released, hrel, h2⟩ := d.releaseBinding_eq b
    obtain ⟨e, he⟩ : ∃ e, e = d.releaseBinding b := ⟨_, rfl⟩
    have h1 : e = { d with charge := { d.charge with accounts := released } } := he.trans hrel
    replace h2 : ∀ n : Fin 64, e.account n = _ := fun n => (by rw [h1]; rfl : e.account n = released[n]).trans (h2 n)
    have hv' : (e.account a).valid = true := by rw [h2]; exact hv
    have hO : d.override b (some (a, cls)) =
        (e.modifySession b fun s => { s with account := some ⟨a, cls, true⟩ }).bind a := by
      show (d.releaseBinding b).takeAccount b a cls = _
      rw [← he]
      unfold Depot.takeAccount
      simp only [hv', if_true]
    refine ⟨(d.override b (some (a, cls))).charge.accounts, ?_, fun n => ?_⟩
    · rw [hO, h1]
      rfl
    · show (d.override b (some (a, cls))).account n = _
      have : (d.override b (some (a, cls))).account n =
          if n = a then { e.account n with openCount := (e.account n).openCount + 1 } else e.account n := by
        rw [hO]
        exact Depot.account_modifyAccount a n _ _
      rw [this, h2]
      by_cases hn : n = a
      · simp [hn]
      · simp [hn]

/-- A taken ADMIT after its displacement, as one update (R68, R79). -/
theorem Depot.admitted_eq (b : Fin 8) (o : Override) (r : AccountRef) (d : Depot)
    (hn : o = none → (d.session b).account = some r)
    (ho : ∀ a cls, o = some (a, cls) → (d.account a).valid = true ∧ r = ⟨a, cls, true⟩) :
    ∃ accounts : Vector Account 64,
      ((d.override b o).modifySession b fun s => { s with operatorAdmitted := true }).enterAdmitted b =
        { d with
          sessions := { d.sessions with
            bays := d.sessions.bays.set b
              { d.admittedBay b with
                session := { (d.admittedBay b).session with operatorAdmitted := true, account := some r } } }
          charge := { d.charge with accounts := accounts } } ∧
      ∀ n : Fin 64, accounts[n] =
        { d.account n with
          openCount :=
            (d.account n).openCount -
              (if o ≠ none ∧ ∃ cls, (d.session b).account = some ⟨n, cls, true⟩ then 1 else 0) +
              (if o ≠ none ∧ n = r.index then 1 else 0) } := by
  obtain ⟨accounts, h1, h2⟩ := d.override_eq b o r hn ho
  refine ⟨accounts, ?_, h2⟩
  rw [h1]
  simp [Depot.enterAdmitted, Depot.modifySession, Depot.modifyBay, modifyAt, Depot.admittedBay, startTimer, Depot.bay,
    Depot.session]

end Sys2Proof.Machine
end

