-- ==== Sys2Proof/Laws/Claims.lean ====
section
/-!
SUPPORT. What an arrival, the admission of a claim, the placing of a claim and the close of a session can do, each as
one relation of the statements' vocabulary (04, sections 4.2 and 4.6; 06, section 6.5; 07, section 7.3).
-/

namespace Sys2Proof.Machine

open Sys2Proof

/-! ## Arrivals (R43, R61, R66) -/

/-- The search finds the first valid entry with the tag. -/
theorem Identity.search_first (i : Identity) (t : Tag) (n : Fin 32) (hv : i.cache[n].valid = true)
    (ht : i.cache[n].tag = t)
    (hf : ∀ m : Fin 32, m < n → i.cache[m].valid = true → i.cache[m].tag ≠ t) : i.search t = some i.cache[n] := by
  unfold Identity.search
  rw [List.find?_eq_some_iff_getElem]
  refine ⟨by rw [hv, ht]; simp, n.val, by simp, by simp, fun j hj => ?_⟩
  have := hf ⟨j, by omega⟩ hj
  simp only [Fin.getElem_fin] at this
  cases hk : i.cache[j].valid with
  | false => simp [hk]
  | true => simpa [hk] using this hk

/-- An arrival at a VACANT bay. -/
theorem Part.arrived_arriveVacant (b : Fin 8) (t : Tag) (stamp : Stamp) (p : Part) :
    p.arrived b t stamp { p with depot := p.depot.arriveVacant b t stamp } := by
  have hm : p.depot.modifySession b (fun _ => Session.arriving t stamp) =
      { p.depot with
        sessions := { p.depot.sessions with
          bays := p.depot.sessions.bays.set b
            { p.depot.bay b with session := { state := .lookup, tag := t, start := some stamp } } } } := rfl
  refine ⟨fun h => ?_, fun n e hold hn hv ht hf hh => ?_⟩
  · unfold Depot.arriveVacant
    rw [Identity.search_none _ _ h]
    rfl
  · subst hn
    unfold Depot.arriveVacant
    rw [Identity.search_first _ _ n hv ht hf, hm]
    obtain ⟨accounts, h1, h2⟩ :=
      Depot.takeVerdict_eq b p.depot.identity.cache[n].account p.depot.identity.cache[n].cls hold
        (p.depot.evaluate b t p.depot.identity.cache[n].barred p.depot.identity.cache[n].account)
        { p.depot with
          sessions := { p.depot.sessions with
            bays := p.depot.sessions.bays.set b
              { p.depot.bay b with session := { state := .lookup, tag := t, start := some stamp } } } }
        (by rw [p.depot.evaluate_eq, hh])
    refine ⟨accounts, h2, ?_⟩
    dsimp only
    rw [h1]
    simp [Part.withAccounts, Part.withBay, Part.withPending, Depot.knownBay, Depot.bay, Depot.session, Depot.account]

/-! ## The admission of a bay's claim (R82, R129, R140) -/

/-- Amounts applied one after another, as one sum. -/
theorem Account.charged_cons (amount : Nat) (l : List Nat) (x : Account) :
    (x.apply amount).charged l = x.charged (amount :: l) := by
  unfold Account.charged Account.apply satAdd Config.max32 Config.max16
  by_cases h : l = []
  · subst h
    simp
  · simp only [h, if_false, List.cons_ne_nil, List.sum_cons, List.length_cons]
    congr 1 <;> omega

/-- Records of a claim applied and queued, as one update. -/
theorem Depot.applyRecords_eq (records : List Composed) (d : Depot) :
    ∃ accounts : Vector Account 64,
      Depot.applyRecords records d =
        { d with
          charge := { d.charge with accounts := accounts }
          journal := { d.journal with
            queue := d.journal.queue ++ records.map fun c => ⟨c, d.periodOf c, none⟩ } } ∧
      ∀ a : Fin 64, accounts[a] = (d.account a).charged (chargesOn a records) := by
  induction records generalizing d with
  | nil => exact ⟨d.charge.accounts, by simp [Depot.applyRecords], fun a => rfl⟩
  | cons c rest ih =>
    obtain ⟨body, bay, stamp⟩ := c
    have plain : (∀ x, body ≠ .charge x) →
        Depot.applyRecord ⟨body, bay, stamp⟩ d = (d, ⟨⟨body, bay, stamp⟩, d.periodOf ⟨body, bay, stamp⟩, none⟩) ∧
          ∀ a, chargesOn a (⟨body, bay, stamp⟩ :: rest) = chargesOn a rest := by
      intro h
      cases body <;> first | exact ⟨rfl, fun _ => rfl⟩ | exact absurd rfl (h _)
    by_cases hc : ∃ x, body = .charge x
    · obtain ⟨x, rfl⟩ := hc
      obtain ⟨accounts, h1, h2⟩ := ih
        { d.modifyAccount x.account (Account.apply x.amount) with
          journal := { d.journal with
            queue := d.journal.queue ++ [⟨⟨.charge x, bay, stamp⟩, (d.account x.account).period, none⟩] } }
      have hacc : ∀ a : Fin 64, (d.modifyAccount x.account (Account.apply x.amount)).account a =
          if a = x.account then (d.account a).apply x.amount else d.account a :=
        fun a => Depot.account_modifyAccount _ _ _ _
      have hper : ∀ c, Depot.periodOf
          { d.modifyAccount x.account (Account.apply x.amount) with
            journal := { d.journal with
              queue := d.journal.queue ++ [⟨⟨.charge x, bay, stamp⟩, (d.account x.account).period, none⟩] } } c =
          d.periodOf c := by
        intro c
        unfold Depot.periodOf
        split
        · rename_i y _
          show ((d.modifyAccount x.account (Account.apply x.amount)).account y.account).period = _
          rw [hacc]
          split <;> rfl
        · rfl
      refine ⟨accounts, ?_, fun a => ?_⟩
      · show Depot.applyRecords rest _ = _
        refine Eq.trans h1 ?_
        simp only [hper]
        simp [Depot.modifyAccount, Depot.periodOf]
      · rw [h2]
        show ((d.modifyAccount x.account (Account.apply x.amount)).account a).charged _ = _
        rw [hacc]
        by_cases ha : a = x.account
        · subst ha
          rw [if_pos rfl, Account.charged_cons]
          simp [chargesOn]
        · rw [if_neg ha]
          have : ¬ x.account = a := fun h => ha h.symm
          simp [chargesOn, this]
    · obtain ⟨h1, h2⟩ := plain fun x hx => hc ⟨x, hx⟩
      obtain ⟨accounts, h3, h4⟩ := ih
        { d with journal := { d.journal with
          queue := d.journal.queue ++ [⟨⟨body, bay, stamp⟩, d.periodOf ⟨body, bay, stamp⟩, none⟩] } }
      refine ⟨accounts, ?_, fun a => ?_⟩
      · unfold Depot.applyRecords
        simp only [h1]
        refine Eq.trans h3 ?_
        have : ∀ c, Depot.periodOf
            { d with journal := { d.journal with
              queue := d.journal.queue ++ [⟨⟨body, bay, stamp⟩, d.periodOf ⟨body, bay, stamp⟩, none⟩] } } c =
            d.periodOf c := fun _ => rfl
        simp only [this]
        simp
      · rw [h4, h2]
        rfl

/-- The admission of a bay's claim. -/
theorem Part.bayAdmitted_vacate (b : Fin 8) (records : List Composed) (p : Part) :
    p.bayAdmitted b records { p with depot := (Depot.applyRecords records p.depot).vacate b } := by
  obtain ⟨a1, h1, k1⟩ := p.depot.applyRecords_eq records
  obtain ⟨a2, h2, k2⟩ := (Depot.applyRecords records p.depot).releaseBinding_eq b
  obtain ⟨x, hx⟩ : ∃ x, x = ((p.withQueued records).withAccounts a2).withBay b
      { p.depot.bay b with session := {}, parked := none } := ⟨_, rfl⟩
  have hm : ((Depot.applyRecords records p.depot).releaseBinding b).modifyBay b
      (fun y => { y with session := {}, parked := none }) = x.depot := by
    rw [h2, h1, hx]
    rfl
  refine ⟨a2, x, fun a => ?_, hx, fun h => ?_, fun r h => ?_⟩
  · rw [k2, h1]
    have : (({ p.depot with
        charge := { p.depot.charge with accounts := a1 }
        journal := { p.depot.journal with
          queue := p.depot.journal.queue ++ records.map fun c => ⟨c, p.depot.periodOf c, none⟩ } } : Depot).account a) =
        (p.depot.account a).charged (chargesOn a records) := k1 a
    rw [this]
    have ho : ((p.depot.account a).charged (chargesOn a records)).openCount = (p.depot.account a).openCount := by
      unfold Account.charged
      split <;> rfl
    rw [ho]
    rfl
  · unfold Depot.vacate
    have : ((Depot.applyRecords records p.depot).bay b).parked = none := by
      rw [h1]
      exact h
    dsimp only
    rw [this, hm]
    rw [hx]
    rfl
  · unfold Depot.vacate
    have : ((Depot.applyRecords records p.depot).bay b).parked = some r := by
      rw [h1]
      exact h
    dsimp only
    rw [this, hm]
    have e : ({ p with depot := x.depot.arriveVacant b r.tag r.stamp } : Part) =
        { x with depot := x.depot.arriveVacant b r.tag r.stamp } := by
      rw [hx]
      rfl
    rw [e]
    exact x.arrived_arriveVacant b r.tag r.stamp

/-! ## The admission of the sweep's claim (R120, R146 to R148) -/

/-- The account reset at the admission of its sweep claim, with its record queued, as one update (R120, R147). -/
theorem Depot.admitClaim_sweep (now : Calendar) (a : Fin 64) (d : Depot) (h : d.noCreditHold) :
    ∃ accounts : Vector Account 64,
      d.admitClaim now (.sweep a) =
        Depot.continueSweep (a.val + 1)
          { d with
            charge := { d.charge with accounts := accounts }
            journal := { d.journal with queue := d.journal.queue ++ [d.totalOf now a] } } ∧
      ∀ i : Fin 64, accounts[i] = if i = a then (d.account i).zeroed d.journal.period else d.account i := by
  refine ⟨(d.modifyAccount a (Account.zeroed d.journal.period)).charge.accounts, ?_,
    fun i => d.account_modifyAccount a i (Account.zeroed d.journal.period)⟩
  show ((d.enqueue (d.totalOf now a)).resetAccount a).continueSweep _ = _
  rw [Depot.resetAccount_eq a (d.enqueue (d.totalOf now a)) h]
  rfl

/-- The admission of the sweep's claim, by what is still to come. -/
theorem Part.sweepAdmitted_admit (a : Fin 64) (p : Part) :
    p.sweepAdmitted a { p with depot := p.depot.admitClaim p.calendar.now (.sweep a) } := by
  intro j hj hcalm
  obtain ⟨A, hadm, hA⟩ := p.depot.admitClaim_sweep p.calendar.now a hcalm
  have hj' : ({ p.depot.journal with queue := p.depot.journal.queue ++ [p.depot.totalOf p.calendar.now a] } : Journal) =
      j := hj.symm
  rw [hj'] at hadm
  have hper : p.depot.journal.period = j.period := by rw [hj]
  rw [hper] at hA
  obtain ⟨f, hf⟩ : ∃ f : Depot, f = { p.depot with charge := { p.depot.charge with accounts := A }, journal := j } :=
    ⟨_, rfl⟩
  rw [← hf] at hadm
  have hfc : f.noCreditHold := by
    rw [hf]
    exact hcalm
  have hfa : ∀ i, f.account i = if i = a then (p.depot.account i).zeroed j.period else p.depot.account i := by
    rw [hf]
    exact hA
  have hfj : f.journal = j := by rw [hf]
  have later : ∀ i : Fin 64, a.val + 1 ≤ i.val → f.account i = p.depot.account i := fun i hi => by
    rw [hfa, if_neg fun h => by rw [h] at hi; omega]
  refine ⟨fun c hac hc hz => ?_, fun hz => ⟨fun hb => ?_, fun hb => ?_⟩⟩
  · obtain ⟨accounts, w1, w2⟩ := Depot.walk_stops_eq (a.val + 1) c f hfc hac
      (fun x h1 h2 => by rw [later x h1]; exact hz x h1 h2) (by rw [later c hac]; exact hc)
    refine ⟨accounts, fun i => ?_, ?_⟩
    · rw [w2, hfa, hfj]
      by_cases h1 : i = a
      · have : ¬ (a.val + 1 ≤ i.val ∧ i < c) := fun h => by rw [h1] at h; omega
        rw [if_neg this, if_pos h1, if_pos ⟨le_of_eq h1.symm, h1 ▸ hac⟩]
      · have : (a.val + 1 ≤ i.val ∧ i < c) ↔ (a ≤ i ∧ i < c) := by
          constructor
          · exact fun h => ⟨Fin.le_def.2 (by omega), h.2⟩
          · refine fun h => ⟨?_, h.2⟩
            have : a.val ≠ i.val := fun k => h1 (Fin.ext k.symm)
            have := Fin.le_def.1 h.1
            omega
        simp only [this, h1, if_false]
    · rw [hadm]
      unfold Depot.continueSweep
      rw [w1, hf]
      dsimp only
      rw [if_neg (by simp)]
      rfl
  all_goals
    obtain ⟨accounts, w1, w2⟩ := Depot.walk_ends_eq (a.val + 1) f hfc fun x hx => by rw [later x hx]; exact hz x hx
    have w3 : ∀ i : Fin 64, accounts[i] = if a ≤ i then (p.depot.account i).zeroed j.period else p.depot.account i := by
      intro i
      rw [w2, hfa, hfj]
      by_cases h1 : i = a
      · have : ¬ a.val + 1 ≤ i.val := fun h => by rw [h1] at h; omega
        rw [if_neg this, if_pos h1, if_pos (le_of_eq h1.symm)]
      · have : a.val + 1 ≤ i.val ↔ a ≤ i := by
          constructor
          · exact fun h => Fin.le_def.2 (by omega)
          · intro h
            have : a.val ≠ i.val := fun k => h1 (Fin.ext k.symm)
            have := Fin.le_def.1 h
            omega
        simp only [this, h1, if_false]
  · refine ⟨accounts, w3, ?_⟩
    rw [hadm]
    unfold Depot.continueSweep
    rw [w1, hf]
    dsimp only
    rw [if_neg (by simp [hb])]
    rfl
  · obtain ⟨e, he⟩ : ∃ e : Depot, e =
        { p.depot with
          charge := { p.depot.charge with accounts := accounts }
          journal := { j with sweep := some 0, boundaryPending := false, period := j.period + 1 }
          notices := { p.depot.notices with pending := p.depot.notices.pending ||| 0x80#16 } } := ⟨_, rfl⟩
    have hec : e.noCreditHold := by
      rw [he]
      exact hcalm
    have hea : ∀ i, e.account i = if a ≤ i then (p.depot.account i).zeroed j.period else p.depot.account i := by
      rw [he]
      exact w3
    have hej : e.journal = { j with sweep := some 0, boundaryPending := false, period := j.period + 1 } := by rw [he]
    have hD : p.depot.admitClaim p.calendar.now (.sweep a) = Depot.walk (accountsFrom 0) e := by
      rw [hadm]
      unfold Depot.continueSweep
      rw [w1, hf]
      dsimp only
      rw [if_pos (by simp [hb]), he]
      rfl
    rw [hD]
    refine ⟨fun hl => ?_, fun c hca hc hl => ?_⟩
    · obtain ⟨accounts2, v1, v2⟩ := Depot.walk_ends_eq 0 e hec fun x _ => by
        rw [hea]
        by_cases h1 : a ≤ x
        · rw [if_pos h1]
          rfl
        · rw [if_neg h1]
          exact hl x (not_le.1 h1)
      refine ⟨accounts2, fun i => ?_, ?_⟩
      · rw [v2, if_pos (Nat.zero_le _), hea, hej]
        split <;> rfl
      · rw [v1, he]
        simp only [BitVec.or_assoc, BitVec.or_self]
        rfl
    · obtain ⟨accounts2, v1, v2⟩ := Depot.walk_stops_eq 0 c e hec (Nat.zero_le _)
        (fun x _ h => by
          rw [hea, if_neg (not_le.2 (lt_trans h hca))]
          exact hl x h)
        (by
          rw [hea, if_neg (not_le.2 hca)]
          exact hc)
      refine ⟨accounts2, fun i => ?_, ?_⟩
      · rw [v2, hea, hej]
        by_cases h1 : i < c
        · rw [if_pos ⟨Nat.zero_le _, h1⟩, if_pos h1]
          split <;> rfl
        · rw [if_neg fun h => h1 h.2, if_neg h1]
      · rw [v1, he]
        rfl

/-! ## The admission of a claim (R142, R143) -/

/-- The effects of an admission. -/
theorem Part.admits_admitClaim (c : Claim) (p : Part) :
    p.admits c { p with depot := p.depot.admitClaim p.calendar.now c } := by
  cases c with
  | bay b records => exact p.bayAdmitted_vacate b records
  | sweep a => exact p.sweepAdmitted_admit a
  | quotaDay totals stamp overrun => rfl
  | meter m old new stamp => rfl
  | restart lostBays lostRecords resumed stamp => rfl

/-- Only the sweep's admission reads the calendar. -/
theorem Depot.admitClaim_now (now later : Calendar) (c : Claim) (d : Depot) (h : ∀ a, c ≠ .sweep a) :
    d.admitClaim now c = d.admitClaim later c := by
  cases c <;> first | rfl | exact absurd rfl (h _)

/-- An event of bay `b` at the units behind the bus that leaves the other bays, the validity of every account and the
list of claims as they are. -/
structure BayEvent (b : Fin 8) (d e : Depot) : Prop where
  bays : ∀ c, c ≠ b → e.bay c = d.bay c
  silenceLimit : e.sessions.silenceLimit = d.sessions.silenceLimit
  waiting : e.journal.waiting = d.journal.waiting
  valid : ∀ a, (e.account a).valid = (d.account a).valid

theorem BayEvent.trans {b : Fin 8} {d e f : Depot} (h : BayEvent b d e) (k : BayEvent b e f) : BayEvent b d f where
  bays c hc := (k.bays c hc).trans (h.bays c hc)
  silenceLimit := k.silenceLimit.trans h.silenceLimit
  waiting := k.waiting.trans h.waiting
  valid a := (k.valid a).trans (h.valid a)

theorem BayEvent.modifyBay (b : Fin 8) (f : Bay → Bay) (d : Depot) : BayEvent b d (d.modifyBay b f) :=
  ⟨fun _ hc => Depot.bay_modifyBay_other _ _ _ _ hc, rfl, rfl, fun _ => rfl⟩

/-- What an arrival touches. -/
theorem BayEvent.arriveVacant (b : Fin 8) (t : Tag) (stamp : Stamp) (d : Depot) :
    BayEvent b d (d.arriveVacant b t stamp) ∧ (d.arriveVacant b t stamp).journal = d.journal := by
  have h0 := BayEvent.modifyBay b (fun y => { y with session := Session.arriving t stamp }) d
  unfold Depot.arriveVacant
  cases d.identity.search t with
  | none => exact ⟨⟨h0.bays, rfl, rfl, fun _ => rfl⟩, rfl⟩
  | some e =>
    obtain ⟨accounts, h1, h2⟩ := Depot.takeVerdict_eq b e.account e.cls _ _
      (d.modifySession b fun _ => Session.arriving t stamp) (d.evaluate_eq b t e.barred e.account)
    dsimp only
    rw [h1]
    refine ⟨⟨fun c hc => ?_, rfl, rfl, fun a => (congrArg Account.valid (h2 a)).trans rfl⟩, rfl⟩
    exact ((d.modifySession b _).bay_set b c _).trans ((if_neg hc).trans (h0.bays c hc))

/-- What the admission of a bay's claim touches. -/
theorem BayEvent.admitClaim (now : Calendar) (b : Fin 8) (records : List Composed) (d : Depot) :
    BayEvent b d (d.admitClaim now (.bay b records)) ∧
      (d.admitClaim now (.bay b records)).journal.queue.length = d.journal.queue.length + records.length := by
  obtain ⟨a1, h1, k1⟩ := d.applyRecords_eq records
  obtain ⟨a2, h2, k2⟩ := (Depot.applyRecords records d).releaseBinding_eq b
  have hr : BayEvent b d ((Depot.applyRecords records d).releaseBinding b) ∧
      ((Depot.applyRecords records d).releaseBinding b).journal.queue.length =
        d.journal.queue.length + records.length := by
    rw [h2]
    refine ⟨⟨fun c _ => by rw [h1]; rfl, by rw [h1], by rw [h1], fun a => ?_⟩, by rw [h1]; simp⟩
    show a2[a].valid = _
    rw [k2, h1]
    show a1[a].valid = _
    rw [k1]
    unfold Account.charged
    split <;> rfl
  have hm := hr.1.trans (BayEvent.modifyBay b (fun y => { y with session := {}, parked := none }) _)
  show BayEvent b d ((Depot.applyRecords records d).vacate b) ∧ _ = _
  unfold Depot.admitClaim Depot.vacate
  dsimp only
  split
  · rename_i r _
    obtain ⟨h3, h4⟩ := BayEvent.arriveVacant b r.tag r.stamp
      (((Depot.applyRecords records d).releaseBinding b).modifyBay b fun y => { y with session := {}, parked := none })
    exact ⟨hm.trans h3, (congrArg (fun j => j.queue.length) h4).trans hr.2⟩
  · exact ⟨hm, hr.2⟩

/-- What an admission leaves of the queue and of the list, but for the sweep's: the claim's records, and no more
claims. -/
theorem Depot.admitClaim_journal (now : Calendar) (c : Claim) (d : Depot) (h : ∀ a, c ≠ .sweep a) :
    (d.admitClaim now c).journal.queue.length = d.journal.queue.length + c.size ∧
      (d.admitClaim now c).journal.waiting = d.journal.waiting := by
  cases c with
  | sweep a => exact absurd rfl (h a)
  | bay b records =>
    obtain ⟨h1, h2⟩ := BayEvent.admitClaim now b records d
    exact ⟨h2, h1.waiting⟩
  | quotaDay => exact ⟨by simp [Depot.admitClaim, Depot.enqueue, Depot.modifyJournal, Claim.size], rfl⟩
  | meter => exact ⟨by simp [Depot.admitClaim, Depot.enqueue, Depot.modifyJournal, Claim.size], rfl⟩
  | restart => exact ⟨by simp [Depot.admitClaim, Depot.enqueue, Depot.modifyJournal, Claim.size], rfl⟩

/-- The same of the sweep's, where no session is held for credit: its walk may place one claim. -/
theorem Part.sweepAdmitted_journal (a : Fin 64) (p q : Part) (h : p.sweepAdmitted a q) (hc : p.depot.noCreditHold) :
    q.depot.journal.queue.length = p.depot.journal.queue.length + 1 ∧
      (q.depot.journal.waiting = p.depot.journal.waiting ∨
        ∃ c, q.depot.journal.waiting = p.depot.journal.waiting ++ [.sweep c]) ∧
      ((∀ c : Fin 64, a < c → (p.depot.account c).count = 0) →
        (p.depot.journal.boundaryPending = true → ∀ c : Fin 64, c < a → (p.depot.account c).count = 0) →
        q.depot.journal.waiting = p.depot.journal.waiting) := by
  obtain ⟨h1, h2⟩ := h _ rfl hc
  have first : ∀ P : Fin 64 → Prop, (∃ c, P c) → ∃ c, P c ∧ ∀ i, i < c → ¬ P i := by
    intro P hP
    classical
    obtain ⟨c, hc, hm⟩ := WellFounded.has_min (α := Fin 64) wellFounded_lt {c | P c} hP
    exact ⟨c, hc, fun i hi hPi => hm i hPi hi⟩
  by_cases hz : ∀ c : Fin 64, a < c → (p.depot.account c).count = 0
  · obtain ⟨k1, k2⟩ := h2 hz
    cases hb : p.depot.journal.boundaryPending with
    | false =>
      obtain ⟨_, _, rfl⟩ := k1 hb
      exact ⟨by simp [Part.withPending, Part.withJournal], Or.inl rfl, fun _ _ => rfl⟩
    | true =>
      obtain ⟨m1, m2⟩ := k2 hb
      by_cases hl : ∀ c : Fin 64, c < a → (p.depot.account c).count = 0
      · obtain ⟨_, _, rfl⟩ := m1 hl
        exact ⟨by simp [Part.withPending, Part.withJournal], Or.inl rfl, fun _ _ => rfl⟩
      · obtain ⟨c, ⟨e1, e2⟩, e3⟩ := first (fun c => c < a ∧ (p.depot.account c).count ≠ 0) (by simpa using hl)
        obtain ⟨_, _, rfl⟩ := m2 c e1 e2 fun i hi => by
          by_contra k
          exact e3 i hi ⟨lt_trans hi e1, k⟩
        exact ⟨by simp [Part.withPending, Part.withJournal], Or.inr ⟨c, rfl⟩, fun _ k => absurd (k rfl) hl⟩
  · obtain ⟨c, ⟨e1, e2⟩, e3⟩ := first (fun c => a < c ∧ (p.depot.account c).count ≠ 0) (by simpa using hz)
    obtain ⟨_, _, rfl⟩ := h1 c e1 e2 fun i hi hic => by
      by_contra k
      exact e3 i hic ⟨hi, k⟩
    exact ⟨by simp [Part.withJournal], Or.inr ⟨c, rfl⟩, fun k => absurd k hz⟩

/-! ## The judgement of the waiting list (R142) -/

/-- The oldest claim fits, and after its admission the next does not. -/
theorem Depot.judgeClaims_head (now : Calendar) (c : Claim) (rest : List Claim) (d e : Depot)
    (hw : d.journal.waiting = c :: rest) (hs : d.journal.queue.length + c.size ≤ 8)
    (he : e = (d.modifyJournal fun j => { j with waiting := rest }).admitClaim now c)
    (hn : e.journal.waiting = [] ∨ ∃ c rest, e.journal.waiting = c :: rest ∧ 8 < e.journal.queue.length + c.size ∧
      e.journal.queue.length ≤ 8) : d.judgeClaims now = e := by
  unfold Depot.judgeClaims Config.insertionDepth Depot.admitUpTo
  rw [hw]
  dsimp only
  rw [if_pos (by unfold Journal.room Config.insertionDepth; omega), ← he]
  rcases hn with hn | ⟨c', rest', h1, h2, h3⟩
  · exact Depot.admitUpTo_empty now 7 _ hn
  · exact Depot.admitUpTo_stuck now 7 _ c' rest' h1 h2 h3

/-- The oldest claim is admitted, and no other: its records fill the queue, or it waits alone and its admission
places no claim. -/
theorem Part.admits_judgeClaims (c : Claim) (rest : List Claim) (p : Part)
    (hw : p.depot.journal.waiting = c :: rest) (hs : p.depot.journal.queue.length + c.size ≤ 8)
    (hn : (p.depot.journal.queue.length + c.size = 8 ∧ ∀ d ∈ rest, d.size ≠ 0) ∨
      (rest = [] ∧ ∀ a, c = .sweep a → (∀ i : Fin 64, a < i → (p.depot.account i).count = 0) ∧
        (p.depot.journal.boundaryPending = true → ∀ i : Fin 64, i < a → (p.depot.account i).count = 0)))
    (hc : ∀ a, c = .sweep a → p.depot.noCreditHold) :
    (p.withJournal { p.depot.journal with waiting := rest }).admits c
      { p with depot := p.depot.judgeClaims p.calendar.now } := by
  obtain ⟨x, hx⟩ : ∃ x, x = p.withJournal { p.depot.journal with waiting := rest } := ⟨_, rfl⟩
  have ha := x.admits_admitClaim c
  obtain ⟨q, hq⟩ : ∃ q : Part, q = { x with depot := x.depot.admitClaim x.calendar.now c } := ⟨_, rfl⟩
  rw [← hq] at ha
  have hxj : x.depot.journal.queue = p.depot.journal.queue ∧ x.depot.journal.waiting = rest := by
    rw [hx]
    exact ⟨rfl, rfl⟩
  obtain ⟨k1, k2, k3⟩ : q.depot.journal.queue.length = p.depot.journal.queue.length + c.size ∧
      (q.depot.journal.waiting = rest ∨ ∃ a, q.depot.journal.waiting = rest ++ [.sweep a]) ∧
      (rest = [] → (∀ a, c = .sweep a → (∀ i : Fin 64, a < i → (p.depot.account i).count = 0) ∧
        (p.depot.journal.boundaryPending = true → ∀ i : Fin 64, i < a → (p.depot.account i).count = 0)) →
        q.depot.journal.waiting = []) := by
    by_cases hsw : ∃ a, c = .sweep a
    · obtain ⟨a, rfl⟩ := hsw
      have hcalm : x.depot.noCreditHold := by
        rw [hx]
        exact hc a rfl
      obtain ⟨m1, m2, m3⟩ := Part.sweepAdmitted_journal a x q ha hcalm
      rw [hxj.1] at m1
      rw [hxj.2] at m2 m3
      refine ⟨m1, m2, fun h1 h2 => (m3 ?_ ?_).trans h1⟩
      · rw [hx]
        exact (h2 a rfl).1
      · rw [hx]
        exact (h2 a rfl).2
    · obtain ⟨m1, m2⟩ := x.depot.admitClaim_journal x.calendar.now c fun a k => hsw ⟨a, k⟩
      rw [hxj.1] at m1
      rw [hxj.2] at m2
      rw [hq]
      exact ⟨m1, Or.inl m2, fun h _ => m2.trans h⟩
  have hj : p.depot.judgeClaims p.calendar.now = q.depot := by
    refine Depot.judgeClaims_head p.calendar.now c rest p.depot q.depot hw hs (by rw [hq, hx]; rfl) ?_
    rcases hn with ⟨h8, hz⟩ | ⟨h1, h2⟩
    · have stuck : ∀ l : List Claim, (∀ d ∈ l, d.size ≠ 0) → q.depot.journal.waiting = l →
          q.depot.journal.waiting = [] ∨ ∃ c rest, q.depot.journal.waiting = c :: rest ∧
            8 < q.depot.journal.queue.length + c.size ∧ q.depot.journal.queue.length ≤ 8 := by
        intro l hl hw
        cases l with
        | nil => exact Or.inl hw
        | cons d l =>
          have := hl d List.mem_cons_self
          exact Or.inr ⟨d, l, hw, by omega, by omega⟩
      rcases k2 with k2 | ⟨a, k2⟩
      · exact stuck _ hz k2
      · refine stuck _ (fun d hd => ?_) k2
        rcases List.mem_append.1 hd with hd | hd
        · exact hz d hd
        · rw [List.mem_singleton.1 hd]
          exact Nat.one_ne_zero
    · exact Or.inl (k3 h1 h2)
  rw [hj, ← hx]
  have : ({ p with depot := q.depot } : Part) = q := by
    rw [hq, hx]
    rfl
  rw [this]
  exact ha

/-- A claim that waits as it is placed joins the list. -/
theorem Depot.placeClaim_waits (now : Calendar) (c : Claim) (d : Depot) (h : d.journal.claimWaits c) :
    d.placeClaim now c = d.appendClaim c := by
  obtain ⟨h1, h2, h3⟩ := h
  cases hw : d.journal.waiting with
  | nil =>
    refine Depot.admitUpTo_stuck now _ _ c [] ?_ (h2 hw) h1
    show d.journal.waiting ++ [c] = [c]
    rw [hw]
    rfl
  | cons old rest => exact Depot.placeClaim_stuck now c _ old rest hw (h3 old rest hw) h1

/-- A claim, but the sweep's, that fits as it is placed is admitted, and none waits. -/
theorem Depot.placeClaim_fits (now : Calendar) (c : Claim) (d : Depot) (hc : ∀ a, c ≠ .sweep a)
    (h : d.journal.claimFits c) :
    d.placeClaim now c = d.admitClaim now c ∧ (d.placeClaim now c).journal.waiting = [] := by
  obtain ⟨h1, h2⟩ := h
  have hd : (d.appendClaim c).modifyJournal (fun j => { j with waiting := [] }) = d := by
    show ({ d with journal := { d.journal with waiting := [] } } : Depot) = d
    rw [← h1]
  have hw : (d.admitClaim now c).journal.waiting = [] := by rw [(d.admitClaim_journal now c hc).2, h1]
  have : d.placeClaim now c = d.admitClaim now c := by
    refine Depot.judgeClaims_head now c [] _ _ ?_ h2 (by rw [hd]) (Or.inl hw)
    show d.journal.waiting ++ [c] = [c]
    rw [h1]
    rfl
  exact ⟨this, this ▸ hw⟩

/-- A placed claim of any claimant but the sweep. -/
theorem Part.placed_placeClaim (now : Calendar) (c : Claim) (p : Part) (h : ∀ a, c ≠ .sweep a) :
    p.placed c { p with depot := p.depot.placeClaim now c } := by
  refine ⟨fun k => ?_, fun k => ?_⟩
  · rw [p.depot.placeClaim_waits now c k]
    rfl
  · rw [(p.depot.placeClaim_fits now c h k).1, p.depot.admitClaim_now now p.calendar.now c h]
    exact p.admits_admitClaim c

/-! ## The close of a session (R80, R81, R144) -/

/-- The close of a session. -/
theorem Part.closed_closeSession (now : Calendar) (b : Fin 8) (reason : CloseReason) (p : Part) :
    p.closed b reason now { p with depot := p.depot.closeSession now b reason } := by
  obtain ⟨d1, hd1⟩ : ∃ d1, d1 = (if (p.depot.session b).state = .lookup then p.depot.withdrawLookup b else p.depot) :=
    ⟨_, rfl⟩
  obtain ⟨d2, hd2⟩ : ∃ d2, d2 = d1.modifySession b (Session.endLine now) := ⟨_, rfl⟩
  obtain ⟨d3, hd3⟩ : ∃ d3, d3 = d2.modifyBay b fun y =>
      { y with session := { y.session with state := .closing, closeReason := some reason }
               silence := none
               hold := none } := ⟨_, rfl⟩
  obtain ⟨records, hrec⟩ : ∃ records, records = d2.endRecords b reason now := ⟨_, rfl⟩
  have hcs : p.depot.closeSession now b reason = d3.placeBayClaim now b records := by
    rw [hd3, hrec, hd2, hd1]
    rfl
  have hx : p.closing b reason now = { p with depot := d3 } := by
    rw [hd3, hd2, hd1]
    have hf : (fun l : Lookup => l.bay != b) = fun l => Decidable.decide (l.bay ≠ b) := by
      funext l
      by_cases h : l.bay = b <;> simp [h]
    by_cases hl : (p.depot.session b).state = .lookup
    · have hr : p.depot.sessions.bays[b.val].session.state = .lookup := hl
      simp [Part.closing, Part.withBay, Part.withIdentity, hr, Depot.withdrawLookup, Depot.modifySession,
        Depot.modifyBay, modifyAt, Session.endLine_eq, Depot.bay, Depot.session, hf]
    · have hr : ¬ p.depot.sessions.bays[b.val].session.state = .lookup := hl
      have hid : ∀ o : Option Fetch, o.map (fun f => f) = o := by
        intro o
        cases o <;> rfl
      simp [Part.closing, Part.withBay, Part.withIdentity, hr, Depot.modifySession,
        Depot.modifyBay, modifyAt, Session.endLine_eq, Depot.bay, Depot.session, hid]
  have hj : d3.journal = p.depot.journal := by
    rw [hd3, hd2, hd1]
    split <;> rfl
  have hs2 : d2.session b =
      { p.depot.session b with
        lines := (p.depot.session b).lines.map fun l => if l.stop = none then { l with stop := some now } else l } := by
    rw [hd2, Depot.session_modifySession, Session.endLine_eq, hd1]
    split <;> rfl
  have hw : ∀ c, p.depot.journal.claimWaits c → d3.journal.claimWaits c := fun c h => by rw [hj]; exact h
  have hfit : ∀ c, p.depot.journal.claimFits c → d3.journal.claimFits c := fun c h => by rw [hj]; exact h
  refine ⟨records, ⟨fun h => ?_, fun r h hr => ?_⟩, fun h => ?_, fun h => ?_⟩
  · rw [hrec]
    unfold Depot.endRecords
    rw [hs2]
    rcases h with h | h <;> simp only [h]
  · have : d1 = p.depot := by
      rw [hd1, if_neg]
      rcases h with h | h <;> (rw [h]; decide)
    rw [hrec, hd2, this]
    exact p.depot.endRecords_active b reason now r _ rfl h hr
  · rw [hcs, hx]
    unfold Depot.placeBayClaim
    dsimp only
    rw [d3.placeClaim_waits now _ (hw _ h),
      if_pos (by simp [Journal.bayWaits, Depot.appendClaim, Depot.modifyJournal, Claim.claimant])]
    rfl
  · rw [hcs, hx]
    obtain ⟨h1, h2⟩ := d3.placeClaim_fits now (.bay b records) (by simp) (hfit _ h)
    unfold Depot.placeBayClaim
    dsimp only
    rw [if_neg (by simp [Journal.bayWaits, h2]), h1]
    exact Part.bayAdmitted_vacate b records { p with depot := d3 }

/-- The close of a session leaves every other bay and the validity of every account, where no waiting claim fits. -/
theorem Depot.closeSession_frame (now : Calendar) (b : Fin 8) (reason : CloseReason) (d : Depot)
    (hq : d.journal.queue.length ≤ 8)
    (hs : ∀ c rest, d.journal.waiting = c :: rest → 8 < d.journal.queue.length + c.size) :
    (∀ c, c ≠ b → (d.closeSession now b reason).bay c = d.bay c) ∧
      (d.closeSession now b reason).sessions.silenceLimit = d.sessions.silenceLimit ∧
      ∀ a, ((d.closeSession now b reason).account a).valid = (d.account a).valid := by
  obtain ⟨d1, hd1⟩ : ∃ d1, d1 = (if (d.session b).state = .lookup then d.withdrawLookup b else d) := ⟨_, rfl⟩
  obtain ⟨d3, hd3⟩ : ∃ d3, d3 = (d1.modifySession b (Session.endLine now)).modifyBay b fun y =>
      { y with session := { y.session with state := .closing, closeReason := some reason }
               silence := none
               hold := none } := ⟨_, rfl⟩
  obtain ⟨records, hrec⟩ : ∃ records, records = (d1.modifySession b (Session.endLine now)).endRecords b reason now :=
    ⟨_, rfl⟩
  have hcs : d.closeSession now b reason = d3.placeBayClaim now b records := by
    rw [hd3, hrec, hd1]
    rfl
  have h1 : BayEvent b d d1 := by
    rw [hd1]
    split <;> exact ⟨fun _ _ => rfl, rfl, rfl, fun _ => rfl⟩
  have h3 : BayEvent b d d3 := by
    rw [hd3]
    exact h1.trans ((BayEvent.modifyBay b _ d1).trans (BayEvent.modifyBay b _ _))
  have hj : d3.journal = d.journal := by
    rw [hd3, hd1]
    split <;> rfl
  have hP : (∀ c, c ≠ b → (d3.placeClaim now (.bay b records)).bay c = d.bay c) ∧
      (d3.placeClaim now (.bay b records)).sessions.silenceLimit = d.sessions.silenceLimit ∧
      ∀ a, ((d3.placeClaim now (.bay b records)).account a).valid = (d.account a).valid := by
    by_cases h : d.journal.waiting = [] ∧ d.journal.queue.length + records.length ≤ 8
    · rw [(d3.placeClaim_fits now _ (by simp) (by rw [hj]; exact h)).1]
      have := h3.trans (BayEvent.admitClaim now b records d3).1
      exact ⟨this.bays, this.silenceLimit, this.valid⟩
    · rw [d3.placeClaim_waits now _ (by
        rw [hj]
        exact ⟨hq, fun hw => not_le.1 fun k => h ⟨hw, k⟩, hs⟩)]
      exact ⟨h3.bays, h3.silenceLimit, h3.valid⟩
  rw [hcs]
  unfold Depot.placeBayClaim
  dsimp only
  split <;> exact hP

end Sys2Proof.Machine
end

