-- ==== Sys2Proof/Laws/Ticks.lean ====
section
/-!
SUPPORT. What the events of a tick leave alone, as a warm reset needs it (R157, R169): two relations that every event of
a tick keeps.
-/

namespace Sys2Proof.Machine

open Sys2Proof

/-- The fields of an account that a commit sets are as before (R113). -/
def Account.hostEq (a b : Account) : Prop :=
  b.valid = a.valid ∧ b.haulier = a.haulier ∧ b.band = a.band ∧ b.limit = a.limit ∧ b.manualHold = a.manualHold

theorem Account.hostEq_refl (a : Account) : a.hostEq a := ⟨rfl, rfl, rfl, rfl, rfl⟩

theorem Account.hostEq_trans {a b c : Account} (h : a.hostEq b) (k : b.hostEq c) : a.hostEq c :=
  ⟨k.1.trans h.1, k.2.1.trans h.2.1, k.2.2.1.trans h.2.2.1, k.2.2.2.1.trans h.2.2.2.1,
    k.2.2.2.2.trans h.2.2.2.2⟩

/-- What the events of a tick leave of the units behind the bus: the settings, the statics of the accounts, the cache
and the fetch, the bays' counters, the ring's indices and the mask. -/
structure KeepsDepot (d e : Depot) : Prop where
  identity : e.identity = { d.identity with lookups := e.identity.lookups }
  bays : ∀ b, (e.bay b).conflicting = (d.bay b).conflicting ∧
    (e.bay b).parkOverwrite = (d.bay b).parkOverwrite
  silenceLimit : e.sessions.silenceLimit = d.sessions.silenceLimit
  holdLimit : e.sessions.holdLimit = d.sessions.holdLimit
  water : e.water =
    { d.water with
      meters := e.water.meters, quality := e.water.quality, qualityTimer := e.water.qualityTimer
      badSamples := e.water.badSamples, available := e.water.available, stage := e.water.stage
      totals := e.water.totals, unattributed := e.water.unattributed }
  meters : ∀ m : Fin 20, e.water.meters[m].clearFault = d.water.meters[m].clearFault
  charge : e.charge = { d.charge with accounts := e.charge.accounts }
  accounts : ∀ a, (d.account a).hostEq (e.account a)
  journal : e.journal.head = d.journal.head ∧ e.journal.tail = d.journal.tail ∧
    e.journal.nextSeq = d.journal.nextSeq ∧ e.journal.nearFull = d.journal.nearFull
  mask : e.notices.mask = d.notices.mask

namespace KeepsDepot

theorem refl (d : Depot) : KeepsDepot d d :=
  ⟨rfl, fun _ => ⟨rfl, rfl⟩, rfl, rfl, rfl, fun _ => rfl, rfl, fun _ => Account.hostEq_refl _, ⟨rfl, rfl, rfl, rfl⟩,
    rfl⟩

theorem trans {d e f : Depot} (h : KeepsDepot d e) (k : KeepsDepot e f) : KeepsDepot d f where
  identity := by rw [k.identity, h.identity]
  bays b := ⟨(k.bays b).1.trans (h.bays b).1, (k.bays b).2.trans (h.bays b).2⟩
  silenceLimit := k.silenceLimit.trans h.silenceLimit
  holdLimit := k.holdLimit.trans h.holdLimit
  water := by rw [k.water, h.water]
  meters m := (k.meters m).trans (h.meters m)
  charge := by rw [k.charge, h.charge]
  accounts a := Account.hostEq_trans (h.accounts a) (k.accounts a)
  journal := ⟨k.journal.1.trans h.journal.1, k.journal.2.1.trans h.journal.2.1,
    k.journal.2.2.1.trans h.journal.2.2.1, k.journal.2.2.2.trans h.journal.2.2.2⟩
  mask := k.mask.trans h.mask

theorem raise (c : Cause) (d : Depot) : KeepsDepot d (d.raise c) :=
  ⟨rfl, fun _ => ⟨rfl, rfl⟩, rfl, rfl, rfl, fun _ => rfl, rfl, fun _ => Account.hostEq_refl _, ⟨rfl, rfl, rfl, rfl⟩,
    rfl⟩

theorem modifyJournal (f : Journal → Journal) (d : Depot) (hf : ∀ j, (f j).head = j.head ∧ (f j).tail = j.tail ∧
    (f j).nextSeq = j.nextSeq ∧ (f j).nearFull = j.nearFull) : KeepsDepot d (d.modifyJournal f) :=
  ⟨rfl, fun _ => ⟨rfl, rfl⟩, rfl, rfl, rfl, fun _ => rfl, rfl, fun _ => Account.hostEq_refl _, hf _, rfl⟩

theorem enqueue (r : JournalRecord) (d : Depot) : KeepsDepot d (d.enqueue r) :=
  modifyJournal _ _ fun _ => ⟨rfl, rfl, rfl, rfl⟩

theorem append (r : Claim) (d : Depot) : KeepsDepot d (d.appendClaim r) :=
  modifyJournal _ _ fun _ => ⟨rfl, rfl, rfl, rfl⟩

theorem modifyBay (b : Fin 8) (f : Bay → Bay) (d : Depot)
    (hf : ∀ y, (f y).conflicting = y.conflicting ∧ (f y).parkOverwrite = y.parkOverwrite) :
    KeepsDepot d (d.modifyBay b f) := by
  refine ⟨rfl, fun c => ?_, rfl, rfl, rfl, fun _ => rfl, rfl, fun _ => Account.hostEq_refl _, ⟨rfl, rfl, rfl, rfl⟩, rfl⟩
  by_cases h : c = b
  · subst h; rw [Depot.bay_modifyBay]; exact hf _
  · rw [Depot.bay_modifyBay_other _ _ _ _ h]; exact ⟨rfl, rfl⟩

theorem modifySession (b : Fin 8) (f : Session → Session) (d : Depot) : KeepsDepot d (d.modifySession b f) :=
  modifyBay _ _ _ fun _ => ⟨rfl, rfl⟩

theorem modifyAccount (a : Fin 64) (f : Account → Account) (d : Depot)
    (hf : ∀ x : Account, x.hostEq (f x)) : KeepsDepot d (d.modifyAccount a f) := by
  refine ⟨rfl, fun _ => ⟨rfl, rfl⟩, rfl, rfl, rfl, fun _ => rfl, rfl, fun c => ?_, ⟨rfl, rfl, rfl, rfl⟩, rfl⟩
  by_cases h : a.val = c.val
  · have : a = c := Fin.ext h
    subst this
    have : (d.modifyAccount a f).account a = f (d.account a) := by
      simp [Depot.account, Depot.modifyAccount, modifyAt]
    rw [this]; exact hf _
  · have : (d.modifyAccount a f).account c = d.account c := by
      simp [Depot.account, Depot.modifyAccount, modifyAt, h]
    rw [this]; exact Account.hostEq_refl _

theorem draws (d : Depot) (n : Nat) : KeepsDepot d { d with draws := n } :=
  ⟨rfl, fun _ => ⟨rfl, rfl⟩, rfl, rfl, rfl, fun _ => rfl, rfl, fun _ => Account.hostEq_refl _, ⟨rfl, rfl, rfl, rfl⟩,
    rfl⟩

theorem bind (a : Fin 64) (d : Depot) : KeepsDepot d (d.bind a) :=
  modifyAccount _ _ _ fun _ => ⟨rfl, rfl, rfl, rfl, rfl⟩

theorem release (a : Fin 64) (d : Depot) : KeepsDepot d (d.release a) :=
  modifyAccount _ _ _ fun _ => ⟨rfl, rfl, rfl, rfl, rfl⟩

theorem releaseBinding (b : Fin 8) (d : Depot) : KeepsDepot d (d.releaseBinding b) := by
  unfold Depot.releaseBinding
  split
  · split
    · exact release _ _
    · exact refl _
  · exact refl _

theorem takeAccount (b a c) (d : Depot) : KeepsDepot d (d.takeAccount b a c) := by
  unfold Depot.takeAccount; dsimp only
  split
  · exact (modifySession _ _ _).trans (bind _ _)
  · exact modifySession _ _ _

theorem enterHeld (b r) (d : Depot) : KeepsDepot d (d.enterHeld b r) := by
  unfold Depot.enterHeld
  refine KeepsDepot.trans (modifyBay _ _ _ ?_) (raise _ _)
  intro y; exact ⟨rfl, rfl⟩

theorem enterAdmitted (b) (d : Depot) : KeepsDepot d (d.enterAdmitted b) := by
  unfold Depot.enterAdmitted
  refine modifyBay _ _ _ ?_
  intro y; exact ⟨rfl, rfl⟩

theorem lookups (l) (d : Depot) : KeepsDepot d { d with identity := { d.identity with lookups := l } } := by
  constructor
  · rfl
  · intro _; exact ⟨rfl, rfl⟩
  · rfl
  · rfl
  · rfl
  · intro _; rfl
  · rfl
  · intro a; exact Account.hostEq_refl (d.account a)
  · exact ⟨rfl, rfl, rfl, rfl⟩
  · rfl

theorem takeVerdict (b c v) (d : Depot) : KeepsDepot d (d.takeVerdict b c v) := by
  unfold Depot.takeVerdict
  cases v <;> cases c
  · exact enterAdmitted _ _
  · exact (takeAccount _ _ _ _).trans (enterAdmitted _ _)
  · exact enterHeld _ _ _
  · exact (takeAccount _ _ _ _).trans (enterHeld _ _ _)

theorem arriveVacant (b t st) (d : Depot) : KeepsDepot d (d.arriveVacant b t st) := by
  unfold Depot.arriveVacant; dsimp only
  generalize hd : d.modifySession b _ = d1
  have h1 : KeepsDepot d d1 := by rw [← hd]; exact modifySession _ _ _
  split
  · exact h1.trans (takeVerdict _ _ _ _)
  · exact h1.trans (lookups _ _)

theorem vacate (b) (d : Depot) : KeepsDepot d (d.vacate b) := by
  unfold Depot.vacate; dsimp only
  generalize hd : (d.releaseBinding b).modifyBay b _ = d1
  have h1 : KeepsDepot d d1 := by
    rw [← hd]
    refine (releaseBinding _ _).trans (modifyBay _ _ _ ?_)
    intro y; exact ⟨rfl, rfl⟩
  split
  · exact h1.trans (arriveVacant _ _ _ _)
  · exact h1

theorem reevaluate (b) (d : Depot) : KeepsDepot d (d.reevaluate b) := by
  unfold Depot.reevaluate; dsimp only
  split
  · exact refl _
  · split
    · split
      · exact enterAdmitted _ _
      · split
        · exact refl _
        · exact (modifySession _ _ _).trans (raise _ _)
    · exact refl _

theorem foldl {α} (f : Depot → α → Depot) (h : ∀ x a, KeepsDepot x (f x a)) (l : List α) (d : Depot) :
    KeepsDepot d (l.foldl f d) := by
  induction l generalizing d with
  | nil => exact refl _
  | cons a l ih => exact (h d a).trans (ih _)

theorem reevaluateAll (a) (d : Depot) : KeepsDepot d (d.reevaluateAll a) := by
  unfold Depot.reevaluateAll; dsimp only
  exact (draws _ _).trans (foldl _ (fun x b => reevaluate b x) _ _)

theorem resetAccount (a) (d : Depot) : KeepsDepot d (d.resetAccount a) := by
  unfold Depot.resetAccount
  refine KeepsDepot.trans (modifyAccount _ _ _ ?_) (reevaluateAll _ _)
  intro x; exact ⟨rfl, rfl, rfl, rfl, rfl⟩

theorem walk (l) (d : Depot) : KeepsDepot d (Depot.walk l d) := by
  induction l generalizing d with
  | nil =>
    exact (modifyJournal (fun j => { j with sweep := none }) d fun _ => ⟨rfl, rfl, rfl, rfl⟩).trans (raise _ _)
  | cons a l ih =>
    unfold Depot.walk
    split
    · exact (resetAccount _ _).trans (ih _)
    · exact (modifyJournal (fun j => { j with sweep := some a }) d fun _ => ⟨rfl, rfl, rfl, rfl⟩).trans (append _ _)

theorem beginPeriod (d : Depot) : KeepsDepot d d.beginPeriod :=
  (modifyJournal (fun j => { j with period := j.period + 1, sweep := some 0 }) d fun _ => ⟨rfl, rfl, rfl, rfl⟩).trans
    (walk _ _)

theorem continueSweep (n) (d : Depot) : KeepsDepot d (d.continueSweep n) := by
  unfold Depot.continueSweep; dsimp only
  split
  · exact ((walk _ _).trans
      (modifyJournal (fun j => { j with boundaryPending := false }) _ fun _ => ⟨rfl, rfl, rfl,
        rfl⟩)).trans (beginPeriod _)
  · exact walk _ _

theorem applyRecords (l) (d : Depot) : KeepsDepot d (Depot.applyRecords l d) := by
  induction l generalizing d with
  | nil => exact refl _
  | cons c l ih =>
    unfold Depot.applyRecords
    have h1 : KeepsDepot d (d.applyRecord c).1 := by
      unfold Depot.applyRecord
      split
      · exact modifyAccount _ _ _ fun _ => ⟨rfl, rfl, rfl, rfl, rfl⟩
      · exact refl _
    exact (h1.trans (enqueue (d.applyRecord c).2 _)).trans (ih _)

theorem admitClaim (now c) (d : Depot) : KeepsDepot d (d.admitClaim now c) := by
  unfold Depot.admitClaim
  split
  · exact (applyRecords _ _).trans (vacate _ _)
  · exact ((enqueue _ _).trans (resetAccount _ _)).trans (continueSweep _ _)
  · exact enqueue _ _
  · rename_i m _ _ _
    refine ⟨rfl, fun _ => ⟨rfl, rfl⟩, rfl, rfl, rfl, fun n => ?_, rfl, fun _ => Account.hostEq_refl _, ⟨rfl, rfl, rfl,
      rfl⟩, rfl⟩
    simp only [modifyAt, Fin.getElem_fin, Vector.getElem_set]
    split
    · rename_i h; simp only [h]; rfl
    · rfl
  · exact enqueue _ _

theorem admitUpTo (now n) (d : Depot) : KeepsDepot d (d.admitUpTo now n) := by
  induction n generalizing d with
  | zero => exact refl _
  | succ n ih =>
    unfold Depot.admitUpTo
    split
    · exact refl _
    · split
      · refine KeepsDepot.trans (KeepsDepot.trans ?_ (admitClaim _ _ _)) (ih _)
        exact modifyJournal _ _ fun _ => ⟨rfl, rfl, rfl, rfl⟩
      · exact refl _

theorem judgeClaims (now) (d : Depot) : KeepsDepot d (d.judgeClaims now) := admitUpTo _ _ _

theorem placeClaim (now c) (d : Depot) : KeepsDepot d (d.placeClaim now c) := (append _ _).trans (judgeClaims _ _)

theorem startWrite (r) (d : Depot) : KeepsDepot d (d.startWrite r) := by
  obtain ⟨q, w, h, _⟩ := Depot.startWrite_frame r d
  rw [h]
  exact modifyJournal (fun j => { j with queue := q, writing := w }) d fun _ => ⟨rfl, rfl, rfl, rfl⟩

theorem modifyWater (f : Water → Water) (d : Depot)
    (hf : ∀ w, f w =
      { w with
        quality := (f w).quality, qualityTimer := (f w).qualityTimer, badSamples := (f w).badSamples
        available := (f w).available, stage := (f w).stage, totals := (f w).totals
        unattributed := (f w).unattributed }) :
    KeepsDepot d (d.modifyWater f) := by
  refine ⟨rfl, fun _ => ⟨rfl, rfl⟩, rfl, rfl, ?_, fun n => ?_, rfl, fun _ => Account.hostEq_refl _, ⟨rfl, rfl, rfl,
    rfl⟩, rfl⟩
  · show f d.water = _
    have : (d.modifyWater f).water = f d.water := rfl
    rw [this]
    have h := hf d.water
    rw [h]
  · have : (d.modifyWater f).water.meters = d.water.meters := by
      show (f d.water).meters = _
      rw [hf d.water]
    simp only [this]

theorem judgeAvailability (d : Depot) : KeepsDepot d d.judgeAvailability := by
  unfold Depot.judgeAvailability
  split
  · exact refl _
  · exact (modifyWater _ _ fun w => rfl).trans (raise _ _)

theorem evaluateStage (d : Depot) : KeepsDepot d d.evaluateStage := by
  unfold Depot.evaluateStage
  split
  · exact refl _
  · exact (modifyWater _ _ fun w => rfl).trans (raise _ _)

theorem qualityExpiry (d : Depot) : KeepsDepot d (d.qualityEvent Water.qualityExpiry) := by
  unfold Depot.qualityEvent
  refine KeepsDepot.trans (modifyWater _ _ fun w => ?_) (judgeAvailability _)
  unfold Water.qualityExpiry
  split
  · unfold Water.enterSampling; split
    · rfl
    · split <;> rfl
  · rfl
  · rfl

theorem listQuotaDay (now) (d : Depot) : KeepsDepot d (d.listQuotaDay now) := by
  unfold Depot.listQuotaDay
  split
  · exact modifyJournal (fun j => { j with waiting := _ }) d fun _ => ⟨rfl, rfl, rfl, rfl⟩
  · exact append _ _

theorem startDay (d : Depot) : KeepsDepot d d.startDay := (modifyWater _ _ fun _ => rfl).trans (evaluateStage _)

theorem takeBoundary (d : Depot) : KeepsDepot d d.takeBoundary := by
  unfold Depot.takeBoundary
  split
  · split
    · exact raise _ _
    · exact modifyJournal (fun j => { j with boundaryPending := true }) d fun _ => ⟨rfl, rfl, rfl, rfl⟩
  · exact beginPeriod _

theorem resetBoundaries (u : CalendarUnit) (d : Depot) : KeepsDepot d (d.resetBoundaries u) := by
  have h1 : KeepsDepot d (if u.quotaDayFires then (d.listQuotaDay u.tickStamp).startDay else d) := by
    split
    · exact (listQuotaDay _ _).trans (startDay _)
    · exact refl _
  unfold Depot.resetBoundaries
  dsimp only
  split
  · exact h1.trans (takeBoundary _)
  · exact h1

end KeepsDepot

/-- What a tick within a reset leaves of the part: path, capture and store whole, the calendar but for its time. -/
structure KeepsPart (p q : Part) : Prop where
  eq : q = { p with calendar := q.calendar, depot := q.depot }
  cal : q.calendar = { p.calendar with now := q.calendar.now, tickStamp := q.calendar.tickStamp }
  depot : KeepsDepot p.depot q.depot

namespace KeepsPart

theorem refl (p : Part) : KeepsPart p p := ⟨rfl, rfl, KeepsDepot.refl _⟩

theorem trans {p q r : Part} (h : KeepsPart p q) (k : KeepsPart q r) : KeepsPart p r :=
  ⟨by rw [k.eq, h.eq], by rw [k.cal, h.cal], h.depot.trans k.depot⟩

theorem onTick (f) (p : Part) (hf : ∀ c d, KeepsDepot d (f c d)) : KeepsPart p (p.onTick f) :=
  ⟨rfl, rfl, (hf _ _).trans (KeepsDepot.startWrite _ _)⟩

theorem resetTick (p : Part) : KeepsPart p p.resetTick := ⟨rfl, rfl, KeepsDepot.resetBoundaries _ _⟩

theorem expireQuality (p : Part) : KeepsPart p (p.expire .quality) := by
  unfold Part.expire
  split
  · exact onTick _ _ fun _ _ => KeepsDepot.qualityExpiry _
  · exact refl _

theorem windowTick (p : Part) : KeepsPart p p.windowTick := by
  have h : ∀ q : Part, KeepsPart q { q with depot := q.depot.modifyWater Water.tick } := fun q =>
    ⟨rfl, rfl, KeepsDepot.modifyWater _ _ fun _ => rfl⟩
  exact ((expireQuality p).trans (h _)).trans (expireQuality _)

theorem iterate (f : Part → Part) (h : ∀ p,
  KeepsPart p (f p)) (n : Nat) (p : Part) : KeepsPart p (Nat.repeat f n p) := by
  induction n with
  | zero => exact refl _
  | succ n ih => exact ih.trans (h _)

/-- What the ticks of a warm reset leave (R157, R169). -/
theorem resetTicks (w : ResetOrder) (p : Part) : KeepsPart p (p.resetTicks w) :=
  (iterate _ windowTick _ _).trans (iterate _ resetTick _ _)

/-- What the ticks that count on the restarted window leave. -/
theorem windowTicks (n : Nat) (p : Part) : KeepsPart p (p.windowTicks n) := iterate _ windowTick _ _

end KeepsPart

end Sys2Proof.Machine
end

