-- ==== Sys2Proof/Laws/Resets.lean ====
section
/-!
SUPPORT. The warm reset (01, R21; 07, R150, R151; 08, R169): what stands at it, the window that it restarts, and the
RESTART record with the sweep that it resumes.
-/

namespace Sys2Proof.Machine

open Sys2Proof

/-! ## The lost bays (R86, R150) -/

/-- A sum of flags at their own places shows each of them. -/
theorem flags_getLsbD (f : Fin 8 → Bool) (b : Fin 8) :
    (BitVec.ofNat 8 (allBays.map fun b => flag (f b) b.val).sum).getLsbD b.val = f b := by
  have hl : allBays = [0, 1, 2, 3, 4, 5, 6, 7] := by decide
  rw [hl]
  simp only [List.map, List.sum_cons, List.sum_nil]
  generalize h0 : f 0 = b0
  generalize h1 : f 1 = b1
  generalize h2 : f 2 = b2
  generalize h3 : f 3 = b3
  generalize h4 : f 4 = b4
  generalize h5 : f 5 = b5
  generalize h6 : f 6 = b6
  generalize h7 : f 7 = b7
  have : f b = [b0, b1, b2, b3, b4, b5, b6, b7].getD b.val false := by
    subst h0 h1 h2 h3 h4 h5 h6 h7
    match b with
    | 0 => rfl
    | 1 => rfl
    | 2 => rfl
    | 3 => rfl
    | 4 => rfl
    | 5 => rfl
    | 6 => rfl
    | 7 => rfl
  rw [this]
  clear this h0 h1 h2 h3 h4 h5 h6 h7 f hl
  revert b0 b1 b2 b3 b4 b5 b6 b7 b
  decide

theorem Depot.lostBays_getLsbD (d : Depot) (b : Fin 8) :
    d.lostBays.getLsbD b.val = decide ((d.session b).state ≠ .vacant) := by
  unfold Depot.lostBays
  rw [flags_getLsbD]
  cases (d.session b).state <;> rfl

/-! ## What stands at the reset, through the ticks that fall within it -/

/-- The bays that are VACANT and the number of records in the insertion queue are as before; so is a sweep that runs,
with its pointer, the period and the accounts. -/
structure Stands (d e : Depot) : Prop where
  vacant : ∀ b, (e.session b).state = .vacant ↔ (d.session b).state = .vacant
  records : e.journal.queue.length = d.journal.queue.length
  sweep : ∀ a, d.journal.sweep = some a →
    e.journal.sweep = some a ∧ e.journal.period = d.journal.period ∧ e.charge.accounts = d.charge.accounts

namespace Stands

theorem refl (d : Depot) : Stands d d := ⟨fun _ => Iff.rfl, rfl, fun _ h => ⟨h, rfl, rfl⟩⟩

theorem trans {d e f : Depot} (h : Stands d e) (k : Stands e f) : Stands d f :=
  ⟨fun b => (k.vacant b).trans (h.vacant b), k.records.trans h.records, fun a ha =>
    have h1 := h.sweep a ha
    have k1 := k.sweep a h1.1
    ⟨k1.1, k1.2.1.trans h1.2.1, k1.2.2.trans h1.2.2⟩⟩

theorem water (d : Depot) (w : Water) (n : Notices) : Stands d { d with water := w, notices := n } :=
  ⟨fun _ => Iff.rfl, rfl, fun _ h => ⟨h, rfl, rfl⟩⟩

theorem qualityExpiry (d : Depot) : Stands d (d.qualityEvent Water.qualityExpiry) := by
  unfold Depot.qualityEvent
  rw [Depot.judgeAvailability_eq]
  exact water d _ _

theorem startWrite (ring : Option Ring) (d : Depot) : Stands d (d.startWrite ring) := by
  obtain ⟨q, w, h, hq⟩ := d.startWrite_frame ring
  rw [h]
  exact ⟨fun _ => Iff.rfl, by simpa using congrArg List.length hq, fun _ h => ⟨h, rfl, rfl⟩⟩

theorem listQuotaDay (now : Calendar) (d : Depot) : Stands d (d.listQuotaDay now) := by
  unfold Depot.listQuotaDay
  split <;> exact ⟨fun _ => Iff.rfl, rfl, fun _ h => ⟨h, rfl, rfl⟩⟩

theorem startDay (d : Depot) : Stands d d.startDay := by
  unfold Depot.startDay
  rw [Depot.evaluateStage_eq]
  exact water d _ _

/-- A change that leaves the sweep's state of a depot with none running. -/
theorem of_none {d e : Depot} (hs : d.journal.sweep = none)
    (hv : ∀ b, (e.session b).state = .vacant ↔ (d.session b).state = .vacant)
    (hq : e.journal.queue.length = d.journal.queue.length) : Stands d e :=
  ⟨hv, hq, fun a ha => by rw [hs] at ha; cases ha⟩

/-- The VACANT bays and the queue alone. -/
def Same (d e : Depot) : Prop :=
  (∀ b, (e.session b).state = .vacant ↔ (d.session b).state = .vacant) ∧ e.journal.queue = d.journal.queue

theorem Same.refl (d : Depot) : Same d d := ⟨fun _ => Iff.rfl, rfl⟩

theorem Same.trans {d e f : Depot} (h : Same d e) (k : Same e f) : Same d f :=
  ⟨fun b => (k.1 b).trans (h.1 b), k.2.trans h.2⟩

theorem Same.modifyBay (b : Fin 8) (f : Bay → Bay) (d : Depot)
    (h : (f (d.bay b)).session.state = .vacant ↔ (d.session b).state = .vacant) : Same d (d.modifyBay b f) := by
  refine ⟨fun c => ?_, rfl⟩
  by_cases hc : c = b
  · subst hc
    unfold Depot.session at h ⊢
    rw [Depot.bay_modifyBay]
    exact h
  · unfold Depot.session
    rw [Depot.bay_modifyBay_other _ _ _ _ hc]

theorem Same.reevaluate (b : Fin 8) (d : Depot) : Same d (d.reevaluate b) := by
  unfold Depot.reevaluate
  dsimp only
  split
  · exact Same.refl d
  · split
    · rename_i hs
      split
      · exact Same.modifyBay b _ d (by simp [hs.1])
      · split
        · exact Same.refl d
        · exact Same.modifyBay b _ d (by show (d.session b).state = _ ↔ _; rfl)
    · exact Same.refl d

theorem Same.resetAccount (a : Fin 64) (d : Depot) : Same d (d.resetAccount a) := by
  have fold : ∀ (l : List (Fin 8)) (x : Depot), Same x (l.foldl (fun x b => x.reevaluate b) x) := by
    intro l
    induction l with
    | nil => exact fun x => Same.refl x
    | cons b l ih => exact fun x => (Same.reevaluate b x).trans (ih _)
  unfold Depot.resetAccount Depot.reevaluateAll
  exact fold _ _

theorem Same.walk (l : List (Fin 64)) (d : Depot) : Same d (Depot.walk l d) := by
  induction l generalizing d with
  | nil => exact ⟨fun _ => Iff.rfl, rfl⟩
  | cons a l ih =>
    unfold Depot.walk
    split
    · exact (Same.resetAccount a d).trans (ih _)
    · exact ⟨fun _ => Iff.rfl, rfl⟩

theorem takeBoundary (d : Depot) : Stands d d.takeBoundary := by
  unfold Depot.takeBoundary
  split
  · split <;> exact ⟨fun _ => Iff.rfl, rfl, fun _ h => ⟨h, rfl, rfl⟩⟩
  · rename_i hs
    have h : Same d d.beginPeriod :=
      Same.walk (accountsFrom 0) (d.modifyJournal fun j => { j with period := j.period + 1, sweep := some 0 })
    exact of_none (by simpa using hs) h.1 (congrArg List.length h.2)

theorem resetTick (p : Part) : Stands p.depot p.resetTick.depot := by
  have h1 : ∀ u : CalendarUnit,
      Stands p.depot (if u.quotaDayFires then (p.depot.listQuotaDay u.tickStamp).startDay else p.depot) := by
    intro u
    split
    · exact (listQuotaDay _ _).trans (startDay _)
    · exact refl _
  unfold Part.resetTick Depot.resetBoundaries
  dsimp only
  split
  · exact (h1 _).trans (takeBoundary _)
  · exact h1 _

theorem expireQuality (p : Part) : Stands p.depot (p.expire .quality).depot := by
  unfold Part.expire
  split
  · exact (qualityExpiry p.depot).trans (startWrite p.path.ring _)
  · exact refl _

theorem windowTick (p : Part) : Stands p.depot p.windowTick.depot :=
  ((expireQuality p).trans (water _ (p.expire .quality).depot.water.tick _)).trans
    (expireQuality { p.expire .quality with depot := (p.expire .quality).depot.modifyWater Water.tick })

theorem iterate (f : Part → Part) (h : ∀ p, Stands p.depot (f p).depot) (n : Nat) (p : Part) :
    Stands p.depot (Nat.repeat f n p).depot := by
  induction n with
  | zero => exact refl _
  | succ n ih => exact ih.trans (h _)

/-- What stands at the reset (R150, R169). -/
theorem resetTicks (w : ResetOrder) (p : Part) : Stands p.depot (p.resetTicks w).depot :=
  (iterate _ windowTick _ _).trans (iterate _ resetTick _ _)

end Stands

/-! ## The restarted window (R102, R112) -/

/-- The part with the quality machine and its timer changed. -/
def Part.withWindow (q : Quality) (timer : Option Nat) (p : Part) : Part :=
  { p with depot := { p.depot with water := { p.depot.water with quality := q, qualityTimer := timer } } }

theorem Part.windowTick_stopped (p : Part) (h : p.depot.water.qualityTimer = none) : p.windowTick = p := by
  have h1 : p.expire .quality = p := by
    unfold Part.expire Depot.expiryDue
    simp [h]
  have h2 : ({ p with depot := p.depot.modifyWater Water.tick } : Part) = p := by
    unfold Depot.modifyWater Water.tick tickTimer
    rw [h]
    show ({ p with depot := { p.depot with water := { p.depot.water with qualityTimer := none } } } : Part) = p
    rw [← h]
  unfold Part.windowTick
  dsimp only
  rw [h1, h2, h1]

/-- A tick on a window in SAMPLING, with no record queued and reclaim unavailable. -/
theorem Part.windowTick_sampling (p : Part) (k : Nat) (hq : p.depot.water.quality = .sampling)
    (ht : p.depot.water.qualityTimer = some (k + 1)) (ha : p.depot.water.available = false)
    (hj : p.depot.journal.queue = []) :
    p.windowTick = if k = 0 then p.withWindow .rejected none else p.withWindow .sampling (some k) := by
  have h1 : p.expire .quality = p := by
    unfold Part.expire Depot.expiryDue
    simp [ht]
  have h2 : ({ p with depot := p.depot.modifyWater Water.tick } : Part) = p.withWindow .sampling (some k) := by
    unfold Depot.modifyWater Water.tick tickTimer Part.withWindow
    rw [ht, ← hq]
    rfl
  unfold Part.windowTick
  dsimp only
  rw [h1, h2]
  unfold Part.expire Depot.expiryDue
  by_cases hk : k = 0
  · subst hk
    rw [if_pos rfl]
    show Part.onTick (Depot.expiry .quality) (p.withWindow .sampling (some 0)) = _
    unfold Part.onTick Depot.expiry Depot.qualityEvent Depot.judgeAvailability
    have h3 : ((p.withWindow .sampling (some 0)).depot.modifyWater Water.qualityExpiry) =
        (p.withWindow .rejected none).depot := rfl
    rw [h3, if_pos]
    · show ({ p.withWindow .rejected none with
        depot := (p.withWindow .rejected none).depot.startWrite _ } : Part) = _
      have h4 : ∀ r, (p.withWindow .rejected none).depot.startWrite r = (p.withWindow .rejected none).depot := by
        intro r
        unfold Depot.startWrite
        have : (p.withWindow .rejected none).depot.journal.queue = [] := hj
        rw [this]
        cases r <;> rfl
      rw [h4]
    · show _ = p.depot.water.available
      rw [ha]
      rfl
  · rw [if_neg hk, if_neg]
    show ¬ ((some k : Option Nat) == some 0) = true
    simpa using hk

/-- The ticks that count on a restarted window, with no record queued and reclaim unavailable. -/
theorem Part.windowTicks_sampling (p : Part) (k n : Nat) (hk : 0 < k) (hq : p.depot.water.quality = .sampling)
    (ht : p.depot.water.qualityTimer = some k) (ha : p.depot.water.available = false)
    (hj : p.depot.journal.queue = []) :
    p.windowTicks n = if n < k then p.withWindow .sampling (some (k - n)) else p.withWindow .rejected none := by
  induction n with
  | zero =>
    rw [if_pos hk]
    show p = _
    unfold Part.withWindow
    rw [Nat.sub_zero, ← hq, ← ht]
  | succ n ih =>
    show (p.windowTicks n).windowTick = _
    rw [ih]
    by_cases h : n < k
    · obtain ⟨m, hm⟩ : ∃ m, k - n = m + 1 := ⟨k - n - 1, by omega⟩
      rw [if_pos h, hm, Part.windowTick_sampling (p.withWindow .sampling (some (m + 1))) m rfl rfl ha hj]
      by_cases h2 : m = 0
      · rw [if_pos h2, if_neg (by omega)]
        rfl
      · rw [if_neg h2, if_pos (by omega), show k - (n + 1) = m by omega]
        rfl
    · rw [if_neg h, if_neg (by omega)]
      exact Part.windowTick_stopped _ rfl

theorem Part.windowTicks_stopped (p : Part) (n : Nat) (h : p.depot.water.qualityTimer = none) :
    p.windowTicks n = p := by
  induction n with
  | zero => rfl
  | succ n ih =>
    show (p.windowTicks n).windowTick = _
    rw [ih, Part.windowTick_stopped p h]

/-! ## The RESTART record and the sweep (R150, R151) -/

/-- The RESTART claim is admitted at once into the emptied queue (R150). -/
theorem Depot.placeClaim_restart (now : Calendar) (lost : BitVec 8) (n : Nat) (resumed : Bool) (d : Depot)
    (h1 : d.journal.waiting = []) (h2 : d.journal.queue = []) :
    d.placeClaim now (.restart lost n resumed now) =
      d.modifyJournal fun j =>
        { j with queue := [{ composed := ⟨.restart lost n resumed, none, now⟩, period := d.journal.period }] } := by
  unfold Depot.placeClaim Depot.judgeClaims
  simp [Depot.admitUpTo, Config.insertionDepth, Depot.appendClaim, Depot.modifyJournal, h1, h2, Journal.room,
    Claim.size, Depot.admitClaim, Depot.enqueue]

/-- The warm reset leaves no session and no claim. -/
theorem Depot.warmReset_sweeping (d : Depot) : Sweeping d.warmReset := by
  refine ⟨fun b => ?_, fun c hc => ?_⟩
  · simp [Depot.warmReset, Sessions.warmReset, Depot.session, Depot.bay, Bay.warmReset]
  · cases hc

/-- A sweep resumed at an account: the account is reset, with its PERIOD_TOTAL record where it has records, and the
sweep goes on above it (R146, R147, R151). The queue has room, and no claim waits. -/
theorem Depot.resumeSweep_at (now : Calendar) (a : Fin 64) (d : Depot)
    (hw : d.journal.waiting = []) (hq : d.journal.queue.length < 8) (hs : d.journal.sweep = some a)
    (hc : (d.account a).count ≠ 0) :
    ∃ m : Nat, d.resumeSweep now =
      Depot.admitUpTo now m
        (((((d.modifyJournal fun j => { j with sweep := some a }).enqueue
          { composed :=
              ⟨.periodTotal a (d.account a).haulier (d.account a).balance (d.account a).count, none, now⟩
            period := (d.account a).period }).resetAccount a).continueSweep (a.val + 1))) := by
  have h1 : d.continueSweep a.val =
      (d.modifyJournal fun j => { j with sweep := some a }).appendClaim (.sweep a) := by
    unfold Depot.continueSweep
    rw [accountsFrom_cons]
    unfold Depot.walk
    rw [if_neg hc]
    dsimp only
    rw [if_neg]
    rintro ⟨h3, _⟩
    cases h3
  refine ⟨7, ?_⟩
  unfold Depot.resumeSweep
  rw [hs]
  dsimp only
  rw [h1]
  unfold Depot.judgeClaims Config.insertionDepth Depot.admitUpTo
  have h2 : ((d.modifyJournal fun j => { j with sweep := some a }).appendClaim (.sweep a)).journal.waiting =
      [.sweep a] := by
    show d.journal.waiting ++ [.sweep a] = _
    rw [hw]
    rfl
  rw [h2]
  dsimp only
  rw [if_pos]
  · unfold Depot.admitClaim
    dsimp only
    have h3 : (((d.modifyJournal fun j => { j with sweep := some a }).appendClaim (.sweep a)).modifyJournal
        fun j => { j with waiting := [] }) = d.modifyJournal fun j => { j with sweep := some a } := by
      unfold Depot.appendClaim Depot.modifyJournal
      dsimp only
      rw [hw]
    rw [h3]
    rfl
  · show 1 ≤ 8 - d.journal.queue.length
    omega

end Sys2Proof.Machine
end

