-- ==== Sys2Proof/Laws/Windows.lean ====
section
/-!
SUPPORT. Window commits (01, R5, R6): the checks in the statements' terms, and what a changed extent leaves of the
Identity Unit and of the waiting bays (03, R52).
-/

namespace Sys2Proof.Machine

open Sys2Proof

/-! ## The checks -/

theorem windowKindOf_none (k : BitVec 3) : windowKindOf k = none ↔ k = 0 := by revert k; decide

theorem windowKindOf_inj (j k : BitVec 3) (h : windowKindOf j = windowKindOf k) : j = k := by revert j k; decide

theorem windowKindOf_guarded (k : BitVec 3) : windowKindOf k = some .guarded ↔ k = 7 := by revert k; decide

theorem windowKindOf_journal (k : BitVec 3) : windowKindOf k = some .journal ↔ k = 5 := by revert k; decide

theorem PathUnit.judgeEntry_allows (u : PathUnit) (e : Fin 8) (w : WindowEntry) (h : u.allows e w) :
    (if w.enabled then u.judgeEntry e w else none) = none := by
  rcases h with h | ⟨h1, h2, h3, h4, h5, h6⟩
  · rw [h]
    rfl
  · by_cases he : w.enabled = true
    · rw [if_pos he]
      unfold PathUnit.judgeEntry WindowEntry.baseAddr WindowEntry.size PathUnit.controlBase
      rw [if_neg, if_neg fun x => h5 ⟨by omega, by omega⟩, if_neg]
      swap
      · rw [windowKindOf_none]
        rintro (x | x | x | x)
        · omega
        · omega
        · exact h3 x
        · exact x h4
      rintro ⟨h7, hany⟩
      rw [List.any_eq_true] at hany
      obtain ⟨n, _, hn⟩ := hany
      simp only [Bool.and_eq_true, bne_iff_ne, beq_iff_eq] at hn
      rcases h6 with h6 | h6
      · exact h7 ((windowKindOf_guarded _).2 h6)
      · exact h6 n hn.1.1 hn.1.2 (windowKindOf_inj _ _ hn.2)
    · rw [if_neg he]

/-- The extent names the window's kind. -/
theorem WindowEntry.extentKind_eq (w : WindowEntry) :
    extentKind w.extent = if w.enabled then windowKindOf w.kind else none := by
  unfold WindowEntry.extent extentKind
  cases w.enabled with
  | false => rfl
  | true =>
    simp only [if_true]
    cases windowKindOf w.kind <;> rfl

theorem WindowEntry.extent_same {old w : WindowEntry} (h : old.sameExtent w) : old.extent = w.extent := by
  obtain ⟨h1, h2, h3, h4⟩ := h
  unfold WindowEntry.extent WindowEntry.baseAddr WindowEntry.size
  rw [h1, h2, h3, h4]

theorem WindowEntry.sameExtent_of {old w : WindowEntry} (ho : old.enabled = true) (hk : old.kind ≠ 0)
    (h : old.extent = w.extent) : old.sameExtent w := by
  unfold WindowEntry.extent at h
  rw [if_pos ho] at h
  cases hk1 : windowKindOf old.kind with
  | none => exact absurd ((windowKindOf_none _).1 hk1) hk
  | some k =>
    rw [hk1] at h
    by_cases hw : w.enabled = true
    · rw [if_pos hw] at h
      cases hk2 : windowKindOf w.kind with
      | none =>
        rw [hk2] at h
        simp at h
      | some j =>
        rw [hk2] at h
        simp only [Option.map_some, Option.some.injEq, Prod.mk.injEq, WindowEntry.baseAddr, WindowEntry.size] at h
        obtain ⟨h1, hb, hs⟩ := h
        refine ⟨hw.trans ho.symm, windowKindOf_inj _ _ (hk2.trans (h1 ▸ hk1.symm)), ?_, ?_⟩
        · exact (BitVec.eq_of_toNat_eq (Nat.pow_right_injective (le_refl 2) hs)).symm
        · exact BitVec.eq_of_toNat_eq (by omega)
    · rw [if_neg hw] at h
      simp at h

/-- A commit that passes the checks, and that the Journal Unit lets pass, is taken (R5, R135). -/
theorem Part.windowRefusal_none (p : Part) (e : Fin 8) (w : WindowEntry) (ha : p.path.allows e w)
    (ho : extentKind p.path.windows[e].extent ≠ some .journal)
    (hj : w.enabled = true → w.kind = 5 → p.depot.journal.head = p.depot.journal.tail ∧
      p.depot.journal.writing = none) :
    p.windowRefusal e w = none := by
  unfold Part.windowRefusal
  rw [PathUnit.judgeEntry_allows _ _ _ ha]
  dsimp only
  rw [if_neg]
  unfold Journal.windowBusy
  split
  · simp
  · split
    · rename_i h
      rw [WindowEntry.extentKind_eq] at h
      by_cases he : w.enabled = true
      · rw [if_pos he, windowKindOf_journal] at h
        obtain ⟨h1, h2⟩ := hj he h
        simp [h1, h2]
      · rw [if_neg he] at h
        cases h
    · simp

/-! ## The report of a changed extent -/

/-- The journal where a window of its kind is put in force (R135). -/
theorem Part.reportJournal_eq (old w : WindowEntry) (p : Part) (ho : extentKind old.extent ≠ some .journal) :
    p.reportJournal old.extent w.extent =
      { p with
        depot := { p.depot with
          journal := { p.depot.journal with
            head := if w.enabled = true ∧ w.kind = 5 then 0 else p.depot.journal.head
            tail := if w.enabled = true ∧ w.kind = 5 then 0 else p.depot.journal.tail } } } := by
  unfold Part.reportJournal
  have : extentKind w.extent = some .journal ↔ w.enabled = true ∧ w.kind = 5 := by
    rw [WindowEntry.extentKind_eq]
    by_cases he : w.enabled = true
    · rw [if_pos he, windowKindOf_journal]
      simp [he]
    · rw [if_neg he]
      simp [he]
  by_cases h : w.enabled = true ∧ w.kind = 5
  · rw [if_pos (Or.inr (this.2 h))]
    simp only [h, and_self, if_true]
    rfl
  · rw [if_neg (by rintro (x | x); exact ho x; exact h (this.1 x))]
    simp only [h, if_false]

/-! ## The waiting bays (R52) -/

/-- The bays of a test in HELD(DIRECTORY_FAULT), the others as they were. -/
def Depot.faulted (test : Fin 8 → Bool) (d : Depot) : Depot :=
  { d with
    sessions := { d.sessions with
      bays := Vector.ofFn fun b => if test b then d.faultedBay b else d.bay b }
    notices := { d.notices with pending := d.notices.pending ||| if ∃ b, test b = true then 8#16 else 0 } }

theorem Depot.faulted_bay (test : Fin 8 → Bool) (d : Depot) (b : Fin 8) :
    (d.faulted test).bay b = if test b then d.faultedBay b else d.bay b := by
  show (Vector.ofFn _)[b.val] = _
  simp

theorem Depot.faulted_none (d : Depot) (test : Fin 8 → Bool) (h : ∀ b, test b = false) : d.faulted test = d := by
  have hv : (Vector.ofFn fun b => if test b then d.faultedBay b else d.bay b) = d.sessions.bays := by
    apply Vector.ext
    intro i hi
    simp only [Vector.getElem_ofFn, h]
    rfl
  unfold Depot.faulted
  rw [hv, if_neg (by simp [h])]
  simp

theorem Depot.faulted_one (d : Depot) (b : Fin 8) (test : Fin 8 → Bool) (h : ∀ c, test c = true ↔ c = b) :
    d.enterHeld b .directoryFault = d.faulted test := by
  have hv : (Vector.ofFn fun c => if test c then d.faultedBay c else d.bay c) =
      d.sessions.bays.set b (d.faultedBay b) := by
    apply Vector.ext
    intro i hi
    simp only [Vector.getElem_ofFn, Vector.getElem_set]
    by_cases hib : b.val = i
    · have : (⟨i, hi⟩ : Fin 8) = b := Fin.ext hib.symm
      rw [if_pos hib, if_pos ((h _).2 this), this]
    · rw [if_neg hib, if_neg fun x => hib (congrArg Fin.val ((h _).1 x)).symm]
      rfl
  unfold Depot.faulted
  rw [hv, if_pos ⟨b, (h b).2 rfl⟩, Depot.enterHeld_eq]
  rfl

/-- Two rounds of results, where none of the second is for a bay of the first. -/
theorem Depot.faulted_faulted (d : Depot) (f g : Fin 8 → Bool) (h : ∀ b, f b = true → g b = false) :
    (d.faulted f).faulted g = d.faulted fun b => f b || g b := by
  have hv : (Vector.ofFn fun b => if g b then (d.faulted f).faultedBay b else (d.faulted f).bay b) =
      Vector.ofFn fun b => if f b || g b then d.faultedBay b else d.bay b := by
    apply Vector.ext
    intro i hi
    simp only [Vector.getElem_ofFn, Depot.faultedBay, Depot.session, Depot.faulted_bay]
    by_cases hf : f ⟨i, hi⟩ = true
    · simp [hf, h _ hf]
    · simp [hf]
      rfl
  have hp : (d.notices.pending ||| if ∃ b, f b = true then 8#16 else 0) ||| (if ∃ b, g b = true then 8#16 else 0) =
      d.notices.pending ||| if ∃ b, (f b || g b) = true then 8#16 else 0 := by
    by_cases h1 : ∃ b, f b = true
    · have : ∃ b, (f b || g b) = true := h1.imp fun b hb => by simp [hb]
      rw [if_pos h1, if_pos this]
      split
      · rw [BitVec.or_assoc]
        rfl
      · simp
    · by_cases h2 : ∃ b, g b = true
      · have : ∃ b, (f b || g b) = true := h2.imp fun b hb => by simp [hb]
        rw [if_neg h1, if_pos h2, if_pos this]
        simp
      · have : ¬ ∃ b, (f b || g b) = true := by
          rintro ⟨b, hb⟩
          rw [Bool.or_eq_true] at hb
          exact hb.elim (fun x => h1 ⟨b, x⟩) fun x => h2 ⟨b, x⟩
        rw [if_neg h1, if_neg h2, if_neg this]
        simp
  unfold Depot.faulted at hv ⊢
  dsimp only at hv ⊢
  rw [hv, hp]

/-- Bay `b`'s session waits for the tag. -/
def Depot.looksFor (d : Depot) (b : Fin 8) (t : Tag) : Bool :=
  (d.session b).state == .lookup && (d.session b).tag == t

/-- A result DIRECTORY_FAULT for a bay and a tag (R66). -/
theorem Depot.deliver_fault (b : Fin 8) (t : Tag) (d : Depot) :
    d.deliver b t none (.held .directoryFault) = d.faulted fun c => c == b && d.looksFor b t := by
  by_cases h : (d.session b).state = .lookup ∧ (d.session b).tag = t
  · rw [Depot.deliver_held b t _ d h.1 h.2]
    refine Depot.faulted_one d b _ fun c => ?_
    simp [Depot.looksFor, h.1, h.2]
  · unfold Depot.deliver
    rw [if_neg h, Depot.faulted_none]
    intro c
    have : d.looksFor b t = false := by
      unfold Depot.looksFor
      simpa using h
    simp [this]

/-- A bay given its result waits no more. -/
theorem Depot.looksFor_faulted (test : Fin 8 → Bool) (d : Depot) (b : Fin 8) (t : Tag) :
    (d.faulted test).looksFor b t = (!test b && d.looksFor b t) := by
  unfold Depot.looksFor Depot.session
  rw [Depot.faulted_bay]
  cases test b with
  | true => rfl
  | false => rfl

/-- The results of a list of lookups (R52). -/
theorem Depot.deliver_faults (l : List Lookup) (d : Depot) :
    l.foldl (fun x y => x.deliver y.bay y.tag none (.held .directoryFault)) d =
      d.faulted fun b => l.any fun y => y.bay == b && d.looksFor b y.tag := by
  induction l generalizing d with
  | nil =>
    rw [Depot.faulted_none]
    · rfl
    · intro b
      rfl
  | cons y l ih =>
    rw [List.foldl_cons, ih, Depot.deliver_fault, Depot.faulted_faulted]
    · congr 1
      funext b
      rw [List.any_cons]
      simp only [Depot.looksFor_faulted]
      by_cases hb : b = y.bay
      · subst hb
        cases d.looksFor y.bay y.tag <;> simp
      · have h1 : (b == y.bay) = false := by simpa using hb
        have h2 : (y.bay == b) = false := by simpa using fun h => hb h.symm
        simp [h1, h2]
    · intro b hb
      simp only [Bool.and_eq_true, beq_iff_eq] at hb
      obtain ⟨rfl, hb⟩ := hb
      simp [Depot.looksFor_faulted, hb]

/-! ## The report of a changed directory (R52) -/

/-- A pending preload that ends as NOT_FOUND fills the refusal latch, or sets MORE where it is full (R54, R195). -/
def Notices.preloadRefusal (n : Notices) : Option RefusalRecord :=
  match n.refusal with
  | none => some ⟨0x290, .notFound, false⟩
  | some r => some { r with more := true }

/-- The depot after the report, by the bays that are given a result, whether a preload ends, and whether a pinned entry
was valid. -/
def Depot.withoutDirectory (test : Fin 8 → Bool) (reading ended dropped : Bool) (d : Depot) : Depot :=
  { d with
    sessions := (d.faulted test).sessions
    identity := { d.identity with
      cache := (d.identity.invalidate fun _ => true).cache, victim := d.identity.pinCount, lookups := []
      fetch := none, preload := none, discarded := d.identity.discarded || reading }
    notices := { d.notices with
      pending := d.notices.pending ||| (if ∃ b, test b = true then 8#16 else 0) ||| (if ended then 4#16 else 0) |||
        (if dropped then 0x4000#16 else 0)
      refusal := if ended then d.notices.preloadRefusal else d.notices.refusal } }

theorem Depot.emptyCache_eq (d : Depot) :
    d.emptyCache =
      { d with
        identity := { d.identity with
          cache := (d.identity.invalidate fun _ => true).cache, victim := d.identity.pinCount }
        notices := { d.notices with
          pending := d.notices.pending |||
            if d.identity.pinnedHit (fun _ => true) then 0x4000#16 else 0 } } := by
  unfold Depot.emptyCache
  by_cases h : d.identity.pinnedHit (fun _ => true) = true
  · rw [if_pos h, if_pos h]
    rfl
  · have e : ∀ x : Causes, x ||| 0 = x := fun x => BitVec.or_zero
    rw [if_neg h, if_neg h, e]
    rfl

/-- The results of the queued lookups (R52, step 2). -/
theorem Depot.faultLookups_eq (d : Depot) :
    d.faultLookups =
      ({ d with identity := { d.identity with lookups := [] } } : Depot).faulted
        fun b => d.identity.lookups.any fun y => y.bay == b && d.looksFor b y.tag :=
  Depot.deliver_faults _ _

theorem Depot.dropPreload_eq (d : Depot) :
    d.dropPreload =
      { d with
        identity := { d.identity with preload := none }
        notices := { d.notices with
          pending := d.notices.pending ||| if d.identity.preload.isSome then 4#16 else 0
          refusal := if d.identity.preload.isSome then d.notices.preloadRefusal else d.notices.refusal } } := by
  unfold Depot.dropPreload
  cases h : d.identity.preload with
  | some x => rfl
  | none =>
    have e : ∀ x : Causes, x ||| 0 = x := fun x => BitVec.or_zero
    simp only [Option.isSome_none, Bool.false_eq_true, if_false, e]
    rw [← h]

/-- The bays that the fetch in flight or the lookup queue has waiting. -/
def Depot.directoryTest (d : Depot) (b : Fin 8) : Bool :=
  (match d.identity.fetch with
    | some f => decide (f.purpose = .lookup b) && !f.withdrawn && d.looksFor b f.tag
    | none => false) || d.identity.lookups.any fun y => y.bay == b && d.looksFor b y.tag

theorem Depot.directoryTest_iff (d : Depot) (b : Fin 8) : d.directoryTest b = true ↔ d.awaitsDirectory b := by
  unfold Depot.directoryTest Depot.awaitsDirectory Depot.looksFor
  have hl : (∃ y ∈ d.identity.lookups, y.bay = b ∧ (d.session b).state = .lookup ∧ (d.session b).tag = y.tag) ↔
      (d.session b).state = .lookup ∧ ⟨b, (d.session b).tag⟩ ∈ d.identity.lookups := by
    constructor
    · rintro ⟨y, hy, rfl, h1, h2⟩
      exact ⟨h1, by rw [h2]; exact hy⟩
    · rintro ⟨h1, h2⟩
      exact ⟨_, h2, rfl, h1, rfl⟩
  cases d.identity.fetch with
  | none => simp [hl]
  | some f =>
    simp only [Bool.or_eq_true, Bool.and_eq_true, decide_eq_true_eq, List.any_eq_true, beq_iff_eq, Bool.not_eq_true',
      Option.some.injEq, exists_eq_left', hl]
    exact ⟨fun h => h.elim (fun h => ⟨h.2.1, Or.inl ⟨h.1.1, h.1.2, h.2.2.symm⟩⟩) fun h => ⟨h.1, Or.inr h.2⟩,
      fun h => h.2.elim (fun k => Or.inl ⟨⟨k.1, k.2.1⟩, h.1, k.2.2.symm⟩) fun k => Or.inr ⟨h.1, k⟩⟩

/-- The fetch in flight is the preload's. -/
def Identity.fetchesPreload (i : Identity) : Bool := i.fetch.any fun f => decide (f.purpose = .preload)

/-- The last two steps of the report, after the results were given. -/
theorem Depot.dropPreload_emptyCache (test : Fin 8 → Bool) (reading : Bool) (d : Depot) :
    ({ d.faulted test with
        identity := { d.identity with
          fetch := none, discarded := d.identity.discarded || reading,
            lookups := [] } } : Depot).dropPreload.emptyCache =
      d.withoutDirectory test reading d.identity.preload.isSome (d.identity.pinnedHit fun _ => true) := by
  rw [Depot.emptyCache_eq, Depot.dropPreload_eq]
  rfl

theorem Depot.directoryChanged_eq (d : Depot) :
    d.directoryChanged =
      d.withoutDirectory d.directoryTest (d.identity.fetch.any Fetch.reading)
        (d.identity.preload.isSome || d.identity.fetchesPreload) (d.identity.pinnedHit fun _ => true) := by
  unfold Depot.directoryChanged
  rw [Depot.faultLookups_eq]
  cases hf : d.identity.fetch with
  | none =>
    have ha : d.abandonFetch = d := by
      unfold Depot.abandonFetch
      rw [hf]
    have ht : d.directoryTest = fun b => d.identity.lookups.any fun y => y.bay == b && d.looksFor b y.tag := by
      funext b
      unfold Depot.directoryTest
      rw [hf]
      rfl
    have hp : d.identity.fetchesPreload = false := by
      unfold Identity.fetchesPreload
      rw [hf]
      rfl
    rw [ha, ht, hp, Bool.or_false, ← Depot.dropPreload_emptyCache]
    simp only [Option.any_none, Bool.or_false]
    rw [← hf]
    rfl
  | some f =>
    rw [Option.any_some]
    cases hp : f.purpose with
    | preload =>
      have ha : d.abandonFetch = (d.modifyIdentity fun i =>
          { i with fetch := none, discarded := i.discarded || f.reading }).refusePreload .notFound := by
        unfold Depot.abandonFetch
        rw [hf]
        dsimp only
        rw [hp]
      have ht : d.directoryTest = fun b => d.identity.lookups.any fun y => y.bay == b && d.looksFor b y.tag := by
        funext b
        unfold Depot.directoryTest
        rw [hf]
        dsimp only
        rw [hp]
        simp
      have hq : d.identity.fetchesPreload = true := by
        unfold Identity.fetchesPreload
        rw [hf, Option.any_some, hp]
        rfl
      rw [ha, ht, hq, Bool.or_true, Depot.emptyCache_eq, Depot.dropPreload_eq]
      have e : ∀ p c : Causes, p ||| 4#16 ||| c ||| 0 = p ||| c ||| (if true then 4#16 else 0) := by
        intro p c
        rw [if_pos rfl]
        have : ∀ x : Causes, x ||| 0 = x := fun x => BitVec.or_zero
        rw [this]
        ac_rfl
      unfold Depot.withoutDirectory
      rw [← e]
      rfl
    | lookup b =>
      have hq : d.identity.fetchesPreload = false := by
        unfold Identity.fetchesPreload
        rw [hf, Option.any_some, hp]
        rfl
      rw [hq, Bool.or_false]
      by_cases hw : f.withdrawn = true
      · have ha : d.abandonFetch = d.modifyIdentity fun i =>
            { i with fetch := none, discarded := i.discarded || f.reading } := by
          unfold Depot.abandonFetch
          rw [hf]
          dsimp only
          rw [hp]
          dsimp only
          rw [if_pos hw]
        have ht : d.directoryTest = fun b => d.identity.lookups.any fun y => y.bay == b && d.looksFor b y.tag := by
          funext c
          unfold Depot.directoryTest
          rw [hf]
          dsimp only
          rw [hw]
          simp
        rw [ha, ht, ← Depot.dropPreload_emptyCache]
        rfl
      · have ha : d.abandonFetch = (d.modifyIdentity fun i =>
            { i with fetch := none, discarded := i.discarded || f.reading }).faulted
              fun c => c == b && d.looksFor b f.tag := by
          unfold Depot.abandonFetch
          rw [hf]
          dsimp only
          rw [hp]
          dsimp only
          rw [if_neg hw, Depot.deliver_fault]
          rfl
        have hcomb := Depot.faulted_faulted d (fun c => c == b && d.looksFor b f.tag)
          (fun c => d.identity.lookups.any fun y => y.bay == c &&
            ((d.faulted fun c => c == b && d.looksFor b f.tag).looksFor c y.tag)) (by
              intro c hc
              simp [Depot.looksFor_faulted, hc])
        have ht : d.directoryTest = fun c => (c == b && d.looksFor b f.tag) || d.identity.lookups.any fun y =>
            y.bay == c && ((d.faulted fun c => c == b && d.looksFor b f.tag).looksFor c y.tag) := by
          funext c
          unfold Depot.directoryTest
          rw [hf]
          dsimp only
          rw [hp]
          have hw' : f.withdrawn = false := by simpa using hw
          by_cases hc : c = b
          · subst hc
            cases d.looksFor c f.tag <;> simp [Depot.looksFor_faulted, hw']
          · have h1 : (c == b) = false := by simpa using hc
            have h2 : b ≠ c := fun h => hc h.symm
            simp [Depot.looksFor_faulted, h1, h2]
        rw [ha, ht, ← Depot.dropPreload_emptyCache, ← hcomb]
        rfl

end Sys2Proof.Machine
end

