-- ==== Sys2Proof/Tests/Slice0.lean ====
section
/-!
SUPPORT. Tests: ill-formed commands that the check refuses, the worked examples of the spec, and for every statement
with hypotheses a concrete state and operands that meet them all.
-/

namespace Sys2Proof.Tests

open Sys2Proof Sys2Proof.Machine

/-! ## States for the tests -/

/-- A window of 4 KiB with every requester permitted. -/
def tWindow (kind : BitVec 3) (base : BitVec 12) : WindowEntry :=
  { enabled := true, kind := kind, k := 12, base := base, writePermit := 0xF, readPermit := 0xF }

/-- One window of each kind, at 0x000000 to 0x006FFF, and entry 7 disabled. The straps are 0. -/
def tPath : PathUnit :=
  { windows := #v[tWindow 7 0, tWindow 1 1, tWindow 2 2, tWindow 3 3, tWindow 4 4, tWindow 5 5, tWindow 6 6, {}] }

/-- The part RUNNING behind these windows. -/
def tPart : Part := { path := tPath, store := { run := .running } }

/-- The block with this part. -/
def tState : State := { part := tPart }

/-- The block with the units behind the bus changed. -/
def tDepot (f : Depot → Depot) : State := { part := { tPart with depot := f {} } }

/-- The state after a command. -/
def after (c : Instr) (s : State) : State :=
  match exec c s with
  | .next t => t
  | _ => s

/-! ## Ill-formed commands -/

theorem test_wellFormed_refuses_unaligned_write : (Instr.upstreamWrite 2 0 0xF .site).wellFormed = false := by decide

theorem test_wellFormed_refuses_unaligned_read : (Instr.upstreamRead 1 .site).wellFormed = false := by decide

theorem test_wellFormed_refuses_admit_without_byte_0 : (Instr.admitSession 0 0xE .site).wellFormed = false := by decide

theorem test_wellFormed_refuses_turnAway_without_byte_0 : (Instr.turnAway 0 0xE .site).wellFormed = false := by decide

theorem test_wellFormed_refuses_close_without_byte_0 : (Instr.close 0 0 .site).wellFormed = false := by decide

theorem test_wellFormed_refuses_release_without_byte_0 :
    (Instr.releaseReclaim 0 0x2 .site).wellFormed = false := by decide

theorem test_wellFormed_refuses_a_named_decision_as_none :
    (Instr.decisionNoKind 4 0xF .site).wellFormed = false := by decide

theorem test_wellFormed_takes_kind_5_as_none : (Instr.decisionNoKind 5 0xF .site).wellFormed = true := by decide

/-! ## The queue of commands -/

theorem test_step_runs_the_front_command :
    (match step { tState with pending := [.refreshIntervalExpiry, .rowRefreshEnd] } with
     | .next t => (t.pending, t.part.store.debt)
     | _ => ([], 0)) = ([.rowRefreshEnd], 1) := by decide

theorem test_no_word_spells_a_command : (tState.withFetchWord 16 0xFFFF).pending = [] := by decide

/-! ## Worked examples -/

/-- The plant record of the example of chapter 2. -/
def tMeterRecord : Vector Word 4 := #v[0x00001001, 0x0012D687, 0, 0x19660000]

theorem test_meter_record_passes_the_checksum : checksumOk tMeterRecord = true := by decide

theorem test_meter_record_fails_with_another_check_halfword :
    checksumOk #v[0x00001001, 0x0012D687, 0, 0x19670000] = false := by decide

theorem test_meter_record_is_in_range : inRange .plant 4 tMeterRecord = true := by decide

theorem test_meter_20_is_out_of_range : inRange .plant 4 #v[0x00001401, 0, 0, 0] = false := by decide

/-- Steps 5 to 9 of the example of chapter 2, with slot 6 torn twice. -/
def tTornTwice : State :=
  after (.upstreamWrite 0x2070 0 0xF .plant) <| after .waitingWritePosted <|
    after (.postedDrainDone {}) <| after (.upstreamWrite 0x2064 0 0xC .plant) <|
    after (.upstreamWrite 0x206C 0 0xF .plant) <| after (.upstreamWrite 0x2064 0 0x3 .plant) <|
    after (.upstreamWrite 0x2060 0 0xF .plant) tState

theorem test_slot_6_is_torn_twice : tTornTwice.part.capture.plant.torn = 2 := by decide

theorem test_torn_slot_raises_recordReject : tTornTwice.part.depot.notices.isPending .recordReject = true := by decide

theorem test_home_slot_of_chapter_3 : homeSlot 0x1A2B3C4D5E6F 4096 = 2057 := by decide

theorem test_charge_of_line_1 : exactAmount 0 60 180 180 45 950 0 12 = 932 := by decide

theorem test_charge_of_line_2 : exactAmount 240 0 0 180 45 600 0 12 = 909 := by decide

theorem test_charge_with_the_abandon_fee : exactAmount 240 0 0 180 45 600 2500 12 = 3109 := by decide

theorem test_weekday_of_1_july_2024 : weekdayOf 2024 7 1 = 0 := by decide

theorem test_leap_day_follows_28_february_2024 :
    ({ year := 2024, month := 2, day := 28, weekday := 2, hour := 23, minute := 59, second := 59, half := 1,
       isSet := true } : Calendar).tick =
      { year := 2024, month := 2, day := 29, weekday := 3, isSet := true } := by decide

theorem test_calendar_wraps_after_2147 :
    ({ year := 2147, month := 12, day := 31, weekday := 6, hour := 23, minute := 59, second := 59, half := 1,
       isSet := true } : Calendar).tick = {} := by decide

/-- A line that ended at the reset calendar's start. -/
def tEnded (p : Fin 16) (o : LineOutcome) : Line := { program := p, outcome := o, start := {}, stop := some {} }

/-- The bay of the example of section 11.4, with three lines of which the third runs program 7. -/
def tWashing : State :=
  { part :=
    { tPart with
      calendar := { now := { isSet := true } }
      depot :=
        { water := { quality := .backwash }
          sessions :=
          { bays := (Vector.replicate 8 {}).set 2
              { session :=
                { state := .washing, account := some ⟨9, 1, true⟩
                  lines := [tEnded 3 .run, tEnded 5 (.refused .noWater),
                    { tEnded 7 .run with stop := none }] } } } } } }

theorem test_grant_word_of_chapter_11 : tWashing.part.grantWord 2 = 0x01237744 := by decide

theorem test_a_read_of_the_grant_window_returns_the_word :
    (after (.upstreamRead 0x6008 .reader) tWashing).part.path.done = [⟨.read 0x6008 .reader, 0x01237744⟩] := by decide

/-- The disturbed word of the example of chapter 9. -/
def tDisturbed : Memory := (({} : Memory).writeWord 49154 0x44332211).lose 49154 { lower := 2 }

theorem test_disturbed_word_fails_in_its_lower_half : tDisturbed.wordFails 49154 = some .lower := by decide

theorem test_read_modify_write_of_chapter_9 :
    (tDisturbed.drain ⟨0x030008, 0x005A0000, 0x4, .site, .plain⟩ {}).readWord 49154 = 0x445A2213 := by decide

theorem test_read_modify_write_leaves_good_check_bits :
    (tDisturbed.drain ⟨0x030008, 0x005A0000, 0x4, .site, .plain⟩ {}).wordFails 49154 = none := by decide

theorem test_halfword_drain_overwrites_the_lost_bit :
    (tDisturbed.drain ⟨0x030008, 0x00002211, 0x3, .site, .plain⟩ {}).readWord 49154 = 0x44332211 := by decide

theorem test_conserve_threshold_of_chapter_5 :
    ({ quota := 120000, percent := 85 } : Water).threshold = 102000 := by decide

theorem test_reset_memory_is_canonical : State.reset.mem.wf = true := by decide

/-! ## The statements' hypotheses are met: block and memory path -/

theorem tState_ready : tState.ready := ⟨⟨rfl, rfl, rfl⟩, by decide⟩

theorem tDepot_ready (f : Depot → Depot) : (tDepot f).ready := ⟨⟨rfl, rfl, rfl⟩, Nat.zero_lt_succ 3⟩

/-- The block with the Path Unit changed. -/
def tOnPath (f : PathUnit → PathUnit) : State := { part := { tPart with path := f tPath } }

/-- The block with the Store Unit changed. -/
def tOnStore (f : StoreUnit → StoreUnit) : State := { part := { tPart with store := f tPart.store } }

/-- A plain posted entry. -/
def tEntry (be : Enables) : PostedEntry := { addr := 0x7000, data := 0x12345678, be := be, req := .site, cls := .plain }

theorem witness_StepRunsTheFrontCommand :
    ({ tState with pending := [.fetchStart] } : State).pending = [.fetchStart] ∧ tState.pending = [] := by decide

/-- No tick; and a window of 60 seconds with 119 and with 120 ticks after its restart. -/
theorem witness_WarmResetKeepsSettingsAndEmptiesWork :
    tWashing.part.path.held = none ∧ tWashing.part.path.deferred = [] ∧ ({} : ResetOrder).before = 0 ∧
      ({} : ResetOrder).after = 0 ∧ tWashing.part.depot.journal.sweep = none ∧
      tWashing.part.depot.water.window ≠ 255 ∧
      ({ after := 119 } : ResetOrder).after < 2 * tWashing.part.depot.water.window ∧
      2 * tWashing.part.depot.water.window ≤ ({ after := 120 } : ResetOrder).after ∧
      (tDepot fun d => { d with water := { window := 255 } }).part.depot.water.window = 255 := by decide

/-- A depot whose accounts 17 and 63 have charges in the period. -/
def tCharged : Depot :=
  { charge := { accounts := ((Vector.replicate 64 {}).set 17 { count := 1 }).set 63 { count := 1 } } }

/-- No sweep; and a sweep at account 63, which has charges, with no boundary pending. -/
theorem witness_WarmResetJournalsRestart :
    tWashing.part.path.held = none ∧ tWashing.part.path.deferred = [] ∧ tWashing.part.depot.journal.sweep = none ∧
      (tDepot fun _ => { tCharged with journal := { sweep := some 63 } }).part.depot.journal.sweep = some 63 ∧
      (tCharged.account 63).count ≠ 0 ∧
      (tDepot fun _ => { tCharged with journal := { sweep := some 63 } }).part.depot.journal.boundaryPending = false := by
  decide

/-- The first and the last byte of the control window, of entry 1, and the first byte past every window. -/
theorem witness_ClassificationFollowsTheTable :
    tPath.straps.toNat * 0x100000 + 0xFF000 ≤ (0xFF000#24).toNat ∧
      (0xFFFFF#24).toNat ≤ tPath.straps.toNat * 0x100000 + 0xFFFFF ∧
      windowKindOf tPath.windows[1].kind = some .identity ∧ tPath.windows[1].enabled = true ∧
      tPath.windows[1].base.toNat * 4096 ≤ (0x1000#24).toNat ∧
      (0x1FFF#24).toNat < tPath.windows[1].base.toNat * 4096 + 2 ^ tPath.windows[1].k.toNat ∧
      (∀ i : Fin 8, ¬ (tPath.windows[i].enabled = true ∧ tPath.windows[i].base.toNat * 4096 ≤ (0x7000#24).toNat ∧
        (0x7000#24).toNat < tPath.windows[i].base.toNat * 4096 + 2 ^ tPath.windows[i].k.toNat)) := by decide

theorem witness_WriteIsPostedOrChangesNothing :
    tState.ready ∧ tState.part.path.classify 0x7000 = .plain ∧ tState.part.path.classify 0xFFC = .window 0 .guarded ∧
      tState.part.path.windows[0].writePermit.getLsbD (Requester.code .plant) = true ∧
      tState.busFree ∧ (0xFFFFFC#24).toNat % 4 = 0 :=
  ⟨tState_ready, by decide, by decide, by decide, ⟨rfl, rfl, rfl⟩, by decide⟩

/-- The block with a full queue. -/
def tFull : State := tOnPath fun u => { u with posted := List.replicate 4 (tEntry 0xF) }

/-- An entry as its arrival classifies it. -/
def tPosted (addr : Addr) (cls : Classification) : PostedEntry :=
  { addr := addr, data := 0x12345678, be := 0xF, req := .site, cls := cls }

/-- Accesses of every classification that is posted: they wait behind a full queue and are posted once there is room. -/
theorem witness_WriteWaitsForRoomAndIsPosted :
    (tFull.busFree ∧ 4 ≤ tFull.part.path.posted.length ∧ tFull.part.path.classify 0x7000 = .plain ∧
      tFull.part.path.classify 0xFFFFC = .control ∧ tFull.part.path.classify 0x4000 = .window 4 .directory) ∧
    ∀ e ∈ [tEntry 0xF, tPosted 0xFFFFC .control, tPosted 0 (.window 0 .guarded), tPosted 0x1FFC (.window 1 .identity),
        tPosted 0x2000 (.window 2 .plant), tPosted 0x3000 (.window 3 .bay), tPosted 0x4FFC (.window 4 .directory)],
      (tOnPath fun u => { u with held := some (.room e) }).part.path.held = some (.room e) ∧
        (tOnPath fun u => { u with held := some (.room e) }).part.path.posted.length < 4 ∧ e.addr.toNat % 4 = 0 ∧
        e.be ≠ 0 ∧ (tOnPath fun u => { u with held := some (.room e) }).part.path.classify e.addr = e.cls ∧
        e.req = .site :=
  ⟨⟨⟨rfl, rfl, rfl⟩, by decide, by decide, by decide, by decide⟩, by decide⟩

theorem witness_StoreReadClaimsOrWaits :
    (tState.busFree ∧ tState.part.path.classify 0x7000 = .plain ∧
      tState.part.path.classify 0x5000 = .window 5 .journal ∧
      ∀ e ∈ tState.part.path.posted, e.addr ≠ 0x7000) ∧
    (tFull.busFree ∧ ∃ e ∈ tFull.part.path.posted, e.addr = 0x7000) ∧
    (tOnPath fun u => { u with held := some (.drain 0x7000 .site) }).part.path.held = some (.drain 0x7000 .site) :=
  ⟨⟨⟨rfl, rfl, rfl⟩, by decide, by decide, by decide⟩, ⟨⟨rfl, rfl, rfl⟩, by decide⟩, rfl⟩

/-- The block with the GUARDED window closed to READER. -/
def tNoReader : State := tOnPath fun u => { u with windows := u.windows.set 0 { tWindow 7 0 with readPermit := 0xB } }

theorem witness_BlockedAccessIsReported :
    (tState.busFree ∧ tState.part.path.classify 0xFF000 = .control ∧
      tState.part.path.classify 0x5000 = .window 5 .journal ∧ tState.part.path.classify 0x6FFC = .window 6 .grant) ∧
    tNoReader.busFree ∧ tNoReader.part.path.classify 0x0 = .window 0 .guarded ∧
      tNoReader.part.path.windows[0].readPermit.getLsbD (Requester.code .reader) = false :=
  ⟨⟨⟨rfl, rfl, rfl⟩, by decide, by decide, by decide⟩, ⟨rfl, rfl, rfl⟩, by decide, by decide⟩

theorem witness_DateAndTimeViewsServeOneSnapshot : tState.busFree ∧ ({} : Calendar).valid = true :=
  ⟨⟨rfl, rfl, rfl⟩, by decide⟩

/-- A state with every latch filled, a record open, a fetch and a preload under way and a bay with its first line. -/
def tShown : State :=
  { part :=
    { path := { tPath with blockLatch := some ⟨0x4, .plant, .write, true⟩ }
      capture := { plant := { assembly := some { slot := 255 }, last := some 254 } }
      store := { run := .running, latch := some ⟨0xFFFFFC, .both, .walker, none, true⟩ }
      depot :=
        { notices := { refusal := some ⟨0x280, .wrongState, true⟩ }
          identity :=
            { preload := some ⟨0x1A2B3C4D5E6F, 23⟩
              fetch :=
                some { purpose := .preload, tag := 0x1A2B3C4D5E6F, base := 0x4000, slotcount := 256, home := 9 } }
          sessions := { bays := (Vector.replicate 8 {}).set 7 { session := { lines := [tEnded 15 .run] } } } } } }

/-- The first and the last offset, the last of each table, and latches filled and empty. -/
theorem witness_ControlWindowReadsShowTheState :
    tShown.busFree ∧ tState.busFree ∧ (0 : Nat) ≠ 0x18 ∧ 0xFFC % 4 = 0 ∧ 0xFFC < 4096 ∧
      (0x13C = 0x104 + 8 * (7 : Fin 8).val) ∧ (0x6FC = 0x30C + 16 * (63 : Fin 64).val) ∧
      (0xC7C = 0x7AC + 176 * (7 : Fin 8).val) ∧ (0xE7C = 0xC8C + 16 * (31 : Fin 32).val) ∧
      (0xF1C = 0xE84 + 8 * (19 : Fin 20).val) ∧ (0xF90 = 0xF58 + 8 * (7 : Fin 8).val) ∧
      (0x27C = SettingItem.offset (.tariff 31)) ∧ tShown.part.depot.notices.refusal.isSome = true ∧
      tShown.part.path.blockLatch.isSome = true ∧ tShown.part.store.latch.isSome = true ∧
      tShown.part.depot.identity.fetch.isSome = true ∧ tShown.part.depot.identity.preload.isSome = true ∧
      tShown.part.path.ring.isSome = true ∧ ({} : PathUnit).ring = none ∧
      tState.part.depot.notices.refusal = none ∧ tState.part.path.blockLatch = none ∧
      tState.part.store.latch = none ∧ tState.part.depot.identity.fetch = none ∧
      tState.part.depot.identity.preload = none ∧
      (tShown.part.depot.bay 7).session.lines[(0 : Fin 4).val]? = some (tEnded 15 .run) ∧
      (tShown.part.depot.bay 7).session.lines[(3 : Fin 4).val]? = none :=
  ⟨⟨rfl, rfl, rfl⟩, ⟨rfl, rfl, rfl⟩, by decide⟩

/-- The words of bays 0 and 7, and the first offset past them. -/
theorem witness_GrantReadShowsTheBay :
    tState.busFree ∧ tState.part.path.classify 0x6000 = .window 6 .grant ∧
      tState.part.path.classify 0x601C = .window 6 .grant ∧ tState.part.path.classify 0x6020 = .window 6 .grant ∧
      (0x601C#24).toNat = tState.part.path.windows[6].base.toNat * 4096 + 4 * (7 : Fin 8).val ∧
      tState.part.path.windows[6].base.toNat * 4096 + 32 ≤ (0x6020#24).toNat ∧
      tState.part.path.windows[6].readPermit.getLsbD (Requester.code .reader) = true :=
  ⟨⟨rfl, rfl, rfl⟩, by decide, by decide, by decide, by decide, by decide, by decide⟩

theorem witness_AccessWaitsThroughClearing :
    (State.reset.part.store.run = .clearing ∧ State.reset.part.path.held = none ∧ State.reset.part.path.deferred = []) ∧
    (tOnPath fun u => { u with held := some (.clearing (.read 0x7000 .site)) }).part.path.held =
      some (.clearing (.read 0x7000 .site)) ∧
    (tOnPath fun u => { u with held := some (.clearing (.write 0x7000 1 0xF .site)) }).part.store.run = .running :=
  ⟨by decide, rfl, rfl⟩

/-! ## Depot store -/

/-- The block with one posted entry at the port. -/
def tDrain (be : Enables) : State :=
  { part := { tPart with
      path := { tPath with posted := [tEntry be] }, store := { tPart.store with grant := some .drain } } }

/-- All four bytes, the upper halfword alone, and no byte; and one byte, without and with a lost bit. -/
theorem witness_DrainWritesTheEnabledBytes :
    (∀ be ∈ [0xF#4, 0xC#4, 0#4], (tDrain be).mem.wf = true ∧ (tDrain be).part.store.grant = some .drain ∧
      (tDrain be).part.path.posted = tEntry be :: [] ∧ (tDrain be).part.path.held = none ∧
      be.getLsbD 0 = be.getLsbD 1 ∧ be.getLsbD 2 = be.getLsbD 3) ∧
    (tDrain 8).mem.wf = true ∧ (tDrain 8).part.store.grant = some .drain ∧
      (tEntry 8).be.getLsbD 2 ≠ (tEntry 8).be.getLsbD 3 ∧
      ((tDrain 8).mem.lose 0x1C00 {}).wordFails 0x1C00 = none ∧
      ((tDrain 8).mem.lose 0x1C00 { upper := 0x10000 }).wordFails 0x1C00 = some .upper := by decide

/-- The block with one posted entry at the port, another behind it, and an access that waits. -/
def tWaits (h : Held) : State :=
  { part := { tPart with
      path := { tPath with posted := [tEntry 0xF, tEntry 1], held := some h }
      store := { tPart.store with grant := some .drain } } }

/-- A write for room, plain and into the control window; a read behind the entry that stays, a read behind the entry
that leaves, and a read with its claim made. -/
theorem witness_DrainEndsTheWaits :
    ∀ h ∈ [Held.room (tEntry 0xF), .room (tPosted 0xFFFFC .control), .drain 0x7000 .site, .drain 0x8000 .site,
        .claimed 0x8000 .site],
      (tWaits h).part.store.grant = some .drain ∧ (tWaits h).part.path.posted = tEntry 0xF :: [tEntry 1] ∧
        (tWaits h).part.path.deferred = [] ∧ [tEntry 1].length < 4 ∧ (tWaits h).part.path.held = some h ∧
        (tWaits h).part.store.run = .running ∧ (tWaits h).part.depot.identity.fetch = none ∧
        (tWaits h).part.path.classify 0xFFFFC = .control := by decide

/-- The block with a read at the port. -/
def tRead : State :=
  { part := { tPart with
      path := { tPath with held := some (.claimed 0x7000 .site) }
      store := { tPart.store with grant := some .upstreamRead } } }

theorem witness_StoreReadReturnsTheWord :
    tRead.mem.wf = true ∧ tRead.part.store.grant = some .upstreamRead ∧
      tRead.part.path.held = some (.claimed 0x7000 .site) ∧ (tRead.mem.lose 0x1C00 {}).wordFails 0x1C00 = none ∧
      (tRead.mem.lose 0x1C00 { lower := 1, upper := 1 }).wordFails 0x1C00 = some .both := by decide

theorem witness_RowRefreshEndsUnderItsRule :
    (tOnStore fun u => { u with grant := some .refresh, row := 4095 }).part.store.row ≤ 4095 ∧
      (tOnStore fun u => { u with grant := some .refresh, row := 4095 }).part.store.grant = some .refresh := by decide

/-- The block with a clearing write at the port, and what waits on the bus. -/
def tClearing (n : Nat) (held : Option Held) (deferred : List Access) : State :=
  { part := { tPart with
      path := { tPath with held := held, deferred := deferred }
      store := { run := .clearing, clearing := n, grant := some .clearing } } }

/-- The first word with an access held and one behind it; and the last word with nothing held, a write and a read. -/
theorem witness_ClearingWritesZeroWords :
    (∀ s ∈ [tClearing 0 (some (.clearing (.read 0x7000 .site))) [.read 0x7004 .plant], tClearing 4194303 none [],
        tClearing 4194303 (some (.clearing (.write 0x7000 1 0xF .site))) [],
        tClearing 4194303 (some (.clearing (.read 0xFFFFC .maint))) []],
      s.mem.wf = true ∧ s.part.store.run = .clearing ∧ s.part.store.grant = some .clearing ∧
        s.part.store.clearing < 4194304 ∧ (s.part.path.deferred = [] ∨ s.part.path.held ≠ none)) ∧
      (0xFFFFC#24).toNat % 4 = 0 := by decide

theorem test_access_goes_on_after_the_last_clearing_write :
    (after .clearingWriteEnd (tClearing 4194303 (some (.clearing (.write 0x7000 1 0xF .site))) [])).part.path.posted =
      [⟨0x7000, 1, 0xF, .site, .plain⟩] := by decide

theorem witness_PortFollowsTheRanks : tPart.store.grant = none := rfl

/-- Debts of 7 and 8; and a last drain and a last read. -/
theorem witness_RefreshFollowsIntervalAndTraffic :
    ((tOnStore fun u => { u with debt := 7 }).part.store.debt < 8 ∧
      (tOnStore fun u => { u with debt := 8 }).part.store.debt = 8 ∧ tState.part.path.deferred = []) ∧
    (∀ s ∈ [tDrain 0xF, tRead], s.part.store.run = .running ∧ s.part.store.debt < 4 ∧ s.part.path.deferred = [] ∧
        s.part.depot.identity.fetch = none ∧ s.part.depot.journal.writing = none) ∧
      ({ tRead.part with store := { tRead.part.store with mode := .opportune } } : Part).store.mode = .opportune ∧
      (tDrain 0xF).part.path.posted = [tEntry 0xF] ∧ tRead.part.path.posted = [] := by decide

/-! ## Vehicle identification -/

/-- A bay in LOOKUP with the tag of chapter 3. -/
def tLookup : Session := { state := .lookup, tag := 0x1A2B3C4D5E6F, start := some {} }

/-- A depot whose bay 3 has this session. -/
def tBay (y : Session) (d : Depot) : Depot := d.modifySession 3 fun _ => y

/-- A depot whose cache holds a tag at index 31, for account 17. -/
def tCached (t : Tag) (x : Account) : Depot :=
  { identity := { cache := (Vector.replicate 32 {}).set 31 ⟨true, t, 9, 17, 1, false⟩ }
    charge := { accounts := (Vector.replicate 64 {}).set 17 x } }

/-- The tag of chapter 3 in the cache, for a valid account. -/
def tKnown : Depot := tCached 0x1A2B3C4D5E6F { valid := true }

theorem tKnown_cacheOk : tKnown.identity.cacheOk := by
  intro m n hm hn _
  revert m n
  decide

/-- The fetch of the tag at home slot 9 of 256, at a probe position, with its slot read under way. -/
def tFetch (position : Nat) : Fetch :=
  { purpose := .lookup 3, tag := 0x1A2B3C4D5E6F, base := 0x4000, slotcount := 256, home := 9, position := position
    reading := true }

/-- The block with this fetch at the port, cache index 31 next, and a word 1 in the slot. -/
def tSlot (position : Nat) (word0 word1 : Word) : State :=
  { mem := (({} : Memory).writeWord (0x1024 + 4 * position) word0).writeWord (0x1025 + 4 * position) word1
    part := { tPart with
      store := { tPart.store with grant := some (.walker (0x4090 + 16 * position)) }
      depot := tBay tLookup { identity := { fetch := some (tFetch position), victim := 31 } } } }

/-- A lookup at the head of the queue, and a preload behind an empty one, with a directory and without. -/
theorem witness_WalkerStartsAFetchAndClaimsItsSlot :
    (∀ u ∈ [tPath, ({} : PathUnit)], u.deferred = []) ∧ tPath.windowOf .directory = some (0x4000, 0x1000) ∧
      ({} : PathUnit).windowOf .directory = none ∧
      (tDepot fun d => tBay tLookup { d with
        identity := { lookups := [⟨3, 0x1A2B3C4D5E6F⟩] } }).part.depot.identity.lookups = [⟨3, 0x1A2B3C4D5E6F⟩] ∧
      ((tDepot fun d => tBay tLookup d).part.depot.session 3).state = .lookup ∧
      ({ preload := some ⟨0x1A2B3C4D5E6F, 23⟩ } : Identity).fetch = none ∧
      ({ preload := some ⟨0x1A2B3C4D5E6F, 23⟩ } : Identity).discarded = false ∧
      ({ preload := some ⟨0x1A2B3C4D5E6F, 23⟩ } : Identity).lookups = [] ∧
      (tSlot 0 0 0).part.store.grant = some (.walker 0x4090) ∧
      ({ tFetch 0 with reading := false } : Fetch).reading = false := by decide

/-- The cases of a slot's contents at a fetch of the tag: a failing word, an invalid slot, another tag at positions 2
and 3, and the tag itself. -/
theorem tSlot_cases :
    ((tSlot 0 0 0).mem.loseSlot 0x4090 { word3 := { lower := 1 } }).wordFails 0x1027 = some .lower ∧
    ((∀ i : Fin 4, ((tSlot 0 0 0).mem.loseSlot 0x4090 {}).wordFails (0x4090 / 4 + i.val) = none) ∧
      (((tSlot 0 0 0).mem.loseSlot 0x4090 {}).readWord 0x1025).getLsbD 24 = false) ∧
    (((tSlot 2 1 0x01000000).mem.readWord 0x102D).getLsbD 24 = true ∧
      tagOf ((tSlot 2 1 0x01000000).mem.readWord 0x102C) (bits ((tSlot 2 1 0x01000000).mem.readWord 0x102D) 0 16) ≠
        (tFetch 2).tag ∧ (tFetch 2).position < 3 ∧ 3 ≤ (tFetch 3).position) ∧
    (tagOf ((tSlot 0 0x3C4D5E6F 0x01511A2B).mem.readWord 0x1024)
        (bits ((tSlot 0 0x3C4D5E6F 0x01511A2B).mem.readWord 0x1025) 0 16) = (tFetch 0).tag) := by decide

/-- A discarded read with no fetch, and with a fetch that has no read in progress; a lookup fetch, withdrawn or not,
with 2 and 3 restarts behind it; and the two cases of its fill. -/
theorem witness_SlotReadEndsOrMovesTheFetch :
    (∀ f ∈ [none, some { tFetch 0 with reading := false }],
      (tDepot fun _ => { identity := { fetch := f, discarded := true } }).part.path.deferred = [] ∧
        (f = none ∨ f.map Fetch.reading = some false)) ∧
    (tSlot 0 0 0).part.path.deferred = [] ∧ (tSlot 0 0 0).part.store.grant = some (.walker 0x4090) ∧
      (tSlot 0 0 0).part.depot.identity.fetch = some (tFetch 0) ∧ (tFetch 0).reading = true ∧
      (tFetch 0).purpose = .lookup 3 ∧ (tFetch 0).withdrawn = false ∧
      ((tSlot 0 0 0).part.depot.session 3).state = .lookup ∧ ((tSlot 0 0 0).part.depot.session 3).tag = (tFetch 0).tag ∧
      ({ tFetch 0 with restartPending := true, restarts := 2, withdrawn := true } : Fetch).restarts < 3 ∧
      3 ≤ ({ tFetch 0 with restartPending := true, restarts := 3 } : Fetch).restarts ∧
      (∀ n : Fin 32, (tSlot 0 0 0).part.depot.identity.cache[n].valid = false) ∧
      (tSlot 0 0 0).part.depot.identity.victim = (31 : Fin 32).val ∧ tKnown.identity.cacheOk ∧
      tKnown.identity.cache[31].valid = true ∧ tKnown.identity.cache[31].tag = (tFetch 0).tag :=
  ⟨by decide, rfl, rfl, rfl, rfl, rfl, rfl, by decide, by decide, by decide, by decide, by decide, rfl, tKnown_cacheOk,
    by decide, by decide⟩

/-- Words 1 and 3 of the slot fail: word 1 stands in the latch, with MORE. -/
theorem test_slot_read_latches_its_first_failing_word :
    (after (.slotReadComplete { word1 := { upper := 0x10000 }, word3 := { lower := 1 } })
        (tSlot 0 0 0)).part.store.latch =
      some ⟨0x4094, .upper, .walker, none, true⟩ := by decide

/-- A preload for pinned entry 23 of 24, and one whose index is no longer pinned. -/
theorem witness_PreloadFetchFillsThePinnedEntry :
    (∀ pins ∈ [24, 23],
      (tDepot fun d => { d with
        identity :=
          { pinCount := pins, preload := some ⟨0x1A2B3C4D5E6F, 23⟩
            fetch := some { tFetch 0 with purpose := .preload } } }).part.depot.identity.preload =
        some ⟨0x1A2B3C4D5E6F, 23⟩) ∧
      (23 : Nat) = (23 : Fin 32).val ∧ ({ tFetch 0 with purpose := .preload } : Fetch).purpose = .preload := by decide

/-- No fetch; and the last slot of the directory inside and outside the probe range of a fetch with three restarts. -/
theorem witness_DirectoryWriteInvalidatesTheSlot :
    tState.ready ∧ tState.part.path.classify 0x4FFC = .window 4 .directory ∧
      tState.part.path.windows[4].writePermit.getLsbD (Requester.code .site) = true ∧
      tState.part.depot.identity.fetch = none ∧ 255 = ((0x4FFC#24).toNat - 4 * 4096) / 16 ∧
      (∃ i : Fin 4, (({ tFetch 0 with home := 252 } : Fetch).home + i.val) % (tFetch 0).slotcount = 255) ∧
      (¬ ∃ i : Fin 4, ((tFetch 0).home + i.val) % (tFetch 0).slotcount = 255) ∧
      3 ≤ ({ tFetch 0 with restarts := 3, reading := false } : Fetch).restarts :=
  ⟨tState_ready, by decide, by decide, rfl, by decide, by decide, by decide, by decide⟩

/-- The block with the first words of its window table staged. -/
def tStaged : State :=
  tOnPath fun u => { u with
    staged := #v[(tWindow 7 0).first, (tWindow 1 1).first, (tWindow 2 2).first, (tWindow 3 3).first,
      (tWindow 4 4).first,
      (tWindow 5 5).first, (tWindow 6 6).first, 0] }

/-- Entry 7, the one that is disabled, with a JOURNAL window staged where no other is in force. -/
def tNewRing : State :=
  tOnPath fun u =>
    { u with windows := u.windows.set 5 {}, staged := (Vector.replicate 8 0).set 7 (tWindow 5 0x100).first }

/-- Permit sets alone; every entry disabled; and a JOURNAL window put in force. -/
theorem witness_ChangedWindowEmptiesItsUnit :
    tStaged.ready ∧
      (∀ e : Fin 8, (tPath.windows[e]).sameExtent
        (windowEntryOf tStaged.part.path.staged[e] (mergeBytes tPath.windows[e].second 0 0x1))) ∧
      (∀ e : Fin 8, tPath.allows e
        (windowEntryOf tStaged.part.path.staged[e] (mergeBytes tPath.windows[e].second 0 0x1))) ∧
    tState.ready ∧
      (∀ e : Fin 8, e ≠ 7 → ¬ (tPath.windows[e]).sameExtent
        (windowEntryOf tState.part.path.staged[e] (mergeBytes tPath.windows[e].second 0 0x1))) ∧
      (∀ e : Fin 8, (windowEntryOf tState.part.path.staged[e] (mergeBytes tPath.windows[e].second 0 0x1)).enabled =
        false) ∧
      windowKindOf tPath.windows[1].kind = some RecordKind.identity.windowKind ∧
      windowKindOf tPath.windows[2].kind = some RecordKind.plant.windowKind ∧
      windowKindOf tPath.windows[3].kind = some RecordKind.bay.windowKind ∧ tPath.windows[4].kind = 4 ∧
    tNewRing.ready ∧ tNewRing.part.path.windows[7].enabled = false ∧
      windowEntryOf tNewRing.part.path.staged[7] (mergeBytes tNewRing.part.path.windows[7].second 0xFF 0xF) =
        tWindow 5 0x100 ∧
      tNewRing.part.path.allows 7 (tWindow 5 0x100) ∧
      tNewRing.part.depot.journal.head = tNewRing.part.depot.journal.tail :=
  ⟨⟨⟨rfl, rfl, rfl⟩, by decide⟩, by unfold WindowEntry.sameExtent; decide, by unfold PathUnit.allows; decide,
    tState_ready,
    by unfold WindowEntry.sameExtent; decide, by decide, by decide, by decide, by decide, by decide,
    ⟨⟨rfl, rfl, rfl⟩, by decide⟩, by decide, by decide, by unfold PathUnit.allows; decide, rfl⟩

/-! ## Record capture and wash water -/

/-- The block with an assembly in one record window. -/
def tOpen (kind : RecordKind) (a : Assembly) (d : Depot) : State :=
  { part := { tPart with capture := ({} : Capture).setWindow kind { assembly := some a }, depot := d } }

/-- Three words of a record, all present. -/
def tThree (slot : Nat) (w0 w1 w2 : Word) : Assembly :=
  { slot := slot, words := #v[w0, w1, w2, 0], seen := #v[0xF, 0xF, 0xF, 0] }

/-- The address of word 3 of slot 0 in the window of a kind. -/
def tWord3 : RecordKind → Addr
  | .identity => 0x100C
  | .plant => 0x200C
  | .bay => 0x300C

/-- The window of a kind. -/
def tEntryOf : RecordKind → Fin 8
  | .identity => 1
  | .plant => 2
  | .bay => 3

theorem tOpen_ready (kind : RecordKind) (a : Assembly) (d : Depot) : (tOpen kind a d).ready :=
  ⟨⟨rfl, rfl, rfl⟩, Nat.zero_lt_succ 3⟩

theorem tOpen_window (kind : RecordKind) (a : Assembly) (d : Depot) :
    ∃ e : Fin 8, (tOpen kind a d).part.path.classify (tWord3 kind) = .window e kind.windowKind ∧
      (tOpen kind a d).part.path.windows[e].writePermit.getLsbD (Requester.code .plant) = true ∧
      0 = ((tWord3 kind).toNat - (tOpen kind a d).part.path.windows[e].base.toNat * 4096) / 16 :=
  have h : ∀ kind : RecordKind, tPath.classify (tWord3 kind) = .window (tEntryOf kind) kind.windowKind ∧
      tPath.windows[tEntryOf kind].writePermit.getLsbD (Requester.code .plant) = true ∧
      0 = ((tWord3 kind).toNat - tPath.windows[tEntryOf kind].base.toNat * 4096) / 16 := by
    intro kind
    cases kind <;> decide
  ⟨tEntryOf kind, h kind⟩

theorem tOpen_assembly (kind : RecordKind) (a : Assembly) (d : Depot) :
    ((tOpen kind a d).part.capture.window kind).assembly = some a := by
  cases kind <;> rfl

/-- A record whose words add up is completed by the write of its last word. -/
theorem tOpen_completes (kind : RecordKind) (d : Depot) (w0 w1 c : Word)
    (h : recordSum #v[w0, w1, 0, c] % 65536 = 0) :
    (tOpen kind (tThree 0 w0 w1 0) d).Completes kind (tWord3 kind) c 0xF .plant 0 #v[w0, w1, 0, c] where
  ready := tOpen_ready _ _ _
  enabled := by decide
  word3 := by cases kind <;> decide
  window := tOpen_window _ _ _
  assembled := by
    refine ⟨_, tOpen_assembly _ _ _, rfl, fun n hn => ?_, (by show (0 : Enables) ||| 0xF = 0xF; decide), ?_⟩
    · fin_cases n <;> first | exact ⟨rfl, rfl⟩ | exact absurd rfl hn
    · exact (mergeBytes_all 0 c).symm
  checksum := h

/-- The write of a last word into the open assembly of its slot. -/
theorem tOpen_gathers (kind : RecordKind) (d : Depot) (w0 w1 c : Word) :
    (tOpen kind (tThree 0 w0 w1 0) d).Gathers kind (tWord3 kind) c 0xF .plant 0 false
      ⟨0, #v[w0, w1, 0, c], #v[0xF, 0xF, 0xF, 0xF]⟩ where
  ready := tOpen_ready _ _ _
  enabled := by decide
  aligned := by cases kind <;> decide
  window := tOpen_window _ _ _
  abandons := by
    rw [tOpen_assembly]
    refine ⟨fun h => (nomatch h), ?_⟩
    rintro ⟨old, ho, h⟩
    cases ho
    exact absurd rfl h
  merged := by
    refine ⟨tThree 0 w0 w1 0, fun old h _ => ?_, ?_, rfl, fun m => ?_, fun m => ?_⟩
    · rw [tOpen_assembly] at h
      exact Option.some.inj h
    · rw [tOpen_assembly]
      rintro (h | h) <;> cases h
    · have : (tWord3 kind).toNat % 16 / 4 = 3 := by cases kind <;> rfl
      rw [this]
      fin_cases m <;> first | rfl | exact (mergeBytes_all 0 c).symm
    · have : (tWord3 kind).toNat % 16 / 4 = 3 := by cases kind <;> rfl
      rw [this]
      fin_cases m <;> first | rfl | (show (0xF : Enables) = 0 ||| 0xF; decide)

/-- The write of a last word, or of part of it, while another slot is open. -/
theorem tOpen_tears (kind : RecordKind) (d : Depot) (c : Word) (be : Enables) (hbe : be ≠ 0) :
    (tOpen kind { slot := 6 } d).Gathers kind (tWord3 kind) c be .plant 0 true
      ⟨0, #v[0, 0, 0, mergeBytes 0 c be], #v[0, 0, 0, 0 ||| be]⟩ where
  ready := tOpen_ready _ _ _
  enabled := hbe
  aligned := by cases kind <;> decide
  window := tOpen_window _ _ _
  abandons := by
    rw [tOpen_assembly]
    exact ⟨fun _ => ⟨_, rfl, by decide⟩, fun _ => rfl⟩
  merged := by
    refine ⟨⟨0, Vector.replicate 4 0, Vector.replicate 4 0⟩, fun old h hs => ?_, fun _ => rfl, rfl, fun m => ?_,
      fun m => ?_⟩
    · rw [tOpen_assembly] at h
      cases h
      cases hs
    · have : (tWord3 kind).toNat % 16 / 4 = 3 := by cases kind <;> rfl
      rw [this]
      fin_cases m <;> rfl
    · have : (tWord3 kind).toNat % 16 / 4 = 3 := by cases kind <;> rfl
      rw [this]
      fin_cases m <;> rfl

/-- In every window: three bytes of word 3 and the whole of it with another slot open; a record that fails its checksum;
and one that passes it and is out of range. -/
theorem witness_RecordWritesAreGatheredOrRejected :
    (∀ kind, (tOpen kind { slot := 6 } {}).Gathers kind (tWord3 kind) 1 0x7 .plant 0 true
      ⟨0, #v[0, 0, 0, mergeBytes 0 1 0x7], #v[0, 0, 0, 0 ||| 0x7]⟩) ∧ (0 ||| 0x7 : Enables) ≠ 0xF ∧
    (∀ kind, (tOpen kind { slot := 6 } {}).Gathers kind (tWord3 kind) 1 0xF .plant 0 true
      ⟨0, #v[0, 0, 0, mergeBytes 0 1 0xF], #v[0, 0, 0, 0 ||| 0xF]⟩) ∧ (0 : Enables) ≠ 0xF ∧
    (∀ kind, (tOpen kind (tThree 0 8 0 0) {}).Gathers kind (tWord3 kind) 0xFFF7 0xF .plant 0 false
      ⟨0, #v[8, 0, 0, 0xFFF7], #v[0xF, 0xF, 0xF, 0xF]⟩) ∧ recordSum #v[8, 0, 0, 0xFFF7] % 65536 ≠ 0 ∧
    (∀ kind, (tOpen kind (tThree 0 8 0 0) {}).Gathers kind (tWord3 kind) 0xFFF8 0xF .plant 0 false
      ⟨0, #v[8, 0, 0, 0xFFF8], #v[0xF, 0xF, 0xF, 0xF]⟩) ∧ recordSum #v[8, 0, 0, 0xFFF8] % 65536 = 0 ∧
      ∀ kind : RecordKind, kind.fails 4 #v[8, 0, 0, 0xFFF8] := by
  refine ⟨fun k => tOpen_tears k _ _ _ (by decide), by decide, fun k => tOpen_tears k _ _ _ (by decide), by decide,
    fun k => tOpen_gathers k _ _ _ _, by decide, fun k => tOpen_gathers k _ _ _ _, by decide, fun k => ?_⟩
  cases k <;> (unfold RecordKind.fails; decide)

/-- A depot whose bay 3 is in a state, with a list of lines. -/
def tVisit (st : SessionState) (lines : List Line) : Depot :=
  tBay { state := st, tag := 5, account := some ⟨9, 1, true⟩, lines := lines } {}

/-- A start of program 15, an end and a sign of life, outside the wash and in it, with three lines and with four. -/
theorem witness_BayRecordsKeepTheProgramList :
    (∀ d, (tOpen .bay (tThree 0 0x000F0103 0 0) d).Completes .bay 0x300C 0xFEEE
        0xF .plant 0 #v[0x000F0103, 0, 0, 0xFEEE]) ∧
      (∀ d, (tOpen .bay (tThree 0 0x203 0 0) d).Completes .bay 0x300C 0xFDFD 0xF .plant 0 #v[0x203, 0, 0, 0xFDFD]) ∧
      (∀ d, (tOpen .bay (tThree 0 0x403 0 0) d).Completes .bay 0x300C 0xFBFD 0xF .plant 0 #v[0x403, 0, 0, 0xFBFD]) ∧
      firstByte #v[0x000F0103, 0, 0, 0xFEEE] = (3 : Fin 8).val ∧ secondByte #v[0x000F0103, 0, 0, 0xFEEE] = 1 ∧
      thirdByte #v[0x000F0103, 0, 0, 0xFEEE] = (15 : Fin 16).val ∧ secondByte #v[0x203, 0, 0, 0xFDFD] = 2 ∧
      secondByte #v[0x403, 0, 0, 0xFBFD] = 4 ∧ ((tVisit .closing []).session 3).state = .closing ∧
      ((tVisit .washing (List.replicate 3 (tEnded 1 .run))).session 3).lines.length < 4 ∧
      4 ≤ ((tVisit .admitted (List.replicate 4 (tEnded 1 .run))).session 3).lines.length :=
  ⟨fun _ => tOpen_completes .bay _ _ _ _ (by decide), fun _ => tOpen_completes .bay _ _ _ _ (by decide),
    fun _ => tOpen_completes .bay _ _ _ _ (by decide), by decide, by decide, by decide, by decide, by decide, by decide,
    by decide, by decide⟩

/-- A depot whose oldest claim, for two records, does not fit behind seven. -/
def tStuck (d : Depot) : Depot :=
  { d with journal := { d.journal with
      queue := List.replicate 7 { composed := ⟨.meterFault 0 0 0, none, {}⟩, period := 0 }
      waiting := [.bay 0 (List.replicate 2 ⟨.meterFault 0 0 0, none, {}⟩)] } }

theorem stuck_of (s : State) (d : Depot) (h : s.part.depot = tStuck d) : s.journalStuck := by
  unfold State.journalStuck
  rw [h]
  exact ⟨.bay 0 (List.replicate 2 ⟨.meterFault 0 0 0, none, {}⟩), [], rfl, (by show 8 < 7 + 2; decide),
    (by show 7 ≤ 8; decide)⟩

theorem tStuck_journalStuck (d : Depot) : (tDepot fun _ => tStuck d).journalStuck := stuck_of _ d rfl

/-- The journal with no claim and a queue of a length. -/
def tQueue (n : Nat) : Journal :=
  { queue := List.replicate n { composed := ⟨.meterFault 0 0 0, none, {}⟩, period := 0 } }

/-- An exit from a vacant bay, from LOOKUP and HELD, and from WASHING with a line that ran and with none; behind a claim
that does not fit, behind a full queue, and into the last place of the queue. -/
theorem witness_VehicleExitClosesTheVisit :
    (∀ d, (tOpen .bay (tThree 0 0x303 0 0) d).Completes .bay 0x300C 0xFCFD 0xF .plant 0 #v[0x303, 0, 0, 0xFCFD]) ∧
      firstByte #v[0x303, 0, 0, 0xFCFD] = (3 : Fin 8).val ∧ secondByte #v[0x303, 0, 0, 0xFCFD] = 3 ∧
      (({} : Depot).session 3).state = .vacant ∧
      (∀ st ∈ [SessionState.lookup, .held], ((tVisit st []).session 3).state = st) ∧
      ((tVisit .washing [tEnded 1 .run]).session 3).state = .washing ∧
      ((tVisit .washing []).session 3).account = some ⟨9, 1, true⟩ ∧
      ([tEnded 1 .run].filter fun l => l.outcome = .run) ≠ [] ∧
      (∀ records : List Composed, (tStuck {}).journal.claimWaits (.bay 3 records)) ∧
      (∀ r : Composed, (tQueue 8).claimWaits (.bay 3 [r])) ∧ ∀ r : Composed, (tQueue 7).claimFits (.bay 3 [r]) := by
  refine ⟨fun _ => tOpen_completes .bay _ _ _ _ (by decide), by decide, by decide, by decide, by decide, by decide,
    by decide, by decide, fun _ => ⟨by decide, fun h => (nomatch h), fun c rest h => ?_⟩,
    fun _ => ⟨by decide, fun _ => (by show 8 < 8 + 1; decide), fun _ _ h => (nomatch h)⟩, fun _ => ⟨rfl, ?_⟩⟩
  · cases h
    decide
  · show 7 + 1 ≤ 8
    decide

/-- A water whose meter has read 0. -/
def tRead0 (m : Fin 20) (pending : Bool) : Water :=
  { meters := (Vector.replicate 20 {}).set m ⟨some 0, pending, 65535⟩ }

/-- Meters 16 to 19 at the jump limit of 50000 and meter 19 above it, with and without a fault pending. -/
theorem witness_MeterSamplesMoveTheBaseline :
    (∀ d, (tOpen .plant (tThree 0 0x1001 0xC350 0) d).Completes .plant 0x200C 0x2CAF
        0xF .plant 0 #v[0x1001, 0xC350, 0, 0x2CAF]) ∧
      (∀ d, (tOpen .plant (tThree 0 0x1101 0xC350 0) d).Completes .plant 0x200C 0x2BAF
          0xF .plant 0 #v[0x1101, 0xC350, 0, 0x2BAF]) ∧
      (∀ d, (tOpen .plant (tThree 0 0x1201 0xC350 0) d).Completes .plant 0x200C 0x2AAF
          0xF .plant 0 #v[0x1201, 0xC350, 0, 0x2AAF]) ∧
      (∀ d, (tOpen .plant (tThree 0 0x1301 0xC350 0) d).Completes .plant 0x200C 0x29AF
          0xF .plant 0 #v[0x1301, 0xC350, 0, 0x29AF]) ∧
      (∀ d, (tOpen .plant (tThree 0 0x1301 0xC351 0) d).Completes .plant 0x200C 0x29AE
          0xF .plant 0 #v[0x1301, 0xC351, 0, 0x29AE]) ∧
      firstByte #v[0x1301, 0xC351, 0, 0x29AE] = 1 ∧ secondByte #v[0x1301, 0xC351, 0, 0x29AE] = (19 : Fin 20).val ∧
      (0xC351 + 4294967296 - 0) % 4294967296 = 50000 + 1 ∧ ({} : Water).jumpLimit = 50000 ∧
      ({} : Water).meters[(19 : Fin 20)].baseline = none ∧ (tRead0 19 true).meters[(19 : Fin 20)].faultPending = true ∧
      (tRead0 19 false).meters[(19 : Fin 20)].baseline = some 0 ∧
      (tQueue 8).claimWaits (.meter 19 0 0xC351 {}) ∧ (tQueue 7).claimFits (.meter 19 0 0xC351 {}) :=
  ⟨fun _ => tOpen_completes .plant _ _ _ _ (by decide), fun _ => tOpen_completes .plant _ _ _ _ (by decide),
    fun _ => tOpen_completes .plant _ _ _ _ (by decide), fun _ => tOpen_completes .plant _ _ _ _ (by decide),
    fun _ => tOpen_completes .plant _ _ _ _ (by decide), by decide, by decide, by decide, by decide, by decide,
      by decide,
    by decide, ⟨by decide, fun _ => by decide, fun _ _ h => (nomatch h)⟩, rfl, by decide⟩

/-- The fresh meter and the reclaim meter of bay 7, with no delta; a running line behind an ended one; and a vacant
bay. -/
theorem witness_BayWaterIsAttributed :
    (∀ d, (tOpen .plant (tThree 0 0x0701 0 0) d).Completes .plant 0x200C 0xF8FF 0xF .plant 0 #v[0x0701, 0, 0, 0xF8FF]) ∧
      (∀ d, (tOpen .plant (tThree 0 0x0F01 0 0) d).Completes .plant 0x200C 0xF0FF
          0xF .plant 0 #v[0x0F01, 0, 0, 0xF0FF]) ∧
      secondByte #v[0x0701, 0, 0, 0xF8FF] = (7 : Fin 8).val ∧
      secondByte #v[0x0F01, 0, 0, 0xF0FF] = 8 + (7 : Fin 8).val ∧
      (tRead0 7 false).meters[(7 : Fin 20)].baseline = some 0 ∧
        (tRead0 15 false).meters[(15 : Fin 20)].baseline = some 0 ∧
      ((tVisit .washing [tEnded 1 .run, { tEnded 2 .run with stop := none }]).session 3).lines =
        [tEnded 1 .run] ++ [{ tEnded 2 .run with stop := none }] ∧ (tEnded 1 .run).stop ≠ none ∧
      (({} : Depot).session 7).state ≠ .washing :=
  ⟨fun _ => tOpen_completes .plant _ _ _ _ (by decide), fun _ => tOpen_completes .plant _ _ _ _ (by decide), by decide,
    by decide, by decide, by decide, by decide, by decide, by decide⟩

/-- A level, turbidities at the limit and above it, and the two ends of a backwash; each quality is a state of the
machine. -/
theorem witness_PlantRecordsMoveTheQualityMachine :
    (∀ d, (tOpen .plant (tThree 0 0x2 0xFFFF0000 0) d).Completes .plant 0x200C 0xFFFF
        0xF .plant 0 #v[0x2, 0xFFFF0000, 0, 0xFFFF]) ∧
      (∀ d, (tOpen .plant (tThree 0 0x103 0x32 0) d).Completes .plant 0x200C 0xFECB
          0xF .plant 0 #v[0x103, 0x32, 0, 0xFECB]) ∧
      (∀ d, (tOpen .plant (tThree 0 0x103 0x33 0) d).Completes .plant 0x200C 0xFECA
          0xF .plant 0 #v[0x103, 0x33, 0, 0xFECA]) ∧
      (∀ d, (tOpen .plant (tThree 0 0x4 0 0) d).Completes .plant 0x200C 0xFFFC 0xF .plant 0 #v[0x4, 0, 0, 0xFFFC]) ∧
      (∀ d, (tOpen .plant (tThree 0 0x5 0 0) d).Completes .plant 0x200C 0xFFFB 0xF .plant 0 #v[0x5, 0, 0, 0xFFFB]) ∧
      firstByte #v[0x103, 0x32, 0, 0xFECB] = 3 ∧ secondByte #v[0x103, 0x32, 0, 0xFECB] = 1 ∧
        0x32 ≤ ({} : Water).turbidityLimit ∧
      ({} : Water).turbidityLimit < 0x33 ∧ firstByte #v[0x4, 0, 0, 0xFFFC] = 4 ∧ firstByte #v[0x5, 0, 0, 0xFFFB] = 5 ∧
      ({ quality := .backwash, settle := 0 } : Water).settle = 0 ∧ ({} : Water).settle ≠ 0 :=
  ⟨fun _ => tOpen_completes .plant _ _ _ _ (by decide), fun _ => tOpen_completes .plant _ _ _ _ (by decide),
    fun _ => tOpen_completes .plant _ _ _ _ (by decide), fun _ => tOpen_completes .plant _ _ _ _ (by decide),
    fun _ => tOpen_completes .plant _ _ _ _ (by decide), by decide, by decide, by decide, by decide, by decide,
      by decide,
    by decide, by decide⟩

/-- A depot whose bay 3 is in a state with a tag, and a parked arrival in its slot or none. -/
def tArrival (st : SessionState) (tag : Tag) (parked : Option Parked) : Depot :=
  ({} : Depot).modifyBay 3 fun y => { y with session := { state := st, tag := tag }, parked := parked }

/-- A vacant bay, with a tag that the cache does not hold and with one that it holds: admitted, and held for a limit
that the balance has reached; a session in any state with any tag; and a CLOSING bay with its slot empty and
full. -/
theorem witness_IdentityRecordStartsAVisit :
    (∀ d, (tOpen .identity (tThree 0 0x0403 0x3C4D5E6F 0) d).Completes .identity 0x100C 0x6141
        0xF .plant 0 #v[0x0403, 0x3C4D5E6F, 0, 0x6141]) ∧
      firstByte #v[0x0403, 0x3C4D5E6F, 0, 0x6141] = (3 : Fin 8).val ∧
      secondByte #v[0x0403, 0x3C4D5E6F, 0, 0x6141] = 4 ∧ ({} : Capture).minQuality = 4 ∧
      (0x3C4D5E6F#48 : Tag).toNat = (0x3C4D5E6F#32).toNat + (0#32).toNat % 65536 * 4294967296 ∧
      (({} : Depot).session 3).state = .vacant ∧ (∀ n : Fin 32, ({} : Identity).cache[n].valid = false) ∧
      (tCached 0x3C4D5E6F {}).identity.cache[(31 : Fin 32)] = ⟨true, 0x3C4D5E6F, 9, 17, 1, false⟩ ∧
      (∀ m : Fin 32, m < 31 → (tCached 0x3C4D5E6F {}).identity.cache[m].valid = false) ∧
      (tCached 0x3C4D5E6F { valid := true }).holdOf 3 0x3C4D5E6F false 17 = none ∧
      (tCached 0x3C4D5E6F { valid := true, limit := 5, balance := 5 }).holdOf 3 0x3C4D5E6F false 17 = some .credit ∧
      (∀ st tag, ((tArrival st tag none).session 3).state = st ∧ ((tArrival st tag none).session 3).tag = tag) ∧
      ((tArrival .closing 5 none).bay 3).parked = none ∧
        ((tArrival .closing 5 (some ⟨5, 4, 0, {}⟩)).bay 3).parked ≠ none :=
  ⟨fun _ => tOpen_completes .identity _ _ _ _ rfl, by decide, by decide, rfl, by decide, by decide, by decide,
    by decide, by decide, by decide, by decide, fun _ _ => ⟨rfl, rfl⟩, by decide, by decide⟩

/-- A tag whose account has reached its limit: HELD, with HOLD_RAISED. -/
theorem test_cached_vehicle_at_its_limit_is_held :
    (((after (.upstreamWrite 0x100C 0x6141 0xF .plant) (tOpen .identity (tThree 0 0x0403 0x3C4D5E6F 0)
        (tCached 0x3C4D5E6F { valid := true, limit := 5, balance := 5 }))).part.depot.session 3).hold) =
      some .credit := by decide

/-! ## Time -/

/-- A depot whose bay 3 is in a state, with both timers at 0. -/
def tExpired (st : SessionState) : Depot :=
  ({} : Depot).modifyBay 3 fun y =>
    { y with session := { state := st, account := some ⟨9, 1, true⟩ }, silence := some 0, hold := some 0 }

/-- Each timer at its expiry, behind a claim that does not fit, and with room in the queue. -/
theorem witness_TimerExpiryClosesTheSession :
    tState.part.path.deferred = [] ∧
      (∀ d ∈ [tStuck (tExpired .washing), tExpired .admitted], (d.bay 3).silence = some 0 ∧
        ((d.session 3).state = .admitted ∨ (d.session 3).state = .washing)) ∧
      (∀ d ∈ [tStuck (tExpired .held), tExpired .held], (d.bay 3).hold = some 0 ∧ (d.session 3).state = .held) ∧
      ∀ r : Composed, ({} : Journal).claimFits (.bay 3 [r]) := by
  refine ⟨rfl, by decide, by decide, fun _ => ⟨rfl, ?_⟩⟩
  show 0 + 1 ≤ 8
  decide

/-- A visit without a wash whose silence timer expires: its VOID record is queued and the bay is VACANT. -/
theorem test_silence_expiry_vacates_the_bay :
    (((after (.silenceExpiry 3) (tDepot fun _ => tExpired .admitted)).part.depot.session 3).state,
      (after (.silenceExpiry 3) (tDepot fun _ => tExpired .admitted)).part.depot.journal.queue.length) =
      (.vacant, 1) := by decide

theorem witness_QualityExpiryMovesTheMachine :
    (∀ q ∈ [Quality.settling, .sampling],
      (tDepot fun d => { d with water := { quality := q, qualityTimer := some 0 } }).part.depot.water.qualityTimer =
        some 0) := by decide

theorem witness_TickAdvancesCalendarAndTimers :
    tState.calendarOk ∧ tState.part.path.deferred = [] ∧ tState.timersRunOn ∧
      ¬ tState.part.calendar.quotaDayAt tState.part.calendar.now.tick ∧
      ¬ tState.part.calendar.periodAt tState.part.calendar.now.tick := by
  refine ⟨⟨Calendar.start_sound, Calendar.start_sound, Calendar.start_sound⟩, rfl, ⟨?_, by decide, by decide⟩, ?_, ?_⟩
  · unfold timerRunsOn
    decide
  · unfold CalendarUnit.quotaDayAt Calendar.atHour
    decide
  · unfold CalendarUnit.periodAt Calendar.atHour
    decide

/-- The last half second before the quota hour. -/
def tBeforeSix : Calendar := { hour := 5, minute := 59, second := 59, half := 1, isSet := true }

/-- A claim that does not fit, no claim, and a QUOTA_DAY claim between two others. -/
theorem witness_QuotaHourClosesTheDay :
    (∀ d ∈ [tStuck {}, {}], ∀ c ∈ d.journal.waiting, c.claimant ≠ 9) ∧ (tDepot fun _ => tStuck {}).claimsSettled ∧
      tState.claimsSettled ∧
      ([.meter 0 0 0 {}, .quotaDay {} {} false, .sweep 1] : List Claim) =
        [.meter 0 0 0 {}] ++ .quotaDay {} {} false :: [.sweep 1] ∧
      (∀ c ∈ [Claim.meter 0 0 0 {}] ++ [.sweep 1], c.claimant ≠ 9) ∧
      (tDepot fun _ => tStuck {}).timersRunOn ∧ halfSecondLater tBeforeSix tBeforeSix.tick ∧
      ({ quotaHour := 6 } : CalendarUnit).quotaDayAt tBeforeSix.tick ∧
      ¬ ({ quotaHour := 6 } : CalendarUnit).periodAt tBeforeSix.tick := by
  refine ⟨by decide, ⟨by decide, fun c rest h => ?_⟩, ⟨by decide, fun c rest h => (nomatch h)⟩, rfl, by decide,
    ⟨?_, by decide, by decide⟩, ?_, ?_, ?_⟩
  · cases h
    decide
  · unfold timerRunsOn
    decide
  · unfold halfSecondLater
    decide
  · unfold CalendarUnit.quotaDayAt Calendar.atHour
    decide
  · unfold CalendarUnit.periodAt Calendar.atHour
    decide

theorem test_second_quota_day_overwrites_the_waiting_claim :
    (Depot.quotaBoundary tBeforeSix
        { journal := { queue := (tQueue 8).queue, waiting := [.quotaDay {} {} false] }
          water := { totals := { intake := 7 } } }).journal.waiting =
      [.quotaDay { intake := 7 } tBeforeSix true] := by decide

/-- A daily boundary at six with no sweep and accounts without and with charges, and with a sweep under way. -/
theorem witness_PeriodBoundaryStartsTheSweep :
    (tDepot fun _ => tCharged).timersRunOn ∧ halfSecondLater tBeforeSix tBeforeSix.tick ∧
      ({ schedule := ⟨1, 6, 0, 0⟩ } : CalendarUnit).periodAt tBeforeSix.tick ∧
      ¬ ({ schedule := ⟨1, 6, 0, 0⟩ } : CalendarUnit).quotaDayAt tBeforeSix.tick ∧ tCharged.noCreditHold ∧
      (∀ a : Fin 64, (({} : Depot).account a).count = 0) ∧ tCharged.journal.waiting = [] ∧
      tCharged.journal.queue.length < 8 ∧ (tCharged.account 17).count ≠ 0 ∧
      (∀ b : Fin 64, b < 17 → (tCharged.account b).count = 0) ∧ (tDepot fun _ => tStuck tCharged).journalStuck ∧
      (∀ p ∈ [false, true], ({ sweep := some 63, boundaryPending := p } : Journal).boundaryPending = p) := by
  refine ⟨⟨?_, by decide, by decide⟩, ?_, ?_, ?_, by unfold Depot.noCreditHold; decide, by decide, rfl, by decide,
    by decide, by decide, tStuck_journalStuck _, by decide⟩
  · unfold timerRunsOn
    decide
  · unfold halfSecondLater
    decide
  · unfold CalendarUnit.periodAt Calendar.atHour
    decide
  · unfold CalendarUnit.quotaDayAt Calendar.atHour
    decide

/-! ## The journal -/

/-- A composed record. -/
def tComposed : Composed := ⟨.meterFault 0 0 0, none, {}⟩

/-- A bay's claim of two records that fills the queue before the sweep's claim; a claim of each claimant alone; a sweep
at account 63, the last, with a boundary pending and no charges before it; at account 17, with account 63 still to come;
and a bay with a parked arrival and without. -/
theorem witness_FittingClaimIsAdmitted :
    tState.part.path.deferred = [] ∧ (tQueue 6).queue.length + (Claim.bay 3 [tComposed, tComposed]).size = 8 ∧
      (∀ d ∈ [Claim.sweep 17], d.size ≠ 0) ∧
      (∀ c ∈ [Claim.bay 3 [tComposed], .sweep 63, .quotaDay {} {} false, .meter 19 1 2 {}, .restart 0xFF 8 true {}],
        (tQueue 7).queue.length + c.size ≤ 8) ∧
      ((tExpired .closing).session 3).account = some ⟨9, 1, true⟩ ∧ ((tExpired .closing).bay 3).parked = none ∧
      ((tArrival .closing 5 (some ⟨5, 4, 0, {}⟩)).bay 3).parked = some ⟨5, 4, 0, {}⟩ ∧ tCharged.noCreditHold ∧
      (∀ c : Fin 64, 63 < c → (tCharged.account c).count = 0) ∧
      (∀ c : Fin 64, c ≠ 63 → (({} : Depot).account c).count = 0) ∧ (17 : Fin 64) < 63 ∧
      (tCharged.account 63).count ≠ 0 ∧
      (∀ i : Fin 64, 17 < i → i < 63 → (tCharged.account i).count = 0) := by
  refine ⟨rfl, by decide, by decide, by decide, by decide, by decide, by decide, by unfold Depot.noCreditHold; decide,
    by decide, by decide, by decide, by decide, by decide⟩

/-- A record that waits. -/
def tRecord : JournalRecord := { composed := ⟨.meterFault 16 1 2, none, {}⟩, period := 3 }

/-- A record with a valid stamp, in each kind of body that has a premise of its own. -/
theorem witness_JournalRecordLayout :
    tRecord.composed.stamp.valid = true ∧ tRecord.composed.body = .meterFault 16 1 2 ∧
      ({ tRecord with composed := ⟨.restart 0xFF 8 true, none, {}⟩ } : JournalRecord).composed.body =
        .restart 0xFF 8 true ∧ 8 ≤ 8 := by decide

/-- A start with one slot free; and word 15 at the last slot, from empty and up to the near-full threshold of 48; a
claim that then fills the queue, with another behind it, and one that still does not fit. -/
theorem witness_RecordWriteFillsTheHeadSlot :
    (tPath.ring.map Ring.slots = some 64 ∧
      (tDepot fun d => { d with
        journal := { queue := [tRecord], head := 62 } }).part.depot.journal.queue = tRecord :: [] ∧
      (62 + 64 - 0) % 64 < 64 - 1) ∧
    tPath.ring = some { base := 0x5000, slots := 64 } ∧ 0x5000 % 4 = 0 ∧ 0x5000 + 64 * 64 ≤ 16777216 ∧
      ({ queue := [tRecord], head := 63, tail := 63, writing := some 15 } : Journal).writing = some 15 ∧
      ({ queue := [tRecord], head := 63, tail := 63, writing := some 15 } : Journal).head < 64 ∧
      (63 + 64 - 63) % 64 = 0 ∧ ((63 + 1) % 64 + 64 - 63) % 64 = 1 ∧ 64 * ({} : Journal).nearFull / 100 = 48 ∧
      (63 + 64 - 16) % 64 < 48 ∧ ((63 + 1) % 64 + 64 - 16) % 64 = 48 ∧
      (tQueue 7).queue.length + (Claim.sweep 17).size = 8 ∧ (∀ d ∈ [Claim.bay 3 [tComposed]], d.size ≠ 0) ∧
      tCharged.noCreditHold ∧ (tQueue 7).queue.length ≤ 8 ∧
      8 < (tQueue 7).queue.length + (Claim.bay 3 [tComposed, tComposed]).size := by
  unfold Depot.noCreditHold
  decide

/-! ## Settings and requests -/

theorem witness_StagedWordsChangeNothingElse : tState.ready ∧ (0x1#4 : Enables) ≠ 0 := ⟨tState_ready, by decide⟩

/-- A disabled entry, a GUARDED window of 1 MiB, k = 11 and k = 21, a window over the control window, a second IDENTITY
window, the JOURNAL window disabled, and one put in force. -/
theorem witness_WindowCommitTakesOrRefuses :
    tState.ready ∧ tState.part.path.windows[7].enabled = false ∧
      ((windowEntryOf 0 0).enabled = false) ∧ tPath.allows 7 { tWindow 7 0x100 with k := 20 } ∧
      (({ tWindow 7 0 with k := 11 } : WindowEntry).k.toNat < 12) ∧
      20 < ({ tWindow 7 0 with k := 21 } : WindowEntry).k.toNat ∧
      (tWindow 7 0xFF).base.toNat * 4096 < 0 * 0x100000 + 0x100000 ∧
      0 * 0x100000 + 0xFF000 < (tWindow 7 0xFF).base.toNat * 4096 + 2 ^ (tWindow 7 0xFF).k.toNat ∧
      tPath.windows[1].kind = (tWindow 1 0x100).kind ∧ tPath.windows[5].enabled = true ∧ tPath.windows[5].kind = 5 ∧
      ¬ (tPath.windows[5]).sameExtent {} ∧ tPath.allows 5 {} ∧
      ({ head := 1 } : Journal).head ≠ ({ head := 1 } : Journal).tail ∧ tState.part.depot.journal.queue = [] ∧
      tNewRing.part.path.windows[7].enabled = false ∧ tNewRing.part.path.allows 7 (tWindow 5 0x100) :=
  ⟨tState_ready, by decide, by decide, by unfold PathUnit.allows; decide, by decide, by decide, by decide, by decide,
    by decide, by decide, by decide, by unfold WindowEntry.sameExtent; decide, Or.inl rfl, by decide, rfl, by decide,
    by unfold PathUnit.allows; decide⟩

/-- The words of the window table are formed from its fields. -/
theorem test_window_words_form_their_entry :
    windowEntryOf (tWindow 5 0xABC).first (tWindow 5 0xABC).second = tWindow 5 0xABC := by decide

/-- A value at each end of a range and one outside it. -/
theorem witness_SettingWriteIsTakenOrRefused :
    tState.ready ∧ SettingItem.takes .silenceLimit 10 ∧ SettingItem.takes .silenceLimit 600 ∧
      ¬ SettingItem.takes .silenceLimit 601 ∧ SettingItem.takes .periodSchedule 0x1C061703 ∧
      ¬ SettingItem.takes .periodSchedule 0x1D001703 ∧ ¬ SettingItem.takes .periodSchedule 4 := by
  refine ⟨tState_ready, ⟨by decide, by decide⟩, ⟨by decide, by decide⟩, ?_, ?_, ?_, ?_⟩ <;>
    simp only [SettingItem.takes] <;> decide

/-- An item of MAINT's; and the first and the last word of each area without an item. -/
theorem witness_WordsWithoutEffectAreRefusedOrTakenAsNothing :
    tState.ready ∧ (∃ e, Item.windowFirst 7 = .windowFirst e ∧
      Instr.windowFirstWord 7 0 0xF .site = .windowFirstWord e 0 0xF .site) ∧
    4 * (0x3F#10).toNat < 0x100 ∧ 4 * (0x67#10).toNat = 0x19C ∧ 4 * (0x6F#10).toNat < 0x1C0 ∧
      4 * (0xA7#10).toNat = 0x29C ∧ 4 * (0xBF#10).toNat < 0x300 ∧ 4 * (0xC2#10).toNat % 16 = 8 ∧
      4 * (0x1BE#10).toNat < 0x700 ∧ 4 * (0x1C0#10).toNat = 0x700 :=
  ⟨tState_ready, ⟨7, rfl, rfl⟩, by decide, by decide, by decide, by decide, by decide, by decide, by decide, by decide⟩

/-- The ends of each range and the values beside them. -/
theorem witness_SettingsWithEffectsAreJudgedAtOnce :
    tState.ready ∧ (0x1#4 : Enables) ≠ 0 ∧ 50#32 = mergeBytes (word tState.part.depot.water.percent) 50 0xF ∧
      99#32 = mergeBytes (word tState.part.depot.water.percent) 0xAA63 0x1 ∧ 50 ≤ (50#32).toNat ∧ (99#32).toNat ≤ 99 ∧
      (49#32).toNat < 50 ∧ 99 < (100#32).toNat ∧
      24#32 = mergeBytes (word tState.part.depot.identity.pinCount) 0xFF18 0x1 ∧ (24#32).toNat ≤ 24 ∧
      24 < (25#32).toNat ∧ 1#32 = mergeBytes (word tState.part.store.mode.code) 0x101 0x1 ∧ 1 < (2#32).toNat :=
  ⟨tState_ready, by decide⟩

/-- A depot with an open account and a staged word that would invalidate it. -/
def tInUse : Depot := { charge := { accounts := (Vector.replicate 64 {}).set 63 { valid := true, openCount := 1 } } }

/-- A depot whose bays 2 and 3 are held for credit on account 17, with a commit staged that lifts its limit. -/
def tRelax (tag : Tag) : Depot :=
  { charge :=
      { accounts := (Vector.replicate 64 {}).set 17 { valid := true, limit := 1, balance := 5, openCount := 2 }
        staged := (Vector.replicate 64 {}).set 17 { word0 := 0x80000000, word1 := 0 } }
    sessions :=
      { bays := ((Vector.replicate 8 {}).set 2
          { session := { state := .held, hold := some .credit, tag := tag, account := some ⟨17, 0, true⟩ } }).set 3
          { session := { state := .held, hold := some .credit, tag := 5, account := some ⟨17, 1, true⟩ } } } }

/-- No session held; the limit lifted for two sessions with different tags and with the same tag; and an account in
use. -/
theorem witness_AccountCommitTakesTheHostFields :
    tState.ready ∧ (∀ b, ¬ tState.part.depot.heldForCredit 0 b) ∧ (tState.part.depot.account 0).openCount = 0 ∧
    (∀ tag, (tDepot fun _ => tRelax tag).ready) ∧
      ((tRelax 4).account 17).relaxedTo { valid := true, balance := 5, openCount := 2 } ∧
      ¬ ({ valid := true, balance := 5, openCount := 2 } : Account).onCreditHold ∧
      (tRelax 4).charge.staged[17].word0.getLsbD 31 = true ∧ (tRelax 4).charge.staged[17].word1 = 0 ∧
      (∀ e, (tRelax 4).heldForCredit 17 e ↔ e = 2 ∨ e = 3) ∧ (tRelax 4).session 2 ≠ (tRelax 4).session 3 ∧
      ((tRelax 4).session 2).tag ≠ ((tRelax 4).session 3).tag ∧
        ((tRelax 5).session 2).tag = ((tRelax 5).session 3).tag ∧
      (∀ e, (tRelax 5).heldForCredit 17 e ↔ e = 2 ∨ e = 3) ∧
      (∀ e, ¬ (tRelax 5).activeWith ((tRelax 5).session 2).tag e) ∧
    (tDepot fun _ => tInUse).ready ∧ (tInUse.account 63).openCount = 1 ∧
      tInUse.charge.staged[63].word0.getLsbD 31 = false := by
  refine ⟨tState_ready, ?_, by decide, fun _ => tDepot_ready _, ?_, ?_, by decide, by decide, ?_, by decide, by decide,
    by decide, ?_, ?_, tDepot_ready _, by decide, by decide⟩
  · unfold Depot.heldForCredit
    decide
  · unfold Account.relaxedTo
    decide
  · unfold Account.onCreditHold
    decide
  · unfold Depot.heldForCredit
    decide
  · unfold Depot.heldForCredit
    decide
  · unfold Depot.activeWith
    decide

/-- A depot whose bay 3 is held and names or binds account 17. -/
def tHeld (bound : Bool) : Depot :=
  tBay { state := .held, hold := some .credit, tag := 5, account := some ⟨17, 1, bound⟩ } tKnown

/-- A depot like `tHeld true`, with bay 5 washing under the same tag. -/
def tOther : Depot :=
  (tHeld true).modifySession 5 fun _ => { state := .washing, tag := 5, account := some ⟨9, 0, true⟩ }

/-- No override, with the tag of no other bay and with that of bay 5; an override to the valid account 17, and to
account 18, which is invalid; no bound account, and no held session. -/
theorem witness_AdmitEntersAdmittedOrIsRefused :
    (tDepot fun _ => tHeld true).ready ∧ ((tHeld true).session 3).state = .held ∧
      ((tHeld true).session 3).account = some ⟨17, 1, true⟩ ∧ (0x3#4).getLsbD 0 = true ∧
      0x300#32 = mergeBytes 0 0x10300 0x3 ∧ bits (0x300#32) 8 3 = (3 : Fin 8).val ∧ (0x300#32).getLsbD 16 = false ∧
      (∀ c : Fin 8, c ≠ 3 → ((tHeld true).session c).state = .vacant) ∧ (({} : Depot).session 3).state ≠ .held ∧
    (∀ d ∈ [tOther, tStuck tOther], (tDepot fun _ => d).claimsSettled ∧ (d.session 3).state = .held ∧
      (∀ e : Fin 8, e ≠ 3 → (d.activeWith (d.session 3).tag e ↔ e = 5))) ∧
    (tDepot fun _ => tHeld false).ready ∧ ((tHeld false).session 3).state = .held ∧
      (0xF#4).getLsbD 0 = true ∧ 0x51010300#32 = mergeBytes 0 0x51010300 0xF ∧
      bits (0x51010300#32) 24 6 = (17 : Fin 64).val ∧ bits (0x51010300#32) 30 2 = (1 : Fin 4).val ∧
      (0x51010300#32).getLsbD 16 = true ∧ bits (0x51010300#32) 8 3 = (3 : Fin 8).val ∧
      ((tHeld false).account 17).valid = true ∧ ((tHeld false).account 18).valid = false ∧
      ((tHeld false).session 3).account = some ⟨17, 1, false⟩ := by
  refine ⟨tDepot_ready _, by decide, by decide, by decide, by decide, by decide, by decide, by decide, by decide,
    ?_, tDepot_ready _, by decide⟩
  intro d hd
  have h : d = tOther ∨ d = tStuck tOther := by simpa using hd
  rcases h with rfl | rfl
  · refine ⟨⟨by decide, fun c rest h => (nomatch h)⟩, by decide, ?_⟩
    unfold Depot.activeWith
    decide
  · refine ⟨⟨by decide, fun c rest h => ?_⟩, by decide, ?_⟩
    · cases h
      decide
    · unfold Depot.activeWith
      decide

/-- A session in each state. -/
theorem witness_TurnAwayAndCloseEndTheVisit :
    (∀ d, (tDepot fun _ => d).ready) ∧ (0x3#4).getLsbD 0 = true ∧
      bits (mergeBytes 0 0x300 0x3) 8 3 = (3 : Fin 8).val ∧ ((tHeld true).session 3).state = .held ∧
      ∀ st : SessionState, ((tVisit st []).session 3).state = st :=
  ⟨fun _ => tDepot_ready _, by decide, by decide, by decide, fun st => by cases st <;> decide⟩

/-- CLOSE from LOOKUP withdraws the lookup and leaves a TURNED_AWAY record and a VACANT bay. -/
theorem test_close_withdraws_a_lookup :
    (after (.close 0x300 0x3 .site) (tDepot fun d => tBay tLookup { d with
        identity := { lookups := [⟨3, 0x1A2B3C4D5E6F⟩] } })).part.depot.identity.lookups = [] := by decide

theorem witness_ReleaseReclaimOrNoDecision :
    (tDepot fun d => { d with water := { quality := .rejected } }).ready ∧ tState.ready ∧
      tState.part.depot.water.quality ≠ .rejected ∧ (0x1#4).getLsbD 0 = true ∧ (0x2#4 : Enables) ≠ 0 ∧
      decisionField 8 0x1 = 0 ∧ decisionField 1 0x2 = 0 ∧ 5 ≤ decisionField 5 0x1 :=
  ⟨tDepot_ready _, tState_ready, by decide, by decide, by decide, by decide, by decide, by decide⟩

theorem witness_AcknowledgeClearsTheNamedCauses :
    tState.ready ∧ (0x2#4 : Enables) ≠ 0 ∧ (Requester.site = .site ∨ Requester.site = .maint) ∧
      0x1000#32 = mergeBytes 0 0x1002 0x2 :=
  ⟨tState_ready, by decide, Or.inl rfl, by decide⟩

/-- The head itself, the last slot index, one past it, and an index past the head; a record write in flight, an empty
queue, and a waiting record with the ring full before; and a path without a JOURNAL window. -/
theorem witness_TailWriteReleasesSlots :
    tState.ready ∧ ({} : PathUnit).ring = none ∧ 4#32 = mergeBytes 0 4 0x1 ∧ 0 = ({} : Journal).head ∧
      ({} : Journal).tail = ({} : Journal).head ∧ tPath.ring = some { base := 0x5000, slots := 64 } ∧
      (3 + 64 - 1) % 64 ≤ (3 + 64 - 1) % 64 ∧ 64 ≤ (64#32).toNat % 65536 ∧
      (3 + 64 - 1) % 64 < ((4#32).toNat % 65536 + 64 - 1) % 64 ∧
      ({ head := 3, tail := 1, queue := [tRecord], writing := some 0 } : Journal).writing ≠ none ∧
      ({ head := 3, tail := 1 } : Journal).queue = [] ∧
      ({ head := 3, tail := 4, queue := [tRecord] } : Journal).queue = tRecord :: [] ∧
      (5 + 64 - 4) % 64 ≤ (3 + 64 - 4) % 64 ∧ (3 + 64 - 5) % 64 < 64 - 1 ∧ 64 - 1 ≤ (3 + 64 - 4) % 64 :=
  ⟨tState_ready, by decide⟩

theorem witness_PreloadCommitIsJudged :
    (tDepot fun d => { d with identity := { pinCount := 4 } }).ready ∧ (0x4#4 : Enables) ≠ 0 ∧
      0x00030000#32 = mergeBytes 0 0x00031234 0x4 ∧
        (0x00030000#32).toNat / 65536 % 32 < ({ pinCount := 4 } : Identity).pinCount ∧
      ({ pinCount := 4 } : Identity).pinCount ≤ (0x00040000#32).toNat / 65536 % 32 ∧
      ({ pinCount := 4, preload := some ⟨1, 0⟩ } : Identity).preload ≠ none :=
  ⟨tDepot_ready _, by decide, by decide, by decide, by decide, by decide⟩

/-- 29 February 2024 at 23:59:59 and 30 February; a quiet depot, and one with a session in WASHING. -/
theorem witness_CalendarSetIsJudged :
    tState.ready ∧ 0x00173B3B#32 = mergeBytes 0 0xFF173B3B 0x7 ∧ proposalInRange 0x1D0207E8 0x00173B3B ∧
      ¬ proposalInRange 0x1E0207E8 0x00173B3B ∧
      (∀ b : Fin 8, (tState.part.depot.session b).state = .vacant) ∧ tState.part.depot.journal.sweep = none ∧
      (tWashing.part.depot.session 2).state = .washing := by
  refine ⟨tState_ready, by decide, ?_, ?_, by decide, rfl, by decide⟩ <;> unfold proposalInRange <;> decide

/-! ## Invariants -/

/-- The block with a command waiting. -/
def tWaiting : State := { tState with pending := [.refreshIntervalExpiry] }

theorem tWaiting_steps : step tWaiting = .next (after .refreshIntervalExpiry tState) := rfl

theorem witness_StoreStaysCanonical :
    tWaiting.memoryOk ∧ ∃ t, step tWaiting = .next t := ⟨by unfold State.memoryOk; decide, _, tWaiting_steps⟩

theorem witness_QueuesAndDebtStayBounded :
    tWaiting.debtOk ∧ tWaiting.postedOk ∧ tWaiting.queueOk ∧ tWaiting.claimsOk ∧ ∃ t, step tWaiting = .next t :=
  ⟨Nat.zero_le _, Nat.zero_le _, Nat.zero_le _, ⟨Nat.zero_le _, fun _ _ h => (nomatch h), fun _ h => (nomatch h)⟩, _,
    tWaiting_steps⟩

theorem witness_CalendarStaysValid : tWaiting.calendarOk ∧ ∃ t, step tWaiting = .next t :=
  ⟨⟨Calendar.start_sound, Calendar.start_sound, Calendar.start_sound⟩, _, tWaiting_steps⟩

theorem witness_CacheHoldsATagOnce : (tDepot fun _ => tKnown).cacheOk ∧ ∃ t, step tWaiting = .next t :=
  ⟨tKnown_cacheOk, _, tWaiting_steps⟩

theorem witness_PortAndBusAreNeverIdleForNothing :
    (∀ n, Instr.refreshIntervalExpiry ≠ .powerOnReset n) ∧
      exec .refreshIntervalExpiry tState = .next (after .refreshIntervalExpiry tState) :=
  ⟨fun _ h => (nomatch h), rfl⟩

end Sys2Proof.Tests
end

section
/-!
PROOF. Power-on reset puts every unit in its starting state, whatever the state before it.

The reset replaces the part whole, so what it leaves of a unit is that unit's start-up record. A register is read off
that record; what needs an argument is the tables, whose every entry is the one they are filled with, and the reads
that go through an accessor of the model.
-/

namespace Sys2Proof.Machine

open Sys2Proof

/-! ## The command -/

/-- The reset leaves the store and the waiting commands and discards the part (R184; log 18). -/
theorem exec_powerOnReset (n : BitVec 4) (s : State) :
    exec (.powerOnReset n) s = .next { s with part := powerOnPart n } := rfl

/-! ## The tables of a part that starts: each entry is the one that fills the table -/

theorem powerOnPart_windows (n : BitVec 4) (e : Fin 8) : (powerOnPart n).path.windows[e] = {} :=
  Vector.getElem_replicate e.isLt

theorem powerOnPart_stagedWindow (n : BitVec 4) (e : Fin 8) : (powerOnPart n).path.staged[e] = 0 :=
  Vector.getElem_replicate e.isLt

theorem powerOnPart_cache (n : BitVec 4) (i : Fin 32) : (powerOnPart n).depot.identity.cache[i] = {} :=
  Vector.getElem_replicate i.isLt

theorem powerOnPart_bay (n : BitVec 4) (b : Fin 8) : (powerOnPart n).depot.bay b = {} :=
  Vector.getElem_replicate b.isLt

theorem powerOnPart_meters (n : BitVec 4) (m : Fin 20) : (powerOnPart n).depot.water.meters[m] = {} :=
  Vector.getElem_replicate m.isLt

theorem powerOnPart_unattributed (n : BitVec 4) (b : Fin 8) : (powerOnPart n).depot.water.unattributed[b] = {} :=
  Vector.getElem_replicate b.isLt

theorem powerOnPart_account (n : BitVec 4) (a : Fin 64) : (powerOnPart n).depot.account a = {} :=
  Vector.getElem_replicate a.isLt

theorem powerOnPart_stagedAccount (n : BitVec 4) (a : Fin 64) : (powerOnPart n).depot.charge.staged[a] = {} :=
  Vector.getElem_replicate a.isLt

theorem powerOnPart_programs (n : BitVec 4) (p : Fin 16) : (powerOnPart n).depot.charge.programs[p] = {} :=
  Vector.getElem_replicate p.isLt

theorem powerOnPart_tariff (n : BitVec 4) (c : Fin 64) : (powerOnPart n).depot.charge.tariff[c] = 0 :=
  Vector.getElem_replicate c.isLt

theorem powerOnPart_discounts (n : BitVec 4) (b : Fin 4) : (powerOnPart n).depot.charge.discounts[b] = 0 :=
  Vector.getElem_replicate b.isLt

/-! ## The accessors on a part that starts -/

/-- The words of a window entry that is all zero (R206). -/
theorem WindowEntry.start_first : ({} : WindowEntry).first = 0 := by decide

theorem WindowEntry.start_second : ({} : WindowEntry).second = 0 := by decide

/-- The three record windows start alike (R37). -/
theorem powerOnPart_captureWindow (n : BitVec 4) (k : RecordKind) : (powerOnPart n).capture.window k = {} := by
  cases k with
  | identity => rfl
  | plant => rfl
  | bay => rfl

theorem powerOnPart_session (n : BitVec 4) (b : Fin 8) : (powerOnPart n).depot.session b = {} := by
  rw [Depot.session, powerOnPart_bay]

/-- With no cause pending the notice line is low (R200). -/
theorem powerOnPart_line (n : BitVec 4) : (powerOnPart n).depot.notices.line = false := by
  show ({} : Notices).line = false
  decide

/-! ## The statement, unit by unit -/

/-- Settles O2: the part is replaced whole, and each unit's clauses are read off its start-up record. -/
theorem powerOnResetStartsEveryUnit : Obligations.PowerOnResetStartsEveryUnit := by
  intro n s
  refine ⟨_, exec_powerOnReset n s, rfl, ?path, ?capture, ?calendar, ?store, ?identity, ?sessions, ?water, ?charge,
    ?journal, rfl, rfl, rfl, powerOnPart_line n⟩
  case path =>
    refine ⟨rfl, fun e => ⟨?_, ?_, powerOnPart_stagedWindow n e⟩, rfl, rfl, rfl⟩
    · rw [powerOnPart_windows, WindowEntry.start_first]
    · rw [powerOnPart_windows, WindowEntry.start_second]
  case capture =>
    refine ⟨fun k => ?_, rfl, rfl⟩
    rw [powerOnPart_captureWindow]
    exact ⟨rfl, rfl, rfl, rfl, rfl⟩
  case calendar => exact ⟨rfl, rfl, rfl, rfl, rfl⟩
  case store => exact ⟨rfl, rfl, rfl, rfl, rfl, rfl, rfl, rfl⟩
  case identity => exact ⟨powerOnPart_cache n, rfl, rfl, rfl, rfl, rfl, rfl, rfl⟩
  case sessions =>
    refine ⟨fun b => ?_, rfl, rfl⟩
    rw [powerOnPart_session, powerOnPart_bay]
    exact ⟨rfl, rfl, rfl, rfl, rfl, rfl, rfl⟩
  case water =>
    exact ⟨powerOnPart_meters n, rfl, rfl, rfl, rfl, rfl, rfl, rfl, rfl, powerOnPart_unattributed n, rfl, rfl, rfl,
      rfl, rfl, rfl, rfl⟩
  case charge =>
    exact ⟨fun a => ⟨powerOnPart_account n a, powerOnPart_stagedAccount n a⟩, powerOnPart_programs n,
      powerOnPart_tariff n, rfl, rfl, rfl, powerOnPart_discounts n⟩
  case journal => exact ⟨rfl, rfl, rfl, rfl, rfl, rfl, rfl, rfl, rfl, rfl⟩

end Sys2Proof.Machine
end

section
/-!
PROOF. A decision word that concerns no session: RELEASE_RECLAIM, and the kinds that name no decision.

A write of the decision word is judged by its decision field, which lies in byte 0 and so is the written one where that
byte is enabled, and 0 where it is not. A release that the quality machine takes is an entry into SAMPLING with
availability judged after it; the entry never ends in QUALIFIED, so reclaim is then unavailable. The record write that
may begin with the event changes the journal alone.
-/

namespace Sys2Proof.Machine

open Sys2Proof

/-! ## The commands -/

theorem exec_releaseReclaim (data : Word) (be : Enables) (req : Requester) (s : State) :
    exec (.releaseReclaim data be req) s = .next (s.itemAccess .decision (withDecision 4 data) be req) :=
  rfl

theorem exec_decisionNoKind (data : Word) (be : Enables) (req : Requester) (s : State) :
    exec (.decisionNoKind data be req) s = .next (s.itemAccess .decision data be req) :=
  rfl

/-! ## The write of the decision word, taken and refused (R194, R195) -/

theorem Part.refuse_eq_afterRefusal (offset : Nat) (reason : RefusalReason) (p : Part) :
    p.refuse offset reason = p.afterRefusal offset reason := rfl

/-- The decision field of a formed decision word, whichever bytes are enabled (R189, R206). -/
theorem bits_mergeBytes_eq_decisionField (data : Word) (be : Enables) :
    bits (mergeBytes 0 data be) 0 3 = decisionField data be := by
  have hbyte : ∀ i < 3, (mergeBytes 0 data be).getLsbD (0 + i) = (be.getLsbD 0 && data.getLsbD (0 + i)) := by
    intro i hi
    rw [mergeBytes_getLsbD _ _ _ _ (by omega), show (0 + i) / 8 = 0 by omega]
    cases be.getLsbD 0 <;> simp
  unfold decisionField
  split
  · next h =>
    calc bits (mergeBytes 0 data be) 0 3 = bits data 0 3 :=
          bits_congr _ _ 0 3 fun i hi => by rw [hbyte i hi, h, Bool.true_and]
      _ = data.toNat % 8 := by simp [bits]
  · next h =>
    calc bits (mergeBytes 0 data be) 0 3 = bits 0 0 3 :=
          bits_congr _ _ 0 3 fun i hi => by rw [hbyte i hi, Bool.eq_false_of_not_eq_true h, Bool.false_and]; simp
      _ = 0 := by decide

/-- A decision that its owner takes: the part that the owner leaves, and the arbitration of the event. -/
theorem State.decision_taken (s : State) (data : Word) (be : Enables) (req : Requester) (q : Part) (hs : s.ready)
    (hbe : be ≠ 0) (hreq : req = .site ∨ req = .maint)
    (hq : (s.afterControl 0x280 data be req).decide (mergeBytes 0 data be) = .ok q) :
    s.itemAccess .decision data be req = { s with part := q.arbitrate } :=
  s.itemAccess_taken .decision data be req q hs hbe (Item.permitted_shared rfl hreq) hq

/-- A decision that its owner refuses is reported with the decision word's offset and changes nothing else. -/
theorem State.decision_refused (s : State) (data : Word) (be : Enables) (req : Requester) (reason : RefusalReason)
    (hs : s.ready) (hbe : be ≠ 0) (hreq : req = .site ∨ req = .maint)
    (hq : (s.afterControl 0x280 data be req).decide (mergeBytes 0 data be) = .error reason) :
    s.becomes (Part.afterRefusal 0x280 reason (s.afterControl 0x280 data be req))
      (s.itemAccess .decision data be req) :=
  State.becomes_of_eq
    (s.itemAccess_refused .decision data be req reason hs hbe (Item.permitted_shared rfl hreq) hq)
    (Part.refuse_eq_afterRefusal _ _ _)

/-! ## What the judgement of the field gives -/

/-- A field of 0, or of 5 and above, names no decision (R203). -/
theorem Part.decide_noKind (p : Part) (w : Word) (h : bits w 0 3 = 0 ∨ 5 ≤ bits w 0 3) :
    p.decide w = .error .outOfRange := by
  rw [p.decide_code w _ rfl]
  split
  · omega
  · omega
  · omega
  · omega
  · rfl

/-- A formed RELEASE_RECLAIM word goes to the Water Unit. -/
theorem Part.decide_releaseReclaim (p : Part) (data : Word) (be : Enables) (h : be.getLsbD 0 = true) :
    p.decide (mergeBytes 0 (withDecision 4 data) be) =
      p.depot.releaseReclaim.map fun d => { p with depot := d.startWrite p.path.ring } :=
  p.decide_code _ 4 (decision_code 4 data be h)

/-! ## The quality machine under a release (R105) -/

/-- An entry into SAMPLING ends in SAMPLING or REJECTED, where no water is available (R94, R102). -/
theorem Water.enterSampling_unavailable (w : Water) : w.enterSampling.judgedAvailable = false := by
  rw [Water.enterSampling_eq]
  unfold Water.judgedAvailable
  split <;> rfl

theorem Depot.releaseReclaim_refused (d : Depot) (h : d.water.quality ≠ .rejected) :
    d.releaseReclaim = .error .wrongState := if_neg h

/-- A release taken in REJECTED enters SAMPLING and leaves reclaim unavailable; no session, account or refusal changes. -/
theorem Depot.releaseReclaim_taken (d : Depot) (h : d.water.quality = .rejected) :
    ∃ e, d.releaseReclaim = .ok e ∧ e.water = { d.water.enterSampling with available := false } ∧
      e.sessions = d.sessions ∧ e.charge = d.charge ∧ e.notices.refusal = d.notices.refusal := by
  have havail : (d.modifyWater Water.enterSampling).water.judgedAvailable = false := d.water.enterSampling_unavailable
  refine ⟨_, if_pos h, ?_⟩
  rw [Depot.judgeAvailability_eq, havail]
  exact ⟨rfl, rfl, rfl, rfl⟩

/-! ## What a record write that may begin leaves (R136) -/

@[simp] theorem Depot.startWrite_water (ring : Option Ring) (d : Depot) : (d.startWrite ring).water = d.water := by
  obtain ⟨_, _, h, -⟩ := d.startWrite_frame ring
  rw [h]

@[simp] theorem Depot.startWrite_sessions (ring : Option Ring) (d : Depot) :
    (d.startWrite ring).sessions = d.sessions := by
  obtain ⟨_, _, h, -⟩ := d.startWrite_frame ring
  rw [h]

@[simp] theorem Depot.startWrite_charge (ring : Option Ring) (d : Depot) : (d.startWrite ring).charge = d.charge := by
  obtain ⟨_, _, h, -⟩ := d.startWrite_frame ring
  rw [h]

@[simp] theorem Depot.startWrite_notices (ring : Option Ring) (d : Depot) :
    (d.startWrite ring).notices = d.notices := by
  obtain ⟨_, _, h, -⟩ := d.startWrite_frame ring
  rw [h]

/-! ## The statement -/

/-- Settles O49: the release by whether the machine is in REJECTED, the word that names no decision by its field. -/
theorem releaseReclaimOrNoDecision : Obligations.ReleaseReclaimOrNoDecision := by
  intro s data be req hs hbe hreq
  refine ⟨fun hbyte hrej => ?taken, fun hbyte hrej => ?wrongState, fun hfield => ?noKind⟩
  case taken =>
    obtain ⟨e, hrelease, hwater, hsessions, hcharge, hrefusal⟩ := s.part.depot.releaseReclaim_taken hrej
    have hdecide := (s.afterControl 0x280 (withDecision 4 data) be req).decide_releaseReclaim data be hbyte
    rw [State.afterControl_depot, hrelease] at hdecide
    refine ⟨_, exec_releaseReclaim data be req s, ?_⟩
    rw [s.decision_taken _ be req _ hs hbe hreq hdecide]
    refine ⟨rfl, ?water, ?sessions, ?charge, ?refusal⟩
    case water => simp [hwater, Water.enterSampling_eq]
    case sessions => simp [hsessions]
    case charge => simp [hcharge]
    case refusal => simp [hrefusal]
  case wrongState =>
    refine ⟨_, exec_releaseReclaim data be req s, s.decision_refused _ be req _ hs hbe hreq ?_⟩
    rw [Part.decide_releaseReclaim _ data be hbyte, State.afterControl_depot, Depot.releaseReclaim_refused _ hrej]
    rfl
  case noKind =>
    refine ⟨_, exec_decisionNoKind data be req s, s.decision_refused data be req _ hs hbe hreq ?_⟩
    apply Part.decide_noKind
    rwa [bits_mergeBytes_eq_decisionField]

end Sys2Proof.Machine
end

section
/-!
PROOF. The amount of a CHARGE record: water charge, subtotal, discount, and the saturation of the final amount.

The model adds the tariff cell to the water charge, the rule the water charge to the cell; it tests the last record of
an abandoned session as one flag; and it saturates by a minimum. Each is restated in the rule's own steps, and the
composed record is then read off field by field.
-/

namespace Sys2Proof.Machine

open Sys2Proof

/-! ## The steps of the rule (R126, R127) -/

/-- The model's exact amount by the steps of R126, each given by name. -/
theorem exactAmount_of_steps {fresh conceded reclaim freshRate reclaimRate cell fee percent water subtotal : Nat}
    (hwater : water = (fresh * freshRate + (conceded + reclaim) * reclaimRate) / 100)
    (hsubtotal : subtotal = cell + water + fee) :
    exactAmount fresh conceded reclaim freshRate reclaimRate cell fee percent =
      subtotal - subtotal * percent / 100 := by
  have hsum : waterCharge fresh conceded reclaim freshRate reclaimRate + cell + fee = subtotal := by
    rw [waterCharge, ← hwater, Nat.add_comm water, hsubtotal]
  rw [exactAmount, hsum, discounted]

/-- The abandon fee falls on the last record of an abandoned session alone (R126). -/
theorem abandonFee_eq (last abandoned : Bool) (fee : Nat) :
    (if last && abandoned then fee else 0) = if last = true ∧ abandoned = true then fee else 0 := by
  simp only [Bool.and_eq_true]

/-- The saturation of an amount at 4,294,967,295 cents (R127). -/
theorem min_max32_eq (amount : Nat) :
    min Config.max32 amount = if 4294967295 < amount then 4294967295 else amount :=
  min_def_lt _ _

/-! ## The statement -/

/-- Settles O54: the composed record read field by field, its amount restated in the steps of R126 and R127. -/
theorem chargeAmountFollowsItsRule : Obligations.ChargeAmountFollowsItsRule := by
  intro d b r stamp l last
  have hexact := exactAmount_of_steps (fresh := l.fresh) (conceded := l.conceded) (reclaim := l.reclaim)
    (freshRate := d.charge.freshRate) (reclaimRate := d.charge.reclaimRate)
    (cell := (d.charge.cell r.cls l.program).toNat)
    (fee := if last && (d.session b).abandoned then d.charge.abandonFee else 0)
    (percent := d.charge.discounts[(d.account r.index).band]) rfl rfl
  rw [abandonFee_eq] at hexact
  refine ⟨_, _, _, _, rfl, rfl, rfl, rfl, ?amount, ?saturated, rfl, rfl, rfl, rfl, rfl, rfl⟩
  case amount =>
    dsimp only
    rw [min_max32_eq, abandonFee_eq, hexact]
    rfl
  case saturated =>
    dsimp only
    rw [decide_eq_true_iff, abandonFee_eq, hexact]
    rfl

end Sys2Proof.Machine
end

section
/-!
PROOF. The arbiter's nine ranks, and the end of a row refresh.

A free port goes to the model's best claim, so the rule of the ranks is read off the order in which the best claim is
sought. One lemma for each rank says when its claimant waits, in the terms of the rule; the later ones speak of a part
in which the earlier ranks do not wait: a debt below 4, a store that is RUNNING, an empty posted write queue. The end of
a refresh is one update of the Store Unit, and the arbitration after it changes nothing but the port.
-/

namespace Sys2Proof.Machine

open Sys2Proof

/-! ## The grant of a free port (R171) -/

theorem Part.arbitrate_grant_of_free (p : Part) (h : p.store.grant = none) :
    p.arbitrate.store.grant = p.settleWalker.bestClaim := by
  cases hb : p.settleWalker.bestClaim with
  | none => rw [p.arbitrate_idle hb, Part.settleWalker_store, h]
  | some g => rw [p.arbitrate_gives g h hb, Part.give_store_grant]

/-! ## When each claimant waits (R172) -/

theorem StoreUnit.urgentWaits_iff (u : StoreUnit) : u.urgentWaits = true ↔ 4 ≤ u.debt :=
  decide_eq_true_iff

theorem PathUnit.full_iff (u : PathUnit) : u.full = true ↔ 4 ≤ u.posted.length :=
  decide_eq_true_iff

theorem PathUnit.readWaits_iff (u : PathUnit) : u.readWaits = true ↔ u.held.map Held.isClaimed = some true := by
  unfold PathUnit.readWaits
  cases u.held with
  | none => simp
  | some w => cases w <;> simp [Held.isClaimed]

/-- Once the run state is not CLEARING, the mode in force is the effective one (R175). -/
theorem StoreUnit.effectiveMode_of_not_clearing (u : StoreUnit) (h : u.run ≠ .clearing) :
    u.effectiveMode = u.mode := by
  unfold StoreUnit.effectiveMode
  cases hr : u.run with
  | clearing => exact absurd hr h
  | running => rfl

theorem StoreUnit.scheduledWaits_iff (u : StoreUnit) (hdebt : ¬ 4 ≤ u.debt) (hrun : u.run ≠ .clearing) :
    u.scheduledWaits = true ↔ 1 ≤ u.debt ∧ u.mode = .scheduled := by
  have hlow : u.debt < Config.urgentDebt := Nat.lt_of_not_le hdebt
  simp [StoreUnit.scheduledWaits, u.effectiveMode_of_not_clearing hrun, hlow]

theorem StoreUnit.opportuneWaits_iff (u : StoreUnit) (hdebt : ¬ 4 ≤ u.debt) (hrun : u.run ≠ .clearing) :
    u.opportuneWaits = true ↔ u.mode = .opportune ∧ u.opportune = true := by
  have hlow : u.debt < Config.urgentDebt := Nat.lt_of_not_le hdebt
  simp [StoreUnit.opportuneWaits, u.effectiveMode_of_not_clearing hrun, hlow]

/-- With no posted entry the claim of a fetch depends on its read in progress alone (R46). -/
theorem Part.slotClaim_settleWalker (p : Part) (f : Fetch) (hf : p.depot.identity.fetch = some f)
    (hposted : p.path.posted = []) :
    p.settleWalker.depot.identity.slotClaim = if f.reading = false then some f.slotAddr else none := by
  have hslot : p.path.holdsSlot f.slotAddr = false := by rw [PathUnit.holdsSlot, hposted, List.any_nil]
  simp only [Part.settleWalker, Depot.modifyIdentity, Identity.slotClaim, hf, Option.map_some, hslot, Bool.not_false,
    Bool.and_true, Bool.not_eq_true']
  rfl

theorem Part.slotClaim_settleWalker_no_fetch (p : Part) (hf : p.depot.identity.fetch = none) :
    p.settleWalker.depot.identity.slotClaim = none := by
  simp only [Part.settleWalker, Depot.modifyIdentity, Identity.slotClaim, hf, Option.map_none]

/-! ## The ranks below the posted write queue -/

/-- Ranks 8 and 9: the journal's record write, then opportune refresh. -/
def Part.claimBelowWalker (p : Part) : Option Grant :=
  if p.depot.journal.writing.isSome then some .journal
  else if p.store.opportuneWaits then some .refresh
  else none

theorem Part.claimBelowWalker_eq (p : Part) (hdebt : ¬ 4 ≤ p.store.debt) (hrun : p.store.run ≠ .clearing) :
    p.claimBelowWalker =
      if p.depot.journal.writing.isSome then some .journal
      else if p.store.mode = .opportune ∧ p.store.opportune = true then some .refresh
      else none := by
  simp only [Part.claimBelowWalker, p.store.opportuneWaits_iff hdebt hrun]

/-- Ranks 5 to 9 in the order of R172. -/
theorem Part.lowerClaim_eq (p : Part) :
    p.lowerClaim =
      if p.path.posted ≠ [] then some .drain
      else if p.store.scheduledWaits then some .refresh
      else (p.depot.identity.slotClaim.map Grant.walker).or p.claimBelowWalker := by
  unfold Part.lowerClaim
  refine ite_congr (by simp) (fun _ => rfl) fun _ => ite_congr rfl (fun _ => rfl) fun _ => ?_
  cases p.depot.identity.slotClaim <;> rfl

/-! ## The statement of the ranks -/

/-- Settles O20: the best claim is sought rank by rank, and each rank's claimant waits as the rule says. -/
theorem portFollowsTheRanks : Obligations.PortFollowsTheRanks := by
  intro p hfree
  rw [p.arbitrate_grant_of_free hfree, Part.bestClaim, Part.lowerClaim_eq]
  simp only [Part.settleWalker_path, Part.settleWalker_store]
  refine ite_congr (propext p.store.urgentWaits_iff) (fun _ => rfl) fun hdebt => ?_
  refine ite_congr rfl (fun _ => rfl) fun hrun => ?_
  refine ite_congr (propext p.path.full_iff) (fun _ => rfl) fun _ => ?_
  refine ite_congr (propext p.path.readWaits_iff) (fun _ => rfl) fun _ => ?_
  refine ite_congr rfl (fun _ => rfl) fun hposted => ?_
  refine ite_congr (propext (p.store.scheduledWaits_iff hdebt hrun)) (fun _ => rfl) fun _ => ?_
  have hbelow := p.settleWalker.claimBelowWalker_eq hdebt hrun
  cases hf : p.depot.identity.fetch with
  | none =>
    rw [p.slotClaim_settleWalker_no_fetch hf]
    exact hbelow
  | some f =>
    rw [p.slotClaim_settleWalker f hf (not_not.mp hposted)]
    by_cases hread : f.reading = false
    · rw [if_pos hread]
      exact (if_pos hread).symm
    · rw [if_neg hread]
      exact hbelow.trans (if_neg hread).symm

/-! ## The end of a refresh (R174) -/

/-- The row counter turns over after the last of the 4096 rows. -/
theorem row_succ_mod_storeRows (row : Nat) (h : row ≤ 4095) :
    (row + 1) % Config.storeRows = if row = 4095 then 0 else row + 1 := by
  unfold Config.storeRows
  split <;> omega

/-- The debt falls by one, or stays at 0. -/
theorem debt_pred_eq_ite (debt : Nat) : debt - 1 = if debt = 0 then 0 else debt - 1 := by
  split <;> omega

theorem StoreUnit.refreshEnd_eq (u : StoreUnit) (h : u.row ≤ 4095) :
    u.refreshEnd =
      { u with
        row := if u.row = 4095 then 0 else u.row + 1
        debt := if u.debt = 0 then 0 else u.debt - 1
        opportune := false
        grant := none } := by
  rw [StoreUnit.refreshEnd, row_succ_mod_storeRows u.row h, ← debt_pred_eq_ite]

theorem Part.rowRefreshEnd_of_refresh (p : Part) (h : p.store.grant = some .refresh) :
    p.rowRefreshEnd = { p with store := p.store.refreshEnd } := by
  unfold Part.rowRefreshEnd
  rw [h]

theorem exec_rowRefreshEnd (s : State) : exec .rowRefreshEnd s = .next (s.event Part.rowRefreshEnd) := rfl

/-- The end of a grant changes nothing but the port. -/
theorem Part.endGrant_portOnly (p : Part) : PortOnly p p.endGrant := ⟨rfl, rfl⟩

/-- Settles O18: the end of a refresh is one update of the Store Unit, which frees the port for an arbitration. -/
theorem rowRefreshEndsUnderItsRule : Obligations.RowRefreshEndsUnderItsRule := by
  intro s hdeferred hgrant hrow
  have hend := s.part.begin.rowRefreshEnd_of_refresh hgrant
  rw [Part.begin_store, s.part.store.refreshEnd_eq hrow] at hend
  rw [exec_rowRefreshEnd, s.event_eq Part.rowRefreshEnd _ hend hdeferred]
  exact ⟨_, rfl, rfl, rfl, (Part.endGrant_portOnly _).trans (Part.arbitrate_portOnly _)⟩

end Sys2Proof.Machine
end


section
/-!
PROOF. The acknowledge word clears the causes it names and empties the latches tied to three of them.

The write is SITE's or MAINT's and its owner refuses it for nothing, so it is always taken. The model keeps the low half
of the formed word as a set of causes and tests that set; the rule tests the word. The two agree because each cause's
bit lies in the low half.
-/

namespace Sys2Proof.Machine

open Sys2Proof

theorem exec_noticeAcknowledge (data : Word) (be : Enables) (req : Requester) (s : State) :
    exec (.noticeAcknowledge data be req) s = .next (s.itemAccess .acknowledge data be req) := rfl

/-- The causes that an acknowledge word names are its low half (R206). -/
theorem namedCauses_eq_extractLsb' (v : Word) : BitVec.ofNat 16 v.toNat = v.extractLsb' 0 16 := by
  rw [BitVec.extractLsb', Nat.shiftRight_zero]

/-- A cause is named by the word's flag at its position (R198, R206). -/
theorem Cause.getLsbD_named (c : Cause) (v : Word) :
    (v.extractLsb' 0 16).getLsbD c.position = v.getLsbD c.position := by
  have hpos : c.position < 16 := by cases c <;> decide
  rw [BitVec.getLsbD_extractLsb', decide_eq_true hpos, Bool.true_and, Nat.zero_add]

/-- An acknowledge in terms of the word: the low half is cleared from the pending set, and each of the three flags of
R198 empties its latch. -/
theorem Part.acknowledge_word (p : Part) (v : Word) :
    p.acknowledge (v.extractLsb' 0 16) =
      { p with
        path := { p.path with blockLatch := if v.getLsbD 1 then none else p.path.blockLatch }
        store := { p.store with latch := if v.getLsbD 12 then none else p.store.latch }
        depot := { p.depot with
          notices := { p.depot.notices with
            pending := p.depot.notices.pending &&& ~~~ v.extractLsb' 0 16
            refusal := if v.getLsbD 2 then none else p.depot.notices.refusal } } } := by
  rw [Part.acknowledge, Cause.getLsbD_named, Cause.getLsbD_named, Cause.getLsbD_named]
  rfl

/-- Settles O50: the word is taken whatever it names, and its owner's acknowledge is read in the word's own flags. -/
theorem acknowledgeClearsTheNamedCauses : Obligations.AcknowledgeClearsTheNamedCauses := by
  rintro s data v be req hs hbe hreq rfl
  have htaken : (s.afterControl 0x284 data be req).takeItem .acknowledge (mergeBytes 0 data be) =
      .ok ((s.afterControl 0x284 data be req).acknowledge ((mergeBytes 0 data be).extractLsb' 0 16)) := by
    rw [← namedCauses_eq_extractLsb']
    rfl
  refine ⟨_, exec_noticeAcknowledge data be req s, State.becomes_of_eq
    (s.itemAccess_taken .acknowledge data be req _ hs hbe (Item.permitted_shared rfl hreq) htaken) ?_⟩
  rw [Part.acknowledge_word, State.afterControl_depot, State.afterControl_store, State.afterControl_blockLatch]

end Sys2Proof.Machine
end

section
/-!
PROOF. What a command can do, said once: every command but the two resets is an event of the part, which either leaves the
store alone or makes a store operation, and which ends with `Part.finish`. The end of an event leaves no claim waiting at
a free port and no access waiting for a free bus.
-/

namespace Sys2Proof.Machine

open Sys2Proof

/-! ## The commands -/

/-- The events that leave the store alone. -/
inductive PartEvent : (Part → Part) → Prop
  | access (a : Access) : PartEvent (Part.access a)
  | postWaiting : PartEvent Part.postWaiting
  | claimWaiting : PartEvent Part.claimWaiting
  | resumeWaiting : PartEvent Part.resumeWaiting
  | refreshExpiry : PartEvent Part.refreshExpiry
  | rowRefreshEnd : PartEvent Part.rowRefreshEnd
  | fetchStart : PartEvent Part.fetchStart
  | settleWalker : PartEvent Part.settleWalker
  | expire (t : Timer) : PartEvent (Part.expire t)
  | tick (order : TickOrder) : PartEvent (Part.tick order)
  | judgeClaims : PartEvent fun p => p.onDepot Depot.judgeClaims
  | startWrite : PartEvent fun p => p.onDepot fun _ d => d

/-- The events that make a store operation. -/
inductive StoreEvent : (Part → Memory → Part × Memory) → Prop
  | drainDone (u : Upset) : StoreEvent (Part.drainDone u)
  | readDone (u : Upset) : StoreEvent (Part.readDone u)
  | clearingDone : StoreEvent Part.clearingDone
  | slotDone (u : SlotUpset) : StoreEvent (Part.slotDone u)
  | journalDone : StoreEvent Part.journalDone

/-- What a command leaves: a reset of the part, or an event of it. -/
inductive Leaves (c : Instr) (s : State) : State → Prop
  | powerOn (n : BitVec 4) (h : c = .powerOnReset n) : Leaves c s { s with part := powerOnPart n }
  | warm (w : ResetOrder) : Leaves c s { s with part := s.part.begin.warmReset w }
  | event (f : Part → Part) (h : PartEvent f) : Leaves c s (s.event f)
  | storeEvent (f : Part → Memory → Part × Memory) (h : StoreEvent f) : Leaves c s (s.storeEvent f)

theorem Leaves.itemAccess {c : Instr} {s : State} (i : Item) (data : Word) (be : Enables) (req : Requester) :
    Leaves c s (s.itemAccess i data be req) := .event _ (.access _)

/-- Every command leaves what its row of the dispatch says, and no command ends in a fault or a refusal. -/
theorem exec_leaves (c : Instr) (s : State) : ∃ t, exec c s = .next t ∧ Leaves c s t := by
  cases c
  case powerOnReset n => exact ⟨_, rfl, .powerOn n rfl⟩
  case warmReset w => exact ⟨_, rfl, .warm w⟩
  case upstreamWrite => exact ⟨_, rfl, .event _ (.access _)⟩
  case waitingWritePosted => exact ⟨_, rfl, .event _ .postWaiting⟩
  case upstreamRead => exact ⟨_, rfl, .event _ (.access _)⟩
  case dateViewRead => exact ⟨_, rfl, .event _ (.access _)⟩
  case readClaimAfterDrain => exact ⟨_, rfl, .event _ .claimWaiting⟩
  case accessResumedAfterClearing => exact ⟨_, rfl, .event _ .resumeWaiting⟩
  case postedDrainDone u => exact ⟨_, rfl, .storeEvent _ (.drainDone u)⟩
  case upstreamReadDone u => exact ⟨_, rfl, .storeEvent _ (.readDone u)⟩
  case refreshIntervalExpiry => exact ⟨_, rfl, .event _ .refreshExpiry⟩
  case rowRefreshEnd => exact ⟨_, rfl, .event _ .rowRefreshEnd⟩
  case clearingWriteEnd => exact ⟨_, rfl, .storeEvent _ .clearingDone⟩
  case fetchStart => exact ⟨_, rfl, .event _ .fetchStart⟩
  case walkerClaimAfterDrain => exact ⟨_, rfl, .event _ .settleWalker⟩
  case slotReadComplete u => exact ⟨_, rfl, .storeEvent _ (.slotDone u)⟩
  case silenceExpiry b => exact ⟨_, rfl, .event _ (.expire (.silence b))⟩
  case holdExpiry b => exact ⟨_, rfl, .event _ (.expire (.hold b))⟩
  case qualityTimerExpiry => exact ⟨_, rfl, .event _ (.expire .quality)⟩
  case halfSecondTick o => exact ⟨_, rfl, .event _ (.tick o)⟩
  case claimAdmission => exact ⟨_, rfl, .event _ .judgeClaims⟩
  case recordWriteStart => exact ⟨_, rfl, .event _ .startWrite⟩
  case journalWordWritten => exact ⟨_, rfl, .storeEvent _ .journalDone⟩
  case controlWrite => exact ⟨_, rfl, .event _ (.access _)⟩
  all_goals exact ⟨_, rfl, .itemAccess _ _ _ _⟩

theorem leaves_of_exec {c : Instr} {s t : State} (h : exec c s = .next t) : Leaves c s t := by
  obtain ⟨u, hu, hl⟩ := exec_leaves c s
  rw [hu, Host.Outcome.next.injEq] at h
  exact h ▸ hl

/-- A step leaves the state as it is, or what the command at the front of the queue leaves. -/
theorem leaves_of_step {s t : State} (h : step s = .next t) :
    t = s ∨ ∃ c rest, s.pending = c :: rest ∧ Leaves c { s with pending := rest } t := by
  unfold step at h
  split at h
  · exact .inl (Host.Outcome.next.inj h).symm
  · next c rest hs => exact .inr ⟨c, rest, hs, leaves_of_exec h⟩

/-- What a command other than power-on reset leaves is the end of an event of the part. -/
theorem Leaves.finishes {c : Instr} {s t : State} (h : Leaves c s t) (hc : ∀ n, c ≠ .powerOnReset n) :
    ∃ p : Part, t.part = p.finish := by
  cases h with
  | powerOn n hn => exact absurd hn (hc n)
  | event f _ => exact ⟨_, rfl⟩
  | storeEvent f _ => exact ⟨_, rfl⟩
  | warm w =>
    simp only [Part.warmReset, Part.finishReset]
    split
    · split
      · exact ⟨_, rfl⟩
      · exact ⟨_, rfl⟩
    · exact ⟨_, rfl⟩

/-! ## The end of an event (R171; log 13) -/

/-- No claim waits at a free port (R171). -/
def Part.portServed (p : Part) : Prop := p.store.grant = none → p.settleWalker.bestClaim = none

/-- No access waits for a bus that is free (log 13). -/
def Part.busServed (p : Part) : Prop := p.path.deferred = [] ∨ p.path.held.isSome = true

/-- The accesses behind the bus take no part in an arbitration. -/
theorem Part.portServed_deferred {p : Part} (l : List Access) (h : p.portServed) :
    Part.portServed { p with path := { p.path with deferred := l } } := h

theorem Part.runDeferred_serves (l : List Access) (p : Part) (hport : p.portServed) (hbus : p.path.deferred = []) :
    (Part.runDeferred l p).portServed ∧ (Part.runDeferred l p).busServed := by
  induction l generalizing p with
  | nil => exact ⟨hport, .inl hbus⟩
  | cons a rest ih =>
    unfold Part.runDeferred
    split
    · next hheld => exact ⟨Part.portServed_deferred _ hport, .inr hheld⟩
    · exact ih _ (Part.arbitrate_portOk _) (by rw [Part.arbitrate_path, Part.arrive_deferred, hbus])

theorem Part.finish_serves (p : Part) : p.finish.portServed ∧ p.finish.busServed :=
  Part.runDeferred_serves _ _ (Part.portServed_deferred [] (Part.arbitrate_portOk p)) rfl

/-- Settles O59: every command but power-on reset ends with an arbitration after each access that it lets through. -/
theorem portAndBusAreNeverIdleForNothing : Obligations.PortAndBusAreNeverIdleForNothing := by
  intro c s t hc h
  obtain ⟨p, hp⟩ := (leaves_of_exec h).finishes hc
  have hserved := p.finish_serves
  rw [← hp] at hserved
  exact hserved

/-! ## The store (R170; log 12) -/

theorem Part.clearingDone_wf (p : Part) (m : Memory) (h : m.wf = true) : (p.clearingDone m).2.wf = true := by
  unfold Part.clearingDone
  dsimp only
  split
  · exact m.writeWord_wf _ _ h
  · exact h

/-- Every store operation keeps the canonical form. -/
theorem StoreEvent.keeps_wf {f : Part → Memory → Part × Memory} (hf : StoreEvent f) (p : Part) (m : Memory)
    (h : m.wf = true) : (f p m).2.wf = true := by
  cases hf with
  | drainDone u =>
    unfold Part.drainDone
    split
    · exact m.drain_wf _ _ h
    · exact h
  | readDone u =>
    unfold Part.readDone
    split
    · exact m.lose_wf _ _ h
    · exact h
  | clearingDone => exact p.clearingDone_wf m h
  | slotDone u =>
    unfold Part.slotDone
    split
    · exact m.loseSlot_wf _ _ h
    · exact h
  | journalDone =>
    unfold Part.journalDone
    split
    · exact m.writeWord_wf _ _ h
    · exact h

/-- Settles O55: only a store operation touches the store, and each keeps its form. -/
theorem storeStaysCanonical : Obligations.StoreStaysCanonical := by
  intro s t hs h
  obtain rfl | ⟨c, rest, -, hl⟩ := leaves_of_step h
  · exact hs
  · cases hl with
    | powerOn n _ => exact hs
    | warm w => exact hs
    | event f _ => exact hs
    | storeEvent f hf => exact hf.keeps_wf _ _ hs

end Sys2Proof.Machine
end

section
/-!
PROOF. The invariants of the part, kept by every step: the refresh debt, the posted write queue, the insertion queue and its
claims, the calendar and the identity cache.

One relation between two parts says that the second is within its bounds wherever the first is. It is reflexive and
transitive, so the lemma about a function of the model follows the function's own composition, and each is proved once for
all the invariants.
-/

namespace Sys2Proof.Machine

open Sys2Proof

/-- The calendar, its snapshot and the stamp of the latest tick are sound (R155, R156). -/
def CalendarUnit.sound (u : CalendarUnit) : Prop := u.now.sound ∧ u.snapshot.sound ∧ u.tickStamp.sound

/-- `q` is within the bounds of every invariant that `p` is within. -/
structure Keeps (p q : Part) : Prop where
  debt : p.store.debt ≤ 8 → q.store.debt ≤ 8
  posted : p.path.posted.length ≤ 4 → q.path.posted.length ≤ 4
  calendar : p.calendar.sound → q.calendar.sound
  depot : KeepsBounds p.depot q.depot

namespace Keeps

theorem refl (p : Part) : Keeps p p := ⟨id, id, id, KeepsBounds.refl _⟩

theorem trans {p q r : Part} (h : Keeps p q) (k : Keeps q r) : Keeps p r :=
  ⟨k.debt ∘ h.debt, k.posted ∘ h.posted, k.calendar ∘ h.calendar, h.depot.trans k.depot⟩

theorem foldl {α : Type} (f : Part → α → Part) (h : ∀ x a, Keeps x (f x a)) (l : List α) (p : Part) :
    Keeps p (l.foldl f p) := by
  induction l generalizing p with
  | nil => exact refl p
  | cons a l ih => exact (h p a).trans (ih _)

/-! ## Changes of one unit -/

/-- A change of the units behind the bus that keeps their bounds. -/
theorem ofDepot {p : Part} {d : Depot} (h : KeepsBounds p.depot d) : Keeps p { p with depot := d } := ⟨id, id, id, h⟩

theorem ofSteady {p : Part} {d : Depot} (h : Steady p.depot d) : Keeps p { p with depot := d } := ofDepot h.sound

theorem ofCalendar {p : Part} {u : CalendarUnit} (h : p.calendar.sound → u.sound) : Keeps p { p with calendar := u } :=
  ⟨id, id, h, KeepsBounds.refl _⟩

theorem ofPath {p : Part} {u : PathUnit} (h : u.posted = p.path.posted) : Keeps p { p with path := u } :=
  ⟨id, fun k => h ▸ k, id, KeepsBounds.refl _⟩

/-! ## The arbiter and the units' shared operations -/

theorem ofPortOnly {p q : Part} (h : PortOnly p q) : Keeps p q where
  debt k := by rw [h.store]; exact k
  posted k := by rw [h.path]; exact k
  calendar k := by rw [h.calendar]; exact k
  depot := by rw [h.depot]; exact Steady.sound ⟨rfl, rfl, rfl⟩

theorem arbitrate (p : Part) : Keeps p p.arbitrate := ofPortOnly p.arbitrate_portOnly

theorem raise (c : Cause) (p : Part) : Keeps p (p.raise c) := ofSteady (Steady.raise c _)

theorem refuse (o : Nat) (r : RefusalReason) (p : Part) : Keeps p (p.refuse o r) := ofSteady (Steady.refuse o r _)

theorem complete (a : Access) (w : Word) (p : Part) : Keeps p (p.complete a w) := ofPath rfl

theorem hold (h : Held) (p : Part) : Keeps p (p.hold h) := ofPath rfl

theorem unhold (p : Part) : Keeps p p.unhold := ofPath rfl

theorem endGrant (p : Part) : Keeps p p.endGrant := ⟨id, id, id, KeepsBounds.refl _⟩

theorem block (a : Addr) (req : Requester) (d : Direction) (p : Part) : Keeps p (p.block a req d) :=
  ⟨id, id, id, (Steady.raise _ _).sound⟩

theorem reportParity (a : Addr) (found : Option Halves) (k : ParityAccess) (req : Option Requester) (p : Part) :
    Keeps p (p.reportParity a found k req) := by
  unfold Part.reportParity
  split
  · exact ⟨id, id, id, (Steady.raise _ _).sound⟩
  · exact refl p

/-- An event at the units behind the bus, with the record write that may begin after it. -/
theorem onDepot (f : Calendar → Depot → Depot) (p : Part) (h : ∀ now d, KeepsBounds d (f now d)) : Keeps p (p.onDepot f) :=
  ofDepot ((h _ _).trans (KeepsBounds.startWrite _ _))

theorem onTick (f : Calendar → Depot → Depot) (p : Part) (h : ∀ now d, KeepsBounds d (f now d)) : Keeps p (p.onTick f) :=
  ofDepot ((h _ _).trans (KeepsBounds.startWrite _ _))

/-! ## Records -/

theorem deliverRecord (kind : RecordKind) (r : Vector Word 4) (p : Part) : Keeps p (p.deliverRecord kind r) := by
  unfold Part.deliverRecord
  split
  · have hlast : Keeps p { p with capture := { p.capture with
        lastIdentity := some ⟨Fin.ofNat 8 (recordByte r 0), recordByte r 1, recordByte r 2⟩ } } :=
      ⟨id, id, id, KeepsBounds.refl _⟩
    exact hlast.trans (onDepot _ _ fun _ d => (Steady.identityRecord _ _ d).sound)
  · exact onDepot _ p fun now d => KeepsBounds.plantRecord r now d
  · exact onDepot _ p fun now d => KeepsBounds.bayRecord r now d

theorem recordWord (kind : RecordKind) (o : Nat) (data : Word) (be : Enables) (p : Part) :
    Keeps p (p.recordWord kind o data be) := by
  unfold Part.recordWord
  dsimp only
  generalize CaptureWindow.receive _ _ _ _ _ _ _ = r
  have hcapture : Keeps p { p with capture := p.capture.setWindow kind r.window } := ⟨id, id, id, KeepsBounds.refl _⟩
  have hreject : Keeps p (if r.rejected then
      ({ p with capture := p.capture.setWindow kind r.window } : Part).raise .recordReject
      else { p with capture := p.capture.setWindow kind r.window }) := by
    split
    · exact hcapture.trans (raise _ _)
    · exact hcapture
  split
  · exact hreject.trans (deliverRecord _ _ _)
  · exact hreject

/-! ## Control-window words -/

theorem reportOld (old : Option (WindowKind × Nat × Nat)) (p : Part) : Keeps p (p.reportOld old) := by
  unfold Part.reportOld
  split
  · exact ⟨id, id, id, KeepsBounds.refl _⟩
  · exact ⟨id, id, id, KeepsBounds.refl _⟩
  · exact ⟨id, id, id, KeepsBounds.refl _⟩
  · exact ofDepot (KeepsBounds.directoryChanged _)
  · exact refl p

theorem reportJournal (old new : Option (WindowKind × Nat × Nat)) (p : Part) : Keeps p (p.reportJournal old new) := by
  unfold Part.reportJournal
  split
  · exact ofSteady (Steady.modifyJournal _ _ (fun _ => rfl) fun _ => rfl)
  · exact refl p

theorem takeWindow (e : Fin 8) (w : WindowEntry) (p : Part) : Keeps p (p.takeWindow e w) := by
  unfold Part.takeWindow
  dsimp only
  split
  · exact ofPath rfl
  · have hentry : Keeps p { p with path := { p.path with windows := p.path.windows.set e w } } := ofPath rfl
    exact hentry.trans ((reportOld _ _).trans ((reportJournal _ _ _).trans
      (onDepot (fun _ d => d) _ fun _ d => KeepsBounds.refl d)))

theorem setSetting {i : SettingItem} {v : Word} {p q : Part} (h : p.setSetting i v = some q) : Keeps p q := by
  have hsteady : ∀ {f : Depot → Depot}, Steady p.depot (f p.depot) → some { p with depot := f p.depot } = some q →
      Keeps p q := fun hf hq => Option.some.inj hq ▸ ofSteady hf
  cases i <;> simp only [Part.setSetting, Option.ite_none_right_eq_some] at h
  case minQuality => exact Option.some.inj h.2 ▸ ⟨id, id, id, KeepsBounds.refl _⟩
  case periodSchedule => exact Option.some.inj h.2 ▸ ofCalendar id
  case quotaHour => exact Option.some.inj h.2 ▸ ofCalendar id
  case jumpLimit => exact Option.some.inj h ▸ ofSteady ⟨rfl, rfl, rfl⟩
  case abandonFee => exact Option.some.inj h ▸ ofSteady ⟨rfl, rfl, rfl⟩
  case program => exact Option.some.inj h ▸ ofSteady ⟨rfl, rfl, rfl⟩
  case tariff => exact Option.some.inj h ▸ ofSteady ⟨rfl, rfl, rfl⟩
  all_goals exact Option.some.inj h.2 ▸ ofSteady ⟨rfl, rfl, rfl⟩

theorem setQuota {i : QuotaItem} {v : Word} {p q : Part} (h : p.setQuota i v = some q) : Keeps p q := by
  cases i <;> simp only [Part.setQuota, Option.ite_none_right_eq_some] at h
  case volume => exact Option.some.inj h ▸ ofSteady ((Steady.modifyWater _ _).trans (Steady.evaluateStage _))
  case percent => exact Option.some.inj h.2 ▸ ofSteady ((Steady.modifyWater _ _).trans (Steady.evaluateStage _))

/-- A decision that its owner takes leaves the owner's depot, with the record write that may begin. -/
theorem decide_ok {w : Word} {p q : Part} (h : p.decide w = .ok q) :
    ∃ d, KeepsBounds p.depot d ∧ q = { p with depot := d.startWrite p.path.ring } := by
  have htaken : ∀ r : Except RefusalReason Depot, (∀ d, r = .ok d → KeepsBounds p.depot d) →
      (r.map fun d => { p with depot := d.startWrite p.path.ring }) = .ok q →
      ∃ d, KeepsBounds p.depot d ∧ q = { p with depot := d.startWrite p.path.ring } := by
    rintro (e | d) hr hq
    · cases hq
    · exact ⟨d, hr d rfl, (Except.ok.inj hq).symm⟩
  unfold Part.decide at h
  dsimp only at h
  split at h
  · refine htaken _ (fun d hd => ?_) h
    unfold Depot.decideAdmit at hd
    split at hd
    · cases hd
    · exact Except.ok.inj hd ▸ KeepsBounds.admitTaken _ _ _ _
  · refine htaken _ (fun d hd => ?_) h
    unfold Depot.decideTurnAway at hd
    split at hd
    · exact Except.ok.inj hd ▸ KeepsBounds.closeSession _ _ _ _
    · cases hd
  · refine htaken _ (fun d hd => ?_) h
    unfold Depot.decideClose at hd
    split at hd
    · cases hd
    · cases hd
    · exact Except.ok.inj hd ▸ KeepsBounds.closeSession _ _ _ _
  · refine htaken _ (fun d hd => ?_) h
    unfold Depot.releaseReclaim at hd
    split at hd
    · exact Except.ok.inj hd ▸ ((Steady.modifyWater _ _).trans (Steady.judgeAvailability _)).sound
    · cases hd
  · cases h

theorem commitAccount {a : Fin 64} {d e : Depot} (h : d.commitAccount a = .ok e) : Steady d e := by
  unfold Depot.commitAccount at h
  dsimp only at h
  split at h
  · cases h
  · rw [← Except.ok.inj h]
    split
    · exact (Steady.modifyAccount _ _ _).trans (Steady.reevaluateAll _ _)
    · exact Steady.modifyAccount _ _ _

theorem takeItem {i : Item} {v : Word} {p q : Part} (h : p.takeItem i v = .ok q) : Keeps p q := by
  cases i <;> simp only [Part.takeItem] at h
  case windowFirst => exact Except.ok.inj h ▸ ofPath rfl
  case windowCommit =>
    split at h
    · cases h
    · exact Except.ok.inj h ▸ takeWindow _ _ p
  case setting => exact setSetting (orOutOfRange_ok h)
  case pinCount =>
    split at h
    · rw [← Except.ok.inj h]
      refine ofSteady ?_
      rw [Depot.modifyIdentity, Identity.setPinCount_eq]
      exact ⟨rfl, rfl, rfl⟩
    · cases h
  case quota => exact setQuota (orOutOfRange_ok h)
  case reclaimFloor =>
    exact Except.ok.inj h ▸ ofSteady ((Steady.modifyWater _ _).trans (Steady.judgeAvailability _))
  case refreshMode =>
    split at h
    · exact Except.ok.inj h ▸ ⟨id, id, id, KeepsBounds.refl _⟩
    · cases h
  case noticeMask => exact Except.ok.inj h ▸ ofSteady ⟨rfl, rfl, rfl⟩
  case decision =>
    obtain ⟨d, hd, rfl⟩ := decide_ok h
    exact ofDepot (hd.trans (KeepsBounds.startWrite _ _))
  case acknowledge => exact Except.ok.inj h ▸ ⟨id, id, id, Steady.sound ⟨rfl, rfl, rfl⟩⟩
  case journalTail =>
    unfold Part.writeTail at h
    split at h
    · exact Except.ok.inj h ▸ onDepot _ p fun _ _ => Steady.sound ⟨rfl, rfl, rfl⟩
    · cases h
  case preloadFirst => exact Except.ok.inj h ▸ ofSteady ⟨rfl, rfl, rfl⟩
  case preloadCommit =>
    unfold Depot.commitPreload at h
    split at h
    · cases h
    · split at h
      · cases h
      · exact Except.ok.inj h ▸ ofSteady ⟨rfl, rfl, rfl⟩
  case calendarFirst => exact Except.ok.inj h ▸ ofCalendar id
  case calendarCommit =>
    split at h
    · cases h
    · next hrefusal =>
      rw [← Except.ok.inj h]
      refine ofCalendar fun k => ⟨Calendar.proposed_sound _ _ ?_, k.2.1, k.2.2⟩
      unfold Part.calendarRefusal at hrefusal
      by_contra hrange
      rw [Bool.not_eq_true] at hrange
      rw [hrange] at hrefusal
      exact absurd hrefusal (by simp)
  case accountStaged => exact Except.ok.inj h ▸ ofSteady ⟨rfl, rfl, rfl⟩
  case accountCommit =>
    generalize hc : p.depot.commitAccount _ = r at h
    cases r with
    | error => cases h
    | ok d => exact Except.ok.inj h ▸ ofSteady (commitAccount hc)

theorem controlWord (o : Nat) (data : Word) (be : Enables) (req : Requester) (p : Part) :
    Keeps p (p.controlWord o data be req) := by
  unfold Part.controlWord
  split
  · exact refl p
  · split
    · exact refuse _ _ _
    · split
      · next h => exact takeItem h
      · exact refuse _ _ _

/-! ## Accesses -/

theorem handOver (e : PostedEntry) (p : Part) : Keeps p (p.handOver e) := by
  unfold Part.handOver
  split
  · exact controlWord _ _ _ _ _
  · exact recordWord _ _ _ _ _
  · exact recordWord _ _ _ _ _
  · exact recordWord _ _ _ _ _
  · exact ofDepot (KeepsBounds.snoop _ _)
  · exact refl p

/-- A write is posted only where the queue has room. -/
theorem post (e : PostedEntry) (p : Part) (h : p.path.full = false) : Keeps p (p.post e) := by
  have hroom : p.path.posted.length < 4 := by
    have := (PathUnit.full_iff p.path).not.mp (by simp [h])
    omega
  have hqueue : Keeps p ((p.enqueuePosted e).complete e.access 0) := by
    refine ⟨id, fun _ => ?_, id, KeepsBounds.refl _⟩
    show (p.path.posted ++ [e]).length ≤ 4
    rw [List.length_append, List.length_singleton]
    exact hroom
  exact hqueue.trans (handOver _ _)

theorem postOrWait (e : PostedEntry) (p : Part) : Keeps p (p.postOrWait e) := by
  unfold Part.postOrWait
  split
  · exact hold _ _
  · next h => exact post e p (Bool.eq_false_of_not_eq_true h)

theorem arriveWrite (a : Addr) (data : Word) (be : Enables) (req : Requester) (p : Part) :
    Keeps p (p.arriveWrite a data be req) := by
  unfold Part.arriveWrite
  split
  · exact complete _ _ _
  · split
    · exact (block _ _ _ _).trans (complete _ _ _)
    · exact postOrWait _ _

theorem beforeControlRead (o : Nat) (p : Part) : Keeps p (p.beforeControlRead o) := by
  unfold Part.beforeControlRead
  split
  · exact ofCalendar fun ⟨hnow, _, htick⟩ => ⟨hnow, hnow, htick⟩
  · exact refl p

theorem overlayRead (a : Addr) (req : Requester) (p : Part) : Keeps p (p.overlayRead a req) := by
  unfold Part.overlayRead
  exact (beforeControlRead _ _).trans (complete _ _ _)

theorem storeRead (a : Addr) (req : Requester) (p : Part) : Keeps p (p.storeRead a req) := by
  unfold Part.storeRead
  split
  · exact hold _ _
  · exact hold _ _

theorem arriveRead (a : Addr) (req : Requester) (p : Part) : Keeps p (p.arriveRead a req) := by
  unfold Part.arriveRead
  dsimp only
  split
  · exact (block _ _ _ _).trans (complete _ _ _)
  · split
    · exact overlayRead _ _ _
    · exact complete _ _ _
    · exact storeRead _ _ _

theorem arrive (a : Access) (p : Part) : Keeps p (p.arrive a) := by
  unfold Part.arrive
  split
  · exact hold _ _
  · split
    · exact arriveWrite _ _ _ _ _
    · exact arriveRead _ _ _

theorem access (a : Access) (p : Part) : Keeps p (p.access a) := by
  unfold Part.access
  split
  · exact ofPath rfl
  · exact arrive _ _

theorem postWaiting (p : Part) : Keeps p p.postWaiting := by
  unfold Part.postWaiting
  split
  · split
    · exact refl p
    · next h => exact (unhold p).trans (post _ p.unhold (Bool.eq_false_of_not_eq_true h))
  · exact refl p

theorem claimWaiting (p : Part) : Keeps p p.claimWaiting := by
  unfold Part.claimWaiting
  split
  · split
    · exact refl p
    · exact hold _ _
  · exact refl p

theorem resumeWaiting (p : Part) : Keeps p p.resumeWaiting := by
  unfold Part.resumeWaiting
  split
  · split
    · exact refl p
    · exact (unhold p).trans (arrive _ _)
  · exact refl p

/-! ## The end of an event -/

theorem runDeferred (l : List Access) (p : Part) : Keeps p (Part.runDeferred l p) := by
  induction l generalizing p with
  | nil => exact refl p
  | cons a rest ih =>
    unfold Part.runDeferred
    split
    · exact ofPath rfl
    · exact ((arrive a p).trans (arbitrate _)).trans (ih _)

theorem finish (p : Part) : Keeps p p.finish := 
  have hfree : Keeps p.arbitrate { p.arbitrate with path := { p.arbitrate.path with deferred := [] } } := ofPath rfl
  (arbitrate p).trans (hfree.trans (runDeferred _ _))

theorem begin (p : Part) : Keeps p p.begin := ofPath rfl

/-! ## The store's events -/

theorem requestRefresh (p : Part) : Keeps p p.requestRefresh := by
  unfold Part.requestRefresh
  split
  · exact ⟨id, id, id, KeepsBounds.refl _⟩
  · exact refl p

theorem refreshExpiry (p : Part) : Keeps p p.refreshExpiry := by
  unfold Part.refreshExpiry
  split
  · next h => exact ⟨fun _ => h, id, id, KeepsBounds.refl _⟩
  · exact raise _ p

theorem rowRefreshEnd (p : Part) : Keeps p p.rowRefreshEnd := by
  unfold Part.rowRefreshEnd
  split
  · exact ⟨fun h => (Nat.sub_le p.store.debt 1).trans h, id, id, KeepsBounds.refl _⟩
  · exact refl p

theorem drainDone (u : Upset) (p : Part) (m : Memory) : Keeps p (p.drainDone u m).1 := by
  unfold Part.drainDone
  split
  · next e rest _ hposted =>
    refine (reportParity e.addr (m.drainError e u) .rmw (some e.req) p).trans ?_
    have hsame : (p.reportParity e.addr (m.drainError e u) .rmw (some e.req)).path = p.path := by
      rw [(Part.reportParity_frame _ _ _ _ p).1]
    generalize p.reportParity e.addr (m.drainError e u) .rmw (some e.req) = q at hsame ⊢
    have hshorter : Keeps q { q.endGrant with path := { q.endGrant.path with posted := rest } } := by
      refine ⟨id, fun h => ?_, id, KeepsBounds.refl _⟩
      rw [hsame, hposted] at h
      exact (Nat.le_succ rest.length).trans h
    exact hshorter.trans ((postWaiting _).trans ((claimWaiting _).trans (requestRefresh _)))
  · exact refl p

theorem readDone (u : Upset) (p : Part) (m : Memory) : Keeps p (p.readDone u m).1 := by
  unfold Part.readDone
  split
  · exact (reportParity _ _ _ _ _).trans ((complete _ _ _).trans ((unhold _).trans ((endGrant _).trans
      (requestRefresh _))))
  · exact refl p

theorem clearingDone (p : Part) (m : Memory) : Keeps p (p.clearingDone m).1 := by
  unfold Part.clearingDone
  dsimp only
  split
  · have hword : Keeps p.arbitrate { p.arbitrate with store := p.arbitrate.store.clearingEnd } :=
      ⟨id, id, id, KeepsBounds.refl _⟩
    exact (arbitrate p).trans (hword.trans ((arbitrate _).trans (resumeWaiting _)))
  · exact arbitrate p

theorem slotDone (u : SlotUpset) (p : Part) (m : Memory) : Keeps p (p.slotDone u m).1 := by
  unfold Part.slotDone
  split
  · refine (foldl _ (fun _ _ => reportParity _ _ _ _ _) _ p).trans ((endGrant _).trans (ofDepot ?_))
    exact KeepsBounds.slotReturns _ _ _
  · exact refl p

theorem afterWord (g : Ring) (n : Nat) (p : Part) : Keeps p (p.afterWord g n) := by
  unfold Part.afterWord
  split
  · exact ofSteady ⟨rfl, rfl, rfl⟩
  · exact onDepot _ p fun now d => KeepsBounds.endWrite now g d

theorem journalDone (p : Part) (m : Memory) : Keeps p (p.journalDone m).1 := by
  unfold Part.journalDone
  split
  · exact (endGrant p).trans (afterWord _ _ _)
  · exact refl p

/-! ## Timers and ticks -/

theorem expire (t : Timer) (p : Part) : Keeps p (p.expire t) := by
  unfold Part.expire
  split
  · refine onTick _ p fun now d => ?_
    cases t
    · exact KeepsBounds.silenceExpiry now _ d
    · exact KeepsBounds.holdExpiry now _ d
    · exact (Steady.qualityEvent _ d).sound
  · exact refl p

theorem expireAll (l : List Timer) (p : Part) : Keeps p (p.expireAll l) := foldl _ (fun x t => expire t x) l p

theorem advance (p : Part) : Keeps p p.advance :=
  ⟨id, id, fun ⟨hnow, hsnapshot, _⟩ => ⟨Calendar.tick_sound _ hnow, hsnapshot, Calendar.tick_sound _ hnow⟩,
    Steady.sound ⟨rfl, rfl, rfl⟩⟩

theorem quotaDay (p : Part) : Keeps p p.quotaDay := by
  unfold Part.quotaDay
  split
  · exact onTick _ p KeepsBounds.quotaBoundary
  · exact refl p

theorem periodEnd (p : Part) : Keeps p p.periodEnd := by
  unfold Part.periodEnd
  split
  · exact onTick _ p KeepsBounds.periodBoundary
  · exact refl p

theorem boundaries (order : TickOrder) (p : Part) : Keeps p (p.boundaries order) := by
  unfold Part.boundaries
  split
  · exact (periodEnd p).trans ((expireAll _ _).trans (quotaDay _))
  · exact (quotaDay p).trans ((expireAll _ _).trans (periodEnd _))

theorem tick (order : TickOrder) (p : Part) : Keeps p (p.tick order) :=
  (expireAll _ p).trans ((advance _).trans ((expireAll _ _).trans ((expireAll _ _).trans (boundaries _ _))))

/-! ## Every event -/

theorem ofEvent {f : Part → Part} (hf : PartEvent f) (p : Part) : Keeps p (f p) := by
  cases hf with
  | access a => exact access a p
  | postWaiting => exact postWaiting p
  | claimWaiting => exact claimWaiting p
  | resumeWaiting => exact resumeWaiting p
  | refreshExpiry => exact refreshExpiry p
  | rowRefreshEnd => exact rowRefreshEnd p
  | fetchStart => exact ofDepot (KeepsBounds.startFetch _ _)
  | settleWalker => exact ofPortOnly p.settleWalker_portOnly
  | expire t => exact expire t p
  | tick order => exact tick order p
  | judgeClaims => exact onDepot _ p KeepsBounds.judgeClaims
  | startWrite => exact onDepot _ p fun _ d => KeepsBounds.refl d

theorem ofStoreEvent {f : Part → Memory → Part × Memory} (hf : StoreEvent f) (p : Part) (m : Memory) :
    Keeps p (f p m).1 := by
  cases hf with
  | drainDone u => exact drainDone u p m
  | readDone u => exact readDone u p m
  | clearingDone => exact clearingDone p m
  | slotDone u => exact slotDone u p m
  | journalDone => exact journalDone p m

end Keeps

/-! ## The warm reset (R37, R60, R154, R169) -/

/-- A part whose waiting list, insertion queue and cache are empty is within every bound of the units behind the bus. -/
structure Emptied (p : Part) : Prop where
  queue : p.depot.journal.queue = []
  waiting : p.depot.journal.waiting = []
  posted : p.path.posted = []
  cache : ∀ n : Fin 32, p.depot.identity.cache[n].valid = false

theorem Part.emptied_emptied (p : Part) : Emptied p.emptied where
  queue := rfl
  waiting := rfl
  posted := by
    show p.path.warmReset.posted = []
    unfold PathUnit.warmReset
    dsimp only
    split <;> rfl
  cache n := by
    show (p.depot.identity.invalidate fun _ => true).cache[n].valid = false
    rw [Identity.invalidate_get]
    simp

theorem Emptied.claimsOk {p : Part} (h : Emptied p) : p.depot.journal.claimsOk := by
  refine ⟨by simp [h.queue], fun c rest hc => ?_, fun c hc => ?_⟩
  · rw [h.waiting] at hc; cases hc
  · rw [h.waiting] at hc; cases hc

/-- From what holds of any part that the reset has emptied, `Keeps` gives what holds of its end. -/
theorem Emptied.bounds {p q : Part} (h : Emptied p) (k : Keeps p q) :
    q.path.posted.length ≤ 4 ∧ q.depot.journal.claimsOk ∧ q.depot.identity.cacheOk :=
  ⟨k.posted (by simp [h.posted]), k.depot.2.2 h.claimsOk,
    k.depot.2.1 fun m n hm => by rw [h.cache m] at hm; cases hm⟩

theorem Keeps.iterate (f : Part → Part) (h : ∀ p, Keeps p (f p)) (n : Nat) (p : Part) : Keeps p (Nat.repeat f n p) := by
  induction n with
  | zero => exact refl p
  | succ n ih => exact ih.trans (h _)

theorem Keeps.windowTick (p : Part) : Keeps p p.windowTick :=
  (expire .quality p).trans (Keeps.trans (ofSteady (Steady.modifyWater _ _)) (expire .quality _))

theorem Keeps.finishReset (b : Bool) (p : Part) : Keeps p (p.finishReset b) := by
  unfold Part.finishReset
  split
  · next a rest _ =>
    split
    · exact finish p
    · have hnext : Keeps p { p with path := { p.path with deferred := rest } } := ofPath rfl
      exact hnext.trans ((arrive a _).trans (finish _))
  · exact finish p

theorem KeepsBounds.restart (lost : BitVec 8) (n : Nat) (now : Calendar) (d : Depot) :
    KeepsBounds d (d.restart lost n now) := by
  refine KeepsBounds.trans
    (KeepsBounds.placeClaim now (.restart lost n d.journal.sweep.isSome now) d (Nat.le_refl 1))
    (KeepsBounds.trans ?_ (Steady.raise _ _).sound)
  unfold Depot.resumeSweep
  split
  · exact KeepsBounds.lists_judged now (Lists.continueSweep _ _)
  · exact KeepsBounds.refl _

/-- The rest of the reset, once the units are emptied. -/
theorem Keeps.warmReset (w : ResetOrder) (p : Part) : Keeps (p.resetTicks w).emptied (p.warmReset w) :=
  (iterate _ windowTick _ _).trans ((arbitrate _).trans
    ((onDepot _ _ fun now d => KeepsBounds.restart _ _ now d).trans (finishReset _ _)))

theorem Part.resetTicks_calendar (w : ResetOrder) (p : Part) (h : p.calendar.sound) :
    (p.resetTicks w).calendar.sound := by
  have hticks : ∀ (n : Nat) (q : Part), q.calendar.sound → (Nat.repeat Part.resetTick n q).calendar.sound := by
    intro n q hq
    induction n with
    | zero => exact hq
    | succ n ih => exact ⟨Calendar.tick_sound _ ih.1, ih.2.1, Calendar.tick_sound _ ih.1⟩
  exact hticks _ _ ((Keeps.iterate _ Keeps.windowTick _ p).calendar h)

theorem Part.emptied_debt (w : ResetOrder) (p : Part) : (p.resetTicks w).emptied.store.debt = p.store.debt := by
  show (p.resetTicks w).store.debt = p.store.debt
  rw [(KeepsPart.resetTicks w p).eq]

/-! ## The state that power-on reset leaves -/

theorem powerOnPart_claimsOk (n : BitVec 4) : (powerOnPart n).depot.journal.claimsOk :=
  ⟨Nat.zero_le 8, fun _ _ hc => (nomatch hc), fun _ hc => (nomatch hc)⟩

theorem powerOnPart_cacheOk (n : BitVec 4) : (powerOnPart n).depot.identity.cacheOk := by
  intro m k hm
  rw [powerOnPart_cache] at hm
  cases hm

/-! ## The statements -/

/-- An invariant of the part that power-on reset sets up, a warm reset sets up or keeps, and events keep, is kept by every
step. -/
theorem step_keeps (I : Part → Prop) (hstart : ∀ n, I (powerOnPart n)) (hkeeps : ∀ p q, Keeps p q → I p → I q)
    (hwarm : ∀ w p, I p → I (p.resetTicks w).emptied) (s t : State) (hs : I s.part) (h : step s = .next t) :
    I t.part := by
  obtain rfl | ⟨c, rest, -, hl⟩ := leaves_of_step h
  · exact hs
  · have hbegin : I s.part.begin := hkeeps _ _ (Keeps.begin _) hs
    cases hl with
    | powerOn n _ => exact hstart n
    | warm w => exact hkeeps _ _ (Keeps.warmReset w _) (hwarm w _ hbegin)
    | event f hf => exact hkeeps _ _ ((Keeps.ofEvent hf _).trans (Keeps.finish _)) hbegin
    | storeEvent f hf => exact hkeeps _ _ ((Keeps.ofStoreEvent hf _ _).trans (Keeps.finish _)) hbegin

/-- Settles O56: each bound is kept by every event, and the reset empties the queues. -/
theorem queuesAndDebtStayBounded : Obligations.QueuesAndDebtStayBounded := by
  refine ⟨?debt, ?posted, ?queue, ?claims⟩
  case debt =>
    exact step_keeps (fun p => p.store.debt ≤ 8) (fun _ => Nat.zero_le 8) (fun _ _ k => k.debt)
      fun w p h => (p.emptied_debt w).trans_le h
  case posted =>
    exact step_keeps (fun p => p.path.posted.length ≤ 4) (fun _ => Nat.zero_le 4) (fun _ _ k => k.posted)
      fun _ _ _ => ((Part.emptied_emptied _).bounds (Keeps.refl _)).1
  case queue =>
    exact step_keeps (fun p => p.depot.journal.queue.length ≤ 8) (fun _ => Nat.zero_le 8) (fun _ _ k => k.depot.1)
      fun _ _ _ => Nat.zero_le 8
  case claims =>
    exact step_keeps (fun p => p.depot.journal.claimsOk) powerOnPart_claimsOk (fun _ _ k => k.depot.2.2)
      fun _ _ _ => ((Part.emptied_emptied _).bounds (Keeps.refl _)).2.1

/-- Settles O57: a tick and a taken set request lead to sound calendars, and a snapshot copies one. -/
theorem calendarStaysValid : Obligations.CalendarStaysValid :=
  step_keeps (fun p => p.calendar.sound) (fun _ => ⟨Calendar.start_sound, Calendar.start_sound, Calendar.start_sound⟩)
    (fun _ _ k => k.calendar) fun w p h => p.resetTicks_calendar w h

/-- Settles O58: a fill is in place or into an entry whose tag no other valid entry holds. -/
theorem cacheHoldsATagOnce : Obligations.CacheHoldsATagOnce :=
  step_keeps (fun p => p.depot.identity.cacheOk) powerOnPart_cacheOk (fun _ _ k => k.depot.2.1)
    fun _ _ _ => ((Part.emptied_emptied _).bounds (Keeps.refl _)).2.2

/-- Settles O60: the reset state is the part that starts with the straps at 0, which is within every bound. -/
theorem resetStateMeetsTheInvariants : Obligations.ResetStateMeetsTheInvariants :=
  ⟨fun _ => rfl, rfl, rfl, Memory.reset_wf, Nat.zero_le 8, Nat.zero_le 4, Nat.zero_le 8, powerOnPart_claimsOk 0,
    ⟨Calendar.start_sound, Calendar.start_sound, Calendar.start_sound⟩, powerOnPart_cacheOk 0, .inl rfl⟩

/-- Settles O1: a step is the match on its queue. -/
theorem stepRunsTheFrontCommand : Obligations.StepRunsTheFrontCommand := by
  refine ⟨fun c rest s h => ?_, fun s h => ?_⟩
  · unfold step
    rw [h]
  · unfold step
    rw [h]

end Sys2Proof.Machine
end

section
/-!
PROOF. The memory path: how an address is classified, and what an access that arrives on a free bus does, case by case: it
completes, is blocked, is posted or waits.
-/

namespace Sys2Proof.Machine

open Sys2Proof

/-! ## Classification (R2, R3) -/

theorem PathUnit.inControl_iff (u : PathUnit) (a : Nat) :
    u.inControl a = true ↔ u.straps.toNat * 0x100000 + 0xFF000 ≤ a ∧ a ≤ u.straps.toNat * 0x100000 + 0xFFFFF := by
  simp only [PathUnit.inControl, Bool.and_eq_true, decide_eq_true_eq]
  unfold PathUnit.controlBase
  omega

theorem WindowEntry.covers_iff (w : WindowEntry) (a : Nat) :
    w.covers a = true ↔ w.enabled = true ∧ w.base.toNat * 4096 ≤ a ∧ a < w.base.toNat * 4096 + 2 ^ w.k.toNat := by
  simp only [WindowEntry.covers, Bool.and_eq_true, decide_eq_true_eq, and_assoc]
  rfl

/-- The first of eight entries that passes a test is the one that passes it after none that does. -/
theorem find?_finRange_first (test : Fin 8 → Bool) (e : Fin 8) (he : test e = true)
    (hfirst : ∀ i : Fin 8, i < e → test i = false) : (List.finRange 8).find? test = some e := by
  refine List.find?_eq_some_iff_getElem.mpr ⟨he, e.val, by simp, by simp, fun j hj => ?_⟩
  simp [hfirst ⟨j, by omega⟩ hj]

/-- Settles O5: the search takes the control window first, then the first entry that covers the address. -/
theorem classificationFollowsTheTable : Obligations.ClassificationFollowsTheTable := by
  intro u a
  refine ⟨fun hcontrol => if_pos ((u.inControl_iff a.toNat).mpr hcontrol), fun hoff => ?_⟩
  unfold PathUnit.classify
  rw [if_neg (mt (u.inControl_iff a.toNat).mp hoff)]
  refine ⟨fun e k henabled hkind hbase htop hfirst => ?_, fun hnone => ?_⟩
  · have hfind := find?_finRange_first (fun i => u.windows[i].covers a.toNat) e
      ((WindowEntry.covers_iff _ _).mpr ⟨henabled, hbase, htop⟩)
      fun i hi => Bool.eq_false_iff.mpr (mt (WindowEntry.covers_iff _ _).mp (hfirst i hi))
    rw [hfind]
    dsimp only
    rw [hkind]
  · have hfind : (List.finRange 8).find? (fun i => u.windows[i].covers a.toNat) = none :=
      List.find?_eq_none.mpr fun i _ => mt (WindowEntry.covers_iff _ _).mp (hnone i)
    rw [hfind]

/-! ## Who may write and read (R7, R8) -/

/-- A write that is not blocked (R7): the statements' words for it. -/
def PathUnit.mayWrite (u : PathUnit) (c : Classification) (req : Requester) : Prop :=
  c = .plain ∨ (c = .control ∧ (req = .site ∨ req = .maint)) ∨
    ∃ (e : Fin 8) (k : WindowKind), c = .window e k ∧ k ≠ .journal ∧ k ≠ .grant ∧
      u.windows[e].writePermit.getLsbD (Requester.code req) = true

theorem PathUnit.writeBlocked_of_mayWrite {u : PathUnit} {c : Classification} {req : Requester}
    (h : u.mayWrite c req) : u.writeBlocked c req = false := by
  rcases h with rfl | ⟨rfl, hreq⟩ | ⟨e, k, rfl, hjournal, hgrant, hpermit⟩
  · rfl
  · rcases hreq with rfl | rfl <;> rfl
  · simp only [PathUnit.writeBlocked, permits, hpermit]
    simp [hjournal, hgrant]

/-- A GUARDED window takes the writes of its permit set. -/
theorem PathUnit.mayWrite_guarded {u : PathUnit} {c : Classification} {req : Requester} {e : Fin 8}
    (hc : c = .window e .guarded) (hpermit : u.windows[e].writePermit.getLsbD (Requester.code req) = true) :
    u.mayWrite c req :=
  .inr (.inr ⟨e, .guarded, hc, by decide, by decide, hpermit⟩)

theorem PathUnit.full_eq_false {u : PathUnit} (h : u.posted.length < 4) : u.full = false :=
  Bool.eq_false_iff.mpr (mt u.full_iff.mp (Nat.not_le.mpr h))

/-! ## The arriving write (R7, R10, R11) -/

theorem Part.arriveWrite_disabled (p : Part) (addr : Addr) (data : Word) (req : Requester) :
    p.arriveWrite addr data 0 req = p.complete (.write addr data 0 req) 0 := if_pos rfl

theorem Part.arriveWrite_blocked (p : Part) (addr : Addr) (data : Word) (be : Enables) (req : Requester) (hbe : be ≠ 0)
    (h : p.path.writeBlocked (p.path.classify addr) req = true) :
    p.arriveWrite addr data be req = (p.block addr req .write).complete (.write addr data be req) 0 := by
  unfold Part.arriveWrite
  rw [if_neg hbe, if_pos h]

theorem Part.arriveWrite_full (p : Part) (addr : Addr) (data : Word) (be : Enables) (req : Requester) (hbe : be ≠ 0)
    (h : p.path.mayWrite (p.path.classify addr) req) (hfull : 4 ≤ p.path.posted.length) :
    p.arriveWrite addr data be req = p.hold (.room ⟨addr, data, be, req, p.path.classify addr⟩) := by
  unfold Part.arriveWrite Part.postOrWait
  rw [if_neg hbe, PathUnit.writeBlocked_of_mayWrite h, if_neg Bool.false_ne_true, if_pos (p.path.full_iff.mpr hfull)]

theorem Part.arriveWrite_posts (p : Part) (addr : Addr) (data : Word) (be : Enables) (req : Requester) (hbe : be ≠ 0)
    (h : p.path.mayWrite (p.path.classify addr) req) (hroom : p.path.posted.length < 4) :
    p.arriveWrite addr data be req = p.post ⟨addr, data, be, req, p.path.classify addr⟩ := by
  unfold Part.arriveWrite Part.postOrWait
  rw [if_neg hbe, PathUnit.writeBlocked_of_mayWrite h, if_neg Bool.false_ne_true, PathUnit.full_eq_false hroom,
    if_neg Bool.false_ne_true]

/-- An entry is posted by the arrival of its write where the table classifies the write as the entry says. -/
theorem Part.arriveWrite_entry (p : Part) (e : PostedEntry) (hbe : e.be ≠ 0) (hclass : p.path.classify e.addr = e.cls)
    (h : p.path.mayWrite e.cls e.req) (hroom : p.path.posted.length < 4) :
    p.arriveWrite e.addr e.data e.be e.req = p.post e := by
  rw [← hclass] at h
  rw [Part.arriveWrite_posts _ _ _ _ _ hbe h hroom, hclass]

/-! ## Commands on a free bus -/

theorem atWord_write {addr : Addr} (h : addr.toNat % 4 = 0) (data : Word) (be : Enables) (req : Requester) :
    atWord (.write addr data be req) = .write addr data be req := by
  simp only [atWord, wordAddr_aligned _ h]

theorem atWord_read {addr : Addr} (h : addr.toNat % 4 = 0) (req : Requester) :
    atWord (.read addr req) = .read addr req := by
  simp only [atWord, wordAddr_aligned _ h]

/-- An access at its word, commanded on a free bus, arrives and the port is granted. -/
theorem State.access_eq (s : State) (a : Access) (hheld : s.part.path.held = none) (hdef : s.part.path.deferred = [])
    (ha : atWord a = a) : s.event (Part.access a) = { s with part := (s.part.begin.arrive a).arbitrate } :=
  s.event_access a _ hheld hdef (by rw [ha]) (by rw [Part.arrive_deferred]; exact hdef)

theorem exec_upstreamWrite (s : State) (addr : Addr) (data : Word) (be : Enables) (req : Requester) (hs : s.busFree)
    (ha : addr.toNat % 4 = 0) :
    exec (.upstreamWrite addr data be req) s =
      .next { s with part := (s.part.begin.arriveWrite addr data be req).arbitrate } := by
  obtain ⟨hrun, hheld, hdef⟩ := hs
  show Host.Outcome.next (s.event (Part.access (.write addr data be req))) = _
  rw [s.access_eq _ hheld hdef (atWord_write ha data be req), s.part.begin.arrive_write hrun]

theorem exec_upstreamRead (s : State) (addr : Addr) (req : Requester) (hs : s.busFree) (ha : addr.toNat % 4 = 0) :
    exec (.upstreamRead addr req) s = .next { s with part := (s.part.begin.arriveRead addr req).arbitrate } := by
  obtain ⟨hrun, hheld, hdef⟩ := hs
  show Host.Outcome.next (s.event (Part.access (.read addr req))) = _
  rw [s.access_eq _ hheld hdef (atWord_read ha req), s.part.begin.arrive_read hrun]

/-! ## Posting (R11, R12) -/

/-- A plain write, and one into a GUARDED window, is handed to no unit (R12). -/
theorem Part.post_unhanded (p : Part) (e : PostedEntry) (h : e.cls = .plain ∨ ∃ n : Fin 8, e.cls = .window n .guarded) :
    p.post e = (p.enqueuePosted e).complete e.access 0 := by
  unfold Part.post Part.handOver
  rcases h with h | ⟨n, h⟩ <;> rw [h]

theorem Part.recordWord_samePort (k : RecordKind) (o : Nat) (data : Word) (be : Enables) (p : Part) :
    SamePort p (p.recordWord k o data be) := by
  refine SamePort.of_units (Part.recordWord_path _ _ _ _ _) ?_
  have hdeliver : ∀ (r : Vector Word 4) (x : Part), (x.deliverRecord k r).store = x.store := by
    intro r x
    cases k <;> rfl
  unfold Part.recordWord
  generalize CaptureWindow.receive _ _ _ _ _ _ _ = r
  dsimp only
  have hreject : ∀ b : Bool, ∀ x : Part, (if b then x.raise .recordReject else x).store = x.store := by
    intro b x
    cases b <;> rfl
  cases r.taken
  · exact hreject _ _
  · exact (hdeliver _ _).trans (hreject _ _)

/-- A hand-over leaves the bus and the port to themselves. -/
theorem Part.handOver_samePort (e : PostedEntry) (p : Part) : SamePort p (p.handOver e) := by
  unfold Part.handOver
  split
  · exact Part.controlWord_samePort _ _ _ _ _
  · exact Part.recordWord_samePort _ _ _ _ _
  · exact Part.recordWord_samePort _ _ _ _ _
  · exact Part.recordWord_samePort _ _ _ _ _
  · exact SamePort.of_units rfl rfl
  · exact SamePort.refl _

theorem Part.postWaiting_room (p : Part) (e : PostedEntry) (h : p.path.held = some (.room e))
    (hroom : p.path.posted.length < 4) : p.postWaiting = p.unhold.post e := by
  unfold Part.postWaiting
  rw [h]
  dsimp only
  rw [PathUnit.full_eq_false hroom, if_neg Bool.false_ne_true]

/-- Settles O6: such a write is posted and handed to no unit, and one with no byte enabled completes. -/
theorem writeIsPostedOrChangesNothing : Obligations.WriteIsPostedOrChangesNothing := by
  refine ⟨fun s addr data be req hs ha hbe hcls => ?_, fun s addr data req hs ha => ?_⟩
  · have hmay : s.part.path.mayWrite (s.part.path.classify addr) req := by
      rcases hcls with hplain | ⟨e, hguarded, hpermit⟩
      · exact .inl hplain
      · exact PathUnit.mayWrite_guarded hguarded hpermit
    refine ⟨_, exec_upstreamWrite s addr data be req hs.1 ha, ?_⟩
    refine State.becomes_of_eq rfl ?_
    rw [Part.arriveWrite_posts s.part.begin _ _ _ _ hbe hmay hs.2, Part.post_unhanded]
    · rfl
    · exact hcls.imp id fun ⟨e, h, _⟩ => ⟨e, h⟩
  · exact ⟨_, exec_upstreamWrite s addr data 0 req hs ha, State.becomes_of_eq rfl (Part.arriveWrite_disabled _ _ _ _)⟩

/-- Settles O7: the write waits with its classification, and its posting is the posting of its arrival. -/
theorem writeWaitsForRoomAndIsPosted : Obligations.WriteWaitsForRoomAndIsPosted := by
  refine ⟨fun s addr data be req hs ha hbe hfull hmay => ?_, fun s e hheld hdef hroom => ?_⟩
  · exact ⟨_, exec_upstreamWrite s addr data be req hs ha,
      State.becomes_of_eq rfl (Part.arriveWrite_full _ _ _ _ _ hbe hmay hfull)⟩
  · have hpost : s.part.begin.postWaiting = s.part.begin.unhold.post e := Part.postWaiting_room _ e hheld hroom
    have hport := Part.handOver_samePort e ((s.part.begin.unhold.enqueuePosted e).complete e.access 0)
    have hexec : exec .waitingWritePosted s = .next { s with part := (s.part.begin.unhold.post e).arbitrate } :=
      congrArg Host.Outcome.next (s.event_eq _ _ hpost (hport.deferred.trans hdef))
    refine ⟨_, hexec, rfl, rfl, ?_, ?_, ?_, fun hcls => ?_, fun hrun ha hbe hclass hmay => ?_⟩
    · rw [Part.arbitrate_path]; exact hport.held
    · rw [Part.arbitrate_path]; exact hport.posted
    · rw [Part.arbitrate_path]; exact hport.done
    · exact State.becomes_of_eq rfl (Part.post_unhanded _ e hcls)
    · have hentry : s.part.begin.unhold.path.classify e.addr = e.cls := hclass
      rw [← Part.arriveWrite_entry s.part.begin.unhold e hbe hentry hmay hroom]
      exact exec_upstreamWrite { s with part := s.part.unhold } e.addr e.data e.be e.req ⟨hrun, rfl, hdef⟩ ha

/-! ## Blocked accesses (R7 to R9) -/

theorem Part.arriveRead_blocked (p : Part) (addr : Addr) (req : Requester)
    (h : p.path.readBlocked (p.path.classify addr) req = true) :
    p.arriveRead addr req = (p.block addr req .read).complete (.read addr req) 0 := if_pos h

/-- Settles O9: a blocked access completes, and the block is latched. -/
theorem blockedAccessIsReported : Obligations.BlockedAccessIsReported := by
  refine ⟨fun s addr data be req hs ha hbe hcls => ?_, fun s addr req e k hs ha hcls hpermit => ?_⟩
  · have hblocked : s.part.path.writeBlocked (s.part.path.classify addr) req = true := by
      rcases hcls with ⟨hcontrol, rfl | rfl⟩ | ⟨e, k, hwindow, hk⟩
      · rw [hcontrol]; rfl
      · rw [hcontrol]; rfl
      · rw [hwindow]
        simp only [PathUnit.writeBlocked, permits]
        rcases hk with rfl | rfl | hpermit
        · simp
        · simp
        · rw [hpermit]; simp
    exact ⟨_, exec_upstreamWrite s addr data be req hs ha,
      State.becomes_of_eq rfl (Part.arriveWrite_blocked _ _ _ _ _ hbe hblocked)⟩
  · have hblocked : s.part.path.readBlocked (s.part.path.classify addr) req = true := by
      rw [hcls]
      simp only [PathUnit.readBlocked, permits, hpermit]
      rfl
    exact ⟨_, exec_upstreamRead s addr req hs ha, State.becomes_of_eq rfl (Part.arriveRead_blocked _ _ _ hblocked)⟩

/-! ## Store reads (R15, R16) -/

/-- A read that goes to the store: it is plain, or falls in a window other than GRANT whose read-permit set holds its
requester. -/
def PathUnit.readsStore (u : PathUnit) (c : Classification) (req : Requester) : Prop :=
  c = .plain ∨ ∃ (e : Fin 8) (k : WindowKind), c = .window e k ∧ k ≠ .grant ∧
    u.windows[e].readPermit.getLsbD (Requester.code req) = true

theorem Part.arriveRead_store (p : Part) (addr : Addr) (req : Requester)
    (h : p.path.readsStore (p.path.classify addr) req) : p.arriveRead addr req = p.storeRead addr req := by
  unfold Part.arriveRead
  rcases h with hplain | ⟨e, k, hwindow, hk, hpermit⟩
  · rw [hplain]
    rfl
  · rw [hwindow]
    have hopen : p.path.readBlocked (.window e k) req = false := by
      simp only [PathUnit.readBlocked, permits, hpermit]
      rfl
    dsimp only
    rw [hopen, if_neg Bool.false_ne_true]
    cases k with
    | grant => exact absurd rfl hk
    | _ => rfl

theorem PathUnit.holdsWord_iff (u : PathUnit) (addr : Addr) :
    u.holdsWord addr = true ↔ ∃ e ∈ u.posted, e.addr = addr := by
  simp [PathUnit.holdsWord]

theorem PathUnit.holdsWord_eq_false {u : PathUnit} {addr : Addr} (h : ∀ e ∈ u.posted, e.addr ≠ addr) :
    u.holdsWord addr = false := by
  refine Bool.eq_false_iff.mpr fun hw => ?_
  obtain ⟨e, he, haddr⟩ := (u.holdsWord_iff addr).mp hw
  exact h e he haddr

theorem Part.claimWaiting_drain (p : Part) (addr : Addr) (req : Requester) (h : p.path.held = some (.drain addr req)) :
    p.claimWaiting = if p.path.holdsWord addr then p else p.hold (.claimed addr req) := by
  unfold Part.claimWaiting
  rw [h]

/-- Settles O10: the read claims the port unless a posted write has its word. -/
theorem storeReadClaimsOrWaits : Obligations.StoreReadClaimsOrWaits := by
  refine ⟨fun s addr req hs ha hcls => ?_, fun s addr req hheld hdef hclear => ?_⟩
  · have hread : s.part.begin.arriveRead addr req = s.part.begin.storeRead addr req :=
      Part.arriveRead_store _ _ _ hcls
    refine ⟨fun hclear => ⟨_, exec_upstreamRead s addr req hs ha, State.becomes_of_eq rfl (hread.trans ?_)⟩,
      fun hword => ⟨_, exec_upstreamRead s addr req hs ha, State.becomes_of_eq rfl (hread.trans ?_)⟩⟩
    · exact if_neg (Bool.eq_false_iff.mp (PathUnit.holdsWord_eq_false (u := s.part.begin.path) hclear))
    · exact if_pos ((PathUnit.holdsWord_iff s.part.begin.path addr).mpr hword)
  · have hclaim : s.part.begin.claimWaiting = s.part.begin.hold (.claimed addr req) := by
      rw [Part.claimWaiting_drain s.part.begin addr req hheld,
        if_neg (Bool.eq_false_iff.mp (PathUnit.holdsWord_eq_false (u := s.part.begin.path) hclear))]
    exact ⟨_, congrArg Host.Outcome.next (s.event_eq _ _ hclaim hdef), State.becomes_arbitrate _ _⟩

/-! ## Accesses through CLEARING (R17, R182) -/

theorem Part.arrive_clearing (p : Part) (a : Access) (h : p.store.run = .clearing) :
    p.arrive a = p.hold (.clearing a) := by
  unfold Part.arrive
  rw [h]

theorem Part.resumeWaiting_running (p : Part) (a : Access) (hrun : p.store.run = .running)
    (h : p.path.held = some (.clearing a)) : p.resumeWaiting = p.unhold.arrive a := by
  unfold Part.resumeWaiting
  rw [h]
  dsimp only
  rw [hrun]

/-- The access that waited through CLEARING goes on as the same access on a free bus. -/
theorem State.resumeWaiting_eq_access (s : State) (a : Access) (hrun : s.part.store.run = .running)
    (hdef : s.part.path.deferred = []) (ha : atWord a = a) (h : s.part.path.held = some (.clearing a)) :
    ({ s with part := { s.part with path := { s.part.path with held := none } } } : State).event (Part.access a) =
      s.event Part.resumeWaiting := by
  refine (State.access_eq { s with part := s.part.unhold } a rfl hdef ha).trans
    (s.event_eq _ _ (Part.resumeWaiting_running s.part.begin a hrun h) ?_).symm
  rw [Part.arrive_deferred]
  exact hdef

/-- Settles O14: the access waits unclassified, and its resumption is its arrival. -/
theorem accessWaitsThroughClearing : Obligations.AccessWaitsThroughClearing := by
  refine ⟨fun s hrun hheld hdef => ?_, fun s hrun hdef => ?_⟩
  · have hwaits : ∀ a : Access, atWord a = a →
        s.becomes { s.part with path := { s.part.path with done := [], held := some (.clearing a) } }
          (s.event (Part.access a)) := fun a ha =>
      State.becomes_of_eq (s.access_eq a hheld hdef ha) (Part.arrive_clearing s.part.begin a hrun)
    exact ⟨fun addr data be req ha => ⟨_, rfl, hwaits _ (atWord_write ha data be req)⟩,
      fun addr req ha => ⟨_, rfl, hwaits _ (atWord_read ha req)⟩⟩
  · exact ⟨fun addr data be req ha h => ⟨_, rfl, congrArg Host.Outcome.next
        (s.resumeWaiting_eq_access _ hrun hdef (atWord_write ha data be req) h)⟩,
      fun addr req ha h => ⟨_, rfl, congrArg Host.Outcome.next
        (s.resumeWaiting_eq_access _ hrun hdef (atWord_read ha req) h)⟩⟩

end Sys2Proof.Machine
end

section
/-!
PROOF. The store operations of the Path Unit and of the Store Unit: drains, upstream reads, refresh and clearing. What a
drain writes is said halfword by halfword; what its read reports, once for drains and reads.
-/

namespace Sys2Proof.Machine

open Sys2Proof

/-! ## The halfwords of a drain (R14, R176) -/

/-- A halfword write that an enabled byte asks for. -/
def Memory.writeHalfIf (c : Bool) (m : Memory) (k : Nat) (v : Half) : Memory := if c then m.writeHalf k v else m

theorem Memory.writeHalfIf_wf (c : Bool) (m : Memory) (k : Nat) (v : Half) (h : m.wf = true) :
    (m.writeHalfIf c k v).wf = true := by
  cases c
  · exact h
  · exact m.writeHalf_wf k v h

theorem Memory.byte_writeHalfIf (c : Bool) (m : Memory) (k : Nat) (v : Half) (x : Nat) (h : m.wf = true)
    (hk : k < 8388608) (hx : c = false ∨ x / 2 ≠ k) : (m.writeHalfIf c k v).byte x = m.byte x := by
  cases c
  · rfl
  · have hother := hx.resolve_left Bool.noConfusion
    exact (m.byte_writeHalf k v x h hk).trans
      ((if_neg (by omega)).trans (if_neg (by omega)))

theorem Memory.check_writeHalfIf (c : Bool) (m : Memory) (k : Nat) (v : Half) (x : Nat) (h : m.wf = true)
    (hk : k < 8388608) (hx : c = false ∨ x ≠ k) : (m.writeHalfIf c k v).check x = m.check x := by
  cases c
  · rfl
  · exact (m.check_writeHalf k v x h hk).trans (if_neg (hx.resolve_left Bool.noConfusion))

/-- A write of another halfword leaves what a halfword holds and whether it fails. -/
theorem Memory.half_writeHalfIf_other (c : Bool) (m : Memory) (k j : Nat) (v : Half) (h : m.wf = true)
    (hk : k < 8388608) (hj : j ≠ k) :
    (m.writeHalfIf c k v).half j = m.half j ∧ (m.writeHalfIf c k v).halfFails j = m.halfFails j := by
  cases c
  · exact ⟨rfl, rfl⟩
  · exact ⟨m.half_writeHalf_other k j v h hk hj, m.halfFails_writeHalf_other k j v h hk hj⟩

theorem Memory.drainHalves_eq (m : Memory) (e : PostedEntry) :
    m.drainHalves e =
      (m.writeHalfIf (e.be.getLsbD 0) (2 * wordIndex e.addr) (halfOf e.data 0)).writeHalfIf (e.be.getLsbD 2)
        (2 * wordIndex e.addr + 1) (halfOf e.data 1) := rfl

theorem halfOf_zero (w : Word) : halfOf w 0 = w.extractLsb' 0 16 := by
  apply BitVec.eq_of_toNat_eq
  simp [halfOf, BitVec.extractLsb']

theorem halfOf_one (w : Word) : halfOf w 1 = w.extractLsb' 16 16 := by
  apply BitVec.eq_of_toNat_eq
  simp [halfOf, BitVec.extractLsb', BitVec.toNat_ofNat, Nat.shiftRight_eq_div_pow]

/-- What a drain that needs no read-modify-write does to the store, for an entry whose enables cover whole halfwords. -/
theorem Memory.drainHalves_spec (m : Memory) (e : PostedEntry) (h : m.wf = true)
    (hlow : e.be.getLsbD 0 = e.be.getLsbD 1) (hhigh : e.be.getLsbD 2 = e.be.getLsbD 3) :
    (e.be.getLsbD 0 = true → (m.drainHalves e).half (2 * (e.addr.toNat / 4)) = e.data.extractLsb' 0 16 ∧
      (m.drainHalves e).halfFails (2 * (e.addr.toNat / 4)) = false) ∧
    (e.be.getLsbD 2 = true → (m.drainHalves e).half (2 * (e.addr.toNat / 4) + 1) = e.data.extractLsb' 16 16 ∧
      (m.drainHalves e).halfFails (2 * (e.addr.toNat / 4) + 1) = false) ∧
    (∀ x, x / 4 ≠ e.addr.toNat / 4 ∨ e.be.getLsbD (x % 4) = false → (m.drainHalves e).byte x = m.byte x) ∧
    ∀ k, k / 2 ≠ e.addr.toNat / 4 ∨ e.be.getLsbD (2 * (k % 2)) = false → (m.drainHalves e).check k = m.check k := by
  have hw : e.addr.toNat / 4 < 4194304 := wordIndex_lt e.addr
  have hwf := m.writeHalfIf_wf (e.be.getLsbD 0) (2 * wordIndex e.addr) (halfOf e.data 0) h
  rw [m.drainHalves_eq e]
  unfold wordIndex at hwf ⊢
  generalize e.addr.toNat / 4 = w at hw hwf ⊢
  refine ⟨fun hlower => ?_, fun hupper => ?_, fun x hx => ?_, fun k hk => ?_⟩
  · obtain ⟨hhalf, hfails⟩ := Memory.half_writeHalfIf_other (e.be.getLsbD 2) _ (2 * w + 1) (2 * w) (halfOf e.data 1) hwf
      (by omega) (by omega)
    rw [hhalf, hfails, hlower, ← halfOf_zero]
    exact ⟨m.half_writeHalf_same _ _ h (by omega), m.halfFails_writeHalf_same _ _ h (by omega)⟩
  · rw [hupper, ← halfOf_one]
    exact ⟨Memory.half_writeHalf_same _ _ _ hwf (by omega), Memory.halfFails_writeHalf_same _ _ _ hwf (by omega)⟩
  · have hupper : e.be.getLsbD 2 = false ∨ x / 2 ≠ 2 * w + 1 := by
      refine or_iff_not_imp_right.mpr fun hin => ?_
      have hoff := hx.resolve_left (by omega)
      obtain hbyte | hbyte : x % 4 = 2 ∨ x % 4 = 3 := by omega
      · rwa [hbyte] at hoff
      · rwa [hbyte, ← hhigh] at hoff
    have hlower : e.be.getLsbD 0 = false ∨ x / 2 ≠ 2 * w := by
      refine or_iff_not_imp_right.mpr fun hin => ?_
      have hoff := hx.resolve_left (by omega)
      obtain hbyte | hbyte : x % 4 = 0 ∨ x % 4 = 1 := by omega
      · rwa [hbyte] at hoff
      · rwa [hbyte, ← hlow] at hoff
    rw [Memory.byte_writeHalfIf _ _ _ _ _ hwf (by omega) hupper, Memory.byte_writeHalfIf _ _ _ _ _ h (by omega) hlower]
  · have hupper : e.be.getLsbD 2 = false ∨ k ≠ 2 * w + 1 := by
      refine or_iff_not_imp_right.mpr fun hin => ?_
      have hoff := hk.resolve_left (by omega)
      rwa [show 2 * (k % 2) = 2 by omega] at hoff
    have hlower : e.be.getLsbD 0 = false ∨ k ≠ 2 * w := by
      refine or_iff_not_imp_right.mpr fun hin => ?_
      have hoff := hk.resolve_left (by omega)
      rwa [show 2 * (k % 2) = 0 by omega] at hoff
    rw [Memory.check_writeHalfIf _ _ _ _ _ hwf (by omega) hupper,
      Memory.check_writeHalfIf _ _ _ _ _ h (by omega) hlower]

theorem Memory.check_drain_other (m : Memory) (e : PostedEntry) (u : Upset) (k : Nat) (h : m.wf = true)
    (hrmw : needsRmw e.be = true) (hk : k / 2 ≠ e.addr.toNat / 4) : (m.drain e u).check k = m.check k := by
  have hw : wordIndex e.addr < 4194304 := wordIndex_lt e.addr
  unfold Memory.drain Memory.drainRmw Memory.beforeDrain
  rw [if_pos hrmw, if_pos hrmw, Memory.check_writeWord_other _ _ _ _ (m.lose_wf _ _ h) hw hk,
    m.check_lose_other _ _ _ h hw hk]

theorem needsRmw_iff (be : Enables) :
    needsRmw be = true ↔ be.getLsbD 0 ≠ be.getLsbD 1 ∨ be.getLsbD 2 ≠ be.getLsbD 3 := by
  simp [needsRmw]

/-! ## What the read of an operation reports (R177, R180) -/

/-- `q` has the parity error latch and the notices of `p` after the report of a word that was read. -/
def Part.parityReported (addr : Addr) (found : Option Halves) (kind : ParityAccess) (req : Requester) (p q : Part) :
    Prop :=
  (found = none → q.store.latch = p.store.latch ∧ q.depot.notices = p.depot.notices) ∧
  ∀ halves, found = some halves →
    q.depot.notices.isPending .storeParity = true ∧
    q.store.latch = (match p.store.latch with
      | none => some ⟨addr, halves, kind, some req, false⟩
      | some r => some { r with more := true })

theorem Part.parityReported_reportParity (addr : Addr) (found : Option Halves) (kind : ParityAccess) (req : Requester)
    (p q : Part) (hlatch : q.store.latch = (p.reportParity addr found kind (some req)).store.latch)
    (hnotices : q.depot.notices = (p.reportParity addr found kind (some req)).depot.notices) :
    p.parityReported addr found kind req q := by
  obtain ⟨-, -, hnone, hpending⟩ := p.reportParity_frame addr found kind (some req)
  refine ⟨fun hfound => ?_, fun halves hfound => ⟨?_, ?_⟩⟩
  · rw [hlatch, hnotices, hnone hfound]
    exact ⟨rfl, rfl⟩
  · rw [hnotices]
    exact hpending (.inr (by simp [hfound]))
  · rw [hlatch, hfound]
    rfl

theorem Part.reportParity_path (addr : Addr) (found : Option Halves) (kind : ParityAccess) (req : Option Requester)
    (p : Part) : (p.reportParity addr found kind req).path = p.path := by
  cases found <;> rfl

theorem Part.reportParity_unhold (addr : Addr) (found : Option Halves) (kind : ParityAccess) (req : Option Requester)
    (p : Part) : p.unhold.reportParity addr found kind req = (p.reportParity addr found kind req).unhold := by
  cases found <;> rfl

/-! ## The opportune request (R175) -/

/-- The part with the opportune request set or clear. -/
def Part.withOpportune (o : Bool) (p : Part) : Part := { p with store := { p.store with opportune := o } }

theorem Part.requestRefresh_eq (p : Part) : ∃ o, p.requestRefresh = p.withOpportune o := by
  unfold Part.requestRefresh
  split
  · exact ⟨true, rfl⟩
  · exact ⟨p.store.opportune, rfl⟩

@[simp] theorem Part.requestRefresh_path (p : Part) : p.requestRefresh.path = p.path := by
  obtain ⟨o, h⟩ := p.requestRefresh_eq
  rw [h]
  rfl

@[simp] theorem Part.requestRefresh_depot (p : Part) : p.requestRefresh.depot = p.depot := by
  obtain ⟨o, h⟩ := p.requestRefresh_eq
  rw [h]
  rfl

@[simp] theorem Part.requestRefresh_latch (p : Part) : p.requestRefresh.store.latch = p.store.latch := by
  obtain ⟨o, h⟩ := p.requestRefresh_eq
  rw [h]
  rfl

/-! ## Drains (R14) -/

theorem Part.drainDone_eq (p : Part) (m : Memory) (u : Upset) (e : PostedEntry) (rest : List PostedEntry)
    (hgrant : p.store.grant = some .drain) (hposted : p.path.posted = e :: rest) :
    p.drainDone u m =
      ((p.reportParity e.addr (m.drainError e u) .rmw (some e.req)).entryLeaves rest, m.drain e u) := by
  unfold Part.drainDone
  rw [hgrant, hposted]

/-- The part with the posted entries that are left, and the port free. -/
def Part.entryGone (rest : List PostedEntry) (p : Part) : Part :=
  ({ p with path := { p.path with posted := rest } } : Part).endGrant

theorem Part.reportParity_entryGone (addr : Addr) (found : Option Halves) (kind : ParityAccess)
    (req : Option Requester) (rest : List PostedEntry) (p : Part) :
    (p.entryGone rest).reportParity addr found kind req = (p.reportParity addr found kind req).entryGone rest := by
  cases found <;> rfl

theorem Part.entryLeaves_eq (p : Part) (rest : List PostedEntry) :
    p.entryLeaves rest = (p.entryGone rest).postWaiting.claimWaiting.requestRefresh := rfl

/-- With no access on the bus nothing else happens as the entry leaves. -/
theorem Part.entryLeaves_free (p : Part) (rest : List PostedEntry) (h : p.path.held = none) :
    p.entryLeaves rest = (p.entryGone rest).requestRefresh := by
  have hpost : ∀ x : Part, x.path.held = none → x.postWaiting = x := by
    intro x hx
    unfold Part.postWaiting
    rw [hx]
  have hclaim : ∀ x : Part, x.path.held = none → x.claimWaiting = x := by
    intro x hx
    unfold Part.claimWaiting
    rw [hx]
  rw [p.entryLeaves_eq rest, hpost (p.entryGone rest) h, hclaim (p.entryGone rest) h]

/-- The end of a drain while no access waits on the bus. -/
theorem State.postedDrainDone_free (s : State) (u : Upset) (e : PostedEntry) (rest : List PostedEntry) (p : Part)
    (hgrant : s.part.store.grant = some .drain) (hposted : s.part.path.posted = e :: rest)
    (hheld : s.part.path.held = none) (hdef : s.part.path.deferred = [])
    (hp : s.part.begin.reportParity e.addr (s.mem.drainError e u) .rmw (some e.req) = p) :
    exec (.postedDrainDone u) s = .next { s with
      mem := s.mem.drain e u
      part := (p.entryGone rest).requestRefresh.arbitrate } := by
  have hpath : p.path = s.part.begin.path := by rw [← hp, Part.reportParity_path]
  refine congrArg Host.Outcome.next (s.storeEvent_eq _ _ _ ((s.part.begin.drainDone_eq s.mem u e rest hgrant
    hposted).trans (Prod.ext ?_ rfl)) ?_)
  · rw [hp]
    exact p.entryLeaves_free rest (by rw [hpath]; exact hheld)
  · rw [Part.requestRefresh_path]
    show p.path.deferred = []
    rw [hpath]
    exact hdef

/-- Settles O15: a drain of whole halfwords writes them, and any other one the merged word, reporting its read. -/
theorem drainWritesTheEnabledBytes : Obligations.DrainWritesTheEnabledBytes := by
  refine ⟨fun s u e rest hwf hgrant hposted hheld hdef hlow hhigh => ?_,
    fun s u e rest hwf hgrant hposted hheld hdef hodd => ?_⟩
  · have hrmw : needsRmw e.be = false := Bool.eq_false_iff.mpr fun h => by
      rcases (needsRmw_iff _).mp h with h | h
      · exact h hlow
      · exact h hhigh
    have herror : s.mem.drainError e u = none := if_neg (Bool.eq_false_iff.mp hrmw)
    have hmem : s.mem.drain e u = s.mem.drainHalves e := if_neg (Bool.eq_false_iff.mp hrmw)
    obtain ⟨o, ho⟩ := (s.part.begin.entryGone rest).requestRefresh_eq
    have hreport : s.part.begin.reportParity e.addr (s.mem.drainError e u) .rmw (some e.req) = s.part.begin := by
      rw [herror]
      rfl
    have hexec := s.postedDrainDone_free u e rest _ hgrant hposted hheld hdef hreport
    rw [ho] at hexec
    refine ⟨_, o, hexec, rfl, (Part.endGrant_portOnly _).trans (Part.arbitrate_portOnly _), ?_⟩
    rw [hmem]
    exact s.mem.drainHalves_spec e hwf hlow hhigh
  · have hrmw : needsRmw e.be = true := (needsRmw_iff _).mpr hodd
    have hw : wordIndex e.addr < 4194304 := wordIndex_lt e.addr
    have hlost := s.mem.lose_wf (wordIndex e.addr) u hwf
    have herror : s.mem.drainError e u = (s.mem.lose (wordIndex e.addr) u).wordFails (wordIndex e.addr) := by
      unfold Memory.drainError Memory.beforeDrain
      rw [if_pos hrmw, if_pos hrmw]
    have hmem : s.mem.drain e u = (s.mem.lose (wordIndex e.addr) u).writeWord (wordIndex e.addr)
        (mergeBytes ((s.mem.lose (wordIndex e.addr) u).readWord (wordIndex e.addr)) e.data e.be) := by
      unfold Memory.drain Memory.drainRmw Memory.beforeDrain
      rw [if_pos hrmw, if_pos hrmw]
    refine ⟨_, s.postedDrainDone_free u e rest _ hgrant hposted hheld hdef rfl, ?_, ?_, ?_, fun x hx => ?_,
      fun k hk => ?_, ?_⟩
    · rw [Part.arbitrate_path, Part.requestRefresh_path]
      show { (s.part.begin.reportParity e.addr _ .rmw (some e.req)).path with posted := rest } = _
      rw [Part.reportParity_path]
      rfl
    · rw [hmem]
      exact Memory.readWord_writeWord_same _ _ _ hlost hw
    · rw [hmem]
      exact Memory.wordFails_writeWord_same _ _ _ hlost hw
    · exact s.mem.byte_drain_other e u x hwf hx
    · exact s.mem.check_drain_other e u k hwf hrmw hk
    · exact herror ▸ s.part.begin.parityReported_reportParity e.addr (s.mem.drainError e u) .rmw e.req _
        (by rw [Part.arbitrate_latch, Part.requestRefresh_latch]; rfl)
        (by rw [Part.arbitrate_notices, Part.requestRefresh_depot]; rfl)

/-! ## Upstream reads (R15) -/

theorem Part.readDone_eq (p : Part) (m : Memory) (u : Upset) (addr : Addr) (req : Requester)
    (hgrant : p.store.grant = some .upstreamRead) (hheld : p.path.held = some (.claimed addr req)) :
    p.readDone u m =
      ((p.reportParity addr ((m.lose (wordIndex addr) u).wordFails (wordIndex addr)) .upstreamRead
        (some req)).readReturns addr req ((m.lose (wordIndex addr) u).readWord (wordIndex addr)),
        m.lose (wordIndex addr) u) := by
  unfold Part.readDone
  rw [hgrant, hheld]

theorem Part.readReturns_path (addr : Addr) (req : Requester) (data : Word) (p : Part) :
    (p.readReturns addr req data).path =
      { p.path with held := none, done := p.path.done ++ [⟨.read addr req, data⟩] } := by
  unfold Part.readReturns
  rw [Part.requestRefresh_path]
  rfl

theorem State.upstreamReadDone_eq (s : State) (u : Upset) (addr : Addr) (req : Requester) (p : Part) (m : Memory)
    (hgrant : s.part.store.grant = some .upstreamRead) (hheld : s.part.path.held = some (.claimed addr req))
    (hdef : s.part.path.deferred = []) (hm : s.mem.lose (wordIndex addr) u = m)
    (hp : s.part.begin.reportParity addr (m.wordFails (wordIndex addr)) .upstreamRead (some req) = p) :
    exec (.upstreamReadDone u) s = .next { s with
      mem := m, part := (p.readReturns addr req (m.readWord (wordIndex addr))).arbitrate } := by
  refine congrArg Host.Outcome.next (s.storeEvent_eq _ _ _ ((s.part.begin.readDone_eq s.mem u addr req hgrant
    hheld).trans (by rw [hm, hp])) ?_)
  rw [Part.readReturns_path, ← hp, Part.reportParity_path]
  exact hdef

/-- Settles O16: the word is returned as read, and its failure reported. -/
theorem storeReadReturnsTheWord : Obligations.StoreReadReturnsTheWord := by
  intro s u addr req hwf hgrant hheld hdef
  refine ⟨_, s.upstreamReadDone_eq u addr req _ _ hgrant hheld hdef rfl rfl, rfl, ?_, rfl,
    fun x hx => s.mem.byte_lose_other _ u x hwf (wordIndex_lt addr) hx, ?_⟩
  · rw [Part.arbitrate_path, Part.readReturns_path, Part.reportParity_path]
    rfl
  · refine s.part.begin.parityReported_reportParity addr _ .upstreamRead req _ ?_ ?_
    · rw [Part.arbitrate_latch]
      exact Part.requestRefresh_latch _
    · rw [Part.arbitrate_notices]
      exact congrArg Depot.notices (Part.requestRefresh_depot _)

/-! ## Refresh (R173, R175) -/

/-- Nothing claims the port but an opportune refresh that has been requested. -/
structure Part.Calm (p : Part) : Prop where
  run : p.store.run ≠ .clearing
  mode : p.store.mode = .opportune
  debt : ¬ 4 ≤ p.store.debt
  posted : p.path.posted = []
  held : p.path.held.map Held.isClaimed ≠ some true
  fetch : p.depot.identity.fetch = none
  writing : p.depot.journal.writing = none

theorem Part.Calm.bestClaim {p : Part} (h : p.Calm) :
    p.settleWalker.bestClaim = if p.store.opportune then some .refresh else none := by
  have hfull : p.settleWalker.path.full = false := PathUnit.full_eq_false (by simp [h.posted])
  have hscheduled : p.settleWalker.store.scheduledWaits = false :=
    Bool.eq_false_iff.mpr fun hw => by
      have hmode := ((p.store.scheduledWaits_iff h.debt h.run).mp hw).2
      rw [h.mode] at hmode
      exact absurd hmode (by decide)
  have hurgent : p.settleWalker.store.urgentWaits = false :=
    Bool.eq_false_iff.mpr (mt p.store.urgentWaits_iff.mp h.debt)
  have hread : p.settleWalker.path.readWaits = false :=
    Bool.eq_false_iff.mpr (mt p.path.readWaits_iff.mp h.held)
  unfold Part.bestClaim
  rw [hurgent, if_neg Bool.false_ne_true, Part.settleWalker_store, if_neg h.run, hfull, if_neg Bool.false_ne_true,
    hread, if_neg Bool.false_ne_true, Part.lowerClaim_eq, hscheduled, if_neg (by simp [h.posted]),
    if_neg Bool.false_ne_true, p.slotClaim_settleWalker_no_fetch h.fetch,
    Part.claimBelowWalker_eq p.settleWalker h.debt h.run]
  simp [Part.settleWalker, h.writing, h.mode]

/-- After the last operation of a burst the opportune request is set, and the refresh takes the port. -/
theorem Part.Calm.requestRefresh {p : Part} (h : p.Calm) (hgrant : p.store.grant = none) :
    p.requestRefresh.arbitrate.store.opportune = true ∧ p.requestRefresh.arbitrate.store.grant = some .refresh := by
  have hrequest : p.requestRefresh = p.withOpportune true := by
    unfold Part.requestRefresh
    rw [h.bestClaim, p.store.effectiveMode_of_not_clearing h.run, h.mode]
    cases ho : p.store.opportune with
    | false => rfl
    | true =>
      rw [if_neg (by simp)]
      exact Part.ext_units rfl rfl rfl (by simp [Part.withOpportune, ← ho]) rfl
  have hcalm : (p.withOpportune true).Calm := ⟨h.run, h.mode, h.debt, h.posted, h.held, h.fetch, h.writing⟩
  rw [hrequest]
  refine ⟨Part.arbitrate_opportune _, ?_⟩
  rw [Part.arbitrate_grant_of_free (p.withOpportune true) hgrant, hcalm.bestClaim]
  rfl

theorem Part.Calm.reportParity {p : Part} (h : p.Calm) (addr : Addr) (found : Option Halves) (kind : ParityAccess)
    (req : Option Requester) : (p.reportParity addr found kind req).Calm := by
  cases found
  · exact h
  · exact ⟨h.run, h.mode, h.debt, h.posted, h.held, h.fetch, h.writing⟩

/-- Settles O17: an expiry counts the debt, and the end of a burst lets the opportune refresh have the port. -/
theorem refreshFollowsIntervalAndTraffic : Obligations.RefreshFollowsIntervalAndTraffic := by
  refine ⟨fun s hdef => ⟨fun hdebt => ?_, fun hdebt => ?_⟩,
    fun s u hrun hmode hdebt hdef hfetch hwriting => ⟨?_, ?_⟩⟩
  · have hraise : s.part.begin.refreshExpiry =
        { s.part.begin with store := { s.part.store with debt := s.part.store.debt + 1 } } := if_pos hdebt
    exact ⟨_, congrArg Host.Outcome.next (s.event_eq _ _ hraise hdef), State.becomes_arbitrate _ _⟩
  · have hlate : s.part.begin.refreshExpiry = s.part.begin.raise .refreshLate :=
      if_neg (by show ¬ s.part.store.debt < 8; omega)
    exact ⟨_, congrArg Host.Outcome.next (s.event_eq _ _ hlate hdef), State.becomes_arbitrate _ _⟩
  · rintro ⟨e, hposted, hheld, hgrant⟩
    refine ⟨_, s.postedDrainDone_free u e [] _ hgrant hposted hheld hdef rfl, ?_⟩
    have hcalm : (s.part.begin.entryGone []).Calm :=
      ⟨by simp [Part.entryGone, hrun], hmode, Nat.not_le.mpr hdebt, rfl, by simp [Part.entryGone, hheld], hfetch,
        hwriting⟩
    refine Part.Calm.requestRefresh ?_ rfl
    rw [← Part.reportParity_entryGone]
    exact hcalm.reportParity _ _ _ _
  · rintro ⟨addr, req, hposted, hheld, hgrant⟩
    refine ⟨_, s.upstreamReadDone_eq u addr req _ _ hgrant hheld hdef rfl rfl, ?_⟩
    refine Part.Calm.requestRefresh ?_ rfl
    have hcalm : s.part.begin.unhold.Calm :=
      ⟨by simp [hrun], hmode, Nat.not_le.mpr hdebt, hposted, by simp, hfetch, hwriting⟩
    have hreport := hcalm.reportParity addr ((s.mem.lose (wordIndex addr) u).wordFails (wordIndex addr))
      .upstreamRead (some req)
    rw [Part.reportParity_unhold] at hreport
    exact ⟨hreport.run, hreport.mode, hreport.debt, hreport.posted, hreport.held, hreport.fetch, hreport.writing⟩

/-! ## Clearing (R181, R182) -/

theorem Memory.writeWord_zero (m : Memory) (w : Nat) (h : m.wf = true) (hw : w < 4194304) :
    (m.writeWord w 0).check (2 * w) = true ∧ (m.writeWord w 0).check (2 * w + 1) = true := by
  have hwf := m.writeHalf_wf (2 * w) (halfOf 0 0) h
  unfold Memory.writeWord
  rw [Memory.check_writeHalf _ _ _ _ hwf (by omega), Memory.check_writeHalf _ _ _ _ hwf (by omega),
    if_neg (by omega), if_pos rfl, Memory.check_writeHalf _ _ _ _ h (by omega), if_pos rfl]
  exact ⟨by decide, by decide⟩

/-- The end of the clearing write that has the port: the arbiter's turn, then the access that waited. -/
theorem Part.clearingDone_eq (p x : Part) (m : Memory) (hgrant : p.store.grant = some .clearing)
    (hx : x = { p with store := p.store.clearingEnd }) :
    p.clearingDone m = (x.arbitrate.resumeWaiting, m.writeWord p.store.clearing 0) := by
  have hbusy : p.arbitrate = p.settleWalker := p.arbitrate_busy (by simp [hgrant])
  have hsettled : ({ p.settleWalker with store := p.settleWalker.store.clearingEnd } : Part) = x.settleWalker := by
    rw [hx]
    rfl
  have hport : p.arbitrate.store.grant = some .clearing := by rw [hbusy]; exact hgrant
  unfold Part.clearingDone
  dsimp only
  rw [hport]
  dsimp only
  rw [hbusy, hsettled, Part.settleWalker_arbitrate]
  rfl

theorem Part.resumeWaiting_idle (p : Part) (h : p.store.run = .running → ∀ a, p.path.held ≠ some (.clearing a)) :
    p.resumeWaiting = p := by
  unfold Part.resumeWaiting
  split
  · next a hheld =>
    split
    · rfl
    · next hrun => exact absurd hheld (h hrun a)
  · rfl

/-- Settles O19: the word is zeroed; only after the last one does the access that waited arrive. -/
theorem clearingWritesZeroWords : Obligations.ClearingWritesZeroWords := by
  intro s x hwf hrun hgrant hword hx
  have hend : x = { s.part.begin with store := s.part.begin.store.clearingEnd } := by
    rw [hx]
    have hlast : (Config.storeWords ≤ s.part.store.clearing + 1) = (s.part.store.clearing = 4194303) := by
      rw [eq_iff_iff]
      show 4194304 ≤ s.part.store.clearing + 1 ↔ _
      omega
    simp only [StoreUnit.clearingEnd, Part.begin, hlast]
  have hdone := s.part.begin.clearingDone_eq x s.mem hgrant hend
  have hpath : x.path = { s.part.path with done := [] } := by rw [hx]
  have hxrun : x.store.run = if s.part.store.clearing = 4194303 then .running else .clearing := by rw [hx]
  refine ⟨s.storeEvent Part.clearingDone, rfl, ?_, fun hbus hlast => ⟨rfl, ?_⟩, fun hlast hdef v hv => ?_⟩
  · rw [State.storeEvent_mem, hdone]
    obtain ⟨hlower, hupper⟩ := s.mem.writeWord_zero s.part.store.clearing hwf hword
    exact ⟨s.mem.readWord_writeWord_same _ _ hwf hword, hlower, hupper,
      fun n hn => s.mem.byte_writeWord_other _ _ n hwf hword hn,
      fun h hh => s.mem.check_writeWord_other _ _ h hwf hword hh⟩
  · have hidle : x.arbitrate.resumeWaiting = x.arbitrate := by
      refine Part.resumeWaiting_idle _ fun hrunning a => ?_
      rw [Part.arbitrate_run, hxrun] at hrunning
      rw [Part.arbitrate_path, hpath]
      refine hlast ?_ a
      by_contra hnot
      rw [if_neg hnot] at hrunning
      cases hrunning
    have hfinish : x.arbitrate.finish = x.arbitrate.arbitrate := by
      rcases hbus with hdef | hheld
      · exact Part.finish_free _ (by rw [Part.arbitrate_path, hpath]; exact hdef)
      · exact Part.finish_held _ (by rw [Part.arbitrate_path, hpath]; exact hheld)
    rw [State.storeEvent_part, hdone]
    show PortOnly x x.arbitrate.resumeWaiting.finish
    rw [hidle, hfinish]
    exact x.arbitrate_portOnly.trans x.arbitrate.arbitrate_portOnly
  · have hrunning : x.store.run = .running := by rw [hxrun, if_pos hlast]
    have hresume : ∀ a, atWord a = a → s.part.path.held = some (.clearing a) →
        v.event (Part.access a) = s.storeEvent Part.clearingDone := by
      intro a ha hheld
      have hxheld : x.path.held = some (.clearing a) := by rw [hpath]; exact hheld
      have hunhold : x.arbitrate.unhold = x.unhold.arbitrate := x.arbitrate_unhold (by rw [hxheld]; simp [Held.isClaimed])
      have hpart : v.part = x.arbitrate.unhold := by rw [hv, hunhold]; rfl
      have hbegin : v.part.begin = x.arbitrate.unhold := by
        rw [hpart]
        exact Part.ext_units (by simp [Part.begin, Part.unhold, hpath]) rfl rfl rfl rfl
      have hvdef : v.part.path.deferred = [] := by
        rw [hpart]
        show x.arbitrate.path.deferred = []
        rw [Part.arbitrate_path, hpath]
        exact hdef
      have harrive : x.arbitrate.resumeWaiting = x.arbitrate.unhold.arrive a :=
        Part.resumeWaiting_running _ a (by rw [Part.arbitrate_run, hrunning]) (by rw [Part.arbitrate_path, hxheld])
      have hstore : s.storeEvent Part.clearingDone =
          { s with
            part := (x.arbitrate.unhold.arrive a).arbitrate, mem := s.mem.writeWord s.part.store.clearing 0 } := by
        refine s.storeEvent_eq _ _ _ (hdone.trans (by rw [harrive]; rfl)) ?_
        rw [Part.arrive_deferred]
        rw [← hpart]
        exact hvdef
      rw [State.access_eq v a (by rw [hpart]; rfl) hvdef ha, hbegin, hstore, hv, State.storeEvent_mem, hdone]
      rfl
    exact ⟨fun addr data be req ha hheld => congrArg Host.Outcome.next (hresume _ (atWord_write ha data be req) hheld),
      fun addr req ha hheld => congrArg Host.Outcome.next (hresume _ (atWord_read ha req) hheld)⟩

end Sys2Proof.Machine
end

section
/-!
PROOF. The end of a drain while an access waits on the bus. The hand-over of the write that is then posted neither reads
nor, but for the opportune request, writes the port's owner: so it is the hand-over of the same write arriving after the
drain.
-/

namespace Sys2Proof.Machine

open Sys2Proof

/-! ## Parts that differ at the port alone -/

/-- The part with another owner of the port and another opportune request. -/
def Part.withPort (g : Option Grant) (o : Bool) (p : Part) : Part :=
  { p with store := { p.store with grant := g, opportune := o } }

theorem PortOnly.symm {p q : Part} (h : PortOnly p q) : PortOnly q p := by
  obtain ⟨heq, hfetch⟩ := h
  refine ⟨?_, hfetch.symm⟩
  rw [heq]

theorem PortOnly.withOpportune {p q : Part} (o : Bool) (h : PortOnly p q) :
    PortOnly (p.withOpportune o) (q.withOpportune o) := by
  obtain ⟨heq, hfetch⟩ := h
  refine ⟨?_, hfetch⟩
  rw [heq]
  rfl

/-- With no fetch in flight an arbitration does nothing but grant the port. -/
theorem Part.arbitrate_of_no_fetch (p : Part) (h : p.depot.identity.fetch = none) :
    ∃ g, p.arbitrate = p.withPort g p.store.opportune := by
  obtain ⟨heq, hfetch⟩ := p.arbitrate_portOnly
  rw [h, Option.map_none, Option.map_eq_none_iff] at hfetch
  refine ⟨p.arbitrate.store.grant, heq.trans ?_⟩
  rw [hfetch, ← h]
  rfl

/-! ## The hand-over does not look at the port -/

theorem Part.setSetting_withPort (i : SettingItem) (v : Word) (g : Option Grant) (o : Bool) (p : Part) :
    (p.withPort g o).setSetting i v = (p.setSetting i v).map (Part.withPort g o) := by
  cases i <;> simp only [Part.setSetting]
  case jumpLimit => rfl
  case abandonFee => rfl
  case program => rfl
  case tariff => rfl
  all_goals
    split
    · rfl
    · rfl

theorem Part.takeWindow_withPort (e : Fin 8) (w : WindowEntry) (g : Option Grant) (o : Bool) (p : Part) :
    (p.withPort g o).takeWindow e w = (p.takeWindow e w).withPort g o := by
  have hold : ∀ (x : Option (WindowKind × Nat × Nat)) (q : Part),
      (q.withPort g o).reportOld x = (q.reportOld x).withPort g o := by
    intro x q
    unfold Part.reportOld
    split <;> rfl
  have hjournal : ∀ (x y : Option (WindowKind × Nat × Nat)) (q : Part),
      (q.withPort g o).reportJournal x y = (q.reportJournal x y).withPort g o := by
    intro x y q
    unfold Part.reportJournal
    split <;> rfl
  have hextent : (p.withPort g o).path.windows[e].extent = p.path.windows[e].extent := rfl
  unfold Part.takeWindow
  rw [hextent]
  dsimp only
  split
  · rfl
  · exact congrArg (Part.onDepot fun _ d => d) ((congrArg _
      (hold _ { p with path := { p.path with windows := p.path.windows.set e w } })).trans (hjournal _ _ _))

/-- The opportune request after an item: a refresh mode clears it (R175). -/
def Item.leavesOpportune (i : Item) (o : Bool) : Bool :=
  match i with
  | .refreshMode => false
  | _ => o

theorem Part.takeItem_withPort (i : Item) (v : Word) (g : Option Grant) (o : Bool) (p : Part) :
    (p.withPort g o).takeItem i v = (p.takeItem i v).map (Part.withPort g (i.leavesOpportune o)) := by
  cases i
  case windowCommit e =>
    simp only [Part.takeItem]
    have hrefusal : ∀ w, (p.withPort g o).windowRefusal e w = p.windowRefusal e w := fun _ => rfl
    have hstaged : (p.withPort g o).path.staged = p.path.staged := rfl
    rw [hrefusal, hstaged]
    split
    · rfl
    · exact congrArg Except.ok (Part.takeWindow_withPort _ _ _ _ _)
  case setting i =>
    simp only [Part.takeItem, Part.setSetting_withPort]
    cases p.setSetting i v <;> rfl
  case quota q =>
    simp only [Part.takeItem, Part.setQuota]
    cases q with
    | volume => rfl
    | percent =>
      dsimp only
      split <;> rfl
  case pinCount =>
    simp only [Part.takeItem]
    split <;> rfl
  case refreshMode =>
    simp only [Part.takeItem]
    split <;> rfl
  case decision =>
    have htaken : ∀ r : Except RefusalReason Depot,
        (r.map fun d => { p.withPort g o with depot := d.startWrite (p.withPort g o).path.ring }) =
          (r.map fun d => { p with depot := d.startWrite p.path.ring }).map (Part.withPort g o) := by
      rintro (_ | _) <;> rfl
    simp only [Part.takeItem, Part.decide]
    split
    · exact htaken _
    · exact htaken _
    · exact htaken _
    · exact htaken _
    · rfl
  case journalTail =>
    simp only [Part.takeItem, Part.writeTail]
    have htail : (p.withPort g o).depot.journal.tailTaken (p.withPort g o).path.ring (bits v 0 16) =
        p.depot.journal.tailTaken p.path.ring (bits v 0 16) := rfl
    rw [htail]
    split <;> rfl
  case preloadCommit =>
    have htaken : ∀ r : Except RefusalReason Depot,
        (r.map fun d => { p.withPort g o with depot := d }) =
          (r.map fun d => { p with depot := d }).map (Part.withPort g o) := by
      rintro (_ | _) <;> rfl
    exact htaken _
  case accountCommit =>
    have htaken : ∀ r : Except RefusalReason Depot,
        (r.map fun d => { p.withPort g o with depot := d }) =
          (r.map fun d => { p with depot := d }).map (Part.withPort g o) := by
      rintro (_ | _) <;> rfl
    exact htaken _
  case calendarCommit =>
    simp only [Part.takeItem]
    have hrefusal : ∀ c, (p.withPort g o).calendarRefusal c = p.calendarRefusal c := fun _ => rfl
    have hstaged : (p.withPort g o).calendar = p.calendar := rfl
    rw [hrefusal, hstaged]
    split <;> rfl
  all_goals rfl

theorem Part.controlWord_withPort (offset : Nat) (data : Word) (be : Enables) (req : Requester) (g : Option Grant)
    (o : Bool) (p : Part) :
    ∃ o', (p.withPort g o).controlWord offset data be req = (p.controlWord offset data be req).withPort g o' := by
  unfold Part.controlWord
  cases itemAt offset with
  | none => exact ⟨o, rfl⟩
  | some i =>
    dsimp only
    split
    · exact ⟨o, rfl⟩
    · have hformed : (p.withPort g o).formed i data be = p.formed i data be := by
        cases i <;> rfl
      rw [hformed, Part.takeItem_withPort]
      cases p.takeItem i (p.formed i data be) with
      | ok q => exact ⟨_, rfl⟩
      | error r => exact ⟨o, rfl⟩

theorem Part.recordWord_withPort (k : RecordKind) (offset : Nat) (data : Word) (be : Enables) (g : Option Grant)
    (o : Bool) (p : Part) :
    (p.withPort g o).recordWord k offset data be = (p.recordWord k offset data be).withPort g o := by
  have hdeliver : ∀ (r : Vector Word 4) (x : Part), (x.withPort g o).deliverRecord k r =
      (x.deliverRecord k r).withPort g o := by
    intro r x
    cases k <;> rfl
  have hreject : ∀ (b : Bool) (x : Part), (if b then (x.withPort g o).raise .recordReject else x.withPort g o) =
      (if b then x.raise .recordReject else x).withPort g o := by
    intro b x
    cases b <;> rfl
  have hcapture : (p.withPort g o).capture = p.capture := rfl
  unfold Part.recordWord
  rw [hcapture]
  generalize CaptureWindow.receive _ _ _ _ _ _ _ = r
  dsimp only
  cases r.taken with
  | none => exact hreject r.rejected { p with capture := p.capture.setWindow k r.window }
  | some words =>
    exact (congrArg (Part.deliverRecord k words)
      (hreject r.rejected { p with capture := p.capture.setWindow k r.window })).trans (hdeliver _ _)

theorem Part.handOver_withPort (e : PostedEntry) (g : Option Grant) (o : Bool) (p : Part) :
    ∃ o', (p.withPort g o).handOver e = (p.handOver e).withPort g o' := by
  unfold Part.handOver
  split
  · exact Part.controlWord_withPort _ _ _ _ _ _ _
  · exact ⟨o, Part.recordWord_withPort _ _ _ _ _ _ _⟩
  · exact ⟨o, Part.recordWord_withPort _ _ _ _ _ _ _⟩
  · exact ⟨o, Part.recordWord_withPort _ _ _ _ _ _ _⟩
  · exact ⟨o, rfl⟩
  · exact ⟨o, rfl⟩

theorem Part.post_withPort (e : PostedEntry) (g : Option Grant) (o : Bool) (p : Part) :
    ∃ o', (p.withPort g o).post e = (p.post e).withPort g o' :=
  Part.handOver_withPort e g o ((p.enqueuePosted e).complete e.access 0)

/-! ## The waits that a drain ends -/

theorem Part.post_bus (p : Part) (e : PostedEntry) :
    (p.post e).path.held = p.path.held ∧ (p.post e).path.deferred = p.path.deferred ∧
      (p.post e).path.posted = p.path.posted ++ [e] ∧ (p.post e).path.done = p.path.done ++ [⟨e.access, 0⟩] := by
  have hport := Part.handOver_samePort e ((p.enqueuePosted e).complete e.access 0)
  exact ⟨hport.held, hport.deferred, hport.posted, hport.done⟩

theorem Part.claimWaiting_other (p : Part) (h : ∀ addr req, p.path.held ≠ some (.drain addr req)) :
    p.claimWaiting = p := by
  unfold Part.claimWaiting
  split
  · next addr req hheld => exact absurd hheld (h addr req)
  · rfl

theorem Part.postWaiting_other (p : Part) (h : ∀ e, p.path.held ≠ some (.room e)) : p.postWaiting = p := by
  unfold Part.postWaiting
  split
  · next e hheld => exact absurd hheld (h e)
  · rfl

theorem Part.postWaiting_deferred (p : Part) : p.postWaiting.path.deferred = p.path.deferred := by
  unfold Part.postWaiting
  split
  · split
    · rfl
    · exact (Part.post_bus _ _).2.1
  · rfl

theorem Part.claimWaiting_deferred (p : Part) : p.claimWaiting.path.deferred = p.path.deferred := by
  unfold Part.claimWaiting
  split
  · split <;> rfl
  · rfl

theorem Part.hold_self {p : Part} {x : Held} (h : p.path.held = some x) : p.hold x = p := by
  unfold Part.hold
  rw [← h]

/-- A write that waited for room is posted as the drain's entry leaves. -/
theorem Part.waits_room (p : Part) (w : PostedEntry) (h : p.path.held = some (.room w))
    (hroom : p.path.posted.length < 4) : p.postWaiting.claimWaiting = p.unhold.post w := by
  rw [p.postWaiting_room w h hroom]
  exact Part.claimWaiting_other _ fun addr req => by simp [(p.unhold.post_bus w).1]

/-- A read that waited claims the port unless an entry left has its word, and a claim stands. -/
theorem Part.waits_read (p : Part) (addr : Addr) (req : Requester) [Decidable (p.path.held = some (.drain addr req) ∧
    ∃ w ∈ p.path.posted, w.addr = addr)]
    (h : p.path.held = some (.drain addr req) ∨ p.path.held = some (.claimed addr req)) :
    p.postWaiting.claimWaiting =
      p.hold (if p.path.held = some (.drain addr req) ∧ ∃ w ∈ p.path.posted, w.addr = addr
        then .drain addr req else .claimed addr req) := by
  rw [p.postWaiting_other fun e => by rcases h with h | h <;> simp [h]]
  rcases h with h | h
  · rw [p.claimWaiting_drain addr req h]
    by_cases hword : ∃ w ∈ p.path.posted, w.addr = addr
    · rw [if_pos ((p.path.holdsWord_iff addr).mpr hword), if_pos ⟨h, hword⟩, Part.hold_self h]
    · rw [if_neg (mt (p.path.holdsWord_iff addr).mp hword), if_neg fun x => hword x.2]
  · rw [p.claimWaiting_other fun addr req => by simp [h], if_neg fun x => by simp [h] at x, Part.hold_self h]

/-- The end of a drain, with what it leaves of the access that waits on the bus. -/
theorem State.postedDrainDone_eq (s : State) (u : Upset) (e : PostedEntry) (rest : List PostedEntry) (p q : Part)
    (hgrant : s.part.store.grant = some .drain) (hposted : s.part.path.posted = e :: rest)
    (hp : s.part.begin.reportParity e.addr (s.mem.drainError e u) .rmw (some e.req) = p)
    (hq : (p.entryGone rest).postWaiting.claimWaiting = q) (hdef : q.path.deferred = []) :
    exec (.postedDrainDone u) s =
      .next { s with mem := s.mem.drain e u, part := q.requestRefresh.arbitrate } := by
  refine congrArg Host.Outcome.next (s.storeEvent_eq _ _ _ ((s.part.begin.drainDone_eq s.mem u e rest hgrant
    hposted).trans (Prod.ext ?_ rfl)) ?_)
  · rw [hp]
    exact congrArg Part.requestRefresh hq
  · rw [Part.requestRefresh_path]
    exact hdef

/-- What the report of a drain leaves, but for the latch and the notices. -/
theorem Part.entryGone_reportParity (addr : Addr) (found : Option Halves) (kind : ParityAccess) (req : Option Requester)
    (rest : List PostedEntry) (p : Part) :
    ∃ latch notices, (p.reportParity addr found kind req).entryGone rest =
      { p with
        path := { p.path with posted := rest }
        store := { p.store with latch := latch, grant := none }
        depot := { p.depot with notices := notices } } := by
  cases found <;> exact ⟨_, _, rfl⟩

/-- Settles O8: the write that waits for room is posted; a read that waits goes on waiting or claims the port. -/
theorem drainEndsTheWaits : Obligations.DrainEndsTheWaits := by
  intro s u e rest hgrant hposted hdef hrest
  obtain ⟨latch, notices, hgone⟩ :=
    s.part.begin.entryGone_reportParity e.addr (s.mem.drainError e u) .rmw (some e.req) rest
  generalize hA : (s.part.begin.reportParity e.addr (s.mem.drainError e u) .rmw (some e.req)).entryGone rest = A
    at hgone
  have hv : exec (.postedDrainDone u)
      { s with part := { s.part with path := { s.part.path with held := none } } } =
      .next { s with mem := s.mem.drain e u, part := A.unhold.requestRefresh.arbitrate } := by
    rw [← hA]
    exact (State.postedDrainDone_free { s with part := s.part.unhold } u e rest _ hgrant hposted rfl hdef
      (s.part.begin.reportParity_unhold _ _ _ _)).trans rfl
  have hheld : A.path.held = s.part.path.held := by rw [hgone]; rfl
  have hentries : A.path.posted = rest := by rw [hgone]
  have hlatch : A.unhold.requestRefresh.arbitrate.store.latch = latch := by
    rw [Part.arbitrate_latch, Part.requestRefresh_latch, hgone]
    rfl
  have hnotices : A.unhold.requestRefresh.arbitrate.depot.notices = notices := by
    rw [Part.arbitrate_notices, Part.requestRefresh_depot, hgone]
    rfl
  have hwaits : A.postWaiting.claimWaiting.path.deferred = [] := by
    rw [Part.claimWaiting_deferred, Part.postWaiting_deferred, hgone]
    exact hdef
  have ht := s.postedDrainDone_eq u e rest _ _ hgrant hposted rfl (by rw [hA]) hwaits
  refine ⟨_, _, hv, ht, rfl, rfl, fun w hw => ?_, fun addr req hw => ?_⟩
  · have hpost := A.waits_room w (hheld.trans hw) (by rw [hentries]; exact hrest)
    obtain ⟨hfree, -, hqueue, hdone⟩ := A.unhold.post_bus w
    obtain ⟨o, ho⟩ := (A.unhold.post w).requestRefresh_eq
    rw [hpost, ho]
    refine ⟨?_, ?_, ?_, fun hcls => ⟨o, ?_⟩, fun hrun ha hbe hclass hfetch hmay => ?_⟩
    · rw [Part.arbitrate_path]
      exact hfree
    · rw [Part.arbitrate_path]
      exact hqueue.trans (by rw [Part.unhold_path_posted, hentries])
    · rw [Part.arbitrate_path]
      exact hdone.trans (by rw [hgone]; rfl)
    · dsimp only
      rw [hlatch, hnotices, Part.post_unhanded _ w hcls, hgone]
      exact (Part.endGrant_portOnly _).trans (Part.arbitrate_portOnly _)
    · obtain ⟨o1, ho1⟩ := A.unhold.requestRefresh_eq
      obtain ⟨g, hg⟩ := (A.unhold.withOpportune o1).arbitrate_of_no_fetch (by rw [hgone]; exact hfetch)
      have hafter : A.unhold.requestRefresh.arbitrate = A.unhold.withPort g o1 := by
        rw [ho1, hg]
        rfl
      obtain ⟨o2, ho2⟩ := Part.post_withPort w g o1 A.unhold
      have harrive : (A.unhold.withPort g o1).begin.arriveWrite w.addr w.data w.be w.req =
          (A.unhold.post w).withPort g o2 := by
        have hbegin : (A.unhold.withPort g o1).begin = A.unhold.withPort g o1 := by rw [hgone]; rfl
        rw [hbegin, ← ho2]
        exact Part.arriveWrite_entry _ w hbe (by rw [hgone]; exact hclass) (by rw [hgone]; exact hmay)
          (by rw [hgone]; exact hrest)
      have hexec := exec_upstreamWrite { s with mem := s.mem.drain e u, part := A.unhold.withPort g o1 } w.addr w.data
        w.be w.req ⟨by rw [hgone]; exact hrun, rfl, by rw [hgone]; exact hdef⟩ ha
      rw [harrive] at hexec
      have hport : PortOnly (((A.unhold.post w).withPort g o2).withOpportune o) ((A.unhold.post w).withOpportune o) :=
        ⟨rfl, rfl⟩
      refine ⟨{ s with mem := s.mem.drain e u, part := ((A.unhold.post w).withPort g o2).arbitrate }, o, ?_, rfl,
        ((Part.arbitrate_portOnly _).symm.withOpportune o).trans (hport.trans (Part.arbitrate_portOnly _))⟩
      rw [hafter]
      exact hexec
  · rw [← hheld] at hw
    obtain ⟨o, ho⟩ := A.postWaiting.claimWaiting.requestRefresh_eq
    rw [ho]
    refine ⟨o, ?_⟩
    have hholds : ∀ x : Held, PortOnly
        { s.part with
          path := { s.part.path with posted := rest, done := [], held := some x }
          store := { s.part.store with latch := latch, opportune := o }
          depot := { s.part.depot with notices := notices } } ((A.hold x).withOpportune o).arbitrate := by
      intro x
      rw [hgone]
      exact (Part.endGrant_portOnly _).trans (Part.arbitrate_portOnly _)
    dsimp only
    rw [hlatch, hnotices, ← hheld, A.waits_read addr req hw, hentries]
    exact hholds _

end Sys2Proof.Machine
end

section
/-!
PROOF. Words that show the state: numbers and flags as fields of a word, the stamp's two words, and the grant word. A word's
fields are read off its number, in which each field stands in its place.
-/

namespace Sys2Proof.Machine

open Sys2Proof

/-! ## Fields of a word (R202) -/

theorem word_toNat {n : Nat} (h : n < 4294967296) : (word n).toNat = n := by
  rw [word, BitVec.toNat_ofNat, Nat.mod_eq_of_lt h]

theorem field_of_lt {v width : Nat} (lo : Nat) (h : v < 2 ^ width) : field v width lo = v * 2 ^ lo := by
  rw [field, Nat.mod_eq_of_lt h]

/-- A flag as a number of 0 or 1 in its place. -/
theorem flag_eq (b : Bool) (lo : Nat) : flag b lo = b.toNat * 2 ^ lo := by
  cases b <;> simp [flag]

theorem flag_le (b : Bool) (lo : Nat) : flag b lo ≤ 2 ^ lo := by
  cases b <;> simp [flag]

theorem getLsbD_eq_decide (w : Word) (i : Nat) : w.getLsbD i = decide (w.toNat / 2 ^ i % 2 = 1) := by
  rw [BitVec.getLsbD, Nat.testBit_eq_decide_div_mod_eq]

/-- A bit whose number is a flag's is the flag. -/
theorem getLsbD_of_toNat {w : Word} {i : Nat} {b : Bool} (h : w.toNat / 2 ^ i % 2 = b.toNat) : w.getLsbD i = b := by
  rw [getLsbD_eq_decide, h]
  cases b <;> rfl

/-! ## Codes fit their fields (R203) -/

theorem SessionState.code_lt (x : SessionState) : x.code < 8 := by cases x <;> decide

theorem holdCode_lt (x : Option HoldReason) : holdCode x < 8 := by
  cases x with
  | none => decide
  | some r => cases r <;> decide

theorem Stage.code_lt (x : Stage) : x.code < 3 := by cases x <;> decide

theorem Quality.code_lt (x : Quality) : x.code < 5 := by cases x <;> decide

/-- A number of an option that is below a bound wherever it is there. -/
theorem getD_map_lt {α : Type} (o : Option α) (f : α → Nat) {n : Nat} (hn : 0 < n) (h : ∀ a, f a < n) :
    (o.map f).getD 0 < n := by
  cases o with
  | none => exact hn
  | some a => exact h a

/-! ## Reads of the control window -/

theorem Part.arriveRead_control (p : Part) (addr : Addr) (req : Requester) (h : p.path.classify addr = .control) :
    p.arriveRead addr req = p.overlayRead addr req := by
  unfold Part.arriveRead
  rw [h]
  rfl

/-- A read of a word of the control window completes with the word. -/
theorem exec_controlRead (s : State) (o : Nat) (req : Requester) (hs : s.busFree) (ho : o < 4096) (h4 : o % 4 = 0) :
    exec (.upstreamRead (s.part.path.controlAddr o) req) s =
      .next { s with part := ((s.part.begin.beforeControlRead o).complete (.read (s.part.path.controlAddr o) req)
        ((s.part.begin.beforeControlRead o).readControl o)).arbitrate } := by
  have haddr := s.part.path.controlAddr_toNat o ho
  have haligned : (s.part.path.controlAddr o).toNat % 4 = 0 := by
    have hbase := s.part.path.controlBase_mod
    omega
  have hoffset : (s.part.path.controlAddr o).toNat - s.part.begin.path.controlBase = o := by
    show (s.part.path.controlAddr o).toNat - s.part.path.controlBase = o
    omega
  rw [exec_upstreamRead s _ req hs haligned,
    s.part.begin.arriveRead_control _ _ (s.part.path.classify_controlAddr o ho), Part.overlayRead, hoffset]

/-! ## The date and time views (R166, R205) -/

theorem readControl_dateView (p : Part) : p.readControl 0x18 = p.calendar.snapshot.dateWord := rfl

theorem readControl_timeView (p : Part) : p.readControl 0x1C = p.calendar.snapshot.timeWord := rfl

/-- The two words of a valid calendar show it (R205). -/
theorem Calendar.stampShown_of_valid (c : Calendar) (h : c.valid = true) : stampShown c c.dateWord c.timeWord := by
  obtain ⟨⟨hyear, hyears, hmonth, hmonths, hday, hdays⟩, ⟨hhour, hminute, hsecond⟩, hhalf, hweekday⟩ :=
    c.valid_iff.mp h
  have hlength : monthLength c.year c.month ≤ 31 := by
    unfold monthLength
    split
    · split <;> omega
    all_goals omega
  have hset : flag (!c.isSet) 31 = if c.isSet = true then 0 else 2 ^ 31 := by
    cases c.isSet <;> rfl
  have hmark := flag_le (!c.isSet) 31
  refine ⟨?_, ?_⟩
  · rw [← hset, Calendar.dateWord, field_of_lt _ (by omega), field_of_lt _ (by omega), field_of_lt _ (by omega),
      field_of_lt _ (by omega), word_toNat (by omega)]
    omega
  · rw [Calendar.timeWord, field_of_lt _ (by omega), field_of_lt _ (by omega), field_of_lt _ (by omega),
      field_of_lt _ (by omega), word_toNat (by omega)]
    omega

/-- Settles O11: the date view's read takes the snapshot, which the time view's read shows. -/
theorem dateAndTimeViewsServeOneSnapshot : Obligations.DateAndTimeViewsServeOneSnapshot := by
  refine ⟨fun s req hs => ⟨?_, ?_⟩, Calendar.stampShown_of_valid⟩
  · exact ⟨_, exec_controlRead s 0x18 req hs (by decide) (by decide), State.becomes_of_eq rfl rfl⟩
  · exact ⟨_, exec_controlRead s 0x1C req hs (by decide) (by decide), State.becomes_of_eq rfl rfl⟩

/-! ## The grant window (R19, R83, R206) -/

theorem exec_grantRead (s : State) (addr : Addr) (req : Requester) (e : Fin 8) (hs : s.busFree)
    (ha : addr.toNat % 4 = 0) (hcls : s.part.path.classify addr = .window e .grant)
    (hpermit : s.part.path.windows[e].readPermit.getLsbD (Requester.code req) = true) :
    exec (.upstreamRead addr req) s =
      .next { s with part := (s.part.begin.complete (.read addr req)
        (s.part.readGrant (addr.toNat - s.part.path.windows[e].base.toNat * 4096))).arbitrate } := by
  have hread : s.part.begin.arriveRead addr req = s.part.begin.complete (.read addr req)
      (s.part.begin.readGrant (addr.toNat - s.part.path.windows[e].base.toNat * 4096)) := by
    have hopen : s.part.begin.path.readBlocked (.window e .grant) req = false := by
      show (!s.part.path.windows[e].readPermit.getLsbD (Requester.code req)) = false
      rw [hpermit]
      rfl
    have hentry : s.part.begin.path.classify addr = .window e .grant := hcls
    unfold Part.arriveRead
    rw [hentry]
    dsimp only
    rw [hopen]
    rfl
  rw [exec_upstreamRead s addr req hs ha, hread]
  rfl

/-- The fields of the grant word (R206). -/
theorem Part.grantWord_fields (p : Part) (b : Fin 8) :
    bits (p.grantWord b) 0 3 = (p.depot.session b).state.code ∧
    bits (p.grantWord b) 3 3 = holdCode (p.depot.session b).hold ∧
    bits (p.grantWord b) 6 2 = ((p.depot.session b).account.map fun r => r.cls.val).getD 0 ∧
    bits (p.grantWord b) 8 4 = ((p.depot.session b).runningLine.map fun l => l.program.val).getD 0 ∧
    (p.grantWord b).getLsbD 12 = (p.depot.session b).runningLine.isSome ∧
    bits (p.grantWord b) 13 3 = (p.depot.session b).lines.length % 8 ∧
    (p.grantWord b).getLsbD 16 = Decidable.decide (p.depot.water.stage = .normal) ∧
    (p.grantWord b).getLsbD 17 = Decidable.decide (p.depot.water.stage ≠ .exhausted) ∧
    (p.grantWord b).getLsbD 18 = p.depot.water.available ∧
    bits (p.grantWord b) 19 2 = p.depot.water.stage.code ∧ bits (p.grantWord b) 21 3 = p.depot.water.quality.code ∧
    (p.grantWord b).getLsbD 24 = p.calendar.now.isSet := by
  have hstate := (p.depot.session b).state.code_lt
  have hhold := holdCode_lt (p.depot.session b).hold
  have hcls := getD_map_lt (p.depot.session b).account (fun r => r.cls.val) (by decide : 0 < 4) fun r => r.cls.isLt
  have hprogram := getD_map_lt (p.depot.session b).runningLine (fun l => l.program.val) (by decide : 0 < 16)
    fun l => l.program.isLt
  have hstage := p.depot.water.stage.code_lt
  have hquality := p.depot.water.quality.code_lt
  have hrunning := (p.depot.session b).runningLine.isSome.toNat_le
  have hnormal := (Decidable.decide (p.depot.water.stage = .normal)).toNat_le
  have hopen := (Decidable.decide (p.depot.water.stage ≠ .exhausted)).toNat_le
  have havailable := p.depot.water.available.toNat_le
  have hset := p.calendar.now.isSet.toNat_le
  have hnormalFlag : (p.depot.water.stage == .normal) = Decidable.decide (p.depot.water.stage = .normal) := by
    cases p.depot.water.stage <;> rfl
  have hopenFlag : (p.depot.water.stage != .exhausted) = Decidable.decide (p.depot.water.stage ≠ .exhausted) := by
    cases p.depot.water.stage <;> rfl
  have hnumber : (p.grantWord b).toNat =
      (p.depot.session b).state.code + holdCode (p.depot.session b).hold * 2 ^ 3 +
        ((p.depot.session b).account.map fun r => r.cls.val).getD 0 * 2 ^ 6 +
        ((p.depot.session b).runningLine.map fun l => l.program.val).getD 0 * 2 ^ 8 +
        (p.depot.session b).runningLine.isSome.toNat * 2 ^ 12 + (p.depot.session b).lines.length % 8 * 2 ^ 13 +
        (Decidable.decide (p.depot.water.stage = .normal)).toNat * 2 ^ 16 +
        (Decidable.decide (p.depot.water.stage ≠ .exhausted)).toNat * 2 ^ 17 + p.depot.water.available.toNat * 2 ^ 18 +
        p.depot.water.stage.code * 2 ^ 19 + p.depot.water.quality.code * 2 ^ 21 +
        p.calendar.now.isSet.toNat * 2 ^ 24 := by
    unfold Part.grantWord
    simp only [flag_eq, hnormalFlag, hopenFlag]
    rw [field_of_lt _ (by omega), field_of_lt _ (by omega), field_of_lt _ (by omega), field_of_lt _ (by omega),
      field_of_lt 19 (by omega), field_of_lt 21 (by omega), field, word_toNat (by omega)]
    omega
  unfold bits
  refine ⟨?_, ?_, ?_, ?_, getLsbD_of_toNat ?_, ?_, getLsbD_of_toNat ?_, getLsbD_of_toNat ?_, getLsbD_of_toNat ?_, ?_,
    ?_, getLsbD_of_toNat ?_⟩
  all_goals omega

/-- Settles O13: each field is read off the number of the grant word. -/
theorem grantReadShowsTheBay : Obligations.GrantReadShowsTheBay := by
  intro s addr req e hs ha hcls hpermit
  refine ⟨_, _, exec_grantRead s addr req e hs ha hcls hpermit, State.becomes_of_eq rfl rfl, fun b haddr => ?_,
    fun hoff => ?_⟩
  · have hword : s.part.readGrant (addr.toNat - s.part.path.windows[e].base.toNat * 4096) = s.part.grantWord b := by
      have hoffset : (addr.toNat - s.part.path.windows[e].base.toNat * 4096) / 4 = b.val := by omega
      unfold Part.readGrant
      rw [hoffset, if_pos b.isLt]
      congr 1
      exact Fin.ext (Nat.mod_eq_of_lt b.isLt)
    rw [hword]
    exact s.part.grantWord_fields b
  · unfold Part.readGrant
    exact if_neg (by omega)

end Sys2Proof.Machine
end

section
/-!
PROOF. Writes of the control window that one owner judges: staged words, settings, the pin count, the quotas, the refresh
mode, the mask, the journal tail, the preload and the calendar. Each is one use of what a taken and a refused item write
leave.
-/

namespace Sys2Proof.Machine

open Sys2Proof

/-! ## A taken and a refused write (R188, R195) -/

theorem State.becomes_taken {s : State} (i : Item) (data : Word) (be : Enables) (req : Requester) {q x : Part}
    (hs : s.ready) (hbe : be ≠ 0) (hreq : req = .maint ∨ (req = .site ∧ i.maintOnly = false))
    (hq : (s.afterControl i.offset data be req).takeItem i (s.part.formed i data be) = .ok q) (hx : q = x) :
    s.becomes x (s.itemAccess i data be req) :=
  State.becomes_of_eq (s.itemAccess_taken i data be req q hs hbe hreq hq) hx

theorem State.becomes_refused {s : State} (i : Item) (data : Word) (be : Enables) (req : Requester)
    {reason : RefusalReason} (hs : s.ready) (hbe : be ≠ 0) (hreq : req = .maint ∨ (req = .site ∧ i.maintOnly = false))
    (hq : (s.afterControl i.offset data be req).takeItem i (s.part.formed i data be) = .error reason) :
    s.becomes (Part.afterRefusal i.offset reason (s.afterControl i.offset data be req))
      (s.itemAccess i data be req) :=
  State.becomes_of_eq (s.itemAccess_refused i data be req reason hs hbe hreq hq) (Part.refuse_eq_afterRefusal _ _ _)

/-! ## Staged words (R191) -/

/-- Settles O41: a staged word's owner puts the formed value where it stages. -/
theorem stagedWordsChangeNothingElse : Obligations.StagedWordsChangeNothingElse := by
  intro s data be hs hbe
  exact ⟨fun e => ⟨_, rfl, State.becomes_taken (.windowFirst e) data be .maint hs hbe (.inl rfl) rfl rfl⟩,
    ⟨_, rfl, State.becomes_taken .preloadFirst data be .maint hs hbe (.inl rfl) rfl rfl⟩,
    ⟨_, rfl, State.becomes_taken .calendarFirst data be .maint hs hbe (.inl rfl) rfl rfl⟩,
    fun a req hreq =>
      ⟨⟨_, rfl, State.becomes_taken (.accountStaged a .word0) data be req hs hbe (Item.permitted_shared rfl hreq) rfl
        rfl⟩,
      ⟨_, rfl, State.becomes_taken (.accountStaged a .word1) data be req hs hbe (Item.permitted_shared rfl hreq) rfl
        rfl⟩⟩⟩

/-! ## Words that hold no item (R187, R188) -/

theorem singleItems_offset {i : Item} (h : i ∈ singleItems) :
    (0x140 ≤ i.offset ∧ i.offset < 0x19C) ∨ (0x280 ≤ i.offset ∧ i.offset < 0x29C) := by
  revert i
  decide

/-- The views, the unused offsets of the settings and requests areas, and word 2 of each account hold no item. -/
theorem itemAt_none {o : Nat}
    (h : o < 0x100 ∨ (0x19C ≤ o ∧ o < 0x1C0) ∨ (0x29C ≤ o ∧ o < 0x300) ∨ (0x300 ≤ o ∧ o < 0x700 ∧ o % 16 = 8) ∨
      0x700 ≤ o) : itemAt o = none := by
  have hsingle : (¬ (0x300 ≤ o ∧ o < 0x700)) → (singleItems.find? fun i => i.offset == o) = none := by
    intro hout
    refine List.find?_eq_none.mpr fun i hi hoffset => ?_
    have hrange := singleItems_offset hi
    rw [beq_iff_eq] at hoffset
    omega
  unfold itemAt
  rw [if_neg (by omega), if_neg (by omega), if_neg (by omega)]
  by_cases haccount : 0x300 ≤ o ∧ o < 0x700
  · rw [if_pos haccount]
    have hword : (o - 0x300) % 16 / 4 = 2 := by omega
    rw [hword]
    rfl
  · rw [if_neg haccount]
    exact hsingle haccount

/-- Settles O44: SITE's write of MAINT's items is refused, and a write where no item is, is posted alone. -/
theorem wordsWithoutEffectAreRefusedOrTakenAsNothing : Obligations.WordsWithoutEffectAreRefusedOrTakenAsNothing := by
  refine ⟨fun s data be i c hs hbe hcommand => ?_, fun s o data be req hs hbe hreq hoffset => ?_⟩
  · have hitem : exec c s = .next (s.itemAccess i data be .site) ∧ i.maintOnly = true := by
      rcases hcommand with ⟨e, rfl, rfl⟩ | ⟨e, rfl, rfl⟩ | ⟨x, rfl, rfl⟩ | ⟨rfl, rfl⟩ | ⟨q, rfl, rfl⟩ | ⟨rfl, rfl⟩ |
        ⟨rfl, rfl⟩ | ⟨rfl, rfl⟩ | ⟨rfl, rfl⟩ | ⟨rfl, rfl⟩ | ⟨rfl, rfl⟩ | ⟨rfl, rfl⟩ <;> exact ⟨rfl, rfl⟩
    obtain ⟨hexec, hmaint⟩ := hitem
    exact ⟨_, hexec, State.becomes_of_eq (s.itemAccess_notPermitted i data be hs hbe hmaint)
      (Part.refuse_eq_afterRefusal _ _ _)⟩
  · have hlt : 4 * o.toNat < 4096 := by
      have := o.isLt
      omega
    have haccess := s.controlAccess_ready (4 * o.toNat) data be req hs hlt (by omega) hbe hreq
    have hword : (s.afterControl (4 * o.toNat) data be req).controlWord (4 * o.toNat) data be req =
        s.afterControl (4 * o.toNat) data be req := by
      unfold Part.controlWord
      rw [itemAt_none hoffset]
    exact ⟨_, rfl, State.becomes_of_eq haccess hword⟩

/-! ## Settings with effects (R41, R95, R106, R107, R175, R197) -/

theorem refreshModeOf_none {v : Word} (h : 1 < v.toNat) : refreshModeOf v = none := by
  unfold refreshModeOf
  split
  · omega
  · omega
  · rfl

theorem Water.judgedAvailable_eq (w : Water) :
    w.judgedAvailable = Decidable.decide (w.quality = .qualified ∧ w.floor ≤ w.level) := by
  unfold Water.judgedAvailable
  cases w.quality <;> simp

/-- The judgement of availability in the statement's words (R94). -/
theorem Depot.judgeAvailability_judged (d : Depot) :
    d.judgeAvailability =
      { d with
        water := { d.water with
          available := Decidable.decide (d.water.quality = .qualified ∧ d.water.floor ≤ d.water.level) }
        notices := { d.notices with
          pending := if d.water.available =
              Decidable.decide (d.water.quality = .qualified ∧ d.water.floor ≤ d.water.level)
            then d.notices.pending else d.notices.pending ||| 0x400#16 } } := by
  rw [Depot.judgeAvailability_eq, Water.judgedAvailable_eq, if_congr eq_comm rfl rfl]

/-- Settles O45: the judgement that follows the write is one update of the water and the pending set. -/
theorem settingsWithEffectsAreJudgedAtOnce : Obligations.SettingsWithEffectsAreJudgedAtOnce := by
  refine ⟨fun s data v be hs hbe => ⟨?volume, ?percent, ?percentOut, ?floor⟩,
    fun s data v be hs hbe => ⟨?pins, ?pinsOut, ?mode, ?modeOut, ?mask⟩⟩
  case volume =>
    rintro rfl
    refine ⟨_, rfl, State.becomes_taken (.quota .volume) data be .maint hs hbe (.inl rfl) rfl ?_⟩
    rw [Depot.evaluateStage_eq]
    rfl
  case percent =>
    rintro rfl hlow hhigh
    refine ⟨_, rfl, State.becomes_taken (.quota .percent) data be .maint hs hbe (.inl rfl)
      (congrArg orOutOfRange (if_pos ⟨hlow, hhigh⟩)) ?_⟩
    rw [Depot.evaluateStage_eq]
    rfl
  case percentOut =>
    rintro rfl hout
    refine ⟨_, rfl, State.becomes_refused (.quota .percent) data be .maint hs hbe (.inl rfl)
      (congrArg orOutOfRange (if_neg fun hin => ?_))⟩
    rcases hout with hlow | hhigh
    · exact absurd hin.1 (Nat.not_le.mpr hlow)
    · exact absurd hin.2 (Nat.not_le.mpr hhigh)
  case floor =>
    rintro rfl
    refine ⟨_, rfl, State.becomes_taken .reclaimFloor data be .maint hs hbe (.inl rfl) rfl ?_⟩
    rw [Depot.judgeAvailability_judged]
    rfl
  case pins =>
    rintro rfl htake
    refine ⟨_, rfl, State.becomes_taken .pinCount data be .maint hs hbe (.inl rfl) (if_pos htake) ?_⟩
    rw [Depot.modifyIdentity, Identity.setPinCount_eq]
    rfl
  case pinsOut =>
    rintro rfl hout
    exact ⟨_, rfl, State.becomes_refused .pinCount data be .maint hs hbe (.inl rfl) (if_neg (Nat.not_le.mpr hout))⟩
  case mode =>
    rintro hv hvalue
    have hformed : s.part.formed .refreshMode data be = v := hv.symm
    rcases hvalue with rfl | rfl
    · exact ⟨_, rfl, State.becomes_taken .refreshMode data be .maint hs hbe (.inl rfl) (by rw [hformed]; rfl) rfl⟩
    · exact ⟨_, rfl, State.becomes_taken .refreshMode data be .maint hs hbe (.inl rfl) (by rw [hformed]; rfl) rfl⟩
  case modeOut =>
    rintro hv hout
    have hformed : s.part.formed .refreshMode data be = v := hv.symm
    refine ⟨_, rfl, State.becomes_refused .refreshMode data be .maint hs hbe (.inl rfl) ?_⟩
    simp only [Part.takeItem, hformed, refreshModeOf_none hout]
  case mask =>
    rintro rfl
    refine ⟨_, rfl, State.becomes_taken .noticeMask data be .maint hs hbe (.inl rfl) rfl ?_⟩
    rw [namedCauses_eq_extractLsb']
    rfl

/-! ## The preload commit (R53) -/

theorem bits_low (w : Word) (width : Nat) : bits w 0 width = w.toNat % 2 ^ width := by
  rw [bits, Nat.pow_zero, Nat.div_one]

/-- The topmost field of a word is what the fields below it leave. -/
theorem bits_high (w : Word) : bits w 24 8 = w.toNat / 16777216 := by
  have := w.isLt
  unfold bits
  omega

theorem preloadCommit_refused {p : Part} {v : Word} {reason : RefusalReason}
    (h : p.depot.commitPreload v = .error reason) : p.takeItem .preloadCommit v = .error reason := by
  simp only [Part.takeItem, h]
  rfl

/-- Settles O52: the commit's three outcomes, by its index and the preload that is pending. -/
theorem preloadCommitIsJudged : Obligations.PreloadCommitIsJudged := by
  rintro s data v be hs hbe rfl
  generalize hv : mergeBytes 0 data be = v
  have hformed : s.part.formed .preloadCommit data be = v := hv
  have hindex : bits v 16 5 = v.toNat / 65536 % 32 := rfl
  refine ⟨fun hpins hnone => ?_, fun hpins => ?_, fun hpins hsome => ?_⟩
  · have htaken : s.part.depot.commitPreload v = .ok (s.part.depot.modifyIdentity fun i =>
        { i with preload := some { tag := tagOf i.stagedTagLow (bits v 0 16), index := bits v 16 5 } }) := by
      unfold Depot.commitPreload
      rw [if_neg (by omega), hnone]
      rfl
    refine ⟨_, rfl, State.becomes_taken .preloadCommit data be .maint hs hbe (.inl rfl)
      (by rw [hformed]; exact congrArg (Except.map _) htaken) ?_⟩
    have htag : tagOf s.part.depot.identity.stagedTagLow (bits v 0 16) =
        BitVec.ofNat 48 (s.part.depot.identity.stagedTagLow.toNat + v.toNat % 65536 * 4294967296) := by
      rw [tagOf, bits_low, Nat.mod_mod]
      norm_num
    rw [← htag, ← hindex]
    rfl
  · refine ⟨_, rfl, State.becomes_refused .preloadCommit data be .maint hs hbe (.inl rfl) (preloadCommit_refused ?_)⟩
    rw [hformed]
    exact if_pos (by rw [hindex]; exact hpins)
  · refine ⟨_, rfl, State.becomes_refused .preloadCommit data be .maint hs hbe (.inl rfl) (preloadCommit_refused ?_)⟩
    rw [hformed]
    exact (if_neg (by rw [hindex]; exact Nat.not_le.mpr hpins)).trans (if_pos (Option.isSome_iff_ne_none.mpr hsome))

/-! ## The calendar set request (R161, R162) -/

theorem proposable_iff (d t : Word) : (proposedCalendar d t).proposable = true ↔ proposalInRange d t := by
  have hyear : bits d 0 16 = d.toNat % 65536 := bits_low _ _
  have hsecond : bits t 0 8 = t.toNat % 256 := bits_low _ _
  simp only [Calendar.proposable, proposedCalendar, validDate, validTime, Bool.and_eq_true, decide_eq_true_eq, bits_high,
    hyear, hsecond, proposalInRange, monthDays_eq, and_assoc]
  rfl

theorem Depot.moneyInMotion_iff (d : Depot) :
    d.moneyInMotion = true ↔ ∃ b : Fin 8, (d.session b).state = .admitted ∨ (d.session b).state = .washing ∨
      (d.session b).state = .closing := by
  simp only [Depot.moneyInMotion, SessionState.active, List.any_eq_true, mem_allBays, true_and, Bool.or_eq_true,
    beq_iff_eq, or_assoc]

/-- The refusal of a calendar set commit, by the statement's words. -/
theorem Part.calendarRefusal_eq (p : Part) (d t : Word) :
    (¬ proposalInRange d t → p.calendarRefusal (proposedCalendar d t) = some .outOfRange) ∧
    (proposalInRange d t →
      ((∃ b : Fin 8, (p.depot.session b).state = .admitted ∨ (p.depot.session b).state = .washing ∨
        (p.depot.session b).state = .closing) ∨ p.depot.journal.sweep ≠ none ∨
        p.depot.journal.boundaryPending = true →
        p.calendarRefusal (proposedCalendar d t) = some .wrongState) ∧
      ((∀ b : Fin 8, (p.depot.session b).state ≠ .admitted ∧ (p.depot.session b).state ≠ .washing ∧
        (p.depot.session b).state ≠ .closing) → p.depot.journal.sweep = none →
        p.depot.journal.boundaryPending = false → p.calendarRefusal (proposedCalendar d t) = none)) := by
  unfold Part.calendarRefusal
  refine ⟨fun hout => ?_, fun hin => ?_⟩
  · rw [Bool.eq_false_iff.mpr (mt (proposable_iff d t).mp hout)]
    rfl
  · rw [(proposable_iff d t).mpr hin, Bool.not_true, if_neg Bool.false_ne_true]
    refine ⟨fun hmoving => ?_, fun hidle hsweep hpending => ?_⟩
    · rcases hmoving with hmoney | hsweep | hpending
      · rw [if_pos (p.depot.moneyInMotion_iff.mpr hmoney)]
      · have hrunning : p.depot.journal.sweep.isSome = true := Option.isSome_iff_ne_none.mpr hsweep
        rw [hrunning, Bool.true_or, if_pos rfl, ite_self]
      · rw [hpending, Bool.or_true, if_pos rfl, ite_self]
    · have hmoney : p.depot.moneyInMotion = false := Bool.eq_false_iff.mpr fun h => by
        obtain ⟨b, hb⟩ := p.depot.moneyInMotion_iff.mp h
        obtain ⟨hadmitted, hwashing, hclosing⟩ := hidle b
        rcases hb with hb | hb | hb
        · exact hadmitted hb
        · exact hwashing hb
        · exact hclosing hb
      rw [hmoney, hsweep, hpending]
      rfl

/-- Settles O53: the commit is judged by its range and then by the money in motion. -/
theorem calendarSetIsJudged : Obligations.CalendarSetIsJudged := by
  rintro s data v be hs hbe rfl
  generalize hv : mergeBytes 0 data be = v
  have hformed : s.part.formed .calendarCommit data be = v := hv
  obtain ⟨hout, hin⟩ := s.part.calendarRefusal_eq s.part.calendar.stagedDate v
  have hrefused : ∀ reason,
      s.part.calendarRefusal (proposedCalendar s.part.calendar.stagedDate v) = some reason →
      (s.afterControl 0x298 data be .maint).takeItem .calendarCommit (s.part.formed .calendarCommit data be) =
        .error reason := by
    intro reason hreason
    have hcalendar : (s.afterControl 0x298 data be .maint).calendarRefusal
        (proposedCalendar (s.afterControl 0x298 data be .maint).calendar.stagedDate v) = some reason := hreason
    rw [hformed]
    simp only [Part.takeItem]
    rw [hcalendar]
  refine ⟨fun hrange hidle hsweep hpending => ?_, fun hrange => ?_, fun hrange hmoving => ?_⟩
  · have hcalendar : (s.afterControl 0x298 data be .maint).calendarRefusal
        (proposedCalendar (s.afterControl 0x298 data be .maint).calendar.stagedDate v) = none :=
      (hin hrange).2 hidle hsweep hpending
    have htaken : (s.afterControl 0x298 data be .maint).takeItem .calendarCommit
        (s.part.formed .calendarCommit data be) =
        .ok { s.afterControl 0x298 data be .maint with
          calendar := { s.part.calendar with now := proposedCalendar s.part.calendar.stagedDate v } } := by
      rw [hformed]
      simp only [Part.takeItem]
      rw [hcalendar]
      rfl
    refine ⟨_, rfl, State.becomes_taken .calendarCommit data be .maint hs hbe (.inl rfl) htaken ?_⟩
    have hnow : proposedCalendar s.part.calendar.stagedDate v =
        { year := s.part.calendar.stagedDate.toNat % 65536
          month := s.part.calendar.stagedDate.toNat / 65536 % 256
          day := s.part.calendar.stagedDate.toNat / 16777216
          weekday := weekdayOf (s.part.calendar.stagedDate.toNat % 65536)
            (s.part.calendar.stagedDate.toNat / 65536 % 256) (s.part.calendar.stagedDate.toNat / 16777216)
          hour := v.toNat / 65536 % 256, minute := v.toNat / 256 % 256, second := v.toNat % 256
          half := 0, isSet := true } := by
      unfold proposedCalendar
      rw [bits_high, bits_low, bits_low]
      rfl
    rw [hnow]
  · exact ⟨_, rfl, State.becomes_refused .calendarCommit data be .maint hs hbe (.inl rfl) (hrefused _ (hout hrange))⟩
  · exact ⟨_, rfl, State.becomes_refused .calendarCommit data be .maint hs hbe (.inl rfl)
      (hrefused _ ((hin hrange).1 hmoving))⟩

/-! ## The journal tail (R134, R136) -/

theorem Depot.startWrite_idle (ring : Option Ring) (d : Depot)
    (h : ring = none ∨ d.journal.queue = [] ∨ d.journal.writing ≠ none ∨
      ∀ g, ring = some g → g.slots - 1 ≤ d.journal.occupancy g.slots) : d.startWrite ring = d := by
  unfold Depot.startWrite
  split
  · next g r rest hqueue hwriting =>
    rcases h with h | h | h | h
    · cases h
    · rw [hqueue] at h; cases h
    · exact absurd hwriting h
    · exact if_neg (Nat.not_lt.mpr (h g rfl))
  · rfl

theorem Depot.startWrite_begins (g : Ring) (d : Depot) (r : JournalRecord) (rest : List JournalRecord)
    (hwriting : d.journal.writing = none) (hqueue : d.journal.queue = r :: rest)
    (hroom : d.journal.occupancy g.slots < g.slots - 1) :
    d.startWrite (some g) = d.modifyJournal fun j =>
      { j with queue := { r with sequence := some j.nextSeq } :: rest, writing := some 0 } := by
  unfold Depot.startWrite
  rw [hqueue, hwriting]
  exact if_pos hroom

theorem Journal.tailTaken_none_iff (j : Journal) (t : Nat) : j.tailTaken none t = true ↔ t = j.head := beq_iff_eq

theorem Journal.tailTaken_some_iff (j : Journal) (g : Ring) (t : Nat) :
    j.tailTaken (some g) t = true ↔
      t < g.slots ∧ (t + g.slots - j.tail) % g.slots ≤ (j.head + g.slots - j.tail) % g.slots := by
  simp only [Journal.tailTaken, Bool.and_eq_true, decide_eq_true_eq]
  rfl

theorem Part.writeTail_taken (p : Part) (t : Nat) (h : p.depot.journal.tailTaken p.path.ring t = true) :
    p.writeTail t = .ok { p with
      depot := (p.depot.modifyJournal fun j => { j with tail := t }).startWrite p.path.ring } := if_pos h

theorem Part.writeTail_refused (p : Part) (t : Nat) (h : p.depot.journal.tailTaken p.path.ring t = false) :
    p.writeTail t = .error .outOfRange := if_neg (Bool.eq_false_iff.mp h)


end Sys2Proof.Machine
end

section
/-!
PROOF. The journal tail's write: what the occupied span takes and what begins after it.
-/

namespace Sys2Proof.Machine

open Sys2Proof

/-- With the tail moved to `t`, the occupied span is what the statement of R136 counts. -/
theorem Depot.startWrite_tail_idle (ring : Option Ring) (d : Depot) (t : Nat)
    (h : ring = none ∨ d.journal.queue = [] ∨ d.journal.writing ≠ none ∨
      ∀ g, ring = some g → g.slots - 1 ≤ (d.journal.head + g.slots - t) % g.slots) :
    (d.modifyJournal fun j => { j with tail := t }).startWrite ring =
      { d with journal := { d.journal with tail := t } } :=
  Depot.startWrite_idle ring _ h

theorem Depot.startWrite_tail_begins (g : Ring) (d : Depot) (t : Nat) (r : JournalRecord) (rest : List JournalRecord)
    (hwriting : d.journal.writing = none) (hqueue : d.journal.queue = r :: rest)
    (hroom : (d.journal.head + g.slots - t) % g.slots < g.slots - 1) :
    (d.modifyJournal fun j => { j with tail := t }).startWrite (some g) =
      { d with
        journal := { d.journal with
          tail := t, queue := { r with sequence := some d.journal.nextSeq } :: rest, writing := some 0 } } :=
  Depot.startWrite_begins g _ r rest hwriting hqueue hroom

/-- Settles O51: the tail is judged by the occupied span, and a record write may begin after it. -/
theorem tailWriteReleasesSlots : Obligations.TailWriteReleasesSlots := by
  rintro s data v be req j hs hbe hreq rfl rfl
  generalize hv : mergeBytes 0 data be = v
  have htail : v.toNat % 65536 = bits v 0 16 := (bits_low v 16).symm
  have hitem : (s.afterControl 0x288 data be req).takeItem .journalTail (s.part.formed .journalTail data be) =
      (s.afterControl 0x288 data be req).writeTail (bits v 0 16) := by
    rw [← hv]
    rfl
  rw [htail]
  generalize bits v 0 16 = t at hitem
  have hring : (s.afterControl 0x288 data be req).path.ring = s.part.path.ring := s.afterControl_ring _ _ _ _
  have htaken : s.part.depot.journal.tailTaken s.part.path.ring (t) = true →
      (s.afterControl 0x288 data be req).takeItem .journalTail (s.part.formed .journalTail data be) =
        .ok { s.afterControl 0x288 data be req with
          depot := (s.part.depot.modifyJournal fun j => { j with tail := t }).startWrite
            s.part.path.ring } := by
    intro h
    rw [hitem, Part.writeTail_taken _ _ (by rw [hring]; exact h), hring]
    rfl
  have hrefused : s.part.depot.journal.tailTaken s.part.path.ring (t) = false →
      ∃ n, exec (.journalTailWrite data be req) s = .next n ∧
        s.becomes (Part.afterRefusal 0x288 .outOfRange (s.afterControl 0x288 data be req)) n := fun h =>
    ⟨_, rfl, State.becomes_refused .journalTail data be req hs hbe (Item.permitted_shared rfl hreq)
      (hitem.trans (Part.writeTail_refused _ _ (by rw [hring]; exact h)))⟩
  refine ⟨fun g hg => ⟨fun hslot hspan => ⟨fun hidle => ?_, fun r rest hwriting hqueue hroom => ?_⟩, fun hout => ?_⟩,
    fun hnone => ⟨fun hhead hempty => ?_, fun hhead => ?_⟩⟩
  · have hin : s.part.depot.journal.tailTaken s.part.path.ring (t) = true := by
      rw [hg]
      exact (Journal.tailTaken_some_iff _ g _).mpr ⟨hslot, hspan⟩
    refine ⟨_, rfl, State.becomes_taken .journalTail data be req hs hbe (Item.permitted_shared rfl hreq) (htaken hin) ?_⟩
    have hstays : s.part.path.ring = none ∨ s.part.depot.journal.queue = [] ∨ s.part.depot.journal.writing ≠ none ∨
        ∀ g', s.part.path.ring = some g' → g'.slots - 1 ≤ (s.part.depot.journal.head + g'.slots - t) % g'.slots := by
      rcases hidle with h | h | h
      · exact .inr (.inr (.inl h))
      · exact .inr (.inl h)
      · exact .inr (.inr (.inr fun g' hg' => Option.some.inj (hg.symm.trans hg') ▸ h))
    rw [Depot.startWrite_tail_idle _ _ _ hstays]
  · have hin : s.part.depot.journal.tailTaken s.part.path.ring (t) = true := by
      rw [hg]
      exact (Journal.tailTaken_some_iff _ g _).mpr ⟨hslot, hspan⟩
    refine ⟨_, rfl, State.becomes_taken .journalTail data be req hs hbe (Item.permitted_shared rfl hreq) (htaken hin) ?_⟩
    rw [hg, Depot.startWrite_tail_begins g _ t r rest hwriting hqueue hroom]
  · refine hrefused ?_
    rw [hg]
    refine Bool.eq_false_iff.mpr fun hin => ?_
    obtain ⟨hslot, hspan⟩ := (Journal.tailTaken_some_iff _ g _).mp hin
    rcases hout with h | h
    · exact Nat.not_lt.mpr h hslot
    · exact Nat.not_le.mpr h hspan
  · have hin : s.part.depot.journal.tailTaken s.part.path.ring (t) = true := by
      rw [hnone]
      exact (Journal.tailTaken_none_iff _ _).mpr hhead
    refine ⟨_, rfl, State.becomes_taken .journalTail data be req hs hbe (Item.permitted_shared rfl hreq) (htaken hin) ?_⟩
    rw [Depot.startWrite_tail_idle _ _ _ (.inl hnone), hhead, ← hempty]
    rfl
  · refine hrefused (Bool.eq_false_iff.mpr fun hin => ?_)
    rw [hnone] at hin
    exact hhead ((Journal.tailTaken_none_iff _ _).mp hin)

end Sys2Proof.Machine
end

section
/-!
PROOF. Writes of the general settings, the program entries and the tariff words: each setting's range, what a read of it
then returns, and that no other setting changes.
-/

namespace Sys2Proof.Machine

open Sys2Proof

/-! ## What a setting's write leaves (R189, R190) -/

theorem word_of_toNat (v : Word) : word v.toNat = v := by
  rw [word, BitVec.ofNat_toNat, BitVec.setWidth_eq]

/-- What a read of a written setting returns: its value, the fields alone where the word has unused bits. -/
def SettingItem.shown (i : SettingItem) (v : Word) : Word :=
  match i with
  | .program _ => BitVec.ofNat 32 (v.toNat % 4)
  | .periodSchedule =>
    BitVec.ofNat 32 (v.toNat % 8 + v.toNat / 2 ^ 8 % 32 * 2 ^ 8 + v.toNat / 2 ^ 16 % 8 * 2 ^ 16 +
      v.toNat / 2 ^ 24 % 32 * 2 ^ 24)
  | _ => v

/-- The settings of `p` with those of `x` in force: the whole of what a setting's write can change. -/
def Part.withSettingsOf (p x : Part) : Part :=
  { p with
    capture := { p.capture with minQuality := x.capture.minQuality }
    calendar := { p.calendar with schedule := x.calendar.schedule, quotaHour := x.calendar.quotaHour }
    depot := { p.depot with
      sessions := { p.depot.sessions with
        silenceLimit := x.depot.sessions.silenceLimit, holdLimit := x.depot.sessions.holdLimit }
      water := { p.depot.water with
        jumpLimit := x.depot.water.jumpLimit, settle := x.depot.water.settle
        window := x.depot.water.window, turbidityLimit := x.depot.water.turbidityLimit }
      charge := { p.depot.charge with
        programs := x.depot.charge.programs, tariff := x.depot.charge.tariff
        freshRate := x.depot.charge.freshRate, reclaimRate := x.depot.charge.reclaimRate
        abandonFee := x.depot.charge.abandonFee, discounts := x.depot.charge.discounts }
      journal := { p.depot.journal with nearFull := x.depot.journal.nearFull } } }

/-- `x` is `p` with setting `i` written with `v`. -/
structure Part.SettingWritten (i : SettingItem) (v : Word) (p x : Part) : Prop where
  inForce : x.settingWord i = SettingItem.shown i v
  others : ∀ j, j ≠ i → x.settingWord j = p.settingWord j
  alone : x = p.withSettingsOf x

theorem scheduleOf_fields (v : Word) :
    (scheduleOf v).kind.toNat = v.toNat % 8 ∧ (scheduleOf v).hour.toNat = v.toNat / 256 % 32 ∧
      (scheduleOf v).weekday.toNat = v.toNat / 65536 % 8 ∧ (scheduleOf v).day.toNat = v.toNat / 16777216 % 32 := by
  simp only [scheduleOf, BitVec.toNat_ofNat, bits]
  norm_num

theorem scheduleOf_toWord (v : Word) : (scheduleOf v).toWord = SettingItem.shown .periodSchedule v := by
  obtain ⟨hkind, hhour, hweekday, hday⟩ := scheduleOf_fields v
  rw [Schedule.toWord, hkind, hhour, hweekday, hday, field_of_lt 0 (by omega), field_of_lt 8 (by omega),
    field_of_lt 16 (by omega), field_of_lt 24 (by omega)]
  norm_num [SettingItem.shown, word]

theorem programOf_toWord (i : Fin 16) (v : Word) : (programOf v).toWord = SettingItem.shown (.program i) v := by
  have hflag : ∀ n, (decide (n % 2 = 1)).toNat = n % 2 := fun n => by
    rcases Nat.mod_two_eq_zero_or_one n with h | h <;> rw [h] <;> rfl
  have hsum : flag (v.getLsbD 0) 0 + flag (v.getLsbD 1) 1 = v.toNat % 4 := by
    rw [flag_eq, flag_eq, getLsbD_eq_decide, getLsbD_eq_decide, hflag, hflag]
    omega
  exact congrArg word hsum

/-- A schedule is valid by its kind and the fields that the kind uses (R163). -/
theorem scheduleOf_valid_iff (v : Word) :
    (scheduleOf v).valid = true ↔ SettingItem.takes .periodSchedule v.toNat := by
  obtain ⟨hkind, hhour, hweekday, hday⟩ := scheduleOf_fields v
  simp only [Schedule.valid, SettingItem.takes, hkind, hhour, hweekday, hday]
  generalize v.toNat % 8 = k
  match k with
  | 0 => simp
  | 1 => simp
  | 2 => simp
  | 3 => simp [and_assoc]
  | k + 4 =>
    simp only [Bool.false_eq_true, false_iff]
    omega

theorem tariffWord_set_same (c : Charge) (w : Fin 32) (v : Word) :
    ({ c with tariff := (c.tariff.set (2 * w.val) (halfOf v 0)).set (2 * w.val + 1) (halfOf v 1) } : Charge).tariffWord
      w = v := by
  have hsum : (halfOf v 0).toNat + (halfOf v 1).toNat * 2 ^ 16 = v.toNat := by
    obtain ⟨hlow, hhigh⟩ := halfOf_pair v
    omega
  simp only [Charge.tariffWord, Vector.getElem_set_self]
  rw [Vector.getElem_set_ne (h := by omega), Vector.getElem_set_self, hsum, word_of_toNat]

theorem tariffWord_set_ne (c : Charge) (w j : Fin 32) (a b : Half) (h : j ≠ w) :
    ({ c with tariff := (c.tariff.set (2 * w.val) a).set (2 * w.val + 1) b } : Charge).tariffWord j =
      c.tariffWord j := by
  have hval : j.val ≠ w.val := Fin.val_ne_of_ne h
  simp only [Charge.tariffWord]
  rw [Vector.getElem_set_ne (h := by omega), Vector.getElem_set_ne (h := by omega),
    Vector.getElem_set_ne (h := by omega), Vector.getElem_set_ne (h := by omega)]

/-- A value in a setting's range is taken: the setting is in force, alone. -/
theorem Part.setSetting_taken (i : SettingItem) (v : Word) (p : Part) (h : SettingItem.takes i v.toNat) :
    ∃ x, p.setSetting i v = some x ∧ p.SettingWritten i v x := by
  cases i
  case bandDiscount b =>
    refine ⟨_, if_pos h, ?_, fun j hj => ?_, rfl⟩
    · exact (congrArg word (Vector.getElem_set_self ..)).trans (word_of_toNat v)
    · cases j
      case bandDiscount b' =>
        exact congrArg word (Vector.getElem_set_ne b.isLt b'.isLt fun hval => hj (congrArg _ (Fin.ext hval.symm)))
      all_goals rfl
  case program q =>
    refine ⟨_, rfl, ?_, fun j hj => ?_, rfl⟩
    · exact (congrArg Program.toWord (Vector.getElem_set_self ..)).trans (programOf_toWord q v)
    · cases j
      case program q' =>
        exact congrArg Program.toWord
          (Vector.getElem_set_ne q.isLt q'.isLt fun hval => hj (congrArg _ (Fin.ext hval.symm)))
      all_goals rfl
  case tariff w =>
    refine ⟨_, rfl, tariffWord_set_same _ w v, fun j hj => ?_, rfl⟩
    cases j
    case tariff w' => exact tariffWord_set_ne _ w w' _ _ fun heq => hj (congrArg _ heq)
    all_goals rfl
  case periodSchedule =>
    refine ⟨_, if_pos ((scheduleOf_valid_iff v).mpr h), scheduleOf_toWord v, fun j hj => ?_, rfl⟩
    cases j
    case periodSchedule => exact absurd rfl hj
    all_goals rfl
  case jumpLimit =>
    refine ⟨_, rfl, word_of_toNat v, fun j hj => ?_, rfl⟩
    cases j
    case jumpLimit => exact absurd rfl hj
    all_goals rfl
  case abandonFee =>
    refine ⟨_, rfl, word_of_toNat v, fun j hj => ?_, rfl⟩
    cases j
    case abandonFee => exact absurd rfl hj
    all_goals rfl
  all_goals
    refine ⟨_, if_pos h, word_of_toNat v, fun j hj => ?_, rfl⟩
    cases j
    all_goals first
      | rfl
      | exact absurd rfl hj

theorem Part.setSetting_refused (i : SettingItem) (v : Word) (p : Part) (h : ¬ SettingItem.takes i v.toNat) :
    p.setSetting i v = none := by
  cases i
  case periodSchedule => exact if_neg fun hvalid => h ((scheduleOf_valid_iff v).mp hvalid)
  case jumpLimit => exact absurd trivial h
  case abandonFee => exact absurd trivial h
  case program => exact absurd trivial h
  case tariff => exact absurd trivial h
  all_goals exact if_neg h

/-- Settles O43: the setting's owner takes the value of the word in its range, and that setting alone. -/
theorem settingWriteIsTakenOrRefused : Obligations.SettingWriteIsTakenOrRefused := by
  rintro s i data be v hs hbe rfl
  refine ⟨fun htakes => ?_, fun hout => ?_⟩
  · obtain ⟨x, hset, hforce, hothers, halone⟩ :=
      Part.setSetting_taken i _ (s.afterControl (SettingItem.offset i) data be .maint) htakes
    exact ⟨_, x, rfl, State.becomes_taken (.setting i) data be .maint hs hbe (.inl rfl)
      (congrArg orOutOfRange hset) rfl, hforce, hothers, halone⟩
  · exact ⟨_, rfl, State.becomes_refused (.setting i) data be .maint hs hbe (.inl rfl)
      (congrArg orOutOfRange (Part.setSetting_refused i _ _ hout))⟩

end Sys2Proof.Machine
end

section
/-!
PROOF. The decisions ADMIT, TURN_AWAY and CLOSE: the decision word's fields, what each decision refuses, and what a taken
one leaves (R68 to R71, R194).
-/

namespace Sys2Proof.Machine

open Sys2Proof

/-! ## The fields of a decision command's word (R194, R206) -/

theorem decisionBay_of_bits (code : Nat) (data : Word) (be : Enables) (b : Fin 8)
    (h : bits (mergeBytes 0 data be) 8 3 = b.val) : decisionBay (mergeBytes 0 (withDecision code data) be) = b := by
  rw [decisionBay, decision_field code data be 8 3 (by decide) (by decide), h]
  exact Fin.ofNat_val_eq_self b

theorem decisionOverride_of_iff (code : Nat) (data v : Word) (be : Enables) (o : Override)
    (hv : v = mergeBytes 0 data be)
    (h : ∀ a cls, o = some (a, cls) ↔ v.getLsbD 16 = true ∧ bits v 24 6 = a.val ∧ bits v 30 2 = cls.val) :
    decisionOverride (mergeBytes 0 (withDecision code data) be) = o := by
  have hpresent : (mergeBytes 0 (withDecision code data) be).getLsbD 16 = v.getLsbD 16 := by
    rw [hv, mergeBytes_getLsbD _ _ _ _ (by decide), mergeBytes_getLsbD _ _ _ _ (by decide),
      withDecision_getLsbD _ _ _ (by decide)]
  rw [decisionOverride, hpresent, decision_field code data be 24 6 (by decide) (by decide),
    decision_field code data be 30 2 (by decide) (by decide), ← hv]
  by_cases hset : v.getLsbD 16 = true
  · rw [if_pos hset]
    exact ((h _ _).mpr ⟨hset, (Nat.mod_eq_of_lt (Nat.mod_lt _ (by decide))).symm,
      (Nat.mod_eq_of_lt (Nat.mod_lt _ (by decide))).symm⟩).symm
  · rw [if_neg hset]
    cases o with
    | none => rfl
    | some p => exact absurd ((h p.1 p.2).mp rfl).1 hset

theorem enables_ne_zero {be : Enables} (h : be.getLsbD 0 = true) : be ≠ 0 := by
  rintro rfl
  exact absurd h (by decide)

/-! ## A taken and a refused decision (R68, R136) -/

theorem State.decision_writes (s : State) (data : Word) (be : Enables) (req : Requester) (d : Depot) (hs : s.ready)
    (hbe : be ≠ 0) (hreq : req = .site ∨ req = .maint)
    (h : (s.afterControl 0x280 data be req).decide (mergeBytes 0 data be) =
      (Except.ok d).map fun d => { s.afterControl 0x280 data be req with
        depot := d.startWrite (s.afterControl 0x280 data be req).path.ring }) :
    s.becomesOrWrites { s.afterControl 0x280 data be req with depot := d } (s.itemAccess .decision data be req) :=
  State.becomesOrWrites_of_eq (x := { s.afterControl 0x280 data be req with depot := d })
    (s.decision_taken data be req _ hs hbe hreq h) rfl

theorem Part.decide_turnAway (p : Part) (data : Word) (be : Enables) (b : Fin 8) (h : be.getLsbD 0 = true)
    (hb : bits (mergeBytes 0 data be) 8 3 = b.val) :
    p.decide (mergeBytes 0 (withDecision 2 data) be) =
      (p.depot.decideTurnAway p.calendar.now b).map fun d => { p with depot := d.startWrite p.path.ring } := by
  rw [p.decide_code _ 2 (decision_code 2 data be h), decisionBay_of_bits 2 data be b hb]
  rfl

theorem Part.decide_close (p : Part) (data : Word) (be : Enables) (b : Fin 8) (h : be.getLsbD 0 = true)
    (hb : bits (mergeBytes 0 data be) 8 3 = b.val) :
    p.decide (mergeBytes 0 (withDecision 3 data) be) =
      (p.depot.decideClose p.calendar.now b).map fun d => { p with depot := d.startWrite p.path.ring } := by
  rw [p.decide_code _ 3 (decision_code 3 data be h), decisionBay_of_bits 3 data be b hb]
  rfl

theorem Part.decide_admit (p : Part) (data v : Word) (be : Enables) (b : Fin 8) (o : Override) (h : be.getLsbD 0 = true)
    (hv : v = mergeBytes 0 data be) (hb : bits v 8 3 = b.val)
    (ho : ∀ a cls, o = some (a, cls) ↔ v.getLsbD 16 = true ∧ bits v 24 6 = a.val ∧ bits v 30 2 = cls.val) :
    p.decide (mergeBytes 0 (withDecision 1 data) be) =
      (p.depot.decideAdmit p.calendar.now b o).map fun d => { p with depot := d.startWrite p.path.ring } := by
  rw [p.decide_code _ 1 (decision_code 1 data be h), decisionBay_of_bits 1 data be b (hv ▸ hb),
    decisionOverride_of_iff 1 data v be o hv ho]
  rfl

/-! ## TURN_AWAY and CLOSE (R68, R70) -/

theorem Depot.decideClose_taken (now : Calendar) (b : Fin 8) (d : Depot) (hvacant : (d.session b).state ≠ .vacant)
    (hclosing : (d.session b).state ≠ .closing) : d.decideClose now b = .ok (d.closeSession now b .operator) := by
  unfold Depot.decideClose
  split
  · next h => exact absurd h hvacant
  · next h => exact absurd h hclosing
  · rfl

theorem Depot.decideClose_refused (now : Calendar) (b : Fin 8) (d : Depot)
    (h : (d.session b).state = .vacant ∨ (d.session b).state = .closing) : d.decideClose now b = .error .wrongState := by
  unfold Depot.decideClose
  rcases h with h | h <;> rw [h]

/-- Settles O48: both decisions are the close of a session, or a refusal by the session's state. -/
theorem turnAwayAndCloseEndTheVisit : Obligations.TurnAwayAndCloseEndTheVisit := by
  rintro s b data v be req hs hbyte rfl hreq hb
  have hbe := enables_ne_zero hbyte
  refine ⟨fun hheld => ?_, fun hvacant hclosing => ?_, fun hheld => ?_, fun hout => ?_⟩
  · refine ⟨_, _, rfl, Part.closed_closeSession _ b .turnedAway _,
      s.decision_writes (withDecision 2 data) be req _ hs hbe hreq ?_⟩
    rw [Part.decide_turnAway _ data be b hbyte hb]
    exact congrArg _ (if_pos hheld)
  · refine ⟨_, _, rfl, Part.closed_closeSession _ b .operator _,
      s.decision_writes (withDecision 3 data) be req _ hs hbe hreq ?_⟩
    rw [Part.decide_close _ data be b hbyte hb]
    exact congrArg _ (Depot.decideClose_taken _ b _ hvacant hclosing)
  · refine ⟨_, rfl, s.decision_refused (withDecision 2 data) be req _ hs hbe hreq ?_⟩
    rw [Part.decide_turnAway _ data be b hbyte hb]
    exact congrArg (Except.map _) (if_neg hheld)
  · refine ⟨_, rfl, s.decision_refused (withDecision 3 data) be req _ hs hbe hreq ?_⟩
    rw [Part.decide_close _ data be b hbyte hb]
    exact congrArg (Except.map _) (Depot.decideClose_refused _ b _ hout)

/-! ## ADMIT (R63, R68, R69) -/

theorem Depot.admitRefusal_wrongState (d : Depot) (b : Fin 8) (o : Override)
    (h : (d.session b).state ≠ .held ∨ (o = none ∧ ∀ r, (d.session b).account = some r → r.bound = false)) :
    d.admitRefusal b o = some .wrongState := by
  unfold Depot.admitRefusal
  by_cases hheld : (d.session b).state = .held
  · obtain ⟨rfl, hunbound⟩ := h.resolve_left fun hne => hne hheld
    rw [if_neg (not_not_intro hheld)]
    cases haccount : (d.session b).account with
    | none => rfl
    | some r => exact if_neg (Bool.eq_false_iff.mp (hunbound r haccount))
  · exact if_pos hheld

theorem Depot.admitRefusal_outOfRange (d : Depot) (b : Fin 8) (a : Fin 64) (cls : Fin 4)
    (hheld : (d.session b).state = .held) (h : (d.account a).valid = false) :
    d.admitRefusal b (some (a, cls)) = some .outOfRange := by
  unfold Depot.admitRefusal
  exact (if_neg (not_not_intro hheld)).trans (if_neg (Bool.eq_false_iff.mp h))

theorem Depot.admitRefusal_none (d : Depot) (b : Fin 8) (o : Override) (r : AccountRef)
    (hheld : (d.session b).state = .held) (hnone : o = none → (d.session b).account = some r ∧ r.bound = true)
    (hsome : ∀ a cls, o = some (a, cls) → (d.account a).valid = true) : d.admitRefusal b o = none := by
  unfold Depot.admitRefusal
  rw [if_neg (not_not_intro hheld)]
  cases o with
  | none =>
    obtain ⟨haccount, hbound⟩ := hnone rfl
    rw [haccount]
    exact if_pos hbound
  | some p => exact if_pos (hsome p.1 p.2 rfl)

/-- A taken ADMIT after its displacement left depot `e`: the accounts follow the binding and bay `b` is admitted. -/
theorem Part.admitTaken_eq (p : Part) (now : Calendar) (b : Fin 8) (o : Override) (r : AccountRef) (d e : Depot)
    (hdisplace : d.displace now b (d.session b).tag = e)
    (hnone : o = none → (e.session b).account = some r)
    (hsome : ∀ a cls, o = some (a, cls) → (e.account a).valid = true ∧ r = ⟨a, cls, true⟩) :
    ∃ accounts, e.rebinds b o r accounts ∧
      { p with depot := d.admitTaken now b o } =
        (({ p with depot := e } : Part).withAccounts accounts).withBay b
          { e.admittedBay b with
            session := { (e.admittedBay b).session with operatorAdmitted := true, account := some r } } := by
  obtain ⟨accounts, heq, hcounts⟩ := e.admitted_eq b o r hnone hsome
  refine ⟨accounts, hcounts, ?_⟩
  rw [Depot.admitTaken, hdisplace, heq]
  rfl

/-- Settles O47: ADMIT's refusals, and the admission after no displacement or one. -/
theorem admitEntersAdmittedOrIsRefused : Obligations.AdmitEntersAdmittedOrIsRefused := by
  rintro s b o data v be req y hs hbyte hv hreq hb ho rfl
  have hbe := enables_ne_zero hbyte
  have hdecide := (s.afterControl 0x280 (withDecision 1 data) be req).decide_admit data v be b o hbyte hv hb ho
  have hrefused : ∀ reason, s.part.depot.admitRefusal b o = some reason →
      ∃ t, exec (.admitSession data be req) s = .next t ∧
        s.becomes (Part.afterRefusal 0x280 reason (s.afterControl 0x280 (withDecision 1 data) be req)) t := by
    intro reason h
    refine ⟨_, rfl, s.decision_refused (withDecision 1 data) be req _ hs hbe hreq (hdecide.trans ?_)⟩
    have hadmit : s.part.depot.decideAdmit s.part.calendar.now b o = .error reason := by
      rw [Depot.decideAdmit, h]
    exact congrArg (Except.map _) hadmit
  have htaken : s.part.depot.admitRefusal b o = none →
      s.becomesOrWrites
        { s.afterControl 0x280 (withDecision 1 data) be req with
          depot := s.part.depot.admitTaken s.part.calendar.now b o }
        (s.itemAccess .decision (withDecision 1 data) be req) := by
    intro h
    refine s.decision_writes (withDecision 1 data) be req _ hs hbe hreq (hdecide.trans ?_)
    have hadmit : s.part.depot.decideAdmit s.part.calendar.now b o =
        .ok (s.part.depot.admitTaken s.part.calendar.now b o) := by
      rw [Depot.decideAdmit, h]
    exact congrArg (Except.map _) hadmit
  refine ⟨fun r hheld hnone hsome z hz => ?_, fun h => hrefused _ (Depot.admitRefusal_wrongState _ b o h),
    fun a cls hheld ha hvalid => hrefused _ (ha ▸ Depot.admitRefusal_outOfRange _ b a cls hheld hvalid)⟩
  have hadmits := htaken (Depot.admitRefusal_none _ b o r hheld hnone fun a cls h => (hsome a cls h).1)
  refine ⟨fun hfree => ?_, fun c hc hsettled hone => ?_⟩
  · have hdisplace : s.part.depot.displace s.part.calendar.now b (s.part.depot.session b).tag = s.part.depot :=
      Depot.displace_foldl_none _ b _ allBays _ fun c _ => hfree c
    obtain ⟨accounts, hrebinds, heq⟩ := (s.afterControl 0x280 (withDecision 1 data) be req).admitTaken_eq
      s.part.calendar.now b o r s.part.depot s.part.depot hdisplace (fun h => (hnone h).1) hsome
    rw [heq, ← hz] at hadmits
    exact ⟨_, accounts, rfl, hrebinds, hadmits⟩
  · obtain ⟨e, he⟩ : ∃ e, e = s.part.depot.closeSession s.part.calendar.now c .displaced := ⟨_, rfl⟩
    obtain ⟨hbays, hlimit, hvalid⟩ := Depot.closeSession_frame s.part.calendar.now c .displaced s.part.depot
      hsettled.1 hsettled.2
    rw [← he] at hbays hlimit hvalid
    have hsession : ∀ n, n ≠ c → e.session n = s.part.depot.session n := fun n hn => congrArg Bay.session (hbays n hn)
    have hdisplace : s.part.depot.displace s.part.calendar.now b (s.part.depot.session b).tag = e :=
      (Depot.displace_one _ b c _ _ hc hone (he ▸ hsession)).trans he.symm
    obtain ⟨accounts, hrebinds, heq⟩ := (s.afterControl 0x280 (withDecision 1 data) be req).admitTaken_eq
      s.part.calendar.now b o r s.part.depot e hdisplace (fun h => by rw [hsession b hc.symm]; exact (hnone h).1)
      (fun a cls h => by rw [hvalid]; exact hsome a cls h)
    have hbay : e.admittedBay b = s.part.depot.admittedBay b := by
      simp only [Depot.admittedBay, hbays b hc.symm, hsession b hc.symm, hlimit]
    rw [heq, hbay, ← hz] at hadmits
    exact ⟨_, _, accounts, rfl, he ▸ Part.closed_closeSession _ c .displaced _, hrebinds, hadmits⟩

end Sys2Proof.Machine
end

section
/-!
PROOF. The account commit: the account it proposes, and the re-evaluation of the sessions held for credit, in either order
where two hold one tag (R55, R72, R114, R115, R119).
-/

namespace Sys2Proof.Machine

open Sys2Proof

/-! ## The proposed account (R114) -/

/-- The host fields that the staged words propose, the part-kept fields as they are. -/
theorem Account.propose_eq (a : Account) (staged : StagedAccount) :
    a.propose staged =
      { a with
        valid := staged.word0.getLsbD 31
        manualHold := staged.word0.getLsbD 30
        band := Fin.ofNat 4 (staged.word0.toNat / 2 ^ 28 % 4)
        haulier := staged.word0.extractLsb' 0 24
        limit := staged.word1.toNat } := by
  have hhaulier : BitVec.ofNat 24 (bits staged.word0 0 24) = staged.word0.extractLsb' 0 24 := by
    apply BitVec.eq_of_toNat_eq
    simp [bits]
  rw [Account.propose, hhaulier]
  rfl

/-- A depot with one account replaced. -/
def Depot.withAccount (a : Fin 64) (x : Account) (d : Depot) : Depot :=
  { d with charge := { d.charge with accounts := d.charge.accounts.set a x } }

theorem Depot.account_withAccount (a : Fin 64) (x : Account) (d : Depot) : (d.withAccount a x).account a = x :=
  Vector.getElem_set_self a.isLt

section
variable {a : Fin 64} {d : Depot} {x : Account} (hx : (d.account a).propose d.charge.staged[a] = x)
include hx

theorem Depot.commitAccount_refused (hvalid : x.valid = false) (hopen : 0 < (d.account a).openCount) :
    d.commitAccount a = .error .inUse := by
  subst hx
  exact if_pos ⟨hvalid, hopen⟩

theorem Depot.commitAccount_taken (h : x.valid = true ∨ (d.account a).openCount = 0) :
    d.commitAccount a = .ok (if ((d.account a).valid && relaxes (d.account a) x) = true
      then (d.withAccount a x).reevaluateAll a else d.withAccount a x) := by
  subst hx
  refine if_neg fun hin => ?_
  rcases h with h | h
  · exact Bool.false_ne_true (hin.1.symm.trans h)
  · exact absurd hin.2 (by omega)

theorem Depot.commitAccount_kept (h : x.valid = true ∨ (d.account a).openCount = 0)
    (hrelaxed : ¬ (d.account a).relaxedTo x) : d.commitAccount a = .ok (d.withAccount a x) := by
  rw [Depot.commitAccount_taken hx h, if_neg (mt (relaxes_iff _ _).mp hrelaxed)]

theorem Depot.commitAccount_relaxed (h : x.valid = true ∨ (d.account a).openCount = 0)
    (hrelaxed : (d.account a).relaxedTo x) : d.commitAccount a = .ok ((d.withAccount a x).reevaluateAll a) := by
  rw [Depot.commitAccount_taken hx h, if_pos ((relaxes_iff _ _).mpr hrelaxed)]

end

/-! ## Re-evaluation (R72, R119) -/

theorem Depot.reevaluateAll_of_not_held (a : Fin 64) (d : Depot) (h : ∀ b, ¬ d.heldForCredit a b) :
    d.reevaluateAll a = d := by
  have hnone : allBays.filter (d.awaitsCredit a) = [] :=
    List.filter_eq_nil_iff.mpr fun b _ => mt (d.awaitsCredit_iff a b).mp (h b)
  simp [Depot.reevaluateAll, hnone, orderByRank]

/-- Of two sessions held for credit with one tag, the first to be re-evaluated is admitted and makes the other a
duplicate. -/
theorem Depot.reevaluate_pair (d : Depot) (a : Fin 64) (f g : Fin 8) (hne : f ≠ g) (hf : d.heldForCredit a f)
    (hg : d.heldForCredit a g) (hvalid : (d.account a).valid = true) (hcredit : ¬ (d.account a).onCreditHold)
    (htag : (d.session f).tag = (d.session g).tag) (hfree : ∀ e, ¬ d.activeWith (d.session f).tag e) :
    (d.reevaluate f).reevaluate g =
      { d with
        sessions := { d.sessions with bays := (d.sessions.bays.set f (d.admittedBay f)).set g (d.duplicateBay g) }
        notices := { d.notices with pending := d.notices.pending ||| 8#16 } } := by
  have hfirst : d.reevaluate f =
      { d with sessions := { d.sessions with bays := d.sessions.bays.set f (d.admittedBay f) } } := by
    rw [d.reevaluate_eq a f hf hvalid, if_neg (not_exists.mpr hfree), if_neg hcredit, if_neg (not_exists.mpr hfree)]
    simp
  rw [hfirst]
  generalize hd1 :
    ({ d with sessions := { d.sessions with bays := d.sessions.bays.set f (d.admittedBay f) } } : Depot) = d1
  have hbay : ∀ e, d1.bay e = if e = f then d.admittedBay f else d.bay e := fun e => hd1 ▸ d.bay_set f e _
  have hsecond : d1.bay g = d.bay g := by rw [hbay, if_neg hne.symm]
  have hsession : d1.session g = d.session g := congrArg Bay.session hsecond
  have hactive : ∃ c, d1.activeWith (d1.session g).tag c := by
    refine ⟨f, ?_⟩
    rw [hsession, ← htag, Depot.activeWith, Depot.session, hbay, if_pos rfl]
    exact ⟨.inl rfl, rfl⟩
  have hheld : d1.heldForCredit a g := by
    unfold Depot.heldForCredit
    rw [hsession]
    exact hg
  have hdup : d1.duplicateBay g = d.duplicateBay g := by rw [Depot.duplicateBay, hsecond, hsession, Depot.duplicateBay]
  rw [d1.reevaluate_eq a g hheld (hd1 ▸ hvalid), if_pos hactive, if_pos hactive, hdup, ← hd1]

/-- A list without repetition of two given elements has them in one of the two orders. -/
theorem List.eq_pair_of_mem_iff {α : Type} {l : List α} {b c : α} (hne : b ≠ c) (hnodup : l.Nodup)
    (hmem : ∀ e, e ∈ l ↔ e = b ∨ e = c) : l = [b, c] ∨ l = [c, b] := by
  have hperm : l.Perm [b, c] := (List.perm_ext_iff_of_nodup hnodup (by simp [hne])).mpr fun e => by simp [hmem]
  match l, hperm.length_eq with
  | [e, f], _ =>
    have hef : e ≠ f := fun h => by simp [h] at hnodup
    rcases (hmem e).mp (by simp) with rfl | rfl <;> rcases (hmem f).mp (by simp) with rfl | rfl
    · exact absurd rfl hef
    · exact .inl rfl
    · exact .inr rfl
    · exact absurd rfl hef

/-- Settles O46: the commit puts the account in force, then re-evaluates what it relaxes. -/
theorem accountCommitTakesTheHostFields : Obligations.AccountCommitTakesTheHostFields := by
  rintro s a data be req x y hs hbe hreq hx rfl
  have hnew : (s.part.depot.account a).propose s.part.depot.charge.staged[a] = x :=
    (Account.propose_eq _ _).trans hx.symm
  have htaken : ∀ d z, s.part.depot.commitAccount a = .ok d →
      ({ s.afterControl (0x30C + 16 * a.val) data be req with depot := d } : Part) = z →
      s.becomes z (s.itemAccess (.accountCommit a) data be req) := fun d z hd hz =>
    State.becomes_taken (.accountCommit a) data be req hs hbe (Item.permitted_shared rfl hreq)
      (congrArg (Except.map _) hd) hz
  refine ⟨fun hopen hquiet => ?_, fun hvalid hrelaxed hdiffer => ?_,
    fun b c hvalid hrelaxed hcredit hne hheld htag hfree => ?_,
    fun hvalid hopen => ?_⟩
  · refine ⟨_, rfl, htaken (s.part.depot.withAccount a x) _ ?_ rfl⟩
    by_cases hrelaxed : (s.part.depot.account a).relaxedTo x
    · rw [Depot.commitAccount_relaxed hnew hopen hrelaxed,
        Depot.reevaluateAll_of_not_held a (s.part.depot.withAccount a x) (hquiet.resolve_left (not_not_intro hrelaxed))]
    · exact Depot.commitAccount_kept hnew hopen hrelaxed
  · obtain ⟨l, draws, hnodup, hmem, hall⟩ := (s.part.depot.withAccount a x).reevaluateAll_order a
    have hmem : ∀ b, b ∈ l ↔ s.part.depot.heldForCredit a b := hmem
    have haccount : ({ s.part.depot.withAccount a x with draws := draws } : Depot).account a = x :=
      Depot.account_withAccount a x s.part.depot
    obtain ⟨bays, raised, hfold, hraised, hbays⟩ := Depot.reevaluate_foldl a l
      { s.part.depot.withAccount a x with draws := draws } hnodup (fun b hb => (hmem b).mp hb)
      (by rw [haccount]; exact hvalid)
      fun b hb c hc => hdiffer b c ((hmem b).mp hb) ((hmem c).mp hc)
    rw [haccount] at hbays
    refine ⟨_, bays, draws, raised, rfl, htaken _ _
      ((Depot.commitAccount_relaxed hnew (.inl hvalid) hrelaxed).trans (congrArg _ (hall.trans hfold))) rfl, ?_,
      fun b => ?_⟩
    · rw [hraised]
      exact exists_congr fun b => and_congr_left fun _ => hmem b
    · rw [← hmem b]
      exact hbays b
  · obtain ⟨l, draws, hnodup, hmem, hall⟩ := (s.part.depot.withAccount a x).reevaluateAll_order a
    have hpair : ∀ e, e ∈ l ↔ e = b ∨ e = c := fun e => (hmem e).trans (hheld e)
    have haccount : ({ s.part.depot.withAccount a x with draws := draws } : Depot).account a = x :=
      Depot.account_withAccount a x s.part.depot
    have hcommit := Depot.commitAccount_relaxed hnew (.inl hvalid) hrelaxed
    rcases List.eq_pair_of_mem_iff hne hnodup hpair with rfl | rfl
    · have hfold := Depot.reevaluate_pair { s.part.depot.withAccount a x with draws := draws } a b c hne
        ((hheld b).mpr (.inl rfl)) ((hheld c).mpr (.inr rfl)) (by rw [haccount]; exact hvalid)
        (by rw [haccount]; exact hcredit) htag hfree
      exact ⟨_, draws, b, c, rfl, .inl ⟨rfl, rfl⟩, htaken _ _ (hcommit.trans (congrArg _ (hall.trans hfold))) rfl⟩
    · have hfold := Depot.reevaluate_pair { s.part.depot.withAccount a x with draws := draws } a c b hne.symm
        ((hheld c).mpr (.inr rfl)) ((hheld b).mpr (.inl rfl)) (by rw [haccount]; exact hvalid)
        (by rw [haccount]; exact hcredit) htag.symm fun e he => hfree e (htag.symm ▸ he)
      exact ⟨_, draws, c, b, rfl, .inr ⟨rfl, rfl⟩, htaken _ _ (hcommit.trans (congrArg _ (hall.trans hfold))) rfl⟩
  · exact ⟨_, rfl, State.becomes_refused (.accountCommit a) data be req hs hbe (Item.permitted_shared rfl hreq)
      (congrArg (Except.map _) (Depot.commitAccount_refused hnew hvalid hopen))⟩

end Sys2Proof.Machine
end

section
/-!
PROOF. The window commit: its checks in their order, the Journal Unit's judgement, and what a changed extent leaves of the
unit whose window it was (R5, R6, R35, R52, R135).
-/

namespace Sys2Proof.Machine

open Sys2Proof

/-! ## The checks of a proposal (R5) -/

section
variable {u : PathUnit} {e : Fin 8} {w : WindowEntry}

theorem PathUnit.judgeEntry_outOfRange
    (h : w.k.toNat < 12 ∨ 20 < w.k.toNat ∨ w.kind = 0 ∨ w.base.toNat * 4096 % 2 ^ w.k.toNat ≠ 0) :
    u.judgeEntry e w = some .outOfRange :=
  if_pos (h.imp_right (Or.imp_right (Or.imp_left (windowKindOf_none _).mpr)))

variable (hlow : 12 ≤ w.k.toNat) (hhigh : w.k.toNat ≤ 20) (hkind : w.kind ≠ 0)
  (hbase : w.base.toNat * 4096 % 2 ^ w.k.toNat = 0)
include hlow hhigh hkind hbase

theorem PathUnit.judgeEntry_inRange :
    ¬ (w.k.toNat < 12 ∨ 20 < w.k.toNat ∨ windowKindOf w.kind = none ∨ w.baseAddr % w.size ≠ 0) := by
  rintro (h | h | h | h)
  · exact Nat.not_lt.mpr hlow h
  · exact Nat.not_lt.mpr hhigh h
  · exact hkind ((windowKindOf_none _).mp h)
  · exact h hbase

theorem PathUnit.judgeEntry_overlapsControl (hbelow : w.base.toNat * 4096 < u.straps.toNat * 0x100000 + 0x100000)
    (habove : u.straps.toNat * 0x100000 + 0xFF000 < w.base.toNat * 4096 + 2 ^ w.k.toNat) :
    u.judgeEntry e w = some .overlapsControl := by
  have hover : w.baseAddr < u.controlBase + 4096 ∧ u.controlBase < w.baseAddr + w.size := by
    rw [PathUnit.controlBase, WindowEntry.baseAddr, WindowEntry.size, Nat.add_assoc _ 0xFF000 4096]
    exact ⟨hbelow, habove⟩
  exact (if_neg (PathUnit.judgeEntry_inRange hlow hhigh hkind hbase)).trans (if_pos hover)

theorem PathUnit.judgeEntry_duplicateKind
    (hclear : ¬ (w.base.toNat * 4096 < u.straps.toNat * 0x100000 + 0x100000 ∧
      u.straps.toNat * 0x100000 + 0xFF000 < w.base.toNat * 4096 + 2 ^ w.k.toNat))
    (hguarded : w.kind ≠ 7) {n : Fin 8} (hne : n ≠ e) (henabled : u.windows[n].enabled = true)
    (hsame : u.windows[n].kind = w.kind) : u.judgeEntry e w = some .duplicateKind := by
  have hover : ¬ (w.baseAddr < u.controlBase + 4096 ∧ u.controlBase < w.baseAddr + w.size) := by
    rw [PathUnit.controlBase, WindowEntry.baseAddr, WindowEntry.size]
    omega
  refine (if_neg (PathUnit.judgeEntry_inRange hlow hhigh hkind hbase)).trans
    ((if_neg hover).trans (if_pos ⟨mt (windowKindOf_guarded _).mp hguarded, ?_⟩))
  refine List.any_eq_true.mpr ⟨n, List.mem_finRange n, ?_⟩
  rw [henabled, hsame]
  simp [hne]

end

/-! ## The Journal Unit's judgement (R135) -/

theorem WindowEntry.extentKind_journal_iff (w : WindowEntry) :
    extentKind w.extent = some .journal ↔ w.enabled = true ∧ w.kind = 5 := by
  rw [WindowEntry.extentKind_eq]
  by_cases he : w.enabled = true
  · rw [if_pos he, windowKindOf_journal]
    exact (and_iff_right he).symm
  · rw [if_neg he]
    exact ⟨fun h => (nomatch h), fun h => absurd h.1 he⟩

theorem Journal.windowBusy_leaves (j : Journal) {old w : WindowEntry} (hne : old.extent ≠ w.extent)
    (hold : extentKind old.extent = some .journal) :
    j.windowBusy old.extent w.extent = true ↔ j.head ≠ j.tail ∨ j.queue ≠ [] ∨ j.writing ≠ none := by
  unfold Journal.windowBusy
  rw [if_neg hne, if_pos hold]
  simp [Option.isSome_iff_ne_none, or_assoc]

theorem Journal.windowBusy_enters (j : Journal) {old w : WindowEntry} (hold : extentKind old.extent ≠ some .journal)
    (hnew : extentKind w.extent = some .journal) :
    j.windowBusy old.extent w.extent = true ↔ j.head ≠ j.tail ∨ j.writing ≠ none := by
  have hne : old.extent ≠ w.extent := fun h => hold (h ▸ hnew)
  unfold Journal.windowBusy
  rw [if_neg hne, if_neg hold, if_pos hnew]
  simp [Option.isSome_iff_ne_none]

theorem Part.windowRefusal_judged {p : Part} {e : Fin 8} {w : WindowEntry} {reason : RefusalReason}
    (henabled : w.enabled = true) (h : p.path.judgeEntry e w = some reason) : p.windowRefusal e w = some reason := by
  unfold Part.windowRefusal
  rw [if_pos henabled, h]

theorem Part.windowRefusal_allowed {p : Part} {e : Fin 8} {w : WindowEntry} (h : p.path.allows e w) :
    p.windowRefusal e w =
      if p.depot.journal.windowBusy p.path.windows[e].extent w.extent then some .busy else none := by
  unfold Part.windowRefusal
  rw [PathUnit.judgeEntry_allows _ _ _ h]

/-! ## What a taken commit leaves (R6) -/

/-- Entry `e` is in force. -/
def Part.withWindowEntry (e : Fin 8) (w : WindowEntry) (p : Part) : Part :=
  { p with path := { p.path with windows := p.path.windows.set e w } }

/-- Head and tail at 0 where `w` is an enabled JOURNAL window (R135). -/
def Part.enterJournal (w : WindowEntry) (p : Part) : Part :=
  { p with
    depot := { p.depot with
      journal := { p.depot.journal with
        head := if w.enabled = true ∧ w.kind = 5 then 0 else p.depot.journal.head
        tail := if w.enabled = true ∧ w.kind = 5 then 0 else p.depot.journal.tail } } }

theorem Part.enterJournal_none {w : WindowEntry} (p : Part) (h : ¬ (w.enabled = true ∧ w.kind = 5)) :
    p.enterJournal w = p := by
  unfold Part.enterJournal
  rw [if_neg h, if_neg h]

theorem Part.takeWindow_same {p : Part} {e : Fin 8} {w : WindowEntry} (h : p.path.windows[e].extent = w.extent) :
    p.takeWindow e w = p.withWindowEntry e w := if_pos h

theorem Part.takeWindow_changed {p : Part} {e : Fin 8} {w : WindowEntry} {x : Part}
    (hne : p.path.windows[e].extent ≠ w.extent) (hold : extentKind p.path.windows[e].extent ≠ some .journal)
    (hx : ((p.withWindowEntry e w).reportOld p.path.windows[e].extent).enterJournal w = x) :
    p.takeWindow e w = { x with depot := x.depot.startWrite x.path.ring } := by
  subst hx
  refine (if_neg hne).trans ?_
  rw [Part.reportJournal_eq _ _ _ hold]
  rfl

theorem Part.takeWindow_leaves {p : Part} {e : Fin 8} {w : WindowEntry}
    (hne : p.path.windows[e].extent ≠ w.extent) (hold : extentKind p.path.windows[e].extent = some .journal)
    (hqueue : p.depot.journal.queue = []) :
    p.takeWindow e w = { p.withWindowEntry e w with
      depot := { p.depot with journal := { p.depot.journal with head := 0, tail := 0 } } } := by
  have hidle := Depot.startWrite_idle (p.withWindowEntry e w).path.ring
    { p.depot with journal := { p.depot.journal with head := 0, tail := 0 } } (.inr (.inl hqueue))
  refine (if_neg hne).trans ?_
  unfold Part.reportJournal Part.reportOld
  rw [if_pos (.inl hold), hold]
  exact congrArg (fun d => { p.withWindowEntry e w with depot := d }) hidle

/-- The kinds whose owner empties nothing: no window, GRANT, GUARDED (R6). -/
theorem Part.reportOld_quiet {old : WindowEntry} (p : Part) (h : old.enabled = false ∨ old.kind = 6 ∨ old.kind = 7) :
    p.reportOld old.extent = p := by
  unfold Part.reportOld
  rw [WindowEntry.extentKind_eq]
  by_cases he : old.enabled = true
  · rw [if_pos he]
    rcases h with h | h | h
    · exact absurd (he.symm.trans h) (by decide)
    · rw [h]; rfl
    · rw [h]; rfl
  · rw [if_neg he]

/-- A record window's open assembly is lost without a reject (R35). -/
theorem Part.reportOld_record {old : WindowEntry} (p : Part) (kind : RecordKind) (henabled : old.enabled = true)
    (h : windowKindOf old.kind = some kind.windowKind) :
    p.reportOld old.extent = { p with capture := p.capture.withoutAssembly kind } := by
  unfold Part.reportOld
  rw [WindowEntry.extentKind_eq, if_pos henabled, h]
  cases kind <;> rfl

theorem Part.reportOld_directory {old : WindowEntry} (p : Part) (henabled : old.enabled = true) (h : old.kind = 4) :
    p.reportOld old.extent = { p with depot := p.depot.directoryChanged } := by
  unfold Part.reportOld
  rw [WindowEntry.extentKind_eq, if_pos henabled, h]
  rfl

/-! ## The commit's next state -/

section
variable {s : State} {e : Fin 8} {data : Word} {be : Enables} {w : WindowEntry}
  (hs : s.ready) (hbe : be ≠ 0)
  (hw : w = windowEntryOf s.part.path.staged[e] (mergeBytes s.part.path.windows[e].second data be))
include hs hbe hw

theorem State.windowCommit_refused {reason : RefusalReason} (h : s.part.windowRefusal e w = some reason) :
    s.becomes (Part.afterRefusal (0x104 + 8 * e.val) reason (s.afterControl (0x104 + 8 * e.val) data be .maint))
      (s.itemAccess (.windowCommit e) data be .maint) := by
  refine State.becomes_refused (.windowCommit e) data be .maint hs hbe (.inl rfl) ?_
  have hrefused : (s.afterControl (0x104 + 8 * e.val) data be .maint).windowRefusal e (windowEntryOf
      (s.afterControl (0x104 + 8 * e.val) data be .maint).path.staged[e] (s.part.formed (.windowCommit e) data be)) =
      some reason := hw ▸ h
  simp only [Part.takeItem, Item.offset]
  rw [hrefused]

theorem State.windowCommit_taken (h : s.part.windowRefusal e w = none) :
    s.itemAccess (.windowCommit e) data be .maint =
      { s with part := ((s.afterControl (0x104 + 8 * e.val) data be .maint).takeWindow e w).arbitrate } := by
  refine s.itemAccess_taken (.windowCommit e) data be .maint _ hs hbe (.inl rfl) ?_
  have hnone : (s.afterControl (0x104 + 8 * e.val) data be .maint).windowRefusal e (windowEntryOf
      (s.afterControl (0x104 + 8 * e.val) data be .maint).path.staged[e] (s.part.formed (.windowCommit e) data be)) =
      none := hw ▸ h
  simp only [Part.takeItem, Item.offset]
  rw [hnone, hw]
  rfl

theorem State.windowCommit_busy (hallows : s.part.path.allows e w)
    (hbusy : s.part.depot.journal.windowBusy s.part.path.windows[e].extent w.extent = true) :
    s.becomes (Part.afterRefusal (0x104 + 8 * e.val) .busy (s.afterControl (0x104 + 8 * e.val) data be .maint))
      (s.itemAccess (.windowCommit e) data be .maint) :=
  State.windowCommit_refused hs hbe hw ((Part.windowRefusal_allowed hallows).trans (if_pos hbusy))

theorem State.windowCommit_judged {reason : RefusalReason} (henabled : w.enabled = true)
    (h : s.part.path.judgeEntry e w = some reason) :
    s.becomes (Part.afterRefusal (0x104 + 8 * e.val) reason (s.afterControl (0x104 + 8 * e.val) data be .maint))
      (s.itemAccess (.windowCommit e) data be .maint) :=
  State.windowCommit_refused hs hbe hw (Part.windowRefusal_judged henabled h)

end

/-- Settles O42: the checks in their order, then the journal's judgement, then the entry in force. -/
theorem windowCommitTakesOrRefuses : Obligations.WindowCommitTakesOrRefuses := by
  rintro s e data be old w hs hbe rfl hw
  refine ⟨fun hdisabled hallows hidle => ?_, fun henabled hout => ?_,
    fun henabled hlow hhigh hkind hbase hbelow habove => ?_,
    fun n hne hon hsame henabled hlow hhigh hkind hguarded hbase hclear => ?_,
    fun henabled hkind hchanged hallows => ⟨fun hbusy => ?_, fun hhead hqueue hwriting => ?_⟩,
    fun hold henabled hkind hallows hbusy => ?_⟩
  · have hold : extentKind s.part.path.windows[e].extent ≠ some .journal := fun h =>
      absurd (hdisabled.symm.trans ((WindowEntry.extentKind_journal_iff _).mp h).1) (by decide)
    have htaken := State.windowCommit_taken hs hbe hw (s.part.windowRefusal_none e w hallows hold hidle)
    refine ⟨_, rfl, ?_⟩
    rw [htaken]
    by_cases hsame : s.part.path.windows[e].extent = w.extent
    · rw [Part.takeWindow_same (p := s.afterControl (0x104 + 8 * e.val) data be .maint) hsame]
      exact ⟨rfl, Part.arbitrate_path _, Part.arbitrate_capture _, Part.arbitrate_sessions _, Part.arbitrate_cache _,
        Part.arbitrate_notices _⟩
    · obtain ⟨queue, writing, hjournal, -⟩ := Depot.startWrite_frame
        (((s.afterControl (0x104 + 8 * e.val) data be .maint).withWindowEntry e w).enterJournal w).path.ring
        (((s.afterControl (0x104 + 8 * e.val) data be .maint).withWindowEntry e w).enterJournal w).depot
      rw [Part.takeWindow_changed (p := s.afterControl (0x104 + 8 * e.val) data be .maint) hsame hold
        (congrArg _ (Part.reportOld_quiet _ (.inl hdisabled))), hjournal]
      exact ⟨rfl, Part.arbitrate_path _, Part.arbitrate_capture _, Part.arbitrate_sessions _, Part.arbitrate_cache _,
        Part.arbitrate_notices _⟩
  · exact ⟨_, rfl, State.windowCommit_judged hs hbe hw henabled (PathUnit.judgeEntry_outOfRange hout)⟩
  · exact ⟨_, rfl, State.windowCommit_judged hs hbe hw henabled
      (PathUnit.judgeEntry_overlapsControl hlow hhigh hkind hbase hbelow habove)⟩
  · exact ⟨_, rfl, State.windowCommit_judged hs hbe hw henabled
      (PathUnit.judgeEntry_duplicateKind hlow hhigh hkind hbase hclear hguarded hne hon hsame)⟩
  · have hold := (WindowEntry.extentKind_journal_iff _).mpr ⟨henabled, hkind⟩
    have hne := mt (WindowEntry.sameExtent_of henabled (hkind ▸ by decide)) hchanged
    exact ⟨_, rfl, State.windowCommit_busy hs hbe hw hallows ((Journal.windowBusy_leaves _ hne hold).mpr hbusy)⟩
  · have hold := (WindowEntry.extentKind_journal_iff _).mpr ⟨henabled, hkind⟩
    have hne := mt (WindowEntry.sameExtent_of henabled (hkind ▸ by decide)) hchanged
    have hnone : s.part.windowRefusal e w = none := by
      rw [Part.windowRefusal_allowed hallows, if_neg]
      rw [Journal.windowBusy_leaves _ hne hold]
      rintro (h | h | h)
      · exact h hhead
      · exact h hqueue
      · exact h hwriting
    refine ⟨_, rfl, State.becomes_of_eq (State.windowCommit_taken hs hbe hw hnone) ?_⟩
    rw [Part.takeWindow_leaves (p := s.afterControl (0x104 + 8 * e.val) data be .maint) hne hold hqueue,
      Part.withWindowEntry]
    rfl
  · have hquiet : extentKind s.part.path.windows[e].extent ≠ some .journal := fun h => by
      obtain ⟨hon, hjournal⟩ := (WindowEntry.extentKind_journal_iff _).mp h
      rcases hold with h | h
      · exact absurd (hon.symm.trans h) (by decide)
      · exact h hjournal
    exact ⟨_, rfl, State.windowCommit_busy hs hbe hw hallows ((Journal.windowBusy_enters _ hquiet
      ((WindowEntry.extentKind_journal_iff _).mpr ⟨henabled, hkind⟩)).mpr hbusy)⟩

end Sys2Proof.Machine
end

section
/-!
PROOF. What a taken window commit leaves behind: nothing but the entry where the extent stays, else what the owner of the
old window's kind empties (R6, R35, R52, R135).
-/

namespace Sys2Proof.Machine

open Sys2Proof

/-! ## The directory's report (R52) -/

theorem Identity.invalidate_all_cache (i : Identity) (n : Fin 32) :
    (i.invalidate fun _ => true).cache[n] = { i.cache[n] with valid := false } := by
  simp [Identity.invalidate]

theorem Depot.directoryTest_bay (d : Depot) (b : Fin 8) :
    (d.awaitsDirectory b → (d.faulted d.directoryTest).sessions.bays[b] = d.faultedBay b) ∧
      (¬ d.awaitsDirectory b → (d.faulted d.directoryTest).sessions.bays[b] = d.bay b) := by
  have hbay := d.faulted_bay d.directoryTest b
  rw [← d.directoryTest_iff b]
  exact ⟨fun h => hbay.trans (if_pos h), fun h => hbay.trans (if_neg h)⟩

/-- A preload ends where one is pending or in flight (R54). -/
theorem Identity.preloadEnds_iff (i : Identity) :
    (i.preload.isSome || i.fetchesPreload) = true ↔
      i.preload ≠ none ∨ ∃ f, i.fetch = some f ∧ f.purpose = .preload := by
  simp [Identity.fetchesPreload, Option.isSome_iff_ne_none, Option.any_eq_true]

/-! ## The commit's next state (R6) -/

section
variable {s : State} {e : Fin 8} {data : Word} {be : Enables} {w : WindowEntry} (hs : s.ready) (hbe : be ≠ 0)
  (hw : w = windowEntryOf s.part.path.staged[e] (mergeBytes s.part.path.windows[e].second data be))
  (hallows : s.part.path.allows e w)
include hs hbe hw hallows

theorem State.windowCommit_same (hsame : s.part.path.windows[e].extent = w.extent) :
    s.becomes ((s.afterControl (0x104 + 8 * e.val) data be .maint).withWindowEntry e w)
      (s.itemAccess (.windowCommit e) data be .maint) := by
  have hnone : s.part.windowRefusal e w = none := by
    rw [Part.windowRefusal_allowed hallows]
    exact if_neg (by rw [Journal.windowBusy, if_pos hsame]; decide)
  refine State.becomes_of_eq (State.windowCommit_taken hs hbe hw hnone) ?_
  exact Part.takeWindow_same (p := s.afterControl (0x104 + 8 * e.val) data be .maint) hsame

theorem State.windowCommit_writes {x : Part} (hne : s.part.path.windows[e].extent ≠ w.extent)
    (hold : extentKind s.part.path.windows[e].extent ≠ some .journal)
    (hidle : w.enabled = true → w.kind = 5 →
      s.part.depot.journal.head = s.part.depot.journal.tail ∧ s.part.depot.journal.writing = none)
    (hx : (((s.afterControl (0x104 + 8 * e.val) data be .maint).withWindowEntry e w).reportOld
      s.part.path.windows[e].extent).enterJournal w = x) :
    s.becomesOrWrites x (s.itemAccess (.windowCommit e) data be .maint) := by
  have htaken := State.windowCommit_taken hs hbe hw (s.part.windowRefusal_none e w hallows hold hidle)
  rw [Part.takeWindow_changed (p := s.afterControl (0x104 + 8 * e.val) data be .maint) hne hold hx] at htaken
  exact State.becomesOrWrites_of_eq htaken rfl

end

/-- Settles O25: the entry alone where the extent stays, else what the old window's owner leaves. -/
theorem changedWindowEmptiesItsUnit : Obligations.ChangedWindowEmptiesItsUnit := by
  rintro s e data be old w y x hs hbe rfl hw hallows rfl rfl
  refine ⟨fun hsame => ?_, fun hchanged hidle => ⟨fun hquiet => ?_, fun kind henabled hkind => ?_,
    fun henabled hkind => ?_⟩⟩
  · exact ⟨_, rfl, State.windowCommit_same hs hbe hw hallows (WindowEntry.extent_same hsame)⟩
  · have hold : extentKind s.part.path.windows[e].extent ≠ some .journal := fun h => by
      obtain ⟨hon, hjournal⟩ := (WindowEntry.extentKind_journal_iff _).mp h
      rcases hquiet with h | h | h
      · exact absurd (hon.symm.trans h) (by decide)
      · exact absurd (hjournal.symm.trans h) (by decide)
      · exact absurd (hjournal.symm.trans h) (by decide)
    by_cases hsame : s.part.path.windows[e].extent = w.extent
    · have hnone : ¬ (w.enabled = true ∧ w.kind = 5) := fun h =>
        hold (hsame ▸ (WindowEntry.extentKind_journal_iff w).mpr h)
      have heq := Part.enterJournal_none ((s.afterControl (0x104 + 8 * e.val) data be .maint).withWindowEntry e w) hnone
      have hbecomes := State.windowCommit_same hs hbe hw hallows hsame
      rw [← heq] at hbecomes
      exact ⟨_, rfl, State.becomesOrWrites_of_becomes hbecomes⟩
    · exact ⟨_, rfl, State.windowCommit_writes hs hbe hw hallows hsame hold hidle
        (congrArg _ (Part.reportOld_quiet _ hquiet))⟩
  · have hne : s.part.path.windows[e].extent ≠ w.extent := by
      refine mt (WindowEntry.sameExtent_of henabled fun h => ?_) hchanged
      rw [(windowKindOf_none _).mpr h] at hkind
      exact nomatch hkind
    have hold : extentKind s.part.path.windows[e].extent ≠ some .journal := by
      rw [WindowEntry.extentKind_eq, if_pos henabled, hkind]
      cases kind <;> decide
    exact ⟨_, rfl, State.windowCommit_writes hs hbe hw hallows hne hold hidle
      (congrArg _ (Part.reportOld_record _ kind henabled hkind))⟩
  · have hne : s.part.path.windows[e].extent ≠ w.extent :=
      mt (WindowEntry.sameExtent_of henabled (hkind ▸ by decide)) hchanged
    have hold : extentKind s.part.path.windows[e].extent ≠ some .journal := by
      rw [WindowEntry.extentKind_eq, if_pos henabled, hkind]
      decide
    refine ⟨_, (s.part.depot.faulted s.part.depot.directoryTest).sessions.bays,
      (s.part.depot.identity.invalidate fun _ => true).cache,
      decide (∃ b, s.part.depot.directoryTest b = true),
      s.part.depot.identity.preload.isSome || s.part.depot.identity.fetchesPreload,
      s.part.depot.identity.pinnedHit fun _ => true, s.part.depot.identity.fetch.any Fetch.reading, rfl,
      s.part.depot.directoryTest_bay, s.part.depot.identity.invalidate_all_cache, ?_,
      s.part.depot.identity.preloadEnds_iff, ?_, Option.any_eq_true _ _,
      State.windowCommit_writes hs hbe hw hallows hne hold hidle ?_⟩
    · rw [decide_eq_true_eq]
      exact exists_congr fun b => s.part.depot.directoryTest_iff b
    · simpa using s.part.depot.identity.pinnedHit_iff fun _ => true
    · have hreport := Depot.directoryChanged_eq s.part.depot
      rw [Part.reportOld_directory _ henabled hkind]
      simp only [decide_eq_true_eq]
      exact (congrArg (fun d => Part.enterJournal w
        { (s.afterControl (0x104 + 8 * e.val) data be .maint).withWindowEntry e w with depot := d }) hreport).trans rfl

end Sys2Proof.Machine
end

section
/-!
PROOF. The walker: what the start of a fetch takes, how a fetch ends without a vehicle, and where the claim for a slot
stands (R39, R45, R46, R48, R54).
-/

namespace Sys2Proof.Machine

open Sys2Proof

/-! ## The end of a fetch (R48, R54) -/

theorem Depot.withFetch_none (d : Depot) (h : d.identity.fetch = none) :
    (d.modifyIdentity fun i => { i with fetch := none }) = d := by
  have hidentity : ({ d.identity with fetch := none } : Identity) = d.identity := by rw [← h]
  rw [Depot.modifyIdentity, hidentity]

theorem Depot.endFetch_lookup (b : Fin 8) (f : Fetch) (result : FetchResult) (d : Depot) (h : f.purpose = .lookup b) :
    d.endFetch f result = (d.modifyIdentity fun i => { i with fetch := none }).endLookup b f result := by
  unfold Depot.endFetch
  rw [h]

theorem Depot.endFetch_preload (f : Fetch) (result : FetchResult) (d : Depot) (h : f.purpose = .preload) :
    d.endFetch f result = (d.modifyIdentity fun i => { i with fetch := none }).endPreload f result := by
  unfold Depot.endFetch
  rw [h]

/-- The result found a vehicle. -/
def FetchResult.isHit : FetchResult → Bool
  | .hit _ _ => true
  | _ => false

theorem Depot.endLookup_withdrawn (b : Fin 8) (f : Fetch) (result : FetchResult) (d : Depot)
    (hresult : result.isHit = false) (h : f.withdrawn = true) : d.endLookup b f result = d := by
  cases result with
  | hit slot x => cases hresult
  | _ => exact if_pos h

theorem Depot.endLookup_delivered (b : Fin 8) (f : Fetch) (result : FetchResult) (d : Depot)
    (hresult : result.isHit = false) (h : f.withdrawn = false) (hstate : (d.session b).state = .lookup)
    (htag : (d.session b).tag = f.tag) : d.endLookup b f result = d.enterHeld b result.reason := by
  cases result with
  | hit slot x => cases hresult
  | _ => exact (if_neg (Bool.eq_false_iff.mp h)).trans (d.deliver_held b f.tag _ hstate htag)

theorem Depot.endPreload_notFound (f : Fetch) (result : FetchResult) (d : Depot) (hresult : result.isHit = false) :
    d.endPreload f result = d.refusePreload .notFound := by
  cases result with
  | hit slot x => cases hresult
  | _ => rfl

/-! ## The start of a fetch (R39, R45) -/

theorem Depot.startFetch_work (window : Option (Nat × Nat)) (d : Depot) (purpose : Purpose) (t : Tag)
    (hfetch : d.identity.fetch = none) (hdiscarded : d.identity.discarded = false)
    (hwork : d.identity.nextWork = some (purpose, t)) :
    d.startFetch window =
      let d1 := match purpose with
        | .lookup _ => d.modifyIdentity fun i => { i with lookups := i.lookups.tail }
        | .preload => d
      match window with
      | some (base, size) => d1.modifyIdentity fun i => { i with fetch := some (newFetch purpose t base (size / 16)) }
      | none => d1.endFetch (newFetch purpose t 0 0) .fault := by
  unfold Depot.startFetch
  rw [hfetch, hdiscarded, hwork]
  rfl

theorem newFetch_eq (purpose : Purpose) (t : Tag) (base slotcount : Nat) :
    newFetch purpose t base slotcount =
      { purpose := purpose, tag := t, base := base, slotcount := slotcount
        home := ((t.toNat % 65536) ^^^ (t.toNat / 65536 % 65536) ^^^ (t.toNat / 4294967296)) % slotcount } := by
  norm_num [newFetch, homeSlot]

theorem Depot.startFetch_lookup (d : Depot) (l : Lookup) (rest : List Lookup) (base size : Nat)
    (hfetch : d.identity.fetch = none) (hdiscarded : d.identity.discarded = false)
    (hlookups : d.identity.lookups = l :: rest) :
    d.startFetch (some (base, size)) = d.modifyIdentity fun i =>
      { i with lookups := rest, fetch := some (newFetch (.lookup l.bay) l.tag base (size / 16)) } := by
  rw [d.startFetch_work _ (.lookup l.bay) l.tag hfetch hdiscarded (by rw [Identity.nextWork, hlookups])]
  simp only [Depot.modifyIdentity, hlookups, List.tail_cons]

theorem Depot.startFetch_lookup_fault (d : Depot) (l : Lookup) (rest : List Lookup)
    (hfetch : d.identity.fetch = none) (hdiscarded : d.identity.discarded = false)
    (hlookups : d.identity.lookups = l :: rest) (hstate : (d.session l.bay).state = .lookup)
    (htag : (d.session l.bay).tag = l.tag) :
    d.startFetch none = (d.modifyIdentity fun i => { i with lookups := rest }).enterHeld l.bay .directoryFault := by
  rw [d.startFetch_work _ (.lookup l.bay) l.tag hfetch hdiscarded (by rw [Identity.nextWork, hlookups])]
  simp only
  rw [Depot.endFetch_lookup l.bay _ _ _ rfl, Depot.withFetch_none _ (by exact hfetch),
    Depot.endLookup_delivered l.bay _ _ _ rfl rfl (by exact hstate) (by exact htag)]
  simp only [Depot.modifyIdentity, hlookups, List.tail_cons, FetchResult.reason]

theorem Depot.startFetch_preload (d : Depot) (pl : Preload) (base size : Nat)
    (hfetch : d.identity.fetch = none) (hdiscarded : d.identity.discarded = false) (hlookups : d.identity.lookups = [])
    (hpreload : d.identity.preload = some pl) :
    d.startFetch (some (base, size)) = d.modifyIdentity fun i =>
      { i with fetch := some (newFetch .preload pl.tag base (size / 16)) } :=
  d.startFetch_work _ .preload pl.tag hfetch hdiscarded (by rw [Identity.nextWork, hlookups, hpreload])

theorem Depot.startFetch_preload_notFound (d : Depot) (pl : Preload) (hfetch : d.identity.fetch = none)
    (hdiscarded : d.identity.discarded = false) (hlookups : d.identity.lookups = [])
    (hpreload : d.identity.preload = some pl) : d.startFetch none = d.refusePreload .notFound := by
  rw [d.startFetch_work _ .preload pl.tag hfetch hdiscarded (by rw [Identity.nextWork, hlookups, hpreload])]
  simp only
  rw [Depot.endFetch_preload _ _ _ rfl, Depot.withFetch_none _ hfetch, Depot.endPreload_notFound _ _ _ rfl]

theorem State.fetchStart_becomes (s : State) {d : Depot} {window : Option (Nat × Nat)} {x : Part}
    (hdeferred : s.part.path.deferred = [])
    (hwindow : s.part.path.windowOf .directory = window) (h : s.part.depot.startFetch window = d)
    (hx : { s.part.begin with depot := d } = x) : s.becomes x (s.event Part.fetchStart) := by
  subst hwindow
  have hstart : s.part.begin.fetchStart = { s.part.begin with depot := d } :=
    congrArg (fun d => ({ s.part.begin with depot := d } : Part)) h
  exact State.becomes_of_eq (s.event_eq Part.fetchStart _ hstart hdeferred) hx

/-! ## The walker's claim (R46) -/

theorem PathUnit.not_holdsSlot (u : PathUnit) (a : Nat) :
    (!u.holdsSlot a) = decide (∀ e ∈ u.posted, ¬ (a ≤ e.addr.toNat ∧ e.addr.toNat < a + 16)) := by
  rw [Bool.eq_iff_iff]
  simp [PathUnit.holdsSlot]

/-- Settles O21: the walker's start by its work and the window in force, and the claim by the posted entries. -/
theorem walkerStartsAFetchAndClaimsItsSlot : Obligations.WalkerStartsAFetchAndClaimsItsSlot := by
  refine ⟨fun s l rest hdeferred hfetch hdiscarded hlookups =>
      ⟨fun base size hwindow => ?_, fun hwindow hstate htag => ?_⟩,
    fun s pl x hdeferred hfetch hdiscarded hlookups hpreload hx => ⟨fun base size hwindow => ?_, fun hwindow => ?_⟩,
    fun s f g hdeferred hgrant hfetch hreading => ?_⟩
  · refine ⟨_, rfl, s.fetchStart_becomes hdeferred hwindow
      (s.part.depot.startFetch_lookup l rest base size hfetch hdiscarded hlookups) ?_⟩
    rw [newFetch_eq]
    rfl
  · exact ⟨_, rfl, s.fetchStart_becomes hdeferred hwindow
      (s.part.depot.startFetch_lookup_fault l rest hfetch hdiscarded hlookups hstate htag) rfl⟩
  · refine ⟨_, rfl, s.fetchStart_becomes hdeferred hwindow
      (s.part.depot.startFetch_preload pl base size hfetch hdiscarded hlookups hpreload) ?_⟩
    rw [newFetch_eq, hx]
    rfl
  · refine ⟨_, rfl, s.fetchStart_becomes hdeferred hwindow
      (s.part.depot.startFetch_preload_notFound pl hfetch hdiscarded hlookups hpreload) ?_⟩
    rw [hx]
    rfl
  · have hevent : s.event Part.settleWalker = { s with part := s.part.begin.settleWalker } := by
      rw [s.event_eq Part.settleWalker _ rfl hdeferred, Part.arbitrate_busy _ (by
        rw [Part.settleWalker_store]
        exact hgrant ▸ (Option.some_ne_none g)), Part.settleWalker_settleWalker]
    refine ⟨_, congrArg Host.Outcome.next hevent, rfl, rfl, ?_⟩
    have hclaim : s.part.begin.depot.identity.fetch.map
        (fun f => { f with claimed := !f.reading && !s.part.begin.path.holdsSlot f.slotAddr }) =
        some { f with claimed := !s.part.path.holdsSlot f.slotAddr } := by
      show s.part.depot.identity.fetch.map _ = _
      rw [hfetch, Option.map_some, hreading]
      rfl
    have hslot : f.slotAddr = f.base + 16 * ((f.home + f.position) % f.slotcount) := rfl
    simp only [Part.settleWalker, Depot.modifyIdentity]
    rw [hclaim, PathUnit.not_holdsSlot, hslot]
    rfl

end Sys2Proof.Machine
end

section
/-!
PROOF. What a completed slot read does to the fetch: the cases of the walker's judgement, the end of a lookup fetch with
and without a vehicle, and the report of the words that fail (R42, R47, R48, R50, R55, R177, R180).
-/

namespace Sys2Proof.Machine

open Sys2Proof

/-! ## The walker's judgement of a slot (R47, R50) -/

theorem Depot.restartFetch_busy (f : Fetch) (d : Depot) (h : 3 ≤ f.restarts) :
    d.restartFetch f = d.endFetch { f with restarts := f.restarts + 1 } .busy := if_pos h

theorem Depot.restartFetch_home (f : Fetch) (d : Depot) (h : f.restarts < 3) :
    d.restartFetch f = d.modifyIdentity fun i => { i with fetch := some f.restarted } := if_neg (Nat.not_le.mpr h)

theorem Depot.slotRead_failed (f : Fetch) (x : DirectorySlot) (d : Depot) :
    d.slotRead f true x = d.endFetch f .fault := rfl

theorem Depot.slotRead_restart (f : Fetch) (x : DirectorySlot) (d : Depot) (h : f.restartPending = true) :
    d.slotRead f false x = d.restartFetch f := if_pos h

section
variable {f : Fetch} {x : DirectorySlot} (d : Depot) (hrestart : f.restartPending = false)
include hrestart

theorem Depot.slotRead_hit (hvalid : x.valid = true) (htag : x.tag = f.tag) :
    d.slotRead f false x = d.endFetch f (.hit f.slot x) := by
  simp [Depot.slotRead, hrestart, hvalid, htag]

theorem Depot.slotRead_miss (h : x.valid = false ∨ (x.tag ≠ f.tag ∧ 3 ≤ f.position)) :
    d.slotRead f false x = d.endFetch f .miss := by
  rcases h with hvalid | ⟨htag, hposition⟩
  · simp [Depot.slotRead, hrestart, hvalid]
  · simp [Depot.slotRead, hrestart, htag, hposition]

theorem Depot.slotRead_next (hvalid : x.valid = true) (htag : x.tag ≠ f.tag) (hposition : f.position < 3) :
    d.slotRead f false x = d.modifyIdentity fun i => { i with fetch := some f.advanced } := by
  simp [Depot.slotRead, hrestart, hvalid, htag, hposition]

end

/-! ## The end of a lookup fetch (R48) -/

/-- What the end of a lookup fetch for bay `b` leaves alone. -/
structure Depot.LookupFrame (b : Fin 8) (f : Fetch) (d e : Depot) : Prop where
  bays : ∀ c : Fin 8, c ≠ b → e.bay c = d.bay c
  withdrawn : f.withdrawn = true → e.sessions = d.sessions ∧ e.charge = d.charge

theorem Depot.LookupFrame.of_identity (b : Fin 8) (f : Fetch) (d : Depot) (g : Identity → Identity) :
    Depot.LookupFrame b f d (d.modifyIdentity g) :=
  ⟨fun _ _ => rfl, fun _ => ⟨rfl, rfl⟩⟩

/-- What a lookup fetch that found no vehicle leaves. -/
structure Depot.LookupMissed (b : Fin 8) (f : Fetch) (reason : HoldReason) (d e : Depot) : Prop
    extends Depot.LookupFrame b f d e where
  identity : e.identity = { d.identity with fetch := none }
  held : f.withdrawn = false → (e.session b).state = .held ∧ (e.session b).hold = some reason
  parity : d.notices.isPending .storeParity = true → e.notices.isPending .storeParity = true

theorem Depot.enterHeld_bay_ne (b c : Fin 8) (r : HoldReason) (d : Depot) (h : c ≠ b) :
    (d.enterHeld b r).bay c = d.bay c := by
  rw [d.enterHeld_eq]
  exact (d.bay_set b c _).trans (if_neg h)

theorem Depot.enterHeld_session (b : Fin 8) (r : HoldReason) (d : Depot) :
    (d.enterHeld b r).session b = { d.session b with state := .held, hold := some r } := by
  rw [d.enterHeld_eq]
  exact congrArg Bay.session ((d.bay_set b b _).trans (if_pos rfl))

theorem Depot.endFetch_lookup_missed {b : Fin 8} {f : Fetch} {result : FetchResult} (d : Depot)
    (hpurpose : f.purpose = .lookup b) (hresult : result.isHit = false)
    (hwaits : f.withdrawn = false → (d.session b).state = .lookup ∧ (d.session b).tag = f.tag) :
    Depot.LookupMissed b f result.reason d (d.endFetch f result) := by
  rw [Depot.endFetch_lookup b f result d hpurpose]
  cases hwithdrawn : f.withdrawn with
  | true =>
    rw [Depot.endLookup_withdrawn b f result _ hresult hwithdrawn]
    exact ⟨⟨fun _ _ => rfl, fun _ => ⟨rfl, rfl⟩⟩, rfl, fun h => absurd (hwithdrawn.symm.trans h) (by decide), id⟩
  | false =>
    obtain ⟨hstate, htag⟩ := hwaits hwithdrawn
    rw [Depot.endLookup_delivered b f result (d.modifyIdentity _) hresult hwithdrawn hstate htag]
    refine ⟨⟨fun c hc => Depot.enterHeld_bay_ne b c _ _ hc, fun h => absurd (hwithdrawn.symm.trans h) (by decide)⟩, rfl,
      fun _ => ?_, fun h => ?_⟩
    · rw [Depot.enterHeld_session]
      exact ⟨rfl, rfl⟩
    · have hbit : BitVec.getLsbD (d.notices.pending ||| 8#16) 12 = true := by
        rw [BitVec.getLsbD_or, show d.notices.pending.getLsbD 12 = true from h, Bool.true_or]
      exact hbit

/-- What a lookup fetch that found a vehicle leaves: the filled cache, and the evaluated outcome at its bay. -/
structure Depot.LookupHit (b : Fin 8) (f : Fetch) (slot : Nat) (x : DirectorySlot) (d e : Depot) : Prop
    extends Depot.LookupFrame b f d e where
  identity : e.identity = Identity.fill f.tag slot x { d.identity with fetch := none }
  outcome : f.withdrawn = false → ∀ hold : Option HoldReason, hold = d.holdOf b f.tag x.barred x.account →
    e.bay b =
        { d.bay b with
          session := { d.session b with
            state := if hold = none then .admitted else .held
            hold := hold
            account := some ⟨x.account, x.cls, (d.account x.account).valid⟩ }
          hold := if hold = none then none else some (2 * d.sessions.holdLimit)
          silence := if hold = none then some (2 * d.sessions.silenceLimit) else (d.bay b).silence } ∧
      (hold ≠ none → e.notices.isPending .holdRaised = true) ∧
      ∀ y : Fin 64, e.account y =
        { d.account y with
          openCount := (d.account y).openCount +
            if y = x.account ∧ (d.account y).valid = true then 1 else 0 }

theorem Depot.endLookup_hit_withdrawn (b : Fin 8) (f : Fetch) (slot : Nat) (x : DirectorySlot) (d : Depot)
    (h : f.withdrawn = true) : d.endLookup b f (.hit slot x) = d.modifyIdentity (Identity.fill f.tag slot x) := if_pos h

theorem Depot.endLookup_hit_delivered (b : Fin 8) (f : Fetch) (slot : Nat) (x : DirectorySlot) (d : Depot)
    (h : f.withdrawn = false) (hstate : (d.session b).state = .lookup) (htag : (d.session b).tag = f.tag) :
    d.endLookup b f (.hit slot x) =
      (d.modifyIdentity (Identity.fill f.tag slot x)).takeVerdict b (some (x.account, x.cls))
        ((d.modifyIdentity (Identity.fill f.tag slot x)).evaluate b f.tag x.barred x.account) :=
  (if_neg (Bool.eq_false_iff.mp h)).trans (if_pos ⟨hstate, htag⟩)

theorem Depot.endFetch_lookup_hit {b : Fin 8} {f : Fetch} (slot : Nat) (x : DirectorySlot) (d : Depot)
    (hpurpose : f.purpose = .lookup b)
    (hwaits : f.withdrawn = false → (d.session b).state = .lookup ∧ (d.session b).tag = f.tag) :
    Depot.LookupHit b f slot x d (d.endFetch f (.hit slot x)) := by
  rw [Depot.endFetch_lookup b f _ d hpurpose]
  cases hwithdrawn : f.withdrawn with
  | true =>
    rw [Depot.endLookup_hit_withdrawn b f slot x _ hwithdrawn]
    exact ⟨⟨fun _ _ => rfl, fun _ => ⟨rfl, rfl⟩⟩, rfl, fun h => absurd (hwithdrawn.symm.trans h) (by decide)⟩
  | false =>
    obtain ⟨hstate, htag⟩ := hwaits hwithdrawn
    rw [Depot.endLookup_hit_delivered b f slot x (d.modifyIdentity _) hwithdrawn hstate htag]
    obtain ⟨hbay, hothers, haccounts, hidentity, hraised⟩ := Depot.takeVerdict_carried b x.account x.cls _ _ _
      (Depot.evaluate_eq ((d.modifyIdentity fun i => { i with fetch := none }).modifyIdentity
        (Identity.fill f.tag slot x)) b f.tag x.barred x.account)
    refine ⟨⟨hothers, fun h => absurd (hwithdrawn.symm.trans h) (by decide)⟩, hidentity, fun _ hold hhold => ?_⟩
    subst hhold
    exact ⟨hbay, hraised, haccounts⟩

/-- Whatever the slot holds, only bay `b` can change, and no bay where the fetch is withdrawn. -/
theorem Depot.slotRead_lookupFrame {b : Fin 8} {f : Fetch} (failed : Bool) (x : DirectorySlot) (d : Depot)
    (hpurpose : f.purpose = .lookup b)
    (hwaits : f.withdrawn = false → (d.session b).state = .lookup ∧ (d.session b).tag = f.tag) :
    Depot.LookupFrame b f d (d.slotRead f failed x) := by
  unfold Depot.slotRead
  split
  · exact (d.endFetch_lookup_missed (result := .fault) hpurpose rfl hwaits).toLookupFrame
  split
  · unfold Depot.restartFetch
    split
    · have hmissed := (d.endFetch_lookup_missed (f := { f with restarts := f.restarts + 1 }) (result := .busy)
        hpurpose rfl hwaits).toLookupFrame
      exact ⟨hmissed.bays, hmissed.withdrawn⟩
    · exact Depot.LookupFrame.of_identity b f d _
  split
  · exact (d.endFetch_lookup_hit f.slot x hpurpose hwaits).toLookupFrame
  split
  · exact (d.endFetch_lookup_missed (result := .miss) hpurpose rfl hwaits).toLookupFrame
  · exact Depot.LookupFrame.of_identity b f d _

/-! ## The fetch after an arbitration -/

theorem Part.arbitrate_fetch_quiet (p : Part) :
    p.arbitrate.depot.identity.fetch.map Fetch.quiet = p.depot.identity.fetch.map Fetch.quiet :=
  p.arbitrate_portOnly.2

theorem Part.arbitrate_fetch_none {p : Part} (h : p.depot.identity.fetch = none) :
    p.arbitrate.depot.identity.fetch = none := by
  have hquiet := p.arbitrate_fetch_quiet
  rw [h] at hquiet
  exact Option.map_eq_none_iff.mp hquiet

/-- A fetch that ended without a vehicle, after the arbitration of its event. -/
theorem Part.arbitrate_missed {b : Fin 8} {f : Fetch} {reason : HoldReason} {d : Depot} {p : Part}
    (h : Depot.LookupMissed b f reason d p.depot) :
    p.arbitrate.depot.identity.fetch = none ∧ p.arbitrate.depot.identity.cache = d.identity.cache ∧
      (f.withdrawn = false → (p.arbitrate.depot.session b).state = .held ∧
        (p.arbitrate.depot.session b).hold = some reason) := by
  rw [Part.arbitrate_cache, Part.arbitrate_session, h.identity]
  exact ⟨Part.arbitrate_fetch_none (congrArg Identity.fetch h.identity), rfl, h.held⟩

/-! ## The command (R45, R47, R177) -/

theorem Memory.slotFails_false {m : Memory} {a : Nat} (h : ∀ i : Fin 4, m.wordFails (a / 4 + i.val) = none) :
    m.slotFails a = false :=
  Bool.eq_false_iff.mpr fun hfails => (m.slotFails_iff a).mp hfails |>.elim fun i hi => hi (h i)

/-- The slot read that returns to no fetch ends the wait for it alone. -/
theorem Depot.slotReturns_discarded (failed : Bool) (x : DirectorySlot) (d : Depot)
    (h : d.identity.fetch = none ∨ ∃ f, d.identity.fetch = some f ∧ f.reading = false) :
    d.slotReturns failed x = d.modifyIdentity fun i => { i with discarded := false } := by
  unfold Depot.slotReturns
  rcases h with h | ⟨f, h, hreading⟩
  · rw [h]
  · rw [h]
    exact if_neg (Bool.eq_false_iff.mp hreading)

theorem Part.reportSlot_identity (m : Memory) (a : Nat) (p : Part) :
    (p.reportSlot m a).depot.identity = p.depot.identity := by
  rw [(p.reportSlot_frame m a).1]

theorem Part.reportSlot_path (m : Memory) (a : Nat) (p : Part) : (p.reportSlot m a).path = p.path := by
  rw [(p.reportSlot_frame m a).1]

theorem State.slotReadComplete_reported (s : State) (a : Nat) (u : SlotUpset) (m : Memory)
    (hdeferred : s.part.path.deferred = []) (hgrant : s.part.store.grant = some (.walker a))
    (hm : m = s.mem.loseSlot a u) :
    s.storeEvent (Part.slotDone u) =
      { s with
        part := ((s.part.begin.reportSlot m a).endGrant.modifyDepot (Depot.slotReturns (m.slotFails a)
          (directorySlotOf (m.readWord (a / 4)) (m.readWord (a / 4 + 1))))).arbitrate
        mem := m } := by
  subst hm
  refine State.storeEvent_eq s _ _ _ ?_ ?_
  · unfold Part.slotDone
    rw [show s.part.begin.store.grant = some (.walker a) from hgrant]
  · exact (congrArg PathUnit.deferred (Part.reportSlot_path _ _ _)).trans hdeferred

/-- The depot with its notices changed. -/
def Depot.withNotices (n : Notices) (d : Depot) : Depot := { d with notices := n }

/-- The slot read that returns to its fetch, in one equation: the report's notices `n`, then the walker's judgement. -/
theorem State.slotReadComplete_walks (s : State) (a : Nat) (u : SlotUpset) (f : Fetch) (m : Memory)
    (hdeferred : s.part.path.deferred = []) (hgrant : s.part.store.grant = some (.walker a))
    (hfetch : s.part.depot.identity.fetch = some f) (hreading : f.reading = true) (hm : m = s.mem.loseSlot a u) :
    ∃ (t : State) (n : Notices), exec (.slotReadComplete u) s = .next t ∧ t.mem = m ∧
      t.part.path = { s.part.path with done := [] } ∧
      (∃ q : Part, t.part = ({ q with
        depot := (s.part.depot.withNotices n).slotRead f (m.slotFails a)
          (directorySlotOf (m.readWord (a / 4)) (m.readWord (a / 4 + 1))) } : Part).arbitrate) ∧
      n.refusal = s.part.depot.notices.refusal ∧ (m.slotFails a = false → n = s.part.depot.notices) ∧
      (m.slotFails a = true → n.isPending .storeParity = true) := by
  obtain ⟨R, hexec, hpath, hdepot, hsame, hparity⟩ :=
    s.slotReadComplete_eq a u f m hdeferred hgrant hfetch hreading hm
  have hnotices : R.depot = s.part.depot.withNotices R.depot.notices := by
    rw [hdepot]
    rfl
  refine ⟨_, R.depot.notices, hexec, rfl, (Part.arbitrate_path _).trans hpath, ⟨R, by rw [← hnotices]⟩, ?_,
    fun h => congrArg Depot.notices (hsame h), hparity⟩
  rw [hdepot]

/-- Settles O22: the report of a slot read, and the walker's judgement of a lookup's slot case by case. -/
theorem slotReadEndsOrMovesTheFetch : Obligations.SlotReadEndsOrMovesTheFetch := by
  refine ⟨fun s a u m hdeferred hgrant hm => ?_,
    fun s a u f b m w0 w1 hdeferred hgrant hfetch hreading hpurpose hwaits hm hw0 hw1 => ?_⟩
  · refine ⟨_, s.part.begin.reportSlot m a,
      congrArg Host.Outcome.next (s.slotReadComplete_reported a u m hdeferred hgrant hm),
      Part.slotReported_reportSlot m a _, Part.arbitrate_latch _, fun hnone => ⟨rfl, rfl, ?_⟩⟩
    have hidentity := s.part.begin.reportSlot_identity m a
    have hdiscarded : (s.part.begin.reportSlot m a).endGrant.modifyDepot (Depot.slotReturns (m.slotFails a)
        (directorySlotOf (m.readWord (a / 4)) (m.readWord (a / 4 + 1)))) =
        ((s.part.begin.reportSlot m a).withIdentity { s.part.depot.identity with discarded := false }).endGrant := by
      rw [Part.modifyDepot, Depot.slotReturns_discarded _ _ _ (by
        rw [show (s.part.begin.reportSlot m a).endGrant.depot.identity = s.part.depot.identity from hidentity]
        exact hnone)]
      simp only [Part.withIdentity, Part.endGrant, Depot.modifyIdentity, hidentity]
      rfl
    rw [hdiscarded]
    exact (Part.endGrant_portOnly _).trans (Part.arbitrate_portOnly _)
  · obtain ⟨t, n, hexec, hmem, hpath, ⟨q, hpart⟩, hrefusal, hsame, hparity⟩ :=
      s.slotReadComplete_walks a u f m hdeferred hgrant hfetch hreading hm
    generalize hx : directorySlotOf (m.readWord (a / 4)) (m.readWord (a / 4 + 1)) = x at hpart
    have hvalid : x.valid = w1.getLsbD 24 := by rw [← hx, hw1]; rfl
    have htag : x.tag = tagOf w0 (bits w1 0 16) := by rw [← hx, hw0, hw1]; rfl
    have hbarred : x.barred = w1.getLsbD 25 := by rw [← hx, hw1]; rfl
    have haccount : x.account = Fin.ofNat 64 (bits w1 16 6) := by rw [← hx, hw1]; rfl
    have hcls : x.cls = Fin.ofNat 4 (bits w1 22 2) := by rw [← hx, hw1]; rfl
    rw [← hvalid, ← htag, ← hbarred, ← haccount, ← hcls]
    have hframe := (s.part.depot.withNotices n).slotRead_lookupFrame (m.slotFails a) x hpurpose hwaits
    refine ⟨t, hexec, hmem, hpath, fun c hc => ?_, fun hwithdrawn => ?_, fun hfails => ?_, fun hpass => ?_⟩
    · rw [hpart, Part.arbitrate_bay]
      exact hframe.bays c hc
    · rw [hpart, Part.arbitrate_sessions, Part.arbitrate_charge]
      exact hframe.withdrawn hwithdrawn
    · have hfailed := (m.slotFails_iff a).mpr hfails
      have hmissed := (s.part.depot.withNotices n).endFetch_lookup_missed (result := .fault) hpurpose rfl hwaits
      rw [hfailed, Depot.slotRead_failed] at hpart
      obtain ⟨hnone, hcache, hheld⟩ := Part.arbitrate_missed (p := { q with depot := _ }) hmissed
      rw [hpart]
      exact ⟨hnone, hcache, (congrArg (Notices.isPending .storeParity) (Part.arbitrate_notices _)).trans
        (hmissed.parity (hparity hfailed)), hheld⟩
    · rw [Memory.slotFails_false hpass] at hpart
      refine ⟨fun hrestart => ?_, fun hrestart => ⟨fun hmiss => ?_, fun hon hother hposition => ?_,
        fun hon hfound y hy => ?_⟩⟩
      · rw [Depot.slotRead_restart _ _ _ hrestart] at hpart
        by_cases hbusy : 3 ≤ f.restarts
        · have hmissed := (s.part.depot.withNotices n).endFetch_lookup_missed (result := .busy)
            (f := { f with restarts := f.restarts + 1 }) hpurpose rfl hwaits
          rw [Depot.restartFetch_busy _ _ hbusy] at hpart
          obtain ⟨hnone, hcache, hheld⟩ := Part.arbitrate_missed (p := { q with depot := _ }) hmissed
          rw [hpart]
          exact ⟨hcache, fun h => absurd h (Nat.not_lt.mpr hbusy), fun _ => ⟨hnone, hheld⟩⟩
        · rw [Depot.restartFetch_home _ _ (Nat.not_le.mp hbusy)] at hpart
          rw [hpart, Part.arbitrate_cache, Part.arbitrate_sessions]
          exact ⟨rfl, fun _ => ⟨Part.arbitrate_fetch_quiet _, rfl⟩, fun h => absurd h hbusy⟩
      · have hmissed := (s.part.depot.withNotices n).endFetch_lookup_missed (result := .miss) hpurpose rfl hwaits
        rw [Depot.slotRead_miss _ hrestart hmiss] at hpart
        obtain ⟨hnone, hcache, hheld⟩ := Part.arbitrate_missed (p := { q with depot := _ }) hmissed
        rw [hpart]
        exact ⟨hnone, hcache, hheld⟩
      · rw [Depot.slotRead_next _ hrestart hon hother hposition] at hpart
        rw [hpart, Part.arbitrate_cache, Part.arbitrate_sessions]
        exact ⟨Part.arbitrate_fetch_quiet _, rfl, rfl⟩
      · have hhit := (s.part.depot.withNotices n).endFetch_lookup_hit f.slot x hpurpose hwaits
        obtain ⟨habsent, hpresent, hfetch'⟩ :=
          Identity.fill_spec { s.part.depot.identity with fetch := none } f.tag f.slot x
        rw [Depot.slotRead_hit _ hrestart hon hfound] at hpart
        subst hy
        rw [hpart, Part.arbitrate_cache, Part.arbitrate_victim, Part.arbitrate_bay, Part.arbitrate_notices]
        refine ⟨Part.arbitrate_fetch_none ((congrArg Identity.fetch hhit.identity).trans hfetch'), fun h v hv => ?_,
          fun k hok hv ht => ?_, fun hwithdrawn hold hhold => ?_⟩
        · obtain ⟨hcache, hvictim⟩ := habsent h v hv
          exact ⟨(congrArg Identity.cache hhit.identity).trans hcache,
            (congrArg Identity.victim hhit.identity).trans hvictim⟩
        · obtain ⟨hcache, hvictim⟩ := hpresent k hok hv ht
          exact ⟨(congrArg Identity.cache hhit.identity).trans hcache,
            (congrArg Identity.victim hhit.identity).trans hvictim⟩
        · obtain ⟨hbay, hraised, haccounts⟩ := hhit.outcome hwithdrawn hold hhold
          exact ⟨hbay, hraised, fun y => (Part.arbitrate_account _ y).trans (haccounts y)⟩

end Sys2Proof.Machine
end

section
/-!
PROOF. What a completed slot read does to the preload's fetch: the pinned fill, the refusals, and what no case touches
(R47, R50, R54).
-/

namespace Sys2Proof.Machine

open Sys2Proof

/-! ## The pinned fill (R54) -/

theorem Identity.fillPinned_cache (i : Identity) (v n : Fin 32) (t : Tag) (slot : Nat) (x : DirectorySlot) :
    (i.fillPinned v.val t slot x).cache[n] =
      if n = v then cacheEntryOf t slot x
      else { i.cache[n] with valid := i.cache[n].valid && i.cache[n].tag != t } := by
  have hindex : Fin.ofNat 32 v.val = v := Fin.ofNat_val_eq_self v
  simp only [Identity.fillPinned, hindex, modifyAt]
  by_cases hn : n = v
  · subst hn
    rw [if_pos rfl]
    exact Vector.getElem_set_self n.isLt
  · rw [if_neg hn]
    exact (Vector.getElem_set_ne v.isLt n.isLt fun hval => hn (Fin.ext hval.symm)).trans
      (i.invalidate_get (fun e => e.tag == t) n)

/-! ## The end of the preload's fetch (R54) -/

/-- What the preload's fetch leaves alone, however it goes on. -/
structure Depot.PreloadFrame (d e : Depot) : Prop where
  sessions : e.sessions = d.sessions
  charge : e.charge = d.charge
  victim : e.identity.victim = d.identity.victim
  lookups : e.identity.lookups = d.identity.lookups

theorem Depot.PreloadFrame.refusePreload (reason : RefusalReason) (d : Depot) :
    Depot.PreloadFrame d (d.refusePreload reason) := ⟨rfl, rfl, rfl, rfl⟩

theorem Depot.endPreload_frame (f : Fetch) (result : FetchResult) (d : Depot) :
    Depot.PreloadFrame d (d.endPreload f result) := by
  unfold Depot.endPreload
  split
  · split
    · exact ⟨rfl, rfl, rfl, rfl⟩
    · exact Depot.PreloadFrame.refusePreload _ d
  · exact Depot.PreloadFrame.refusePreload _ d

theorem Depot.endFetch_preload_frame {f : Fetch} (result : FetchResult) (d : Depot) (h : f.purpose = .preload) :
    Depot.PreloadFrame d (d.endFetch f result) := by
  rw [Depot.endFetch_preload f result d h]
  obtain ⟨hsessions, hcharge, hvictim, hlookups⟩ :=
    (d.modifyIdentity fun i => { i with fetch := none }).endPreload_frame f result
  exact ⟨hsessions, hcharge, hvictim, hlookups⟩

theorem Depot.restartFetch_preload_frame {f : Fetch} (d : Depot) (h : f.purpose = .preload) :
    Depot.PreloadFrame d (d.restartFetch f) := by
  unfold Depot.restartFetch
  split
  · exact Depot.endFetch_preload_frame .busy d h
  · exact ⟨rfl, rfl, rfl, rfl⟩

theorem Depot.slotRead_preloadFrame {f : Fetch} (failed : Bool) (x : DirectorySlot) (d : Depot)
    (h : f.purpose = .preload) : Depot.PreloadFrame d (d.slotRead f failed x) := by
  unfold Depot.slotRead
  split
  · exact Depot.endFetch_preload_frame .fault d h
  split
  · exact Depot.restartFetch_preload_frame d h
  split
  · exact Depot.endFetch_preload_frame _ d h
  split
  · exact Depot.endFetch_preload_frame .miss d h
  · exact ⟨rfl, rfl, rfl, rfl⟩

theorem Depot.endFetch_preload_notFound {f : Fetch} {result : FetchResult} (d : Depot) (h : f.purpose = .preload)
    (hresult : result.isHit = false) :
    d.endFetch f result = (d.modifyIdentity fun i => { i with fetch := none }).refusePreload .notFound := by
  rw [Depot.endFetch_preload f result d h, Depot.endPreload_notFound f result _ hresult]

theorem Depot.endFetch_preload_filled {f : Fetch} {pl : Preload} (slot : Nat) (x : DirectorySlot) (d : Depot)
    (h : f.purpose = .preload) (hpreload : d.identity.preload = some pl) (hindex : pl.index < d.identity.pinCount) :
    d.endFetch f (.hit slot x) = d.modifyIdentity fun i =>
      { Identity.fillPinned pl.index f.tag slot x { i with fetch := none } with preload := none } := by
  rw [Depot.endFetch_preload f _ d h]
  unfold Depot.endPreload
  rw [show (d.modifyIdentity fun i => { i with fetch := none }).identity.preload = some pl from hpreload]
  exact if_pos hindex

theorem Depot.endFetch_preload_outOfRange {f : Fetch} {pl : Preload} (slot : Nat) (x : DirectorySlot) (d : Depot)
    (h : f.purpose = .preload) (hpreload : d.identity.preload = some pl) (hindex : d.identity.pinCount ≤ pl.index) :
    d.endFetch f (.hit slot x) =
      (d.modifyIdentity fun i => { i with fetch := none }).refusePreload .outOfRange := by
  rw [Depot.endFetch_preload f _ d h]
  unfold Depot.endPreload
  rw [show (d.modifyIdentity fun i => { i with fetch := none }).identity.preload = some pl from hpreload]
  exact if_neg (Nat.not_lt.mpr hindex)

/-- The slot is judged to end the preload's fetch without its vehicle. -/
theorem Depot.slotRead_preload_notFound {f : Fetch} (failed : Bool) (x : DirectorySlot) (d : Depot)
    (hpurpose : f.purpose = .preload)
    (h : failed = true ∨ (f.restartPending = true ∧ 3 ≤ f.restarts) ∨
      (f.restartPending = false ∧ (x.valid = false ∨ (x.tag ≠ f.tag ∧ 3 ≤ f.position)))) :
    d.slotRead f failed x = (d.modifyIdentity fun i => { i with fetch := none }).refusePreload .notFound := by
  cases failed with
  | true => exact Depot.endFetch_preload_notFound (result := .fault) d hpurpose rfl
  | false =>
    rcases h with h | ⟨hrestart, hbusy⟩ | ⟨hrestart, hmiss⟩
    · cases h
    · rw [Depot.slotRead_restart _ _ _ hrestart, Depot.restartFetch_busy _ _ hbusy]
      exact Depot.endFetch_preload_notFound (result := .busy) d hpurpose rfl
    · rw [Depot.slotRead_miss _ hrestart hmiss]
      exact Depot.endFetch_preload_notFound (result := .miss) d hpurpose rfl

/-- A refusal of the configuration raises its cause. -/
theorem Notices.isPending_configRefused (pending : Causes) (n : Notices) (h : n.pending = pending ||| 4#16) :
    n.isPending .configRefused = true := by
  have hbit : BitVec.getLsbD (pending ||| 4#16) 2 = true := by
    rw [BitVec.getLsbD_or]
    exact Bool.or_true _
  exact (congrArg (fun c : Causes => c.getLsbD 2) h).trans hbit

/-- Settles O23: the preload's fetch by the walker's judgement of the slot. -/
theorem preloadFetchFillsThePinnedEntry : Obligations.PreloadFetchFillsThePinnedEntry := by
  intro s a u f pl m w0 w1 hdeferred hgrant hfetch hreading hpurpose hpreload hm hw0 hw1
  obtain ⟨t, n, hexec, hmem, hpath, ⟨q, hpart⟩, hrefusal, hsame, hparity⟩ :=
    s.slotReadComplete_walks a u f m hdeferred hgrant hfetch hreading hm
  generalize hx : directorySlotOf (m.readWord (a / 4)) (m.readWord (a / 4 + 1)) = x at hpart
  have hvalid : x.valid = w1.getLsbD 24 := by rw [← hx, hw1]; rfl
  have htag : x.tag = tagOf w0 (bits w1 0 16) := by rw [← hx, hw0, hw1]; rfl
  have hbarred : x.barred = w1.getLsbD 25 := by rw [← hx, hw1]; rfl
  have haccount : x.account = Fin.ofNat 64 (bits w1 16 6) := by rw [← hx, hw1]; rfl
  have hcls : x.cls = Fin.ofNat 4 (bits w1 22 2) := by rw [← hx, hw1]; rfl
  rw [← hvalid, ← htag, ← hbarred, ← haccount, ← hcls]
  have hframe := (s.part.depot.withNotices n).slotRead_preloadFrame (m.slotFails a) x hpurpose
  refine ⟨t, hexec, hmem, hpath, ?_, ?_, ?_, ?_, fun hpass => ⟨fun hrestart hon hfound => ?_,
    fun hrestart hon hother hposition => ?_, fun hrestart hhome => ?_⟩, fun hmissed => ?_⟩
  · rw [hpart, Part.arbitrate_sessions]
    exact hframe.sessions
  · rw [hpart, Part.arbitrate_charge]
    exact hframe.charge
  · rw [hpart, Part.arbitrate_victim]
    exact hframe.victim
  · rw [hpart, Part.arbitrate_lookups]
    exact hframe.lookups
  · have hn := hsame (Memory.slotFails_false hpass)
    have hself : s.part.depot.withNotices s.part.depot.notices = s.part.depot := rfl
    rw [hn, hself, Memory.slotFails_false hpass, Depot.slotRead_hit _ hrestart hon hfound] at hpart
    by_cases hindex : pl.index < s.part.depot.identity.pinCount
    · rw [Depot.endFetch_preload_filled f.slot x _ hpurpose hpreload hindex] at hpart
      rw [hpart, Part.arbitrate_cache, Part.arbitrate_preload, Part.arbitrate_notices]
      refine ⟨Part.arbitrate_fetch_none rfl, rfl, fun v hv _ => ⟨fun k => ?_, rfl⟩,
        fun h => absurd hindex (Nat.not_lt.mpr h)⟩
      rw [hv]
      exact Identity.fillPinned_cache { s.part.depot.identity with fetch := none } v k f.tag f.slot x
    · rw [Depot.endFetch_preload_outOfRange f.slot x _ hpurpose hpreload (Nat.not_lt.mp hindex)] at hpart
      rw [hpart, Part.arbitrate_cache, Part.arbitrate_preload, Part.arbitrate_notices]
      exact ⟨Part.arbitrate_fetch_none rfl, rfl, fun v _ h => absurd h hindex, fun _ => ⟨rfl, rfl⟩⟩
  · rw [Memory.slotFails_false hpass, Depot.slotRead_next _ hrestart hon hother hposition] at hpart
    rw [hpart, Part.arbitrate_cache, Part.arbitrate_preload]
    exact ⟨Part.arbitrate_fetch_quiet _, hpreload, rfl⟩
  · rw [Memory.slotFails_false hpass, Depot.slotRead_restart _ _ _ hrestart, Depot.restartFetch_home _ _ hhome] at hpart
    rw [hpart, Part.arbitrate_cache, Part.arbitrate_preload]
    exact ⟨Part.arbitrate_fetch_quiet _, hpreload, rfl⟩
  · rw [Depot.slotRead_preload_notFound _ x _ hpurpose (hmissed.imp_left (m.slotFails_iff a).mpr)] at hpart
    rw [hpart, Part.arbitrate_cache, Part.arbitrate_preload, Part.arbitrate_notices, ← hrefusal]
    exact ⟨Part.arbitrate_fetch_none rfl, rfl, rfl, Notices.isPending_configRefused n.pending _ rfl, rfl⟩

end Sys2Proof.Machine
end

section
/-!
PROOF. A posted write into the directory: the snoop at the cache, and at the fetch in flight (R49, R50).
-/

namespace Sys2Proof.Machine

open Sys2Proof

/-! ## The snoop at the cache (R49) -/

open Classical in
/-- The snoop at the cache with its cause in the statement's words. -/
theorem Depot.snoopCache_pending (slot : Nat) (d : Depot) {pending : Causes}
    (h : pending = if ∃ n : Fin 32, n.val < d.identity.pinCount ∧ d.identity.cache[n].valid = true ∧
        d.identity.cache[n].slot = slot then d.notices.pending ||| 0x4000#16 else d.notices.pending) :
    d.snoopCache slot =
      { d with
        identity := d.identity.invalidate fun x => x.slot == slot
        notices := { d.notices with pending := pending } } := by
  have hpinned : d.identity.pinnedHit (fun x => x.slot == slot) = true ↔
      ∃ n : Fin 32, n.val < d.identity.pinCount ∧ d.identity.cache[n].valid = true ∧
        d.identity.cache[n].slot = slot := by
    simp only [Identity.pinnedHit_iff, beq_iff_eq]
  rw [d.snoopCache_eq, h, if_congr hpinned rfl rfl]

/-! ## The snoop at the fetch (R50) -/

/-- What a snoop at the fetch leaves alone. -/
structure Depot.SnoopFrame (d e : Depot) : Prop where
  cache : e.identity.cache = d.identity.cache
  lookups : e.identity.lookups = d.identity.lookups
  charge : e.charge = d.charge
  water : e.water = d.water
  journal : e.journal = d.journal

theorem Depot.endLookup_missed (b : Fin 8) (f : Fetch) (result : FetchResult) (d : Depot)
    (hresult : result.isHit = false) :
    d.endLookup b f result = d ∨ d.endLookup b f result = d.enterHeld b result.reason := by
  cases result with
  | hit slot x => cases hresult
  | _ =>
    simp only [Depot.endLookup, Depot.deliver]
    split
    · exact .inl rfl
    · split
      · exact .inr rfl
      · exact .inl rfl

theorem Depot.endLookup_snoopFrame (b : Fin 8) (f : Fetch) (result : FetchResult) (d : Depot)
    (hresult : result.isHit = false) : Depot.SnoopFrame d (d.endLookup b f result) := by
  rcases d.endLookup_missed b f result hresult with h | h <;> rw [h] <;> exact ⟨rfl, rfl, rfl, rfl, rfl⟩

theorem Depot.endFetch_snoopFrame (f : Fetch) (result : FetchResult) (d : Depot) (hresult : result.isHit = false) :
    Depot.SnoopFrame d (d.endFetch f result) := by
  cases hpurpose : f.purpose with
  | lookup b =>
    rw [Depot.endFetch_lookup b f result d hpurpose]
    obtain ⟨hcache, hlookups, hcharge, hwater, hjournal⟩ :=
      Depot.endLookup_snoopFrame b f result (d.modifyIdentity fun i => { i with fetch := none }) hresult
    exact ⟨hcache, hlookups, hcharge, hwater, hjournal⟩
  | preload =>
    rw [Depot.endFetch_preload_notFound d hpurpose hresult]
    exact ⟨rfl, rfl, rfl, rfl, rfl⟩

/-- A fetch that ends without a vehicle is gone. -/
theorem Depot.endFetch_fetch (f : Fetch) (result : FetchResult) (d : Depot) (hresult : result.isHit = false) :
    (d.endFetch f result).identity.fetch = none := by
  cases hpurpose : f.purpose with
  | lookup b =>
    rw [Depot.endFetch_lookup b f result d hpurpose]
    rcases Depot.endLookup_missed b f result (d.modifyIdentity fun i => { i with fetch := none }) hresult with h | h <;>
      rw [h] <;> rfl
  | preload =>
    rw [Depot.endFetch_preload_notFound d hpurpose hresult]
    rfl

theorem Depot.snoopFetch_frame (slot : Nat) (d : Depot) : Depot.SnoopFrame d (d.snoopFetch slot) := by
  unfold Depot.snoopFetch Depot.restartFetch
  split
  · exact ⟨rfl, rfl, rfl, rfl, rfl⟩
  split
  · split
    · exact ⟨rfl, rfl, rfl, rfl, rfl⟩
    split
    · exact Depot.endFetch_snoopFrame _ .busy d rfl
    · exact ⟨rfl, rfl, rfl, rfl, rfl⟩
  · exact ⟨rfl, rfl, rfl, rfl, rfl⟩

theorem Depot.snoopFetch_none (slot : Nat) (d : Depot) (h : d.identity.fetch = none) : d.snoopFetch slot = d := by
  unfold Depot.snoopFetch
  rw [h]

section
variable {slot : Nat} {f : Fetch} (d : Depot) (hfetch : d.identity.fetch = some f)
include hfetch

theorem Depot.snoopFetch_busy (hrange : f.inRange slot = true) (hreading : f.reading = false) (hbusy : 3 ≤ f.restarts) :
    d.snoopFetch slot = d.endFetch { f with restarts := f.restarts + 1 } .busy := by
  unfold Depot.snoopFetch
  rw [hfetch]
  exact (if_pos hrange).trans ((if_neg (Bool.eq_false_iff.mp hreading)).trans (Depot.restartFetch_busy f d hbusy))

/-- A fetch that a snoop does not end: it restarts now, or once its read completes, or goes on. -/
theorem Depot.snoopFetch_lasts (h : ¬ (f.inRange slot = true ∧ f.reading = false ∧ 3 ≤ f.restarts)) :
    d.snoopFetch slot = d.modifyIdentity fun i =>
      { i with
        fetch := some
          (if f.inRange slot = true then if f.reading = true then { f with restartPending := true } else f.restarted
          else f) } := by
  unfold Depot.snoopFetch
  rw [hfetch]
  by_cases hrange : f.inRange slot = true
  · by_cases hreading : f.reading = true
    · simp only [hrange, hreading, if_true]
    · have hhome : f.restarts < 3 := Nat.not_le.mp fun hbusy => h ⟨hrange, Bool.eq_false_iff.mpr hreading, hbusy⟩
      simp only [hrange, hreading, if_true]
      exact Depot.restartFetch_home f d hhome
  · simp only [hrange, Bool.false_eq_true, if_false, Depot.modifyIdentity]
    rw [← hfetch]

end

/-- The end of a lookup fetch as DIRECTORY_BUSY. -/
theorem Depot.endFetch_lookup_busy {b : Fin 8} {f : Fetch} (d : Depot) (hpurpose : f.purpose = .lookup b)
    (hwithdrawn : f.withdrawn = false) (hstate : (d.session b).state = .lookup) (htag : (d.session b).tag = f.tag) :
    d.endFetch f .busy = (d.modifyIdentity fun i => { i with fetch := none }).enterHeld b .directoryBusy := by
  rw [Depot.endFetch_lookup b f .busy d hpurpose]
  exact Depot.endLookup_delivered b f .busy (d.modifyIdentity _) rfl hwithdrawn hstate htag

theorem Depot.endFetch_lookup_withdrawn {b : Fin 8} {f : Fetch} (d : Depot) (hpurpose : f.purpose = .lookup b)
    (hwithdrawn : f.withdrawn = true) : d.endFetch f .busy = d.modifyIdentity fun i => { i with fetch := none } := by
  rw [Depot.endFetch_lookup b f .busy d hpurpose, Depot.endLookup_withdrawn b f .busy _ rfl hwithdrawn]

/-- The posting of a write into the directory (R12, R49). -/
theorem State.directoryWrite_eq (s : State) (addr : Addr) (data : Word) (be : Enables) (req : Requester) (e : Fin 8)
    (hs : s.ready) (haddr : addr.toNat % 4 = 0) (hbe : be ≠ 0)
    (hcls : s.part.path.classify addr = .window e .directory)
    (hpermit : s.part.path.windows[e].writePermit.getLsbD (Requester.code req) = true) :
    exec (.upstreamWrite addr data be req) s =
      .next { s with
        part := ({ s.part.withPosted ⟨addr, data, be, req, .window e .directory⟩ with
          depot := s.part.depot.snoop
            ((addr.toNat - s.part.path.windows[e].base.toNat * 4096) / 16) } : Part).arbitrate } := by
  have hmay : s.part.path.mayWrite (s.part.path.classify addr) req :=
    .inr (.inr ⟨e, .directory, hcls, by decide, by decide, hpermit⟩)
  rw [exec_upstreamWrite s addr data be req hs.1 haddr,
    Part.arriveWrite_posts s.part.begin addr data be req hbe hmay hs.2]
  have hpost : s.part.begin.post ⟨addr, data, be, req, s.part.begin.path.classify addr⟩ =
      (s.part.withPosted ⟨addr, data, be, req, .window e .directory⟩).handOver
        ⟨addr, data, be, req, .window e .directory⟩ := by
    rw [← hcls]
    rfl
  rw [hpost, Part.handOver_directory _ _ e rfl]
  rfl

/-- Settles O24: the entries that name the slot, then the fetch by its probe range, its read and its restarts. -/
theorem directoryWriteInvalidatesTheSlot : Obligations.DirectoryWriteInvalidatesTheSlot := by
  intro s addr data be req e slot pending hs haddr hbe hcls hpermit hslot hpending
  have hexec := s.directoryWrite_eq addr data be req e hs haddr hbe hcls hpermit
  rw [← hslot, Depot.snoop, s.part.depot.snoopCache_pending slot hpending] at hexec
  obtain ⟨d, hd⟩ : ∃ d : Depot, d = { s.part.depot with
      identity := s.part.depot.identity.invalidate fun x => x.slot == slot
      notices := { s.part.depot.notices with pending := pending } } := ⟨_, rfl⟩
  rw [← hd] at hexec
  have hframe := d.snoopFetch_frame slot
  have hcache : ∀ n : Fin 32, d.identity.cache[n] =
      { s.part.depot.identity.cache[n] with
        valid := s.part.depot.identity.cache[n].valid && s.part.depot.identity.cache[n].slot != slot } := by
    rw [hd]
    exact s.part.depot.identity.invalidate_get fun x => x.slot == slot
  have hfetch : d.identity.fetch = s.part.depot.identity.fetch := by rw [hd]; rfl
  have hnotices : d.notices = { s.part.depot.notices with pending := pending } := by rw [hd]
  have hsessions : d.sessions = s.part.depot.sessions := by rw [hd]
  refine ⟨_, hexec, rfl, Part.arbitrate_path _, fun n => ?_, ?_, ?_, ?_, ?_, fun hnone => ?_, fun f hf => ?_⟩
  · simp only [Part.arbitrate_cache, hframe.cache]
    exact hcache n
  · simp only [Part.arbitrate_lookups, hframe.lookups]
    rw [hd]
    rfl
  · simp only [Part.arbitrate_charge, hframe.charge]
    rw [hd]
  · simp only [Part.arbitrate_water, hframe.water]
    rw [hd]
  · simp only [Part.arbitrate_journal, hframe.journal]
    rw [hd]
  · simp only [Part.arbitrate_notices, Part.arbitrate_sessions, d.snoopFetch_none slot (hfetch.trans hnone), hnotices,
      hsessions, and_self, and_true]
    exact Part.arbitrate_fetch_none (hfetch.trans hnone)
  · simp only [← Fetch.inRange_iff]
    have hf' := hfetch.trans hf
    refine ⟨fun hlasts => ?_, fun hrange hreading hbusy => ?_⟩
    · simp only [Part.arbitrate_notices, Part.arbitrate_sessions, Part.arbitrate_preload,
        d.snoopFetch_lasts hf' hlasts, Part.arbitrate_fetch_quiet]
      refine ⟨?_, by rw [hd]; rfl, hnotices, hsessions⟩
      by_cases hrange : f.inRange slot = true
      · by_cases hreading : f.reading = true
        · simp only [hrange, hreading, if_true]
          rfl
        · simp only [hrange, hreading, if_true]
          rfl
      · simp only [hrange]
        rfl
    · simp only [Part.arbitrate_notices, Part.arbitrate_sessions, Part.arbitrate_preload,
        d.snoopFetch_busy hf' hrange hreading hbusy]
      refine ⟨Part.arbitrate_fetch_none (d.endFetch_fetch _ .busy rfl), fun hpurpose => ?_, fun b hpurpose =>
        ⟨fun hwithdrawn => ?_, fun hwithdrawn hstate htag => ?_⟩⟩
      · rw [Depot.endFetch_preload_notFound (f := { f with restarts := f.restarts + 1 }) d hpurpose rfl]
        subst hd
        exact ⟨rfl, rfl, rfl, rfl⟩
      · rw [Depot.endFetch_lookup_withdrawn (f := { f with restarts := f.restarts + 1 }) d hpurpose hwithdrawn]
        exact ⟨hsessions, hnotices⟩
      · rw [Depot.endFetch_lookup_busy (f := { f with restarts := f.restarts + 1 }) d hpurpose hwithdrawn
          (by subst hd; exact hstate) (by subst hd; exact htag)]
        subst hd
        exact ⟨rfl, rfl⟩

end Sys2Proof.Machine
end

section
/-!
PROOF. Writes into a record window that take no record: the assembly that they join or abandon, and the rejects of a
completed slot (R22 to R29).
-/

namespace Sys2Proof.Machine

open Sys2Proof

/-! ## The checks in the statements' words (R26, R27) -/

theorem checksumOk_iff (r : Vector Word 4) : checksumOk r = true ↔ recordSum r % 65536 = 0 := by
  refine ⟨fun h => ?_, checksumOk_of_sum r⟩
  unfold checksumOk at h
  rw [record_toList, beq_iff_eq] at h
  simp only [List.map_cons, List.map_nil, List.sum_cons, List.sum_nil, halfOf_pair] at h
  unfold recordSum
  omega

theorem inRange_iff (kind : RecordKind) (minQuality : Nat) (r : Vector Word 4) :
    inRange kind minQuality r = true ↔ ¬ kind.fails minQuality r := by
  cases kind <;>
    simp only [inRange, RecordKind.fails, recordByte_zero, recordByte_one, recordByte_two, Bool.and_eq_true,
      Bool.or_eq_true, decide_eq_true_eq, bne_iff_ne, beq_iff_eq] <;>
    omega

/-! ## One received write (R23 to R25) -/

/-- The window after the write abandoned an assembly open on another slot. -/
def CaptureWindow.afterAbandon (w : CaptureWindow) (abandoned : Bool) : CaptureWindow :=
  { w with torn := if abandoned = true then min 65535 (w.torn + 1) else w.torn }

section
variable {w : CaptureWindow} {slot : Nat} {n : Fin 4} {data : Word} {be : Enables} {new : Assembly} {abandoned : Bool}
  (kind : RecordKind) (minQuality : Nat)
  (hmerge : (w.joined slot).merge n data be = new) (habandons : w.abandons slot = abandoned)
include hmerge habandons

/-- A received write: the judgement of the assembly it joins where word 3 is whole, else the assembly open on. -/
theorem CaptureWindow.receive_eq :
    w.receive kind minQuality slot n data be =
      if new.present 3 then
        { (w.afterAbandon abandoned).judge kind minQuality new with
          rejected := ((w.afterAbandon abandoned).judge kind minQuality new).rejected || abandoned }
      else ⟨{ w.afterAbandon abandoned with assembly := some new }, abandoned, none⟩ := by
  have hw : (if w.abandons slot then { w with torn := satAdd Config.max16 w.torn 1 } else w) =
      w.afterAbandon abandoned := by
    rw [habandons]
    cases abandoned <;> rfl
  unfold CaptureWindow.receive
  rw [hw, hmerge, habandons]

theorem CaptureWindow.receive_open (h : new.present 3 = false) :
    w.receive kind minQuality slot n data be =
      ⟨{ w.afterAbandon abandoned with assembly := some new }, abandoned, none⟩ := by
  rw [CaptureWindow.receive_eq kind minQuality hmerge habandons, if_neg (Bool.eq_false_iff.mp h)]

theorem CaptureWindow.receive_judged {x : CaptureWindow} (h : new.present 3 = true)
    (hjudge : (w.afterAbandon abandoned).judge kind minQuality new = ⟨x, true, none⟩) :
    w.receive kind minQuality slot n data be = ⟨x, true, none⟩ := by
  rw [CaptureWindow.receive_eq kind minQuality hmerge habandons, if_pos h, hjudge]
  rfl

end

theorem CaptureWindow.judge_torn {kind : RecordKind} {minQuality : Nat} {new : Assembly} (w : CaptureWindow)
    (h : (new.present 0 && new.present 1 && new.present 2) = false) :
    w.judge kind minQuality new = ⟨{ w with assembly := none, torn := min 65535 (w.torn + 1) }, true, none⟩ := by
  unfold CaptureWindow.judge
  rw [h]
  rfl

theorem CaptureWindow.judge_check {kind : RecordKind} {minQuality : Nat} {new : Assembly} (w : CaptureWindow)
    (h : (new.present 0 && new.present 1 && new.present 2) = true) (hsum : checksumOk new.words = false) :
    w.judge kind minQuality new = ⟨{ w with assembly := none, check := min 65535 (w.check + 1) }, true, none⟩ := by
  unfold CaptureWindow.judge
  rw [h, hsum]
  rfl

theorem CaptureWindow.judge_range {kind : RecordKind} {minQuality : Nat} {new : Assembly} (w : CaptureWindow)
    (h : (new.present 0 && new.present 1 && new.present 2) = true) (hsum : checksumOk new.words = true)
    (hrange : inRange kind minQuality new.words = false) :
    w.judge kind minQuality new = ⟨{ w with assembly := none, range := min 65535 (w.range + 1) }, true, none⟩ := by
  unfold CaptureWindow.judge
  rw [h, hsum, hrange]
  rfl

/-! ## The assembly that a write joins (R23, R24) -/

theorem CaptureWindow.abandons_iff (w : CaptureWindow) (slot : Nat) :
    w.abandons slot = true ↔ ∃ old, w.assembly = some old ∧ old.slot ≠ slot := by
  unfold CaptureWindow.abandons
  cases w.assembly <;> simp

theorem CaptureWindow.joined_eq (w : CaptureWindow) (slot : Nat) (a : Assembly)
    (hsame : ∀ old, w.assembly = some old → old.slot = slot → a = old)
    (hfresh : w.assembly = none ∨ w.abandons slot = true → a = ⟨slot, Vector.replicate 4 0, Vector.replicate 4 0⟩) :
    w.joined slot = a := by
  unfold CaptureWindow.joined
  cases hopen : w.assembly with
  | none => exact (hfresh (.inl hopen)).symm
  | some old =>
    by_cases hslot : old.slot = slot
    · exact (if_pos hslot).trans (hsame old hopen hslot).symm
    · exact (if_neg hslot).trans (hfresh (.inr ((w.abandons_iff slot).mpr ⟨old, hopen, hslot⟩))).symm

theorem Assembly.merge_eq (a new : Assembly) (n : Fin 4) (data : Word) (be : Enables) (hslot : new.slot = a.slot)
    (hwords : ∀ m : Fin 4, new.words[m] = if n.val = m.val then mergeBytes a.words[m] data be else a.words[m])
    (hseen : ∀ m : Fin 4, new.seen[m] = if n.val = m.val then a.seen[m] ||| be else a.seen[m]) :
    a.merge n data be = new := by
  have hval : ∀ m : Fin 4, n.val = m.val ↔ m = n := fun m => ⟨fun h => Fin.ext h.symm, fun h => congrArg Fin.val h.symm⟩
  have hmergedWords : (a.merge n data be).words = new.words := by
    refine Vector.ext fun i hi => ?_
    have hword := hwords ⟨i, hi⟩
    rw [if_congr (hval _) rfl rfl, ← Assembly.merge_word] at hword
    exact hword.symm
  have hmergedSeen : (a.merge n data be).seen = new.seen := by
    refine Vector.ext fun i hi => ?_
    have hmask := hseen ⟨i, hi⟩
    rw [if_congr (hval _) rfl rfl, ← Assembly.merge_seen] at hmask
    exact hmask.symm
  cases new
  cases hslot
  cases hmergedWords
  cases hmergedSeen
  rfl

/-! ## The posted write -/

theorem Part.recordWord_kept (p : Part) (kind : RecordKind) (offset slot : Nat) (n : Fin 4) (data : Word) (be : Enables)
    (x : CaptureWindow) (rejected : Bool) (hslot : offset / 16 = slot) (hn : Fin.ofNat 4 (offset / 4) = n)
    (h : (p.capture.window kind).receive kind p.capture.minQuality slot n data be = ⟨x, rejected, none⟩) :
    p.recordWord kind offset data be =
      ({ p with capture := p.capture.setWindow kind x } : Part).withPending (if rejected = true then 1#16 else 0) := by
  subst hslot hn
  unfold Part.recordWord
  rw [h]
  cases rejected with
  | true => rfl
  | false =>
    have hpending : p.depot.notices.pending ||| 0 = p.depot.notices.pending := BitVec.or_zero
    simp only [Part.withPending, Bool.false_eq_true, if_false, hpending]

/-- A gathered write is received as the merge of its word into the assembly it joins; where no record is taken, that
is all it does but for the cause of a reject. -/
theorem State.Gathers.becomes {s : State} {kind : RecordKind} {addr : Addr} {data : Word} {be : Enables}
    {req : Requester} {slot : Nat} {abandoned : Bool} {new : Assembly}
    (h : s.Gathers kind addr data be req slot abandoned new) {x : CaptureWindow} {rejected : Bool}
    (hreceive : ∀ n : Fin 4, ((s.part.capture.window kind).joined slot).merge n data be = new →
      (s.part.capture.window kind).abandons slot = abandoned →
      (s.part.capture.window kind).receive kind s.part.capture.minQuality slot n data be = ⟨x, rejected, none⟩) :
    ∃ t, exec (.upstreamWrite addr data be req) s = .next t ∧
      s.becomes (({ s.part.withPosted ⟨addr, data, be, req, s.part.path.classify addr⟩ with
        capture := s.part.capture.setWindow kind x } : Part).withPending (if rejected = true then 1#16 else 0)) t := by
  obtain ⟨hs, hbe, haligned, ⟨e, hcls, hpermit, hslot⟩, habandons, a, hsame, hfresh, hnewSlot, hwords, hseen⟩ := h
  have hbase := PathUnit.classify_base _ _ _ _ hcls
  have habandoned : (s.part.capture.window kind).abandons slot = abandoned := by
    rw [Bool.eq_iff_iff, CaptureWindow.abandons_iff, habandons]
  have hjoined : (s.part.capture.window kind).joined slot = a :=
    CaptureWindow.joined_eq _ slot a hsame fun h => hfresh (h.imp_right fun h => habandoned.symm.trans h)
  obtain ⟨offset, hoffset⟩ : ∃ o, o = addr.toNat - s.part.path.windows[e].base.toNat * 4096 := ⟨_, rfl⟩
  have hword : (Fin.ofNat 4 (offset / 4)).val = addr.toNat % 16 / 4 := by
    rw [Fin.val_ofNat]
    omega
  have haslot : new.slot = a.slot := by
    rw [hnewSlot, ← hjoined]
    unfold CaptureWindow.joined
    split
    · split
      · next hsame => exact hsame.symm
      · rfl
    · rfl
  have hmerge : ((s.part.capture.window kind).joined slot).merge (Fin.ofNat 4 (offset / 4)) data be = new := by
    rw [hjoined]
    exact Assembly.merge_eq a new _ data be haslot (fun m => by rw [hword]; exact hwords m)
      fun m => by rw [hword]; exact hseen m
  have hpost := State.arrive_posts s addr data be req e kind.windowKind hs haligned hbe hcls (by cases kind <;> decide)
    (by cases kind <;> decide) hpermit
  have hhandOver : (s.part.withPosted ⟨addr, data, be, req, .window e kind.windowKind⟩).handOver
      ⟨addr, data, be, req, .window e kind.windowKind⟩ =
      ({ s.part.withPosted ⟨addr, data, be, req, s.part.path.classify addr⟩ with
        capture := s.part.capture.setWindow kind x } : Part).withPending (if rejected = true then 1#16 else 0) := by
    have hentry : (s.part.withPosted ⟨addr, data, be, req, .window e kind.windowKind⟩).path.entryOffset e
        ⟨addr, data, be, req, .window e kind.windowKind⟩ = offset := hoffset.symm
    rw [Part.handOver_record _ _ e kind rfl, hcls, hentry]
    exact Part.recordWord_kept (s.part.withPosted ⟨addr, data, be, req, .window e kind.windowKind⟩) kind offset slot
      (Fin.ofNat 4 (offset / 4)) data be x rejected (hoffset ▸ hslot.symm) rfl (hreceive _ hmerge habandoned)
  obtain ⟨⟨hrun, hheld, hdef⟩, hroom⟩ := hs
  exact ⟨_, congrArg Host.Outcome.next (State.event_access s _ _ hheld hdef (hpost.trans hhandOver) hdef),
    State.becomes_arbitrate s _⟩

theorem Assembly.present_iff (a : Assembly) (n : Fin 4) : a.present n = true ↔ a.seen[n] = 0xF#4 := beq_iff_eq

/-- Settles O26: the assembly stays open, or is judged by the words that are whole, the checksum and the range. -/
theorem recordWritesAreGatheredOrRejected : Obligations.RecordWritesAreGatheredOrRejected := by
  rintro s addr data be req kind slot torn abandoned new w update h rfl rfl rfl
  refine ⟨fun hopen => ?_, fun hwhole => ⟨fun hmissing => ?_, fun hall hsum => ?_, fun hall hsum hfails => ?_⟩⟩
  · exact h.becomes fun n hmerge habandons => CaptureWindow.receive_open kind _ hmerge habandons
      (Bool.eq_false_iff.mpr (mt (new.present_iff 3).mp hopen))
  · have hpresent : (new.present 0 && new.present 1 && new.present 2) = false := by
      refine Bool.eq_false_iff.mpr fun hin => ?_
      simp only [Bool.and_eq_true, Assembly.present_iff] at hin
      obtain ⟨m, hm⟩ := hmissing
      fin_cases m
      · exact hm hin.1.1
      · exact hm hin.1.2
      · exact hm hin.2
      · exact hm hwhole
    exact h.becomes fun n hmerge habandons => CaptureWindow.receive_judged kind _ hmerge habandons
      ((new.present_iff 3).mpr hwhole) (CaptureWindow.judge_torn _ hpresent)
  all_goals
    have hpresent : (new.present 0 && new.present 1 && new.present 2) = true := by
      simp only [Bool.and_eq_true, Assembly.present_iff]
      exact ⟨⟨hall 0, hall 1⟩, hall 2⟩
  · exact h.becomes fun n hmerge habandons => CaptureWindow.receive_judged kind _ hmerge habandons
      ((new.present_iff 3).mpr hwhole)
      (CaptureWindow.judge_check _ hpresent (Bool.eq_false_iff.mpr (mt (checksumOk_iff _).mp hsum)))
  · exact h.becomes fun n hmerge habandons => CaptureWindow.receive_judged kind _ hmerge habandons
      ((new.present_iff 3).mpr hwhole)
      (CaptureWindow.judge_range _ hpresent ((checksumOk_iff _).mpr hsum)
        (Bool.eq_false_iff.mpr fun hin => (inRange_iff kind _ _).mp hin hfails))

end Sys2Proof.Machine
end

section
/-!
PROOF. Taken IDENTITY and BAY records: the event that a record's owner takes, and what each kind of record does by the
state of its bay's session (R30 to R36, R61 to R75).
-/

namespace Sys2Proof.Machine

open Sys2Proof

/-! ## The owner's event (R30, R31, R136) -/

section
variable {s : State} {addr : Addr} {data : Word} {be : Enables} {req : Requester} {slot : Nat} {r : Vector Word 4}
  {d : Depot} {x : Part}

theorem State.Completes.becomes_bay (h : s.Completes .bay addr data be req slot r)
    (hrange : ¬ RecordKind.bay.fails s.part.capture.minQuality r)
    (hd : s.part.depot.bayRecord r s.part.calendar.now = d)
    (hx : { s.recordTaken .bay addr data be req slot with depot := d } = x) :
    ∃ t, exec (.upstreamWrite addr data be req) s = .next t ∧ s.becomesOrWrites x t := by
  have hdelivered : (s.recordTaken .bay addr data be req slot).deliverRecord .bay r =
      { s.recordTaken .bay addr data be req slot with depot := d.startWrite s.part.path.ring } := hd ▸ rfl
  exact ⟨_, h.exec_eq ((inRange_iff _ _ _).mpr hrange), State.becomesOrWrites_of_eq
    (x := { s.recordTaken .bay addr data be req slot with depot := d }) (by rw [hdelivered]) hx⟩

theorem State.Completes.becomes_plant (h : s.Completes .plant addr data be req slot r)
    (hrange : ¬ RecordKind.plant.fails s.part.capture.minQuality r)
    (hd : s.part.depot.plantRecord r s.part.calendar.now = d)
    (hx : { s.recordTaken .plant addr data be req slot with depot := d } = x) :
    ∃ t, exec (.upstreamWrite addr data be req) s = .next t ∧ s.becomesOrWrites x t := by
  have hdelivered : (s.recordTaken .plant addr data be req slot).deliverRecord .plant r =
      { s.recordTaken .plant addr data be req slot with depot := d.startWrite s.part.path.ring } := hd ▸ rfl
  exact ⟨_, h.exec_eq ((inRange_iff _ _ _).mpr hrange), State.becomesOrWrites_of_eq
    (x := { s.recordTaken .plant addr data be req slot with depot := d }) (by rw [hdelivered]) hx⟩

/-- Record Capture and the bus after an IDENTITY record was taken: it stands as the last one (R36). -/
def State.identityTaken (s : State) (addr : Addr) (data : Word) (be : Enables) (req : Requester) (slot : Nat)
    (last : LastIdentity) : Part :=
  { s.recordTaken .identity addr data be req slot with
    capture := { s.part.capture.withTaken .identity slot with lastIdentity := some last } }

theorem State.Completes.becomes_identity {b : Fin 8} {tag : Tag} (h : s.Completes .identity addr data be req slot r)
    (hb : firstByte r = b.val) (hquality : secondByte r ≤ 15) (hmin : s.part.capture.minQuality ≤ secondByte r)
    (htag : tag.toNat = r[(1 : Fin 4)].toNat + r[(2 : Fin 4)].toNat % 65536 * 4294967296)
    (hd : s.part.depot.identityRecord b ⟨tag, secondByte r, thirdByte r, s.part.calendar.now⟩ = d)
    (hx : { s.identityTaken addr data be req slot ⟨b, secondByte r, thirdByte r⟩ with depot := d } = x) :
    ∃ t, exec (.upstreamWrite addr data be req) s = .next t ∧ s.becomesOrWrites x t := by
  have hrange : ¬ RecordKind.identity.fails s.part.capture.minQuality r := by
    have := b.isLt
    rintro (h | h | h) <;> omega
  have hbay : Fin.ofNat 8 (recordByte r 0) = b := by
    rw [recordByte_zero, hb]
    exact Fin.ofNat_val_eq_self b
  have hidentity : identityOf r s.part.calendar.now = ⟨tag, secondByte r, thirdByte r, s.part.calendar.now⟩ := by
    have htagOf : tagOf r[1] (bits r[2] 0 16) = tag := by
      apply BitVec.eq_of_toNat_eq
      have hlow : r[(1 : Fin 4)].toNat < 4294967296 := r[(1 : Fin 4)].isLt
      rw [tagOf, bits_low, BitVec.toNat_ofNat, htag]
      show (r[(1 : Fin 4)].toNat + r[(2 : Fin 4)].toNat % 2 ^ 16 % 2 ^ 16 * 2 ^ 32) % 2 ^ 48 = _
      omega
    rw [identityOf, htagOf, recordByte_one, recordByte_two]
  have htaken : (s.recordTaken .identity addr data be req slot).deliverRecord .identity r =
      Part.onDepot (fun now d => d.identityRecord b ⟨tag, secondByte r, thirdByte r, s.part.calendar.now⟩)
        (s.identityTaken addr data be req slot ⟨b, secondByte r, thirdByte r⟩) := by
    unfold Part.deliverRecord
    simp only [hbay, recordByte_one, recordByte_two]
    rw [← hidentity]
    rfl
  have hdelivered : (s.recordTaken .identity addr data be req slot).deliverRecord .identity r =
      { s.identityTaken addr data be req slot ⟨b, secondByte r, thirdByte r⟩ with
        depot := d.startWrite s.part.path.ring } := htaken.trans (hd ▸ rfl)
  exact ⟨_, h.exec_eq ((inRange_iff _ _ _).mpr hrange), State.becomesOrWrites_of_eq
    (x := { s.identityTaken addr data be req slot ⟨b, secondByte r, thirdByte r⟩ with depot := d })
    (by rw [hdelivered]) hx⟩

end

/-! ## Identity records (R64, R65) -/

theorem Depot.identityRecord_vacant (b : Fin 8) (r : Parked) (d : Depot) (h : (d.session b).state = .vacant) :
    d.identityRecord b r = d.arriveVacant b r.tag r.stamp := by
  unfold Depot.identityRecord
  rw [h]

theorem Depot.identityRecord_closing (b : Fin 8) (r : Parked) (d : Depot) (h : (d.session b).state = .closing) :
    d.identityRecord b r = d.modifyBay b fun y =>
      { y with parked := some r
               parkOverwrite := if y.parked = none then y.parkOverwrite else min 65535 (y.parkOverwrite + 1) } := by
  unfold Depot.identityRecord
  rw [h]
  refine congrArg (d.modifyBay b) (funext fun y => ?_)
  cases y.parked <;> rfl

theorem Depot.identityRecord_open (b : Fin 8) (r : Parked) (d : Depot)
    (h : (d.session b).state = .lookup ∨ (d.session b).state = .held ∨ (d.session b).state = .admitted ∨
      (d.session b).state = .washing) :
    d.identityRecord b r =
      if (d.session b).tag = r.tag then d
      else d.modifyBay b fun y => { y with conflicting := min 65535 (y.conflicting + 1) } := by
  unfold Depot.identityRecord
  rcases h with h | h | h | h <;> rw [h] <;> rfl

/-- Settles O27: the record's event at its bay by the state of the session. -/
theorem identityRecordStartsAVisit : Obligations.IdentityRecordStartsAVisit := by
  rintro s addr data be req slot r b tag x y h hb hquality hmin htag rfl rfl
  have hbecomes : ∀ {d : Depot} {x : Part},
      s.part.depot.identityRecord b ⟨tag, secondByte r, thirdByte r, s.part.calendar.now⟩ = d →
      { s.identityTaken addr data be req slot ⟨b, secondByte r, thirdByte r⟩ with depot := d } = x →
      ∃ t, exec (.upstreamWrite addr data be req) s = .next t ∧ s.becomesOrWrites x t :=
    h.becomes_identity hb hquality hmin htag
  refine ⟨fun hvacant => ?_, fun hopen => ⟨fun hsame => ?_, fun hother => ?_⟩, fun hclosing => ?_⟩
  · obtain ⟨t, hexec, hwrites⟩ := hbecomes (Depot.identityRecord_vacant b _ _ hvacant) rfl
    exact ⟨t, _, hexec, Part.arrived_arriveVacant b tag s.part.calendar.now
      (s.identityTaken addr data be req slot ⟨b, secondByte r, thirdByte r⟩), hwrites⟩
  · exact hbecomes ((Depot.identityRecord_open b _ _ hopen).trans (if_pos hsame)) rfl
  · exact hbecomes ((Depot.identityRecord_open b _ _ hopen).trans (if_neg hother)) rfl
  · exact hbecomes (Depot.identityRecord_closing b _ _ hclosing) rfl

/-! ## Bay records (R34, R73, R74) -/

theorem Depot.modifyBay_modifyBay (b : Fin 8) (f g : Bay → Bay) (d : Depot) :
    (d.modifyBay b f).modifyBay b g = d.modifyBay b fun y => g (f y) := by
  simp [Depot.modifyBay, modifyAt]

theorem SessionState.active_iff (x : SessionState) : x.active = true ↔ x = .admitted ∨ x = .washing := by
  simp [SessionState.active]

theorem SessionState.active_false {x : SessionState} (h1 : x ≠ .admitted) (h2 : x ≠ .washing) : x.active = false := by
  cases x
  case admitted => exact absurd rfl h1
  case washing => exact absurd rfl h2
  all_goals rfl

section
variable {r : Vector Word 4} {b : Fin 8} (now : Calendar) (d : Depot) (hb : firstByte r = b.val)
include hb

theorem Depot.bayRecord_start {p : Fin 16} (h1 : secondByte r = 1) (h2 : thirdByte r = p.val) :
    d.bayRecord r now = d.programStart b p now := by
  unfold Depot.bayRecord
  rw [recordByte_zero, recordByte_one, recordByte_two, h1, h2, hb]
  simp only [Fin.ofNat_val_eq_self]

theorem Depot.bayRecord_end (h : secondByte r = 2) : d.bayRecord r now = d.programEnd b now := by
  unfold Depot.bayRecord
  rw [recordByte_zero, recordByte_one, h, hb]
  simp only [Fin.ofNat_val_eq_self]

theorem Depot.bayRecord_exit (h : secondByte r = 3) : d.bayRecord r now = d.vehicleExit now b := by
  unfold Depot.bayRecord
  rw [recordByte_zero, recordByte_one, h, hb]
  simp only [Fin.ofNat_val_eq_self]

theorem Depot.bayRecord_alive (h : secondByte r = 4) : d.bayRecord r now = d.bayAlive b := by
  unfold Depot.bayRecord
  rw [recordByte_zero, recordByte_one, h, hb]
  simp only [Fin.ofNat_val_eq_self]

end

/-- The judgement of a start in the statement's order of tests (R74). -/
theorem judgeStart_eq (p : Program) (stage : Stage) (available : Bool) :
    judgeStart p stage available =
      if p.enabled = false then .refused .disabled
      else if p.freshRequired = true then if stage = .exhausted then .refused .quota else .run
      else if stage = .normal ∨ available = true then .run
      else .refused .noWater := by
  unfold judgeStart
  cases p.enabled <;> rfl

theorem newLine_eq (code : Fin 16) (o : LineOutcome) (stamp : Stamp) :
    newLine code o stamp =
      { program := code, outcome := o, start := stamp, stop := if o = .run then none else some stamp } := by
  cases o <;> rfl

theorem Session.endLine_length (stamp : Stamp) (s : Session) : (s.endLine stamp).lines.length = s.lines.length :=
  List.length_map _

theorem Session.startProgram_full (code : Fin 16) (o : LineOutcome) (stamp : Stamp) (s : Session)
    (h : 4 ≤ s.lines.length) :
    s.startProgram code o stamp = { s with state := .admitted, dropped := min 65535 (s.dropped + 1) } := if_pos h

theorem Session.startProgram_room (code : Fin 16) (o : LineOutcome) (stamp : Stamp) (s : Session)
    (h : s.lines.length < 4) :
    s.startProgram code o stamp =
      { s with
        state := if o = .run then .washing else .admitted
        lines := s.lines ++
          [{ program := code, outcome := o, start := stamp, stop := if o = .run then none else some stamp }] } := by
  rw [← newLine_eq]
  refine (if_neg (Nat.not_le.mpr h)).trans ?_
  cases o <;> rfl

/-- A start in ADMITTED or WASHING as one update of its bay. -/
theorem Depot.programStart_active (b : Fin 8) (p : Fin 16) (stamp : Stamp) (d : Depot) {z : Session}
    (hstate : (d.session b).state.active = true)
    (hz : ((d.session b).endLine stamp).startProgram p
      (judgeStart d.charge.programs[p] d.water.stage d.water.available) stamp = z) :
    d.programStart b p stamp =
      d.modifyBay b fun y => { y with silence := some (2 * d.sessions.silenceLimit), session := z } := by
  subst hz
  refine (if_pos hstate).trans ?_
  rw [Depot.restartSilence, Depot.modifySession, Depot.modifyBay_modifyBay]
  rfl

/-- Settles O28: the record's event by the session's state, and a start by the length of its list. -/
theorem bayRecordsKeepTheProgramList : Obligations.BayRecordsKeepTheProgramList := by
  rintro s addr data be req slot r b x y ended h hb rfl rfl rfl
  have hlt := b.isLt
  refine ⟨fun hnadmitted hnwashing hkind => ?_, fun hactive => ⟨fun halive => ?_, fun hend => ?_,
    fun p hstart hcode => ⟨fun hfull => ?_, fun hroom o ho => ?_⟩⟩⟩
  · have hinactive : ¬ (s.part.depot.session b).state.active = true :=
      Bool.eq_false_iff.mp (SessionState.active_false hnadmitted hnwashing)
    have hrange : ¬ RecordKind.bay.fails s.part.capture.minQuality r := by
      rintro (h | h | h | h) <;> omega
    refine h.becomes_bay hrange (d := s.part.depot) ?_ rfl
    rcases hkind with ⟨hstart, hcode⟩ | hend | halive
    · rw [Depot.bayRecord_start (p := ⟨thirdByte r, by omega⟩) _ _ hb hstart rfl, Depot.programStart,
        if_neg hinactive]
    · rw [Depot.bayRecord_end _ _ hb hend, Depot.programEnd, if_neg hinactive]
    · rw [Depot.bayRecord_alive _ _ hb halive, Depot.bayAlive, if_neg hinactive]
  all_goals
    have hstate : (s.part.depot.session b).state.active = true := (SessionState.active_iff _).mpr hactive
    have hrange : ¬ RecordKind.bay.fails s.part.capture.minQuality r := by
      rintro (h | h | h | h) <;> omega
  · refine h.becomes_bay hrange ((Depot.bayRecord_alive _ _ hb halive).trans (if_pos hstate)) rfl
  · refine h.becomes_bay hrange ((Depot.bayRecord_end _ _ hb hend).trans (if_pos hstate)) ?_
    rw [Depot.restartSilence, Depot.modifySession, Depot.modifyBay_modifyBay]
    simp only [Session.endLine_eq]
    rfl
  · have hlength := ((s.part.depot.session b).endLine_length s.part.calendar.now).symm ▸ hfull
    refine h.becomes_bay hrange ((Depot.bayRecord_start _ _ hb hstart hcode).trans
      (Depot.programStart_active b p _ _ hstate (Session.startProgram_full p _ _ _ hlength))) ?_
    rw [Session.endLine_eq]
    rfl
  · have hlength := ((s.part.depot.session b).endLine_length s.part.calendar.now).symm ▸ hroom
    have hjudge : judgeStart s.part.depot.charge.programs[p] s.part.depot.water.stage s.part.depot.water.available =
        o := (judgeStart_eq _ _ _).trans ho.symm
    refine h.becomes_bay hrange ((Depot.bayRecord_start _ _ hb hstart hcode).trans
      (Depot.programStart_active b p _ _ hstate ((congrArg (fun o => Session.startProgram p o _ _) hjudge).trans
        (Session.startProgram_room p o _ _ hlength)))) ?_
    rw [Session.endLine_eq]
    rfl

/-! ## Exits (R70, R71) -/

/-- Settles O29: the exit closes the session by its state. -/
theorem vehicleExitClosesTheVisit : Obligations.VehicleExitClosesTheVisit := by
  rintro s addr data be req slot r b x y h hb hexit rfl rfl
  have hlt := b.isLt
  have hrange : ¬ RecordKind.bay.fails s.part.capture.minQuality r := by
    rintro (h | h | h | h) <;> omega
  have hbecomes : ∀ {d : Depot} {x : Part}, s.part.depot.vehicleExit s.part.calendar.now b = d →
      { s.recordTaken .bay addr data be req slot with depot := d } = x →
      ∃ t, exec (.upstreamWrite addr data be req) s = .next t ∧ s.becomesOrWrites x t := fun hd hx =>
    h.becomes_bay hrange ((Depot.bayRecord_exit _ _ hb hexit).trans hd) hx
  have hcloses : ∀ {reason : CloseReason},
      s.part.depot.vehicleExit s.part.calendar.now b = s.part.depot.closeSession s.part.calendar.now b reason →
      ∃ t q, exec (.upstreamWrite addr data be req) s = .next t ∧
        (s.recordTaken .bay addr data be req slot).closed b reason s.part.calendar.now q ∧ s.becomesOrWrites q t := by
    intro reason hd
    obtain ⟨t, hexec, hwrites⟩ := hbecomes hd rfl
    exact ⟨t, _, hexec, Part.closed_closeSession _ b reason (s.recordTaken .bay addr data be req slot), hwrites⟩
  refine ⟨fun hidle => hbecomes (d := s.part.depot) ?_ rfl, fun hwaiting => hcloses ?_, fun hactive => hcloses ?_⟩
  · unfold Depot.vehicleExit
    rcases hidle with hstate | hstate <;> rw [show (s.part.depot.session b).state = _ from hstate]
  · unfold Depot.vehicleExit
    rcases hwaiting with hstate | hstate <;> rw [show (s.part.depot.session b).state = _ from hstate]
  · unfold Depot.vehicleExit
    rcases hactive with hstate | hstate <;> rw [show (s.part.depot.session b).state = _ from hstate]

end Sys2Proof.Machine
end

section
/-!
PROOF. Taken PLANT records: the gauges and the quality machine, and the meters' baselines and jumps (R33, R88 to R107).
-/

namespace Sys2Proof.Machine

open Sys2Proof

/-! ## Gauges and the quality machine (R93, R100 to R103) -/

/-- A cause that joins the pending set unless a condition holds. -/
theorem pending_unless (pending c : Causes) (p : Prop) [Decidable p] :
    (if p then pending else pending ||| c) = pending ||| if p then 0 else c := by
  split
  · exact BitVec.or_zero.symm
  · rfl

/-- The judgement of availability after the water became `u`, as the statement writes it (R94). -/
theorem Part.judgeAvailability_withWater (x : Part) (u : Water) (h : u.available = x.depot.water.available) :
    { x with depot := (x.depot.modifyWater fun _ => u).judgeAvailability } =
      (x.withWater { u with available := u.quality = .qualified ∧ u.floor ≤ u.level }).withPending
        (if x.depot.water.available = Decidable.decide (u.quality = .qualified ∧ u.floor ≤ u.level)
          then 0 else 0x400#16) := by
  rw [Depot.judgeAvailability_judged, Part.withPending, ← pending_unless, ← h]
  rfl

theorem Water.turbiditySample_sampling_good (w : Water) (v : Nat) (hq : w.quality = .sampling)
    (h : v ≤ w.turbidityLimit) :
    w.turbiditySample v = { w with turbidity := v, quality := .qualified, qualityTimer := none } := by
  unfold Water.turbiditySample
  rw [hq]
  exact if_pos h

theorem Water.turbiditySample_sampling_bad (w : Water) (v : Nat) (hq : w.quality = .sampling)
    (h : w.turbidityLimit < v) :
    w.turbiditySample v = { w with turbidity := v, badSamples := min 255 (w.badSamples + 1) } := by
  unfold Water.turbiditySample
  rw [hq]
  exact if_neg (Nat.not_le.mpr h)

theorem Water.turbiditySample_qualified_bad (w : Water) (v : Nat) (hq : w.quality = .qualified)
    (h : w.turbidityLimit < v) : w.turbiditySample v = Water.enterSampling { w with turbidity := v } := by
  unfold Water.turbiditySample
  rw [hq]
  exact if_neg (Nat.not_le.mpr h)

theorem Water.turbiditySample_qualified_good (w : Water) (v : Nat) (hq : w.quality = .qualified)
    (h : v ≤ w.turbidityLimit) : w.turbiditySample v = { w with turbidity := v } := by
  unfold Water.turbiditySample
  rw [hq]
  exact if_pos h

theorem Water.turbiditySample_unjudged (w : Water) (v : Nat)
    (hq : w.quality = .backwash ∨ w.quality = .settling ∨ w.quality = .rejected) :
    w.turbiditySample v = { w with turbidity := v } := by
  unfold Water.turbiditySample
  rcases hq with hq | hq | hq <;> rw [hq]

theorem Water.backwashEnd_other (w : Water) (h : w.quality ≠ .backwash) : w.backwashEnd = w := if_neg h

theorem Water.backwashEnd_settles (w : Water) (h : w.quality = .backwash) (hsettle : w.settle ≠ 0) :
    w.backwashEnd = { w with quality := .settling, qualityTimer := some (2 * w.settle) } :=
  (if_pos h).trans (if_neg hsettle)

theorem Water.backwashEnd_samples (w : Water) (h : w.quality = .backwash) (hsettle : w.settle = 0) :
    w.backwashEnd = w.enterSampling := (if_pos h).trans (if_pos hsettle)

section
variable {r : Vector Word 4} (now : Calendar) (d : Depot)

theorem Depot.plantRecord_meter {m : Fin 20} (hkind : firstByte r = 1) (hm : secondByte r = m.val) :
    d.plantRecord r now = d.meterSample now m r[(1 : Fin 4)].toNat := by
  unfold Depot.plantRecord
  rw [recordByte_zero, recordByte_one, hkind, hm]
  simp only [Fin.ofNat_val_eq_self]
  rfl

theorem Depot.plantRecord_level (hkind : firstByte r = 2) :
    d.plantRecord r now = (d.modifyWater fun w => { w with level := r[(1 : Fin 4)].toNat }).judgeAvailability := by
  unfold Depot.plantRecord
  rw [recordByte_zero, hkind]
  rfl

theorem Depot.plantRecord_turbidity (hkind : firstByte r = 3) :
    d.plantRecord r now = (d.modifyWater (Water.turbiditySample r[(1 : Fin 4)].toNat)).judgeAvailability := by
  unfold Depot.plantRecord
  rw [recordByte_zero, hkind]
  rfl

theorem Depot.plantRecord_backwashStart (hkind : firstByte r = 4) :
    d.plantRecord r now = (d.modifyWater Water.backwashStart).judgeAvailability := by
  unfold Depot.plantRecord
  rw [recordByte_zero, hkind]
  rfl

theorem Depot.plantRecord_backwashEnd (hkind : firstByte r = 5) :
    d.plantRecord r now = (d.modifyWater Water.backwashEnd).judgeAvailability := by
  unfold Depot.plantRecord
  rw [recordByte_zero, hkind]
  rfl

end

/-- A plant record that changes the water to `u`, followed by the judgement of availability. -/
theorem State.Completes.becomes_judged {s : State} {addr : Addr} {data : Word} {be : Enables} {req : Requester}
    {slot : Nat} {r : Vector Word 4} (h : s.Completes .plant addr data be req slot r)
    (hrange : ¬ RecordKind.plant.fails s.part.capture.minQuality r) {f : Water → Water} {u : Water}
    (hd : s.part.depot.plantRecord r s.part.calendar.now = (s.part.depot.modifyWater f).judgeAvailability)
    (hu : f s.part.depot.water = u) (havailable : u.available = s.part.depot.water.available) :
    ∃ t, exec (.upstreamWrite addr data be req) s = .next t ∧
      s.becomesOrWrites
        (((s.recordTaken .plant addr data be req slot).withWater
          { u with available := u.quality = .qualified ∧ u.floor ≤ u.level }).withPending
            (if s.part.depot.water.available = decide (u.quality = .qualified ∧ u.floor ≤ u.level)
              then 0 else 0x400#16)) t := by
  subst hu
  exact h.becomes_plant hrange hd
    (Part.judgeAvailability_withWater (s.recordTaken .plant addr data be req slot) (f s.part.depot.water) havailable)

/-- Settles O32: each record makes one change of the water, and availability is judged after it. -/
theorem plantRecordsMoveTheQualityMachine : Obligations.PlantRecordsMoveTheQualityMachine := by
  rintro s addr data be req slot r w u v h rfl rfl hcase
  rcases hcase with ⟨hkind, hgauge, rfl⟩ | ⟨hkind, hgauge, hjudged⟩ | ⟨hkind, rfl⟩ | ⟨hkind, hjudged⟩
  · exact h.becomes_judged (by rintro (h | h | h | h | h) <;> omega) (Depot.plantRecord_level _ _ hkind) rfl rfl
  · have hturbidity := @fun u => h.becomes_judged (u := u) (by rintro (h | h | h | h | h) <;> omega)
      (Depot.plantRecord_turbidity _ _ hkind)
    rcases hjudged with ⟨hq, hv, rfl⟩ | ⟨hq, hv, rfl⟩ | ⟨hq, hv, rfl⟩ | ⟨hq, hv, rfl⟩ | ⟨hq, rfl⟩
    · exact hturbidity _ (Water.turbiditySample_sampling_good _ _ hq hv) rfl
    · exact hturbidity _ (Water.turbiditySample_sampling_bad _ _ hq hv) rfl
    · exact hturbidity _ ((Water.turbiditySample_qualified_bad _ _ hq hv).trans (Water.enterSampling_eq _)) rfl
    · exact hturbidity _ (Water.turbiditySample_qualified_good _ _ hq hv) rfl
    · exact hturbidity _ (Water.turbiditySample_unjudged _ _ hq) rfl
  · exact h.becomes_judged (by rintro (h | h | h | h | h) <;> omega) (Depot.plantRecord_backwashStart _ _ hkind) rfl rfl
  · have hend := @fun u => h.becomes_judged (u := u) (by rintro (h | h | h | h | h) <;> omega)
      (Depot.plantRecord_backwashEnd _ _ hkind)
    rcases hjudged with ⟨hq, rfl⟩ | ⟨hq, hsettle, rfl⟩ | ⟨hq, hsettle, rfl⟩
    · exact hend _ (Water.backwashEnd_other _ hq) rfl
    · exact hend _ (Water.backwashEnd_settles _ hq hsettle) rfl
    · exact hend _ ((Water.backwashEnd_samples _ hq hsettle).trans (Water.enterSampling_eq _)) rfl

/-! ## Meters (R88 to R91, R98) -/

theorem Depot.meterSample_first (now : Calendar) (m : Fin 20) (v : Nat) (d : Depot)
    (h : d.water.meters[m].baseline = none) :
    d.meterSample now m v = d.modifyMeter m fun x => { x with baseline := some v } := by
  unfold Depot.meterSample
  rw [h]

theorem Depot.meterSample_jump (now : Calendar) (m : Fin 20) (v : Nat) (d : Depot) {old : Nat}
    (h : d.water.meters[m].baseline = some old) (hlimit : 0 < d.water.jumpLimit)
    (hjump : d.water.jumpLimit < (v + 4294967296 - old) % 4294967296) :
    d.meterSample now m v = d.meterJump now m old v := by
  unfold Depot.meterSample
  rw [h]
  exact if_pos (Bool.and_eq_true_iff.mpr ⟨decide_eq_true hlimit, decide_eq_true hjump⟩)

theorem Depot.meterSample_applied (now : Calendar) (m : Fin 20) (v : Nat) (d : Depot) {old : Nat}
    (h : d.water.meters[m].baseline = some old)
    (hjump : d.water.jumpLimit = 0 ∨ (v + 4294967296 - old) % 4294967296 ≤ d.water.jumpLimit) :
    d.meterSample now m v =
      (d.modifyMeter m fun x => { x with baseline := some v }).applyDelta m ((v + 4294967296 - old) % 4294967296) := by
  unfold Depot.meterSample
  rw [h]
  refine if_neg fun hin => ?_
  obtain ⟨hlimit, hdelta⟩ := Bool.and_eq_true_iff.mp hin
  have hlimit : 0 < d.water.jumpLimit := of_decide_eq_true hlimit
  have hdelta : d.water.jumpLimit < (v + 4294967296 - old) % 4294967296 := of_decide_eq_true hdelta
  rcases hjump with h | h
  · omega
  · exact Nat.not_lt.mpr h hdelta

theorem Depot.applyDelta_plant (m : Fin 20) (litres : Nat) (d : Depot) (h : 16 < m.val) :
    d.applyDelta m litres = d.modifyWater fun w => { w with totals := w.totals.plantDelta m.val litres } :=
  (if_neg (by omega)).trans ((if_neg (by omega)).trans (if_neg (by omega)))

theorem Depot.applyDelta_intake (m : Fin 20) (litres : Nat) (d : Depot) (h : m.val = 16) :
    d.applyDelta m litres =
      (d.modifyWater fun w => { w with totals := w.totals.plantDelta m.val litres }).evaluateStage :=
  (if_neg (by omega)).trans ((if_neg (by omega)).trans (if_pos h))

/-- The evaluation of the stage as the statement writes it (R106, R107). -/
theorem Part.evaluateStage_withWater (x : Part) (u : Water) (stage old : Stage)
    (hstage : stage = stageOf u.totals.intake u.quota u.percent) (hold : u.stage = old) :
    { x with depot := (x.depot.modifyWater fun _ => u).evaluateStage } =
      (x.withWater { u with stage := stage }).withPending (if stage = old then 0 else 0x200#16) := by
  subst hstage hold
  rw [Depot.evaluateStage_eq, Part.withPending, ← pending_unless]
  rfl

/-- Settles O30: the first sample, the jump with and without a fault pending, and the day totals. -/
theorem meterSamplesMoveTheBaseline : Obligations.MeterSamplesMoveTheBaseline := by
  rintro s addr data be req slot r m x w v h hkind hm rfl rfl rfl
  have hlt := m.isLt
  have hbecomes : ∀ {d : Depot} {x : Part},
      s.part.depot.meterSample s.part.calendar.now m r[(1 : Fin 4)].toNat = d →
      { s.recordTaken .plant addr data be req slot with depot := d } = x →
      ∃ t, exec (.upstreamWrite addr data be req) s = .next t ∧ s.becomesOrWrites x t := fun hd hx =>
    h.becomes_plant (by rintro (h | h | h | h | h) <;> omega) ((Depot.plantRecord_meter _ _ hkind hm).trans hd) hx
  refine ⟨fun hfirst => hbecomes (Depot.meterSample_first _ m _ _ hfirst) rfl, fun old d hold hd => ?_⟩
  subst hd
  refine ⟨fun hlimit hjump => ⟨fun hpending => ?_, fun hpending => ?_⟩, fun hsmall w1 hw1 =>
    ⟨fun h16 stage hstage => ?_, fun h17 => ?_, fun h18 => ?_, fun h19 => ?_⟩⟩
  · have hjumped := Depot.meterSample_jump s.part.calendar.now m _ _ hold hlimit hjump
    exact hbecomes (hjumped.trans (if_pos hpending)) rfl
  · have hjumped := Depot.meterSample_jump s.part.calendar.now m _ _ hold hlimit hjump
    obtain ⟨t, hexec, hwrites⟩ := hbecomes
      (hjumped.trans (if_neg (Bool.eq_false_iff.mp hpending))) rfl
    exact ⟨t, _, hexec, Part.placed_placeClaim s.part.calendar.now _ _ (fun a => nofun), hwrites⟩
  · obtain rfl : m = 16 := Fin.ext h16
    subst hw1
    exact hbecomes ((Depot.meterSample_applied s.part.calendar.now 16 _ _ hold hsmall).trans
      (Depot.applyDelta_intake 16 _ _ rfl))
      (Part.evaluateStage_withWater (s.recordTaken .plant addr data be req slot) _ stage _ hstage rfl)
  · obtain rfl : m = 17 := Fin.ext h17
    subst hw1
    exact hbecomes ((Depot.meterSample_applied s.part.calendar.now 17 _ _ hold hsmall).trans
      (Depot.applyDelta_plant 17 _ _ (by decide))) rfl
  · obtain rfl : m = 18 := Fin.ext h18
    subst hw1
    exact hbecomes ((Depot.meterSample_applied s.part.calendar.now 18 _ _ hold hsmall).trans
      (Depot.applyDelta_plant 18 _ _ (by decide))) rfl
  · obtain rfl : m = 19 := Fin.ext h19
    subst hw1
    exact hbecomes ((Depot.meterSample_applied s.part.calendar.now 19 _ _ hold hsmall).trans
      (Depot.applyDelta_plant 19 _ _ (by decide))) rfl

end Sys2Proof.Machine
end

section
/-!
PROOF. The attribution of a bay meter's delta: the session's lines or its unused volumes, the day totals, and the silence
timer (R76, R96, R97).
-/

namespace Sys2Proof.Machine

open Sys2Proof

/-! ## The kinds of a bay's water (R96, R97) -/

/-- The kind of water of a bay meter. -/
def WaterKind.of (reclaim : Bool) : WaterKind := if reclaim then .reclaim else .fresh

theorem Line.draw_eq (reclaim c conceded : Bool) (litres : Nat) (l : Line) (h : conceded = (!reclaim && c)) :
    Line.draw (WaterKind.of reclaim) c litres l =
      { l with
        fresh := if reclaim = false ∧ conceded = false then min 16777215 (l.fresh + litres) else l.fresh
        conceded := if conceded = true then min 16777215 (l.conceded + litres) else l.conceded
        reclaim := if reclaim = true then min 16777215 (l.reclaim + litres) else l.reclaim } := by
  subst h
  cases reclaim <;> cases c <;> rfl

theorem Session.drawUnused_eq (reclaim : Bool) (litres : Nat) (s : Session) :
    s.drawUnused (WaterKind.of reclaim) litres =
      { s with
        unusedFresh := if reclaim = false then min 16777215 (s.unusedFresh + litres) else s.unusedFresh
        unusedReclaim := if reclaim = true then min 16777215 (s.unusedReclaim + litres) else s.unusedReclaim } := by
  cases reclaim <;> rfl

theorem Water.drawTotals_washing (b : Fin 8) (reclaim c conceded : Bool) (litres : Nat) (w : Water)
    (h : conceded = (!reclaim && c)) :
    w.drawTotals b (WaterKind.of reclaim) true c litres =
      { w with
        totals := { w.totals with
          bayFresh := if reclaim = false then min 4294967295 (w.totals.bayFresh + litres) else w.totals.bayFresh
          bayReclaim := if reclaim = true then min 4294967295 (w.totals.bayReclaim + litres) else w.totals.bayReclaim
          concededFresh := if conceded = true then min 4294967295 (w.totals.concededFresh + litres)
            else w.totals.concededFresh } } := by
  subst h
  cases reclaim <;> cases c <;> rfl

theorem Water.drawTotals_idle (b : Fin 8) (reclaim c : Bool) (litres : Nat) (w : Water) :
    w.drawTotals b (WaterKind.of reclaim) false c litres =
      { w with
        totals := { w.totals with
          bayFresh := if reclaim = false then min 4294967295 (w.totals.bayFresh + litres) else w.totals.bayFresh
          bayReclaim := if reclaim = true then min 4294967295 (w.totals.bayReclaim + litres) else w.totals.bayReclaim
          unattributedFresh := if reclaim = false then min 4294967295 (w.totals.unattributedFresh + litres)
            else w.totals.unattributedFresh
          unattributedReclaim := if reclaim = true then min 4294967295 (w.totals.unattributedReclaim + litres)
            else w.totals.unattributedReclaim }
        unattributed := w.unattributed.set b
          { fresh := if reclaim = false then min 16777215 (w.unattributed[b].fresh + litres)
              else w.unattributed[b].fresh
            reclaim := if reclaim = true then min 16777215 (w.unattributed[b].reclaim + litres)
              else w.unattributed[b].reclaim } } := by
  cases reclaim <;> rfl

/-! ## The running line (R62, R76) -/

section
variable {done : List Line} {l : Line} (hstop : l.stop = none) (hdone : ∀ k ∈ done, k.stop ≠ none)
include hstop hdone

theorem running_last : (done ++ [l]).find? Line.running = some l := by
  have hnone : done.find? Line.running = none := List.find?_eq_none.mpr fun k hk => by
    simp [Line.running, Option.isNone_iff_eq_none, hdone k hk]
  simp [List.find?_append, hnone, Line.running, hstop]

theorem modifyRunning_last (f : Line → Line) :
    (done ++ [l]).map (fun k => if k.running then f k else k) = done ++ [f l] := by
  have hkept : done.map (fun k => if k.running then f k else k) = done :=
    (List.map_congr_left fun k hk => if_neg (by simp [Line.running, Option.isNone_iff_eq_none, hdone k hk])).trans
      (List.map_id _)
  rw [List.map_append, hkept]
  exact congrArg (fun k => done ++ [k]) (if_pos (Option.isNone_iff_eq_none.mpr hstop))

end

theorem Depot.concedes_last (d : Depot) (b : Fin 8) {done : List Line} {l : Line}
    (hlines : (d.session b).lines = done ++ [l]) (hstop : l.stop = none) (hdone : ∀ k ∈ done, k.stop ≠ none) :
    d.concedes b = (!d.charge.programs[l.program].freshRequired && !d.water.available) := by
  unfold Depot.concedes Session.runningLine
  rw [hlines, running_last hstop hdone]

/-! ## The delta at the session (R76) -/

theorem Depot.modifyBay_silence (b : Fin 8) (f : Session → Session) (litres : Nat) (d : Depot) (active : Bool) :
    (if 1 ≤ litres ∧ active = true then (d.modifySession b f).restartSilence b else d.modifySession b f) =
      d.modifyBay b fun y =>
        { y with
          silence := if 1 ≤ litres ∧ active = true then some (2 * d.sessions.silenceLimit) else y.silence
          session := f y.session } := by
  split
  · rw [Depot.restartSilence, Depot.modifySession, Depot.modifyBay_modifyBay]
    rfl
  · rfl

theorem Depot.drawSession_washing (b : Fin 8) (kind : WaterKind) (litres : Nat) (d : Depot)
    (h : (d.session b).state = .washing) :
    d.drawSession b kind litres = d.modifyBay b fun y =>
      { y with
        silence := if 1 ≤ litres ∧ (d.session b).state.active = true then some (2 * d.sessions.silenceLimit)
          else y.silence
        session := y.session.modifyRunning (Line.draw kind (d.concedes b) litres) } := by
  rw [← Depot.modifyBay_silence]
  unfold Depot.drawSession
  rw [h]

theorem Depot.modifySession_id (b : Fin 8) (d : Depot) : (d.modifySession b fun s => s) = d := by
  have hself : d.sessions.bays.set b d.sessions.bays[b] = d.sessions.bays := by simp
  exact congrArg (fun bays => ({ d with sessions := { d.sessions with bays := bays } } : Depot)) hself

theorem Depot.drawSession_idle (b : Fin 8) (kind : WaterKind) (litres : Nat) (d : Depot)
    (h : (d.session b).state ≠ .washing) :
    d.drawSession b kind litres = d.modifyBay b fun y =>
      { y with
        silence := if 1 ≤ litres ∧ (d.session b).state.active = true then some (2 * d.sessions.silenceLimit)
          else y.silence
        session := if (d.session b).state = .vacant then y.session else y.session.drawUnused kind litres } := by
  by_cases hvacant : (d.session b).state = .vacant
  · have hself := d.modifyBay_silence b (fun s => s) litres (d.session b).state.active
    rw [d.modifySession_id b] at hself
    simp only [if_pos hvacant]
    rw [← hself]
    unfold Depot.drawSession
    rw [hvacant]
  · simp only [if_neg hvacant]
    rw [← Depot.modifyBay_silence]
    unfold Depot.drawSession
    cases hstate : (d.session b).state
    case washing => exact absurd hstate h
    case vacant => exact absurd hstate hvacant
    all_goals rfl

/-! ## The bay of a meter (R96) -/

/-- Bay `b` after a delta: its silence timer restarted by a litre or more in ADMITTED and WASHING, its session `z`. -/
def Depot.drawnBay (d : Depot) (b : Fin 8) (litres : Nat) (z : Session) : Bay :=
  { d.bay b with
    silence := if 1 ≤ litres ∧ ((d.session b).state = .admitted ∨ (d.session b).state = .washing)
      then some (2 * d.sessions.silenceLimit) else (d.bay b).silence
    session := z }

theorem Depot.bayDelta_washing {b : Fin 8} {kind : WaterKind} {litres : Nat} (d : Depot) {z : Session} {u : Water}
    (h : (d.session b).state = .washing)
    (hz : (d.session b).modifyRunning (Line.draw kind (d.concedes b) litres) = z)
    (hu : d.water.drawTotals b kind true (d.concedes b) litres = u) :
    d.bayDelta b kind litres = { d.modifyBay b fun _ => d.drawnBay b litres z with water := u } := by
  subst hz hu
  have hwashing : ((d.session b).state == .washing) = true := beq_iff_eq.mpr h
  unfold Depot.bayDelta
  rw [Depot.drawSession_washing b kind litres d h, hwashing]
  simp only [SessionState.active_iff]
  rfl

theorem Depot.bayDelta_idle {b : Fin 8} {kind : WaterKind} {litres : Nat} (d : Depot) {z : Session} {u : Water}
    (h : (d.session b).state ≠ .washing)
    (hz : (if (d.session b).state = .vacant then d.session b else (d.session b).drawUnused kind litres) = z)
    (hu : d.water.drawTotals b kind false (d.concedes b) litres = u) :
    d.bayDelta b kind litres = { d.modifyBay b fun _ => d.drawnBay b litres z with water := u } := by
  subst hz hu
  have hidle : ((d.session b).state == .washing) = false := beq_eq_false_iff_ne.mpr h
  unfold Depot.bayDelta
  rw [Depot.drawSession_idle b kind litres d h, hidle]
  simp only [SessionState.active_iff]
  rfl

theorem Session.drawnUnused_eq (reclaim : Bool) (litres : Nat) (s : Session) :
    (if s.state = .vacant then s else s.drawUnused (WaterKind.of reclaim) litres) =
      { s with
        unusedFresh := if s.state ≠ .vacant ∧ reclaim = false then min 16777215 (s.unusedFresh + litres)
          else s.unusedFresh
        unusedReclaim := if s.state ≠ .vacant ∧ reclaim = true then min 16777215 (s.unusedReclaim + litres)
          else s.unusedReclaim } := by
  rw [Session.drawUnused_eq]
  by_cases hvacant : s.state = .vacant
  · simp only [hvacant, if_true, ne_eq, not_true_eq_false, false_and, if_false]
    rw [← hvacant]
  · simp only [hvacant, if_false, ne_eq, not_false_eq_true, true_and]

theorem Depot.applyDelta_bay (m : Fin 20) (b : Fin 8) (reclaim : Bool) (litres : Nat) (d : Depot)
    (hm : m.val = if reclaim = true then 8 + b.val else b.val) :
    d.applyDelta m litres = d.bayDelta b (WaterKind.of reclaim) litres := by
  have hlt := b.isLt
  unfold Depot.applyDelta
  cases reclaim with
  | true =>
    have hm : m.val = 8 + b.val := hm
    rw [if_neg (by omega), if_pos (by omega), show m.val - 8 = b.val by omega, Fin.ofNat_val_eq_self]
    rfl
  | false =>
    have hm : m.val = b.val := hm
    rw [if_pos (by omega), hm, Fin.ofNat_val_eq_self]
    rfl

/-- Settles O31: the delta at the session by its state, and the totals by the kind of water. -/
theorem bayWaterIsAttributed : Obligations.BayWaterIsAttributed := by
  rintro s addr data be req slot r b reclaim m x y w v old d silence h hkind hsecond hm rfl rfl rfl rfl hold rfl hsmall
    rfl
  generalize hd : (r[(1 : Fin 4)].toNat + 4294967296 - old) % 4294967296 = d at hsmall
  have hlt := m.isLt
  obtain ⟨d1, hd1⟩ : ∃ d1, d1 = s.part.depot.modifyMeter m fun x => { x with baseline := some r[(1 : Fin 4)].toNat } :=
    ⟨_, rfl⟩
  have hrecord : s.part.depot.plantRecord r s.part.calendar.now = d1.bayDelta b (WaterKind.of reclaim) d := by
    rw [Depot.plantRecord_meter _ _ hkind hsecond, Depot.meterSample_applied _ m _ _ hold (hd.symm ▸ hsmall), hd, hd1,
      Depot.applyDelta_bay m b reclaim d _ hm]
  have hbecomes : ∀ {z : Session} {u : Water},
      d1.bayDelta b (WaterKind.of reclaim) d = { d1.modifyBay b fun _ => d1.drawnBay b d z with water := u } →
      ∃ t, exec (.upstreamWrite addr data be req) s = .next t ∧ s.becomesOrWrites
        (((s.recordTaken .plant addr data be req slot).withBay b (s.part.depot.drawnBay b d z)).withWater u) t := by
    intro z u hdelta
    refine h.becomes_plant (by rintro (h | h | h | h | h) <;> omega) (hrecord.trans hdelta) ?_
    subst hd1
    rfl
  refine ⟨fun hwashing done l conceded hlines hstop hdone hconceded => ?_, fun hother => ?_⟩
  · have hc : conceded = (!reclaim && d1.concedes b) := by
      rw [hconceded, Depot.concedes_last d1 b (by subst hd1; exact hlines) hstop hdone, Bool.and_assoc, hd1]
      rfl
    have hrun : (d1.session b).modifyRunning (Line.draw (WaterKind.of reclaim) (d1.concedes b) d) =
        { s.part.depot.session b with
          lines := done ++ [Line.draw (WaterKind.of reclaim) (d1.concedes b) d l] } := by
      rw [← modifyRunning_last hstop hdone, ← hlines, hd1]
      rfl
    rw [Line.draw_eq reclaim _ conceded d l hc] at hrun
    have hwater := Water.drawTotals_washing b reclaim _ conceded d d1.water hc
    have hdelta := d1.bayDelta_washing (by subst hd1; exact hwashing) hrun hwater
    subst hd1
    exact hbecomes hdelta
  · have hunused := Session.drawnUnused_eq reclaim d (d1.session b)
    have hwater := Water.drawTotals_idle b reclaim (d1.concedes b) d d1.water
    have hdelta := d1.bayDelta_idle (by subst hd1; exact hother) hunused hwater
    subst hd1
    exact hbecomes hdelta

end Sys2Proof.Machine
end


section
/-!
PROOF. Expiries of timers, the tick and the boundaries of a day (R70, R78 to R82, R102, R108, R109, R155 to R165), and
the admission of the oldest claim (R142).
-/

namespace Sys2Proof.Machine

open Sys2Proof

/-! ## Expiries (R70, R78, R79, R102) -/

/-- An expiry that is due is the timer's event at its owner, with the stamp of the tick, and a record write may begin
after it. -/
theorem State.expire_eq (s : State) (t : Timer) (hdue : s.part.depot.expiryDue t = true)
    (hd : s.part.path.deferred = []) :
    s.event (Part.expire t) =
      { s with
        part := ({ s.part.begin with
          depot := ((s.part.depot.expiry t s.part.calendar.tickStamp).startWrite s.part.path.ring) } :
            Part).arbitrate } :=
  State.event_eq s _ _ (if_pos hdue) hd

/-- An expiry of a bay's timer that stops the timer and closes the session. -/
theorem State.expire_closes (s : State) (t : Timer) (b : Fin 8) (y : Bay) (reason : CloseReason)
    (hdue : s.part.depot.expiryDue t = true) (hd : s.part.path.deferred = [])
    (hcloses : s.part.depot.expiry t s.part.calendar.tickStamp =
      Depot.closeSession s.part.calendar.tickStamp b reason (s.part.begin.withBay b y).depot) :
    ∃ q, (s.part.begin.withBay b y).closed b reason s.part.calendar.tickStamp q ∧
      s.becomesOrWrites q (s.event (Part.expire t)) := by
  refine ⟨_, Part.closed_closeSession _ b reason _, ?_⟩
  rw [State.expire_eq s t hdue hd, hcloses]
  exact State.becomesOrWrites_startWrite s
    { s.part.begin.withBay b y with
      depot := Depot.closeSession s.part.calendar.tickStamp b reason (s.part.begin.withBay b y).depot } _

theorem Depot.silenceExpiry_active (now : Calendar) (b : Fin 8) (d : Depot)
    (h : (d.session b).state = .admitted ∨ (d.session b).state = .washing) :
    d.silenceExpiry now b =
      (d.modifyBay b fun y =>
        { y with silence := none, session := { y.session with abandoned := true } }).closeSession now b .silence := by
  unfold Depot.silenceExpiry Depot.modifySession
  rw [if_pos ((SessionState.active_iff _).2 h), Depot.modifyBay_modifyBay]

theorem Depot.holdExpiry_held (now : Calendar) (b : Fin 8) (d : Depot) (h : (d.session b).state = .held) :
    d.holdExpiry now b = (d.modifyBay b fun y => { y with hold := none }).closeSession now b .holdExpired :=
  if_pos h

/-- Settles O33: either expiry stops its timer and closes the session. -/
theorem timerExpiryClosesTheSession : Obligations.TimerExpiryClosesTheSession := by
  rintro s b x y hd rfl rfl
  refine ⟨fun hdue hstate => ?silence, fun hdue hstate => ?hold⟩
  case silence =>
    obtain ⟨q, hclosed, hwrites⟩ := State.expire_closes s (.silence b) b _ .silence (beq_iff_eq.2 hdue) hd
      (Depot.silenceExpiry_active _ b _ hstate)
    exact ⟨_, q, rfl, hclosed, hwrites⟩
  case hold =>
    obtain ⟨q, hclosed, hwrites⟩ := State.expire_closes s (.hold b) b _ .holdExpired (beq_iff_eq.2 hdue) hd
      (Depot.holdExpiry_held _ b _ hstate)
    exact ⟨_, q, rfl, hclosed, hwrites⟩

/-- A change of the quality machine into a state in which no water is available changes the water alone, and a cause. -/
theorem Depot.qualityEvent_unavailable (f : Water → Water) (d : Depot)
    (h : (f d.water).judgedAvailable = false) :
    (d.qualityEvent f).water = { f d.water with available := false } ∧
      (d.qualityEvent f).sessions = d.sessions ∧ (d.qualityEvent f).charge = d.charge := by
  have hjudged : (d.modifyWater f).water.judgedAvailable = false := h
  unfold Depot.qualityEvent
  rw [Depot.judgeAvailability_eq, hjudged]
  exact ⟨rfl, rfl, rfl⟩

/-- What a due expiry of the quality timer leaves, where the machine goes on to `w` with no water available. -/
theorem State.expire_quality (s : State) (w : Water) (hd : s.part.path.deferred = [])
    (hdue : s.part.depot.water.qualityTimer = some 0) (hw : s.part.depot.water.qualityExpiry = w)
    (hjudged : w.judgedAvailable = false) :
    ∃ t, exec .qualityTimerExpiry s = .next t ∧ t.mem = s.mem ∧
      t.part.depot.water = { w with available := false } ∧
      t.part.depot.sessions = s.part.depot.sessions ∧ t.part.depot.charge = s.part.depot.charge := by
  subst hw
  obtain ⟨hwater, hsessions, hcharge⟩ := Depot.qualityEvent_unavailable _ _ hjudged
  have hexec : exec .qualityTimerExpiry s = .next (s.event (Part.expire .quality)) := rfl
  refine ⟨_, hexec, ?_⟩
  rw [State.expire_eq s .quality (beq_iff_eq.2 hdue) hd]
  refine ⟨rfl, ?_, ?_, ?_⟩
  · simp [Depot.expiry, hwater]
  · simp [Depot.expiry, hsessions]
  · simp [Depot.expiry, hcharge]

theorem Water.qualityExpiry_settling (w : Water) (h : w.quality = .settling) : w.qualityExpiry = w.enterSampling := by
  unfold Water.qualityExpiry
  rw [h]

theorem Water.qualityExpiry_sampling (w : Water) (h : w.quality = .sampling) :
    w.qualityExpiry = { w with quality := .rejected, qualityTimer := none } := by
  unfold Water.qualityExpiry
  rw [h]

/-- Settles O34: SETTLING goes on to SAMPLING or past it, SAMPLING to REJECTED, and in none is water available. -/
theorem qualityExpiryMovesTheMachine : Obligations.QualityExpiryMovesTheMachine := by
  intro s hd hdue
  refine ⟨fun hsettling => ?_, fun hsampling => ?_⟩
  · have h := State.expire_quality s _ hd hdue (Water.qualityExpiry_settling _ hsettling)
      (Water.enterSampling_unavailable _)
    rwa [Water.enterSampling_eq] at h
  · exact State.expire_quality s _ hd hdue (Water.qualityExpiry_sampling _ hsampling) rfl

/-! ## The admission of the oldest claim (R142) -/

/-- Settles O38: the judgement of the waiting list admits its oldest claim and stops there. -/
theorem fittingClaimIsAdmitted : Obligations.FittingClaimIsAdmitted := by
  rintro s c rest x hd hwaiting hroom rfl hnext hcalm
  have hexec : exec .claimAdmission s = .next (s.event fun p => p.onDepot Depot.judgeClaims) := rfl
  exact ⟨_, _, hexec, Part.admits_judgeClaims c rest s.part.begin hwaiting hroom hnext hcalm,
    State.becomesOrWrites_of_eq
      (x := { s.part.begin with depot := s.part.depot.judgeClaims s.part.calendar.now })
      (State.event_onDepot s Depot.judgeClaims _ rfl hd) rfl⟩

/-! ## The tick (R155 to R159) -/

/-- A tick where no timer expires is its boundaries, at the part a tick later. -/
theorem State.tick_event (s : State) (o : TickOrder) (n : Calendar) (y : Part)
    (hn : halfSecondLater s.part.calendar.now n) (htimers : s.timersRunOn)
    (hy : (s.part.ticked n).boundaries o = y) (hd : y.path.deferred = []) :
    exec (.halfSecondTick o) s = .next { s with part := y.arbitrate } := by
  have hexec : exec (.halfSecondTick o) s = .next (s.event (Part.tick o)) := rfl
  rw [hexec, State.event_eq s _ y ((Part.tick_quiet s o n hn htimers).1.trans hy) hd]

/-- Settles O35: the calendar of a tick, and a tick with no expiry and no boundary. -/
theorem tickAdvancesCalendarAndTimers : Obligations.TickAdvancesCalendarAndTimers := by
  rintro s o ⟨hsound, -, -⟩ hd
  have hn := halfSecondLater_of_sound hsound
  refine ⟨_, hn, fun htimers hquota hperiod => ?_⟩
  have hnone := Part.boundaries_none _ o (Part.tick_quiet s o _ hn htimers).2 hquota hperiod
  exact ⟨_, State.tick_event s o _ (s.part.ticked s.part.calendar.now.tick) hn htimers hnone hd,
    State.becomes_arbitrate s _⟩

end Sys2Proof.Machine
end


section
/-!
PROOF. The quota-day boundary of a tick (R108, R109, R142, R164).
-/

namespace Sys2Proof.Machine

open Sys2Proof

/-! ## The QUOTA_DAY claim (R108, R142) -/

theorem Claim.isQuotaDay_iff (c : Claim) : c.isQuotaDay = true ↔ c.claimant = 9 := by
  cases c with
  | bay b records =>
    have := b.isLt
    simp [Claim.isQuotaDay, Claim.claimant]
    omega
  | meter m old new stamp =>
    simp [Claim.isQuotaDay, Claim.claimant]
    omega
  | sweep a => simp [Claim.isQuotaDay, Claim.claimant]
  | quotaDay totals stamp overrun => simp [Claim.isQuotaDay, Claim.claimant]
  | restart lostBays lostRecords resumed stamp => simp [Claim.isQuotaDay, Claim.claimant]

theorem Claim.overwrite_other (totals : DayTotals) (stamp : Stamp) (c : Claim) (h : c.claimant ≠ 9) :
    c.overwrite totals stamp = c := if_neg (mt c.isQuotaDay_iff.1 h)

theorem map_overwrite_others (totals : DayTotals) (stamp : Stamp) (l : List Claim) (h : ∀ c ∈ l, c.claimant ≠ 9) :
    l.map (Claim.overwrite totals stamp) = l :=
  (List.map_congr_left fun c hc => c.overwrite_other totals stamp (h c hc)).trans l.map_id'

section
variable (now : Calendar) (d : Depot)

/-- A claim that waits is overwritten in its place. -/
theorem Depot.claimQuotaDay_overwrites {older younger : List Claim} {totals : DayTotals} {stamp : Stamp}
    {overrun : Bool} (hwaiting : d.journal.waiting = older ++ .quotaDay totals stamp overrun :: younger)
    (hothers : ∀ c ∈ older ++ younger, c.claimant ≠ 9) :
    d.claimQuotaDay now =
      { d with journal := { d.journal with
          waiting := older ++ .quotaDay d.water.totals now true :: younger } } := by
  have hwaits : d.journal.waiting.any Claim.isQuotaDay = true := by
    rw [hwaiting, List.any_append, List.any_cons]
    simp [Claim.isQuotaDay]
  have holder : ∀ c ∈ older, c.claimant ≠ 9 := fun c hc => hothers c (List.mem_append_left _ hc)
  have hyounger : ∀ c ∈ younger, c.claimant ≠ 9 := fun c hc => hothers c (List.mem_append_right _ hc)
  unfold Depot.claimQuotaDay Depot.listQuotaDay
  rw [if_pos hwaits, if_pos hwaits]
  simp only [Depot.modifyJournal]
  rw [hwaiting, List.map_append, List.map_cons, map_overwrite_others _ _ _ holder, map_overwrite_others _ _ _ hyounger]
  rfl

/-- Where none waits a new claim is placed. -/
theorem Depot.claimQuotaDay_places (h : ∀ c ∈ d.journal.waiting, c.claimant ≠ 9) :
    d.claimQuotaDay now = d.placeClaim now (.quotaDay d.water.totals now false) := by
  have hnone : ¬ d.journal.waiting.any Claim.isQuotaDay = true := by
    rw [List.any_eq_true]
    rintro ⟨c, hc, hday⟩
    exact h c hc (c.isQuotaDay_iff.1 hday)
  unfold Depot.claimQuotaDay Depot.listQuotaDay
  rw [if_neg hnone, if_neg hnone]
  rfl

/-- A claim that is placed where no claim that waits fits either waits or fits. -/
theorem Journal.claimWaits_or_fits {j : Journal} (c : Claim) (hbound : j.queue.length ≤ 8) (hsettled : j.settled) :
    j.claimWaits c ∨ j.claimFits c := by
  cases hw : j.waiting with
  | nil =>
    by_cases hroom : j.queue.length + c.size ≤ 8
    · exact Or.inr ⟨hw, hroom⟩
    · exact Or.inl ⟨hbound, fun _ => by omega, fun old rest h => absurd (hw.symm.trans h) (by simp)⟩
  | cons old rest =>
    exact Or.inl ⟨hbound, fun h => absurd (hw.symm.trans h) (by simp), hsettled⟩

/-- A placed QUOTA_DAY claim touches neither the sessions nor the water. -/
theorem Depot.placeClaim_quotaDay (totals : DayTotals) (stamp : Stamp) (overrun : Bool)
    (hbound : d.journal.queue.length ≤ 8) (hsettled : d.journal.settled) :
    (d.placeClaim now (.quotaDay totals stamp overrun)).sessions = d.sessions ∧
      (d.placeClaim now (.quotaDay totals stamp overrun)).water = d.water := by
  rcases Journal.claimWaits_or_fits (.quotaDay totals stamp overrun) hbound hsettled with h | h
  · rw [d.placeClaim_waits now _ h]
    exact ⟨rfl, rfl⟩
  · rw [(d.placeClaim_fits now _ (by simp) h).1]
    exact ⟨rfl, rfl⟩

end

/-! ## The boundary (R108, R164) -/

/-- The stage at the start of a day: no intake reaches the quota, unless there is none (R106). -/
theorem stageOf_zero (quota percent : Nat) :
    stageOf 0 quota percent = if quota = 0 ∨ 0 < quota * percent / 100 then .normal else .conserve := by
  unfold stageOf
  split
  · rfl
  · next h => exact if_pos (Nat.pos_of_ne_zero fun h0 => h (Or.inl h0))

/-- The water at the start of a day. -/
def Water.newDay (stage : Stage) (w : Water) : Water :=
  { w with totals := {}, unattributed := Vector.replicate 8 {}, stage := stage }

/-- A tick whose one event is the quota-day boundary: the claim, which leaves the sessions and the water, and the new
day. -/
theorem State.tick_quotaDay (s : State) (o : TickOrder) (n : Calendar) (e : Depot) (stage : Stage)
    (hd : s.part.path.deferred = []) (htimers : s.timersRunOn) (hn : halfSecondLater s.part.calendar.now n)
    (hquota : s.part.calendar.quotaDayAt n) (hperiod : ¬ s.part.calendar.periodAt n)
    (hclaim : (s.part.ticked n).depot.claimQuotaDay n = e)
    (hsessions : e.sessions = (s.part.ticked n).depot.sessions) (hwater : e.water = (s.part.ticked n).depot.water)
    (hstage : stageOf 0 s.part.depot.water.quota s.part.depot.water.percent = stage) :
    ∃ t, exec (.halfSecondTick o) s = .next t ∧
      s.becomesOrWrites
        ((Part.withWater ((s.part.ticked n).depot.water.newDay stage) { s.part.ticked n with depot := e }).withPending
          (if stage = s.part.depot.water.stage then 0 else 0x200#16)) t := by
  obtain ⟨_, hnone⟩ := Part.tick_quiet s o n hn htimers
  have hday := Depot.startDay_eq e stage (by rw [hwater]; exact hstage)
  have hboundary : (s.part.ticked n).depot.quotaBoundary n = e.startDay := congrArg Depot.startDay hclaim
  have hafter : ((s.part.ticked n).onTick Depot.quotaBoundary).depot.noneDue := by
    refine Part.onTick_noneDue hnone ?_ ?_
    · exact (congrArg Depot.sessions (hboundary.trans hday)).trans hsessions
    · exact (congrArg (fun d : Depot => d.water.qualityTimer) (hboundary.trans hday)).trans
        (by rw [← hwater])
  refine ⟨_, State.tick_event s o n _ hn htimers (Part.boundaries_quotaDay _ o hnone hafter hquota hperiod) hd, ?_⟩
  refine State.becomesOrWrites_of_eq (x := { s.part.ticked n with depot := (s.part.ticked n).depot.quotaBoundary n })
    rfl ?_
  rw [hboundary, hday, hwater]
  rfl

/-- Settles O36: the claim is placed, or the one that waits overwritten, and the new day starts. -/
theorem quotaHourClosesTheDay : Obligations.QuotaHourClosesTheDay := by
  rintro s o n x w stage hd htimers hn hquota hperiod rfl hstage rfl
  have hzero := (stageOf_zero _ _).trans hstage.symm
  refine ⟨fun hothers hsettled => ?_, fun older younger totals stamp overrun hwaiting hothers => ?_⟩
  · obtain ⟨hbound, hjournal⟩ := hsettled
    have hplaces := Depot.claimQuotaDay_places n (s.part.ticked n).depot hothers
    obtain ⟨hsessions, hwater⟩ :=
      Depot.placeClaim_quotaDay n (s.part.ticked n).depot s.part.depot.water.totals n false hbound hjournal
    obtain ⟨t, hexec, hwrites⟩ :=
      State.tick_quotaDay s o n _ stage hd htimers hn hquota hperiod hplaces hsessions hwater hzero
    exact ⟨t, _, hexec, Part.placed_placeClaim n _ (s.part.ticked n) (by simp), hwrites⟩
  · exact State.tick_quotaDay s o n _ stage hd htimers hn hquota hperiod
      (Depot.claimQuotaDay_overwrites n (s.part.ticked n).depot hwaiting hothers) rfl rfl hzero

end Sys2Proof.Machine
end


section
/-!
PROOF. The period boundary of a tick (R120, R145, R146, R148, R164).
-/

namespace Sys2Proof.Machine

open Sys2Proof

/-! ## The new period at the Journal Unit (R145, R146) -/

section
variable (d : Depot)

/-- A new period where no account has charges: every account is reset and the sweep ends. -/
theorem Depot.beginPeriod_ends (hcalm : d.noCreditHold) (hsweep : d.journal.sweep = none)
    (hzero : ∀ a : Fin 64, (d.account a).count = 0) :
    ∃ accounts : Vector Account 64,
      d.beginPeriod =
        { d with
          charge := { d.charge with accounts := accounts }
          journal := { d.journal with period := d.journal.period + 1 }
          notices := { d.notices with pending := d.notices.pending ||| 0x80#16 } } ∧
      ∀ a : Fin 64, accounts[a] = (d.account a).zeroed (d.journal.period + 1) := by
  obtain ⟨accounts, hwalk, haccounts⟩ := Depot.walk_ends_eq 0
    (d.modifyJournal fun j => { j with period := j.period + 1, sweep := some 0 }) hcalm fun a _ => hzero a
  refine ⟨accounts, hwalk.trans ?_, fun a => (haccounts a).trans (if_pos (Nat.zero_le _))⟩
  rw [← hsweep]
  rfl

/-- A new period where account `a` is the first with charges: the accounts below it are reset and it gets the sweep's
claim. -/
theorem Depot.beginPeriod_stops (a : Fin 64) (hcalm : d.noCreditHold) (ha : (d.account a).count ≠ 0)
    (hzero : ∀ b : Fin 64, b < a → (d.account b).count = 0) :
    ∃ accounts : Vector Account 64,
      d.beginPeriod =
        { d with
          charge := { d.charge with accounts := accounts }
          journal := { d.journal with
            period := d.journal.period + 1, sweep := some a, waiting := d.journal.waiting ++ [.sweep a] } } ∧
      ∀ b : Fin 64, accounts[b] = if b < a then (d.account b).zeroed (d.journal.period + 1) else d.account b := by
  obtain ⟨accounts, hwalk, haccounts⟩ := Depot.walk_stops_eq 0 a
    (d.modifyJournal fun j => { j with period := j.period + 1, sweep := some 0 }) hcalm (Nat.zero_le _)
    (fun b _ hb => hzero b hb) ha
  refine ⟨accounts, hwalk, fun b => (haccounts b).trans ?_⟩
  simp only [Nat.zero_le, true_and]
  rfl

theorem Depot.periodBoundary_pending (now : Calendar) (hsweep : d.journal.sweep ≠ none)
    (hpending : d.journal.boundaryPending = false) :
    d.periodBoundary now = d.modifyJournal fun j => { j with boundaryPending := true } := by
  have hsome : d.journal.sweep.isSome = true := Option.isSome_iff_ne_none.2 hsweep
  unfold Depot.periodBoundary Depot.takeBoundary
  rw [if_pos hsome, if_pos hsome, if_neg (by simp [hpending])]

theorem Depot.periodBoundary_merged (now : Calendar) (hsweep : d.journal.sweep ≠ none)
    (hpending : d.journal.boundaryPending = true) : d.periodBoundary now = d.raise .periodOverrun := by
  have hsome : d.journal.sweep.isSome = true := Option.isSome_iff_ne_none.2 hsweep
  unfold Depot.periodBoundary Depot.takeBoundary
  rw [if_pos hsome, if_pos hsome, if_pos hpending]

theorem Depot.periodBoundary_begins (now : Calendar) (hsweep : d.journal.sweep = none) :
    d.periodBoundary now = d.beginPeriod.judgeClaims now := by
  unfold Depot.periodBoundary Depot.takeBoundary
  rw [hsweep]
  rfl

/-- The sweep's claim alone waits and the queue has room: its record joins the queue, its account is reset, and what
the sweep then does leaves the period and the accounts up to it, and adds records at the queue's tail. -/
theorem Depot.judgeClaims_sweepAlone (now : Calendar) (a : Fin 64) (hcalm : d.noCreditHold)
    (hwaiting : d.journal.waiting = [.sweep a]) (hroom : d.journal.queue.length < 8)
    (hpending : d.journal.boundaryPending = false) :
    (d.judgeClaims now).journal.period = d.journal.period ∧
      (∃ later, (d.judgeClaims now).journal.queue = d.journal.queue ++ d.totalOf now a :: later) ∧
      ∀ b : Fin 64, b ≤ a → (d.judgeClaims now).account b =
        if b = a then (d.account a).zeroed d.journal.period else d.account b := by
  obtain ⟨e, he⟩ : ∃ e, e =
      ((d.modifyJournal fun j => { j with waiting := [] }).enqueue (d.totalOf now a)).resetAccount a := ⟨_, rfl⟩
  have heq := he.trans (Depot.resetAccount_eq a _ hcalm)
  have habove : Above (a.val + 1) e := by
    rw [heq]
    exact ⟨hcalm, hpending, by simp [Depot.modifyAccount, Depot.enqueue, Depot.modifyJournal]⟩
  have hsweeping : Sweeping e := by
    rw [heq]
    exact ⟨hcalm, by simp [Depot.modifyAccount, Depot.enqueue, Depot.modifyJournal]⟩
  have hnext := KeepsBelow.continueSweep (a.val + 1) habove (Nat.le_refl _)
  have hkeeps := hnext.trans (KeepsBelow.admitUpTo now 7 hnext.above)
  have hgoes := Sweeps.continueSweep (a.val + 1) hsweeping
  obtain ⟨more, hqueue, -⟩ := (hgoes.trans (Sweeps.admitUpTo now 7 hgoes.sweeping)).records
  rw [Depot.judgeClaims_sweep now a d hwaiting hroom, ← he]
  refine ⟨hkeeps.period.trans (by rw [heq]; rfl), ⟨more, hqueue.trans ?_⟩, fun b hb => ?_⟩
  · rw [heq, ← List.singleton_append, ← List.append_assoc]
    rfl
  · have hle : b.val ≤ a.val := hb
    rw [hkeeps.accounts b (by omega), heq, Depot.account_modifyAccount]
    split
    · next h => rw [h]; rfl
    · rfl

end

/-! ## The tick that fires the boundary (R164) -/

section
variable {s : State} {o : TickOrder} {n : Calendar} (hd : s.part.path.deferred = []) (htimers : s.timersRunOn)
  (hn : halfSecondLater s.part.calendar.now n) (hperiod : s.part.calendar.periodAt n)
  (hquota : ¬ s.part.calendar.quotaDayAt n)
include hd htimers hn hperiod hquota

/-- A tick whose one event is the period boundary, which leaves the sessions and the quality timer. -/
theorem State.tick_period {e : Depot} (he : (s.part.ticked n).depot.periodBoundary n = e)
    (hsessions : e.sessions = (s.part.ticked n).depot.sessions)
    (htimer : e.water.qualityTimer = (s.part.ticked n).depot.water.qualityTimer) :
    exec (.halfSecondTick o) s =
      .next { s with
        part := ({ s.part.ticked n with depot := e.startWrite s.part.path.ring } : Part).arbitrate } := by
  subst he
  obtain ⟨_, hnone⟩ := Part.tick_quiet s o n hn htimers
  exact State.tick_event s o n _ hn htimers
    (Part.boundaries_period _ o hnone (Part.onTick_noneDue hnone hsessions htimer) hquota hperiod) hd

/-- The same, with the record write that may begin after it. -/
theorem State.tick_period_writes {e : Depot} (he : (s.part.ticked n).depot.periodBoundary n = e)
    (hsessions : e.sessions = (s.part.ticked n).depot.sessions)
    (htimer : e.water.qualityTimer = (s.part.ticked n).depot.water.qualityTimer) :
    ∃ t, exec (.halfSecondTick o) s = .next t ∧ s.becomesOrWrites { s.part.ticked n with depot := e } t :=
  ⟨_, State.tick_period hd htimers hn hperiod hquota he hsessions htimer,
    State.becomesOrWrites_startWrite s { s.part.ticked n with depot := e } _⟩

end

theorem Depot.noCreditHold_ticked (p : Part) (n : Calendar) (h : p.depot.noCreditHold) :
    (p.ticked n).depot.noCreditHold := by
  intro b
  have hsession : (p.ticked n).depot.session b = p.depot.session b := by
    simp [Part.ticked, Depot.session, Depot.bay]
  rw [hsession]
  exact h b

/-- The oldest claim does not fit, and a claim more at the tail does not change that (R142). -/
theorem Depot.judgeClaims_stuck_append (now : Calendar) (c : Claim) (d : Depot) {waiting : List Claim}
    (hw : d.journal.waiting = waiting ++ [c])
    (hstuck : ∃ old rest, waiting = old :: rest ∧ 8 < d.journal.queue.length + old.size ∧
      d.journal.queue.length ≤ 8) : d.judgeClaims now = d := by
  obtain ⟨old, rest, rfl, hsize, hbound⟩ := hstuck
  exact Depot.judgeClaims_idle now d (Or.inr ⟨old, rest ++ [c], hw, hsize, hbound⟩)

/-- Settles O37: the boundary waits or is merged where a sweep runs; else the walk ends, or stops at a claim, which
waits or is admitted. -/
theorem periodBoundaryStartsTheSweep : Obligations.PeriodBoundaryStartsTheSweep := by
  rintro s o n x j hd htimers hn hperiod hquota rfl rfl
  have hfires := @State.tick_period_writes s o n hd htimers hn hperiod hquota
  refine ⟨fun hsweep hpending => ?pending, fun hsweep hpending => ?merged, fun hsweep hcredit => ?begins⟩
  case pending => exact hfires (Depot.periodBoundary_pending _ n hsweep hpending) rfl rfl
  case merged => exact hfires (Depot.periodBoundary_merged _ n hsweep hpending) rfl rfl
  case begins =>
    have hcalm := Depot.noCreditHold_ticked s.part n hcredit
    have hbegins := Depot.periodBoundary_begins (s.part.ticked n).depot n hsweep
    refine ⟨fun hzero hidle => ?ends, fun a ha hzero => ?stops⟩
    case ends =>
      obtain ⟨accounts, hwalk, haccounts⟩ := Depot.beginPeriod_ends (s.part.ticked n).depot hcalm hsweep hzero
      obtain ⟨t, hexec, hwrites⟩ := hfires
        ((hbegins.trans (congrArg (Depot.judgeClaims n) hwalk)).trans (Depot.judgeClaims_idle n _ hidle)) rfl rfl
      exact ⟨t, accounts, hexec, haccounts, hwrites⟩
    case stops =>
      obtain ⟨accounts, hwalk, haccounts⟩ := Depot.beginPeriod_stops (s.part.ticked n).depot a hcalm ha hzero
      have hboundary := hbegins.trans (congrArg (Depot.judgeClaims n) hwalk)
      refine ⟨fun hstuck => ?waits, fun hwaiting hroom hpending => ?admitted⟩
      case waits =>
        obtain ⟨t, hexec, hwrites⟩ := hfires
          (hboundary.trans (Depot.judgeClaims_stuck_append n (.sweep a) _ rfl hstuck)) rfl rfl
        exact ⟨t, accounts, hexec, haccounts, hwrites⟩
      case admitted =>
        obtain ⟨e, he⟩ : ∃ e, e = (s.part.ticked n).depot.beginPeriod := ⟨_, rfl⟩
        have heq := he.trans hwalk
        have hclaim : e.journal.waiting = [.sweep a] := by
          rw [heq]
          exact congrArg (· ++ [Claim.sweep a]) hwaiting
        have hcalm' : e.noCreditHold := by
          rw [heq]
          exact hcalm
        obtain ⟨hafterPeriod, ⟨later, hafterQueue⟩, hafterAccounts⟩ := e.judgeClaims_sweepAlone n a hcalm' hclaim
          (by rw [heq]; exact hroom) (by rw [heq]; exact hpending)
        have hsweeps := (Sweeps.judgeClaims n (d := e) ⟨hcalm', by simp [hclaim]⟩).eq
        have haccount : ∀ b, e.account b = accounts[b] := fun b => by
          rw [heq]
          rfl
        obtain ⟨queue, writing, hstart, hrecords⟩ := Depot.startWrite_frame s.part.path.ring (e.judgeClaims n)
        refine ⟨_, later.map fun r => (r.composed, r.period), State.tick_period hd htimers hn hperiod hquota
          (hbegins.trans (congrArg _ he.symm)) ?sessions ?timer, ?period, ?queue, fun b hb => ?account⟩
        case sessions =>
          rw [hsweeps, heq]
        case timer =>
          rw [hsweeps, heq]
        case period =>
          rw [Part.arbitrate_journal, hstart]
          refine hafterPeriod.trans ?_
          rw [heq]
          rfl
        case queue =>
          rw [Part.arbitrate_journal, hstart]
          refine hrecords.trans ?_
          rw [hafterQueue, List.map_append, List.map_cons, Depot.totalOf, haccount, haccounts, if_neg (lt_irrefl a),
            heq]
          rfl
        case account =>
          rw [Part.arbitrate_account, hstart]
          refine (hafterAccounts b hb).trans ?_
          rw [haccount, haccount, haccounts, haccounts, if_neg (lt_irrefl a), heq]
          split
          · next h =>
            subst h
            rfl
          · next h =>
            rw [if_pos (lt_of_le_of_ne hb h)]
            rfl

end Sys2Proof.Machine
end


section
/-!
PROOF. The write of a record to the ring (R133, R136, R137, R142).
-/

namespace Sys2Proof.Machine

open Sys2Proof

/-! ## The end of a record write (R136, R137) -/

/-- The causes of a head advance, from the occupancy before and after it. -/
def headCauses (before after threshold : Nat) : Causes :=
  (if before = 0 ∧ after = 1 then 0x10#16 else 0) ||| if before < threshold ∧ after = threshold then 0x20#16 else 0

/-- A cause raised where a condition holds. -/
theorem raise_if (p : Prop) [Decidable p] (c : Cause) (d : Depot) :
    (if p then d.raise c else d) =
      { d with notices := { d.notices with
          pending := d.notices.pending ||| if p then Cause.only c else 0 } } := by
  split
  · rfl
  · exact congrArg (fun pending => ({ d with notices := { d.notices with pending := pending } } : Depot))
      BitVec.or_zero.symm

theorem Depot.headNotices_eq (before after slots : Nat) (d : Depot) :
    d.headNotices before after slots =
      { d with notices := { d.notices with
          pending := d.notices.pending ||| headCauses before after (slots * d.journal.nearFull / 100) } } := by
  unfold Depot.headNotices
  dsimp only
  rw [raise_if, raise_if]
  simp only [BitVec.or_assoc]
  rfl

/-- The journal after the end of a record write, before its claims are judged. -/
def Journal.written (g : Ring) (j : Journal) : Journal :=
  { j with nextSeq := j.nextSeq + 1, head := (j.head + 1) % g.slots, queue := j.queue.tail, writing := none }

/-- The causes that the end of a record write raises. -/
def Journal.writtenCauses (g : Ring) (j : Journal) : Causes :=
  headCauses (j.occupancy g.slots) ((j.written g).occupancy g.slots) (g.slots * j.nearFull / 100)

theorem Depot.endWrite_eq (now : Calendar) (g : Ring) (d : Depot) :
    d.endWrite now g =
      Depot.judgeClaims now
        { d with
          journal := d.journal.written g
          notices := { d.notices with pending := d.notices.pending ||| d.journal.writtenCauses g } } :=
  congrArg (Depot.judgeClaims now) (Depot.headNotices_eq _ _ _ (d.modifyJournal (Journal.written g)))

/-! ## A word of the record (R136) -/

section
variable (g : Ring) (n : Nat) (p : Part)

theorem Part.afterWord_inner (h : n < 15) :
    p.afterWord g n =
      { p with depot := { p.depot with journal := { p.depot.journal with writing := some (n + 1) } } } := if_pos h

theorem Part.afterWord_last :
    p.afterWord g 15 = { p with depot := (p.depot.endWrite p.calendar.now g).startWrite p.path.ring } := rfl

/-- After a word only the units behind the bus have changed. -/
theorem Part.afterWord_outside :
    (p.afterWord g n).path = p.path ∧ (p.afterWord g n).capture = p.capture ∧
      (p.afterWord g n).calendar = p.calendar := by
  unfold Part.afterWord
  split <;> exact ⟨rfl, rfl, rfl⟩

end

/-- The end of the write of a journal word. -/
theorem Part.journalDone_eq (p : Part) (m : Memory) {n : Nat} {r : JournalRecord} {rest : List JournalRecord} {g : Ring}
    (hgrant : p.store.grant = some .journal) (hwriting : p.depot.journal.writing = some n)
    (hqueue : p.depot.journal.queue = r :: rest) (hring : p.path.ring = some g) :
    p.journalDone m = (p.endGrant.afterWord g n, m.writeWord (p.depot.journal.headWord g n) (r.words.getD n 0)) := by
  unfold Part.journalDone
  rw [hgrant, hwriting, hqueue, hring]

/-- Who owned the port before the arbitration does not matter. -/
theorem State.becomes_of_grant {s t : State} {x : Part} {g : Option Grant}
    (h : s.becomes { x with store := { x.store with grant := g } } t) : s.becomes x t := by
  obtain ⟨hpending, hmem, hport⟩ := h
  exact ⟨hpending, hmem, PortOnly.trans ⟨rfl, rfl⟩ hport⟩

/-- The end of the port's grant with a change of the units behind the bus, and the record write that may follow. -/
theorem State.becomesOrWrites_endGrant (s : State) (x : Part) (d : Depot) (ring : Option Ring) :
    s.becomesOrWrites { x with depot := d }
      { s with part := ({ x.endGrant with depot := d.startWrite ring } : Part).arbitrate } :=
  State.becomesOrWrites_of_grant (g := none)
    (State.becomesOrWrites_startWrite s { x.endGrant with depot := d } ring)

/-- Settles O40: the start, then each word by whether it is the last. -/
theorem recordWriteFillsTheHeadSlot : Obligations.RecordWriteFillsTheHeadSlot := by
  constructor
  · intro s g r rest hd hring hqueue hwriting hroom
    have hexec : exec .recordWriteStart s = .next (s.event fun p => p.onDepot fun _ d => d) := rfl
    have hstart : s.part.depot.startWrite s.part.path.ring =
        { s.part.depot with journal := { s.part.depot.journal with
            queue := { r with sequence := some s.part.depot.journal.nextSeq } :: rest, writing := some 0 } } := by
      rw [hring]
      exact Depot.startWrite_begins g s.part.depot r rest hwriting hqueue hroom
    refine ⟨_, hexec, State.becomes_of_eq (State.event_onDepot s _ _ rfl hd) ?_⟩
    rw [hstart]
    rfl
  · rintro s g n at0 before after threshold r rest j hwf hd hgrant rfl hwriting hn hqueue hring halign hend hhead rfl
      rfl rfl rfl
    have haddress : s.part.depot.journal.headWord g n = g.base / 4 + 16 * s.part.depot.journal.head + n := by
      unfold Journal.headWord
      omega
    have hword : s.part.depot.journal.headWord g n < 4194304 := by omega
    have hexec : exec .journalWordWritten s = .next (s.storeEvent Part.journalDone) := rfl
    obtain ⟨hpath, hcapture, hcalendar⟩ := Part.afterWord_outside g n s.part.begin.endGrant
    have hevent := s.storeEvent_eq _ _ _ (Part.journalDone_eq s.part.begin s.mem hgrant hwriting hqueue hring)
      ((congrArg PathUnit.deferred hpath).trans hd)
    obtain rfl : rest = s.part.depot.journal.queue.tail := (congrArg List.tail hqueue).symm
    rw [hexec, hevent, ← haddress]
    refine ⟨_, rfl, rfl, ?read, ?passes, ?bytes, ?checks, ?path, ?capture, ?calendar, fun hinner => ?inner,
      fun hlast => ?last⟩
    case read => exact Memory.readWord_writeWord_same _ _ _ hwf hword
    case passes => exact Memory.wordFails_writeWord_same _ _ _ hwf hword
    case bytes => exact fun x hx => Memory.byte_writeWord_other _ _ _ x hwf hword hx
    case checks => exact fun x hx => Memory.check_writeWord_other _ _ _ x hwf hword hx
    case path => exact (Part.arbitrate_path _).trans hpath
    case capture => exact (Part.arbitrate_capture _).trans hcapture
    case calendar => exact (Part.arbitrate_calendar _).trans hcalendar
    case inner =>
      rw [Part.afterWord_inner _ _ _ hinner]
      exact State.becomes_of_grant (g := none) (State.becomes_arbitrate _ _)
    case last =>
      subst hlast
      rw [Part.afterWord_last, Part.endGrant_depot, Depot.endWrite_eq]
      obtain ⟨d, hd⟩ : ∃ d : Depot, d =
          { s.part.depot with
            journal := s.part.depot.journal.written g
            notices := { s.part.depot.notices with
              pending := s.part.depot.notices.pending ||| s.part.depot.journal.writtenCauses g } } := ⟨_, rfl⟩
      rintro x hx
      obtain rfl : x = { s.part.begin with depot := d } := by
        rw [hx, hd]
        rfl
      have hrest : d.journal.queue = s.part.depot.journal.queue.tail := by
        rw [hd]
        rfl
      have hwaits : d.journal.waiting = s.part.depot.journal.waiting := by
        rw [hd]
        rfl
      rw [Part.begin_depot, ← hd]
      refine ⟨fun hidle => ?waits, fun c later hwaiting hfills hsizes hcalm => ?admitted⟩
      case waits =>
        have hjudged := Depot.judgeClaims_idle s.part.begin.endGrant.calendar.now d (by
          rcases hidle with hnone | ⟨hbound, c, later, hwaiting, hlarge⟩
          · exact Or.inl (hwaits.trans hnone)
          · exact Or.inr ⟨c, later, hwaits.trans hwaiting, by rw [hrest]; exact hlarge, by rw [hrest]; exact hbound⟩)
        rw [hjudged]
        exact State.becomesOrWrites_endGrant _ s.part.begin d _
      case admitted =>
        refine ⟨_, Part.admits_judgeClaims c later { s.part.begin with depot := d } (hwaits.trans hwaiting) ?_
          (Or.inl ⟨?_, hsizes⟩) fun a ha => ?_, State.becomesOrWrites_endGrant _ s.part.begin _ _⟩
        · rw [hrest]
          exact hfills.le
        · rw [hrest]
          exact hfills
        · rw [hd]
          exact hcalm a ha

end Sys2Proof.Machine
end


section
/-!
PROOF. The layout of a journal record (R138, R139, R203, R205).
-/

namespace Sys2Proof.Machine

open Sys2Proof

/-! ## The header (R138, R139) -/

theorem RecordBody.code_lt (body : RecordBody) : body.code < 8 := by
  cases body <;> simp [RecordBody.code]

/-- The flags of a kind stand below the period. -/
theorem RecordBody.flags_lt (body : RecordBody) : body.flags < 2 ^ 15 := by
  cases body with
  | charge c =>
    have := flag_le c.operatorAdmitted 9
    have := flag_le c.abandoned 10
    have := flag_le (Decidable.decide (0 < c.conceded)) 11
    have := flag_le c.saturated 12
    have := flag_le c.last 13
    have := flag_le c.notSet 14
    simp only [RecordBody.flags]
    omega
  | void account tag reason operatorAdmitted abandoned =>
    have := flag_le operatorAdmitted 9
    have := flag_le abandoned 10
    simp only [RecordBody.flags]
    omega
  | turnedAway tag hold reason => simp [RecordBody.flags]
  | periodTotal account haulier total count => simp [RecordBody.flags]
  | quotaDay totals overrun =>
    have := flag_le overrun 9
    simp only [RecordBody.flags]
    omega
  | meterFault m old new => simp [RecordBody.flags]
  | restart lostBays lostRecords resumed =>
    have := flag_le resumed 9
    simp only [RecordBody.flags]
    omega

/-- The bay as the header writes it: 15 where the record has none. -/
theorem bayCode_eq (bay : Option (Fin 8)) :
    (bay.map Fin.val).getD 15 = (match bay with | none => 15 | some b => b.val) := by
  cases bay <;> rfl

/-- The number of the header's first word. -/
theorem JournalRecord.header_toNat (r : JournalRecord) :
    (word (field r.composed.body.code 4 0 + field ((r.composed.bay.map Fin.val).getD 15) 4 4 +
      flag (!r.composed.stamp.isSet) 8 + r.composed.body.flags + field r.period.toNat 16 16)).toNat =
      r.composed.body.code + (match r.composed.bay with | none => 15 | some b => b.val) * 2 ^ 4 +
        (if r.composed.stamp.isSet = true then 0 else 2 ^ 8) + r.composed.body.flags + r.period.toNat * 2 ^ 16 := by
  have hcode := r.composed.body.code_lt
  have hflags := r.composed.body.flags_lt
  have hperiod := r.period.isLt
  have hbay : (r.composed.bay.map Fin.val).getD 15 < 16 := by
    cases r.composed.bay with
    | none => decide
    | some b => exact b.isLt.trans (by decide)
  have hmark : flag (!r.composed.stamp.isSet) 8 = if r.composed.stamp.isSet = true then 0 else 2 ^ 8 := by
    cases r.composed.stamp.isSet <;> rfl
  have hmarkLe := flag_le (!r.composed.stamp.isSet) 8
  rw [field_of_lt 0 (by omega), field_of_lt 4 (by omega), field_of_lt 16 hperiod, word_toNat (by omega), ← hmark,
    ← bayCode_eq, Nat.pow_zero, Nat.mul_one]

/-- The first four words of a record of a given kind and flags. -/
theorem JournalRecord.words_header (r : JournalRecord) (kind flags : Nat) (hvalid : r.composed.stamp.valid = true)
    (hkind : r.composed.body.code = kind) (hflags : r.composed.body.flags = flags) :
    ∃ w0 date time, r.words.take 4 = [w0, r.sequence.getD 0, date, time] ∧
      w0.toNat = kind + (match r.composed.bay with | none => 15 | some b => b.val) * 2 ^ 4 +
        (if r.composed.stamp.isSet = true then 0 else 2 ^ 8) + flags + r.period.toNat * 2 ^ 16 ∧
      stampShown r.composed.stamp date time := by
  subst hkind
  subst hflags
  exact ⟨_, _, _, rfl, r.header_toNat, Calendar.stampShown_of_valid _ hvalid⟩

/-! ## The body (R139) -/

theorem JournalRecord.words_body (r : JournalRecord) : r.words.drop 4 = r.composed.body.words := rfl

theorem RecordBody.words_length (body : RecordBody) : body.words.length = 12 := by
  cases body <;> rfl

theorem CloseReason.code_lt (r : CloseReason) : r.code < 8 := by
  cases r <;> decide

/-- A field at the foot of a word is its value. -/
theorem field_zero {v width : Nat} (h : v < 2 ^ width) : field v width 0 = v := by
  rw [field_of_lt 0 h, Nat.pow_zero, Nat.mul_one]

theorem flag_decide (p : Prop) [Decidable p] (lo : Nat) :
    flag (Decidable.decide p) lo = if p then 2 ^ lo else 0 := by
  simp [flag]

/-- Settles O39: the header is common to the kinds; the body is written out for each. -/
theorem journalRecordLayout : Obligations.JournalRecordLayout := by
  rintro r bay mark header body hvalid rfl rfl rfl rfl
  have hheader := r.words_header
  have hwords := @fun body words (hbody : r.composed.body = body) (h : body.words = words) =>
    r.words_body.trans ((congrArg RecordBody.words hbody).trans h)
  refine ⟨?length, fun c hbody hstart hstop => ⟨?chargeHeader, ?chargeBody⟩,
    fun account tag reason operator abandoned hbody => ⟨?voidHeader, ?voidBody⟩,
    fun tag hold reason hbody => ⟨?awayHeader, ?awayBody⟩,
    fun account haulier total count hbody => ⟨?totalHeader, ?totalBody⟩,
    fun t overrun hbody => ⟨?quotaHeader, ?quotaBody⟩,
    fun m old new hbody => ⟨?meterHeader, ?meterBody⟩,
    fun lostBays lostRecords resumed hbody hlost => ⟨?restartHeader, ?restartBody⟩, rfl, rfl⟩
  case length => exact congrArg (· + 4) r.composed.body.words_length
  case chargeHeader =>
    refine hheader _ _ hvalid (by rw [hbody]; rfl) ?_
    rw [hbody, ← flag_decide (0 < c.conceded)]
    rfl
  case chargeBody =>
    refine ⟨_, _, _, _, Calendar.stampShown_of_valid _ hstart, Calendar.stampShown_of_valid _ hstop,
      hwords _ _ hbody ?_⟩
    simp only [RecordBody.words]
    rw [field_zero c.account.isLt, field_of_lt 8 c.cls.isLt, field_of_lt 16 c.program.isLt]
    rfl
  case voidHeader => exact hheader _ _ hvalid (by rw [hbody]; rfl) (by rw [hbody]; rfl)
  case voidBody =>
    have hreason := reason.code_lt
    refine hwords _ _ hbody ?_
    simp only [RecordBody.words]
    rw [field_zero account.isLt, field_of_lt 8 (by omega)]
    rfl
  case awayHeader => exact hheader _ _ hvalid (by rw [hbody]; rfl) (by rw [hbody]; rfl)
  case awayBody =>
    have hreason := reason.code_lt
    have hhold := holdCode_lt hold
    refine hwords _ _ hbody ?_
    simp only [RecordBody.words]
    rw [field_of_lt 8 (by omega), field_of_lt 16 (by omega)]
    rfl
  case totalHeader => exact hheader _ _ hvalid (by rw [hbody]; rfl) (by rw [hbody]; rfl)
  case totalBody =>
    refine hwords _ _ hbody ?_
    simp only [RecordBody.words]
    rw [field_zero account.isLt]
    rfl
  case quotaHeader => exact hheader _ _ hvalid (by rw [hbody]; rfl) (by rw [hbody]; rfl)
  case quotaBody => exact hwords _ _ hbody rfl
  case meterHeader => exact hheader _ _ hvalid (by rw [hbody]; rfl) (by rw [hbody]; rfl)
  case meterBody =>
    refine hwords _ _ hbody ?_
    simp only [RecordBody.words]
    rw [field_zero (m.isLt.trans (by decide))]
    rfl
  case restartHeader => exact hheader _ _ hvalid (by rw [hbody]; rfl) (by rw [hbody]; rfl)
  case restartBody =>
    refine hwords _ _ hbody ?_
    simp only [RecordBody.words]
    rw [field_zero lostBays.isLt, field_of_lt 8 (by omega)]
    rfl

end Sys2Proof.Machine
end


section
/-!
PROOF. What a warm reset keeps and what it empties (R21, R37, R60, R86, R112, R132, R154, R169, R185, R201).
-/

namespace Sys2Proof.Machine

open Sys2Proof

/-! ## The arbiter with no fetch in flight (R171) -/

/-- With no fetch in flight the arbiter leaves the units behind the bus alone. -/
theorem Part.arbitrate_depot_of_noFetch (p : Part) (h : p.depot.identity.fetch = none) :
    p.arbitrate.depot = p.depot := by
  rw [p.arbitrate_portOnly.depot, Part.arbitrate_fetch_none h, ← h]

/-! ## The window that the reset restarts (R102, R112, R157) -/

/-- The quality machine and its timer, the given number of ticks after the window was restarted. -/
def restartedWindow (window ticks : Nat) : Quality × Option Nat :=
  if window = 255 then (.sampling, none)
  else if ticks < 2 * window then (.sampling, some (2 * window - ticks))
  else (.rejected, none)

theorem restartedWindow_endless {window : Nat} (ticks : Nat) (h : window = 255) :
    restartedWindow window ticks = (.sampling, none) := if_pos h

theorem restartedWindow_running {window ticks : Nat} (h : window ≠ 255) (hticks : ticks < 2 * window) :
    restartedWindow window ticks = (.sampling, some (2 * window - ticks)) := (if_neg h).trans (if_pos hticks)

theorem restartedWindow_over {window ticks : Nat} (h : window ≠ 255) (hticks : 2 * window ≤ ticks) :
    restartedWindow window ticks = (.rejected, none) := (if_neg h).trans (if_neg (Nat.not_lt.2 hticks))

/-- The water after a reset: SAMPLING is entered, and no water is available. -/
theorem Water.warmReset_eq (w : Water) :
    w.warmReset =
      { w with
        meters := w.meters.map Meter.clearFault
        badSamples := 0
        quality := if w.window = 0 then .rejected else .sampling
        qualityTimer := if w.window = 0 ∨ w.window = 255 then none else some (2 * w.window)
        available := false } := by
  unfold Water.warmReset
  dsimp only
  rw [Water.enterSampling_unavailable, Water.enterSampling_eq]

/-- The ticks that count on the window of the emptied part. -/
theorem Part.emptied_windowTicks (p : Part) (n : Nat) :
    p.emptied.windowTicks n =
      p.emptied.withWindow (restartedWindow p.depot.water.window n).1 (restartedWindow p.depot.water.window n).2 := by
  have hwater : p.emptied.depot.water = p.depot.water.warmReset := rfl
  rw [Water.warmReset_eq] at hwater
  by_cases hstopped : p.depot.water.window = 0 ∨ p.depot.water.window = 255
  · have htimer : p.emptied.depot.water.qualityTimer = none := by
      rw [hwater]
      exact if_pos hstopped
    have hquality : p.emptied.depot.water.quality = (restartedWindow p.depot.water.window n).1 := by
      rw [hwater]
      rcases hstopped with h | h
      · rw [h, restartedWindow_over (by decide) (by omega)]
        rfl
      · rw [h, restartedWindow_endless n rfl]
        rfl
    have hnone : (restartedWindow p.depot.water.window n).2 = none := by
      rcases hstopped with h | h
      · rw [h, restartedWindow_over (by decide) (by omega)]
      · rw [h, restartedWindow_endless n rfl]
    rw [Part.windowTicks_stopped _ _ htimer, hnone, ← hquality, ← htimer]
    rfl
  · have hzero : p.depot.water.window ≠ 0 := fun h => hstopped (Or.inl h)
    have hendless : p.depot.water.window ≠ 255 := fun h => hstopped (Or.inr h)
    rw [Part.windowTicks_sampling p.emptied (2 * p.depot.water.window) n (by omega)
      (by rw [hwater]; exact if_neg hzero) (by rw [hwater]; exact if_neg hstopped) (by rw [hwater]) rfl]
    by_cases hticks : n < 2 * p.depot.water.window
    · rw [if_pos hticks, restartedWindow_running hendless hticks]
    · rw [if_neg hticks, restartedWindow_over hendless (Nat.not_lt.1 hticks)]

/-! ## The reset as one update (R21, R150) -/

/-- The part as the reset leaves it before the RESTART claim. -/
def Part.emptiedAfter (w : ResetOrder) (p : Part) : Part := (p.resetTicks w).emptied.windowTicks w.after

theorem Part.emptiedAfter_eq (w : ResetOrder) (p : Part) :
    p.emptiedAfter w =
      (p.resetTicks w).emptied.withWindow (restartedWindow (p.resetTicks w).depot.water.window w.after).1
        (restartedWindow (p.resetTicks w).depot.water.window w.after).2 := Part.emptied_windowTicks _ _

/-- Where no tick falls in the reset the part that it empties is the part as it stood. -/
theorem Part.resetTicks_none (w : ResetOrder) (p : Part) (hbefore : w.before = 0) (hafter : w.after = 0) :
    p.resetTicks w = p := by
  unfold Part.resetTicks
  rw [hbefore, hafter]
  rfl

theorem PathUnit.warmReset_free (u : PathUnit) (h : u.held = none) :
    u.warmReset = { u with staged := u.windows.map WindowEntry.first, posted := [], blockLatch := none } := by
  unfold PathUnit.warmReset
  rw [h]

/-- The RESTART record of a reset. -/
def restartRecord (lost : BitVec 8) (records : Nat) (now : Calendar) (j : Journal) : JournalRecord :=
  { composed := ⟨.restart lost records j.sweep.isSome, none, now⟩, period := j.period }

/-- The units behind the bus with the RESTART record alone in the insertion queue. -/
def Depot.withRestart (lost : BitVec 8) (records : Nat) (now : Calendar) (d : Depot) : Depot :=
  d.modifyJournal fun j => { j with queue := [restartRecord lost records now j] }

theorem Depot.restart_eq (lost : BitVec 8) (records : Nat) (now : Calendar) (d : Depot)
    (hwaiting : d.journal.waiting = []) (hqueue : d.journal.queue = []) :
    d.restart lost records now = ((d.withRestart lost records now).resumeSweep now).raise .restarted := by
  unfold Depot.restart
  rw [Depot.placeClaim_restart now lost records _ d hwaiting hqueue]
  rfl

/-- A record write that may begin where none was in flight: it stands at word 0 or has not begun. -/
theorem Depot.startWrite_from_none (ring : Option Ring) (d : Depot) (h : d.journal.writing = none) :
    (d.startWrite ring).journal.writing = none ∨ (d.startWrite ring).journal.writing = some 0 := by
  unfold Depot.startWrite
  split
  · split
    · exact Or.inr rfl
    · exact Or.inl h
  · exact Or.inl h

/-- What a sweep leaves of the units, one by one. -/
theorem Sweeps.units {d e : Depot} (h : Sweeps d e) :
    e.identity = d.identity ∧ e.sessions = d.sessions ∧ e.water = d.water ∧
      e.charge = { d.charge with accounts := e.charge.accounts } ∧
      e.notices = { d.notices with pending := e.notices.pending } :=
  ⟨(congrArg Depot.identity h.eq).trans rfl, (congrArg Depot.sessions h.eq).trans rfl,
    (congrArg Depot.water h.eq).trans rfl, (congrArg Depot.charge h.eq).trans rfl,
    (congrArg Depot.notices h.eq).trans rfl⟩

/-- What stands at the reset of a part: the units behind the bus after the ticks that the reset holds (R157, R169). -/
abbrev Part.atReset (w : ResetOrder) (p : Part) : Depot := (p.resetTicks w).depot

/-- The units behind the bus after a reset, with the RESTART record queued, before a sweep goes on. -/
def Part.withRestart (w : ResetOrder) (p : Part) : Depot :=
  Depot.withRestart (p.atReset w).lostBays (p.atReset w).journal.queue.length (p.resetTicks w).calendar.now
    (p.emptiedAfter w).depot

theorem Part.withRestart_sweeping (w : ResetOrder) (p : Part) : Sweeping (p.withRestart w) := by
  obtain ⟨hcalm, hclaims⟩ := Depot.warmReset_sweeping (p.atReset w)
  unfold Part.withRestart
  rw [Part.emptiedAfter_eq]
  exact ⟨hcalm, hclaims⟩

section
variable (w : ResetOrder) (p : Part) (hheld : p.path.held = none) (hd : p.path.deferred = [])

theorem Part.resetTicks_path : (p.resetTicks w).path = p.path := by
  rw [(KeepsPart.resetTicks w p).eq]

theorem Part.resetTicks_capture : (p.resetTicks w).capture = p.capture := by
  rw [(KeepsPart.resetTicks w p).eq]

theorem Part.resetTicks_store : (p.resetTicks w).store = p.store := by
  rw [(KeepsPart.resetTicks w p).eq]

theorem Part.emptiedAfter_path : (p.emptiedAfter w).path = p.path.warmReset := by
  rw [Part.emptiedAfter_eq, ← p.resetTicks_path w]
  rfl

theorem Part.emptiedAfter_capture : (p.emptiedAfter w).capture = p.capture.warmReset := by
  rw [Part.emptiedAfter_eq, ← p.resetTicks_capture w]
  rfl

theorem Part.emptiedAfter_store : (p.emptiedAfter w).store = p.store.warmReset := by
  rw [Part.emptiedAfter_eq, ← p.resetTicks_store w]
  rfl

theorem Part.emptiedAfter_calendar : (p.emptiedAfter w).calendar = (p.resetTicks w).calendar := by
  rw [Part.emptiedAfter_eq]
  rfl

theorem Part.emptiedAfter_noFetch : (p.emptiedAfter w).depot.identity.fetch = none := by
  rw [Part.emptiedAfter_eq]
  rfl

include hheld hd

/-- A warm reset with no access on the bus. -/
theorem Part.warmReset_free :
    p.warmReset w =
      ((p.emptiedAfter w).arbitrate.onDepot
        (Depot.restart (p.atReset w).lostBays (p.atReset w).journal.queue.length)).arbitrate := by
  have hfree : (p.emptiedAfter w).path.deferred = [] := by
    rw [Part.emptiedAfter_path, PathUnit.warmReset_free _ hheld]
    exact hd
  obtain ⟨q, hq⟩ : ∃ q, q = (p.emptiedAfter w).arbitrate.onDepot
      (Depot.restart (p.atReset w).lostBays (p.atReset w).journal.queue.length) := ⟨_, rfl⟩
  have hfreeAfter : q.path.deferred = [] := by
    rw [hq]
    exact (congrArg PathUnit.deferred (Part.arbitrate_path _)).trans hfree
  rw [← hq, ← Part.finish_free q hfreeAfter]
  show ((p.emptiedAfter w).arbitrate.onDepot
    (Depot.restart (p.atReset w).lostBays (p.atReset w).journal.queue.length)).finishReset w.journalFirst = q.finish
  rw [← hq]
  unfold Part.finishReset
  rw [hfreeAfter]

/-- The units behind the bus after a warm reset: the sweep that was running has gone on after the RESTART record, and a
record write may have begun. -/
theorem Part.warmReset_depot :
    ∃ ring, (p.warmReset w).depot =
      ((Depot.resumeSweep (p.resetTicks w).calendar.now (p.withRestart w)).raise .restarted).startWrite ring := by
  have hwaiting : (p.emptiedAfter w).depot.journal.waiting = [] := by
    rw [Part.emptiedAfter_eq]
    rfl
  have hqueue : (p.emptiedAfter w).depot.journal.queue = [] := by
    rw [Part.emptiedAfter_eq]
    rfl
  have hfetch := p.emptiedAfter_noFetch w
  obtain ⟨q, hq⟩ : ∃ q, q = (p.emptiedAfter w).arbitrate.onDepot
      (Depot.restart (p.atReset w).lostBays (p.atReset w).journal.queue.length) := ⟨_, rfl⟩
  have hdepot : q.depot = ((Depot.resumeSweep (p.resetTicks w).calendar.now (p.withRestart w)).raise
      .restarted).startWrite (p.emptiedAfter w).arbitrate.path.ring := by
    rw [hq]
    show Depot.startWrite _ (Depot.restart _ _ (p.emptiedAfter w).arbitrate.calendar.now
      (p.emptiedAfter w).arbitrate.depot) = _
    rw [Part.arbitrate_depot_of_noFetch _ hfetch, Depot.restart_eq _ _ _ _ hwaiting hqueue, Part.arbitrate_calendar,
      Part.emptiedAfter_calendar]
    rfl
  have hidentity : q.depot.identity.fetch = none := by
    obtain ⟨queue, writing, hstart, -⟩ := Depot.startWrite_frame (p.emptiedAfter w).arbitrate.path.ring
      ((Depot.resumeSweep (p.resetTicks w).calendar.now (p.withRestart w)).raise .restarted)
    rw [hdepot, hstart]
    exact (congrArg Identity.fetch
      (Sweeps.resumeSweep (p.resetTicks w).calendar.now (p.withRestart_sweeping w)).units.1).trans hfetch
  rw [p.warmReset_free w hheld hd, ← hq, Part.arbitrate_depot_of_noFetch _ hidentity]
  exact ⟨_, hdepot⟩

theorem Part.warmReset_path : (p.warmReset w).path = p.path.warmReset := by
  rw [p.warmReset_free w hheld hd, Part.arbitrate_path, ← p.emptiedAfter_path w]
  exact Part.arbitrate_path _

theorem Part.warmReset_capture : (p.warmReset w).capture = p.capture.warmReset := by
  rw [p.warmReset_free w hheld hd, Part.arbitrate_capture, ← p.emptiedAfter_capture w]
  exact Part.arbitrate_capture _

theorem Part.warmReset_calendar : (p.warmReset w).calendar = (p.resetTicks w).calendar := by
  rw [p.warmReset_free w hheld hd, Part.arbitrate_calendar, ← p.emptiedAfter_calendar w]
  exact Part.arbitrate_calendar _

/-- The store unit after a warm reset: the latch is empty, and the port may have a new owner. -/
theorem Part.warmReset_store :
    ∃ grant, (p.warmReset w).store = { p.store with latch := none, grant := grant } := by
  obtain ⟨q, hq⟩ : ∃ q, q = (p.emptiedAfter w).arbitrate.onDepot
      (Depot.restart (p.atReset w).lostBays (p.atReset w).journal.queue.length) := ⟨_, rfl⟩
  obtain ⟨inner, hinner⟩ : ∃ g, q.store = { p.store.warmReset with grant := g } := by
    rw [hq, ← p.emptiedAfter_store w]
    exact ⟨_, (Part.arbitrate_portOnly _).store⟩
  obtain ⟨grant, hgrant⟩ : ∃ g, q.arbitrate.store = { q.store with grant := g } := ⟨_, q.arbitrate_portOnly.store⟩
  refine ⟨grant, ?_⟩
  rw [p.warmReset_free w hheld hd, ← hq, hgrant, hinner]
  rfl

/-- The depot after a warm reset as one update of what the sweep left: RESTARTED, and the record write that may have
begun. -/
theorem Part.warmReset_swept :
    ∃ e queue writing, Sweeps (p.withRestart w) e ∧
      e = Depot.resumeSweep (p.resetTicks w).calendar.now (p.withRestart w) ∧
      (p.warmReset w).depot =
        { e with
          journal := { e.journal with queue := queue, writing := writing }
          notices := { e.notices with pending := e.notices.pending ||| Cause.only .restarted } } ∧
      (queue.map fun r => (r.composed, r.period)) = (e.journal.queue.map fun r => (r.composed, r.period)) ∧
      (writing = none ∨ writing = some 0) := by
  obtain ⟨e, he⟩ : ∃ e, e = Depot.resumeSweep (p.resetTicks w).calendar.now (p.withRestart w) := ⟨_, rfl⟩
  have hsweeps := Sweeps.resumeSweep (p.resetTicks w).calendar.now (p.withRestart_sweeping w)
  obtain ⟨ring, hdepot⟩ := p.warmReset_depot w hheld hd
  rw [← he] at hdepot hsweeps
  obtain ⟨queue, writing, hstart, hrecords⟩ := Depot.startWrite_frame ring (e.raise .restarted)
  have hidle : (e.raise .restarted).journal.writing = none := by
    refine hsweeps.ring.2.2.2.2.trans ?_
    unfold Part.withRestart
    rw [Part.emptiedAfter_eq]
    rfl
  have hwriting := Depot.startWrite_from_none ring _ hidle
  rw [hstart] at hwriting
  exact ⟨e, queue, writing, hsweeps, he, hdepot.trans hstart, hrecords, hwriting⟩

end

section
variable (w : ResetOrder) (p : Part)

/-- The journal with the RESTART record, before a sweep goes on. -/
theorem Part.withRestart_journal :
    (p.withRestart w).journal = { (p.atReset w).journal.warmReset with
      queue := [restartRecord (p.atReset w).lostBays (p.atReset w).journal.queue.length (p.resetTicks w).calendar.now
        (p.atReset w).journal] } := by
  unfold Part.withRestart
  rw [Part.emptiedAfter_eq]
  rfl

/-- The water of the emptied part, with the window as the later ticks of the reset leave it. -/
theorem Part.withRestart_water :
    (p.withRestart w).water = { (p.atReset w).water with
      meters := (p.atReset w).water.meters.map Meter.clearFault
      badSamples := 0
      quality := (restartedWindow (p.atReset w).water.window w.after).1
      qualityTimer := (restartedWindow (p.atReset w).water.window w.after).2
      available := false } := by
  unfold Part.withRestart
  rw [Part.emptiedAfter_eq]
  show ({ (p.atReset w).water.warmReset with quality := _, qualityTimer := _ } : Water) = _
  rw [Water.warmReset_eq]

/-- The units that the RESTART record and the restarted window leave alone. -/
theorem Part.withRestart_others :
    (p.withRestart w).identity = (p.atReset w).identity.warmReset ∧
      (p.withRestart w).sessions = (p.atReset w).sessions.warmReset ∧
      (p.withRestart w).charge = (p.atReset w).charge.warmReset ∧
      (p.withRestart w).notices = (p.atReset w).notices.warmReset := by
  unfold Part.withRestart
  rw [Part.emptiedAfter_eq]
  exact ⟨rfl, rfl, rfl, rfl⟩

end

/-- The host fields alone are staged. -/
theorem Account.restage_of_hostEq {x y : Account} (h : x.hostEq y) : y.restage = x.restage := by
  obtain ⟨hvalid, hhaulier, hband, hlimit, hmanual⟩ := h
  unfold Account.restage
  rw [hvalid, hhaulier, hband, hlimit, hmanual]

theorem Cause.only_getLsbD (c x : Cause) : c.only.getLsbD x.position = Decidable.decide (x = c) := by
  cases c <;> cases x <;> rfl

/-- A cause is pending after another was raised where it was before, or is the one raised. -/
theorem Notices.isPending_raised (pending : Causes) (c x : Cause) :
    (pending ||| c.only).getLsbD x.position = (pending.getLsbD x.position || Decidable.decide (x = c)) := by
  rw [BitVec.getLsbD_or, Cause.only_getLsbD]

/-- A queue that agrees with another but for sequence numbers begins where that one begins. -/
theorem queue_cons_of_map_eq {queue more : List JournalRecord} {first : JournalRecord}
    (h : (queue.map fun r => (r.composed, r.period)) = ((first :: more).map fun r => (r.composed, r.period))) :
    ∃ r rest, queue = r :: rest ∧ r.composed = first.composed ∧ r.period = first.period ∧
      (rest.map fun r => (r.composed, r.period)) = (more.map fun r => (r.composed, r.period)) := by
  obtain ⟨r, rest, hqueue, hfirst, hrest⟩ := List.map_eq_cons_iff.1 (h.trans List.map_cons)
  obtain ⟨hcomposed, hperiod⟩ := Prod.mk.inj hfirst
  exact ⟨r, rest, hqueue, hcomposed, hperiod, hrest⟩

/-- The records of such a queue are the other's. -/
theorem composed_of_map_eq {queue more : List JournalRecord} {q : JournalRecord} (hq : q ∈ queue)
    (h : (queue.map fun r => (r.composed, r.period)) = (more.map fun r => (r.composed, r.period))) :
    ∃ r ∈ more, r.composed = q.composed := by
  have hmem : (q.composed, q.period) ∈ more.map fun r => (r.composed, r.period) :=
    h ▸ List.mem_map_of_mem (f := fun r : JournalRecord => (r.composed, r.period)) hq
  obtain ⟨r, hr, heq⟩ := List.mem_map.1 hmem
  exact ⟨r, hr, (Prod.mk.inj heq).1⟩

theorem Charge.warmReset_account (c : Charge) (a : Fin 64) : c.warmReset.accounts[a] = c.accounts[a].unbound := by
  simp [Charge.warmReset]

theorem Charge.warmReset_staged (c : Charge) (a : Fin 64) : c.warmReset.staged[a] = c.accounts[a].restage := by
  simp [Charge.warmReset]

theorem Sessions.warmReset_bay (u : Sessions) (b : Fin 8) : u.warmReset.bays[b] = u.bays[b].warmReset := by
  simp [Sessions.warmReset]

theorem Depot.resumeSweep_idle (now : Calendar) (d : Depot) (h : d.journal.sweep = none) : d.resumeSweep now = d := by
  unfold Depot.resumeSweep
  rw [h]

/-- Settles O3: unit by unit. -/
theorem warmResetKeepsSettingsAndEmptiesWork : Obligations.WarmResetKeepsSettingsAndEmptiesWork := by
  intro w s hheld hd
  have hexec : exec (.warmReset w) s = .next { s with part := s.part.begin.warmReset w } := rfl
  obtain ⟨-, hcal, hkeeps⟩ := KeepsPart.resetTicks w s.part.begin
  have hnoTick : w.before = 0 → w.after = 0 → s.part.begin.resetTicks w = s.part.begin :=
    s.part.begin.resetTicks_none w
  have hstands : w.before = 0 → w.after = 0 → s.part.begin.atReset w = s.part.depot :=
    fun hbefore hafter => by rw [Part.atReset, hnoTick hbefore hafter]; rfl
  have hpath := (s.part.begin.warmReset_path w hheld hd).trans (PathUnit.warmReset_free _ hheld)
  have hcapture := s.part.begin.warmReset_capture w hheld hd
  have hcalendar := s.part.begin.warmReset_calendar w hheld hd
  obtain ⟨grant, hstore⟩ := s.part.begin.warmReset_store w hheld hd
  obtain ⟨e, queue, writing, hsweeps, he, hdepot, hrecords, hwriting⟩ := s.part.begin.warmReset_swept w hheld hd
  have hjournal := s.part.begin.withRestart_journal w
  obtain ⟨hidentity, hsessions, hcharge, hnotices⟩ := s.part.begin.withRestart_others w
  obtain ⟨hswIdentity, hswSessions, hswWater, hswCharge, hswNotices⟩ := hsweeps.units
  have hidle : w.before = 0 → w.after = 0 → s.part.depot.journal.sweep = none → e = s.part.begin.withRestart w :=
    fun hbefore hafter hsweep => he.trans (Depot.resumeSweep_idle _ _ (by
      rw [hjournal, hstands hbefore hafter]
      exact hsweep))
  refine ⟨_, hexec, rfl, rfl, ?path, ?capture, ?calendar, ?store, ?identity, ?sessions, ?water, ?charge, ?journal,
    ?mask, ?refusal, ?restarted, ?pending⟩
  case path =>
    rw [hpath]
    exact ⟨rfl, rfl, fun e => by simp, rfl, rfl, hheld, hd⟩
  case capture =>
    rw [hcapture]
    exact ⟨fun k => by cases k <;> rfl, rfl, rfl⟩
  case calendar =>
    rw [hcalendar]
    refine ⟨?_, ?_, ?_, ?_, fun hbefore hafter => by rw [hnoTick hbefore hafter]; rfl⟩ <;> rw [hcal] <;> rfl
  case store =>
    rw [hstore]
    exact ⟨rfl, rfl, rfl, rfl, rfl, rfl, rfl⟩
  case identity =>
    rw [hdepot, hswIdentity, hidentity, hkeeps.identity]
    exact ⟨fun i => by simp [Identity.warmReset, Identity.invalidate], rfl, rfl, rfl, rfl, rfl, rfl⟩
  case sessions =>
    rw [hdepot]
    refine ⟨fun b => ?_, ?_, ?_⟩
    · obtain ⟨hconflicting, hpark⟩ := hkeeps.bays b
      show e.sessions.bays[b] = _
      rw [hswSessions, hsessions, Sessions.warmReset_bay]
      show Bay.warmReset ((s.part.begin.atReset w).bay b) = _
      rw [Bay.warmReset, hconflicting, hpark]
      rfl
    · rw [hswSessions, hsessions]
      exact hkeeps.silenceLimit
    · rw [hswSessions, hsessions]
      exact hkeeps.holdLimit
  case water =>
    have hwindow : (s.part.begin.atReset w).water.window = s.part.depot.water.window := by
      rw [hkeeps.water]
      rfl
    rw [hdepot, hswWater, s.part.begin.withRestart_water w, hwindow]
    refine ⟨fun m => ?meters, ?_, ?_, rfl, rfl, fun hw => ?endless, fun hw hticks => ?running, fun hw hticks => ?ended,
      ?_, ?_, ?_, rfl, ?_, ?_, ?_, fun hbefore hafter => ?totals⟩
    case meters =>
      rw [Fin.getElem_fin, Vector.getElem_map]
      exact hkeeps.meters m
    case endless =>
      rw [restartedWindow_endless _ hw]
      exact ⟨rfl, rfl⟩
    case running =>
      rw [restartedWindow_running hw hticks]
      exact ⟨rfl, rfl⟩
    case ended =>
      rw [restartedWindow_over hw hticks]
      exact ⟨rfl, rfl⟩
    case totals =>
      rw [hstands hbefore hafter]
      exact ⟨rfl, rfl, rfl⟩
    all_goals
      rw [hkeeps.water]
      rfl
  case charge =>
    refine ⟨fun a => ?account, ?_, ?_, ?_, ?_, ?_, ?_⟩
    case account =>
      have hhost := hkeeps.accounts a
      obtain ⟨hvalid, hhaulier, hband, hlimit, hmanual⟩ := id hhost
      obtain ⟨balance, count, period, haccount⟩ := hsweeps.accounts a
      have hunbound : (s.part.begin.withRestart w).account a = ((s.part.begin.atReset w).account a).unbound := by
        rw [Depot.account, hcharge]
        exact Charge.warmReset_account _ a
      have hstaged : ((s.part.begin.withRestart w).charge.staged[a] : StagedAccount) =
          ((s.part.begin.atReset w).account a).restage := by
        rw [hcharge]
        exact Charge.warmReset_staged _ a
      rw [hunbound] at haccount
      have hafter : (s.part.begin.warmReset w).depot.account a = e.account a := by rw [hdepot]; rfl
      rw [hafter, haccount]
      refine ⟨hvalid, hhaulier, hband, hlimit, hmanual, rfl, ?staged, fun hbefore hafter hsweep => ?amounts⟩
      case staged =>
        rw [hdepot, hswCharge]
        exact hstaged.trans (Account.restage_of_hostEq hhost)
      case amounts =>
        rw [← haccount, hidle hbefore hafter hsweep, hunbound, hstands hbefore hafter]
        exact ⟨rfl, rfl, rfl⟩
    all_goals
      rw [hdepot, hswCharge, hcharge, Charge.warmReset, hkeeps.charge]
      rfl
  case journal =>
    obtain ⟨hhead, htail, hseq, hnear⟩ := hkeeps.journal
    obtain ⟨hheadSw, htailSw, hseqSw, hnearSw, -⟩ := hsweeps.ring
    rw [hjournal] at hheadSw htailSw hseqSw hnearSw
    rw [hdepot]
    refine ⟨hheadSw.trans hhead, htailSw.trans htail, hseqSw.trans hseq, hnearSw.trans hnear, ?queue,
      fun c hc => ?claims, hwriting, fun hbefore hafter hsweep => ?period⟩
    case queue =>
      obtain ⟨more, hmore, hcodes⟩ := hsweeps.records
      rw [hmore, hjournal] at hrecords
      obtain ⟨r, rest, hqueue, hcomposed, -, hrest⟩ := queue_cons_of_map_eq hrecords
      refine ⟨r, rest, hqueue, by rw [hcomposed]; rfl, fun q hq => ?_⟩
      obtain ⟨m, hm, heq⟩ := composed_of_map_eq hq hrest
      rw [← heq]
      exact hcodes m hm
    case claims =>
      obtain ⟨a, rfl⟩ := hsweeps.sweeping.claims c hc
      rfl
    case period =>
      rw [hidle hbefore hafter hsweep, hjournal, hstands hbefore hafter]
      exact ⟨rfl, hsweep, rfl⟩
  case mask =>
    rw [hdepot, hswNotices, hnotices]
    exact hkeeps.mask
  case refusal =>
    rw [hdepot, hswNotices, hnotices]
    rfl
  case restarted =>
    rw [hdepot]
    exact (Notices.isPending_raised _ .restarted .restarted).trans (Bool.or_true _)
  case pending =>
    intro c hc
    rw [hdepot] at hc
    rcases Bool.or_eq_true _ _ ▸ (Notices.isPending_raised _ .restarted c).symm.trans hc with hswept | hnew
    · rcases hsweeps.pending c hswept with hold | hclosed
      · rw [hnotices] at hold
        exact absurd hold (by simp [Notices.isPending, Notices.warmReset])
      · exact Or.inr hclosed
    · exact Or.inl (of_decide_eq_true hnew)

end Sys2Proof.Machine
end


section
/-!
PROOF. The RESTART record of a warm reset, and the sweep that it resumes (R86, R138, R150, R151, R169).
-/

namespace Sys2Proof.Machine

open Sys2Proof

/-! ## A sweep that goes on at its pointer (R146, R147, R151) -/

/-- A sweep that goes on above account `a`, from a depot where it was reset. -/
theorem Depot.sweepOn_keeps (now : Calendar) (a : Fin 64) (m : Nat) (f : Depot) (h : Above (a.val + 1) f) :
    (Depot.admitUpTo now m (f.continueSweep (a.val + 1))).journal.period = f.journal.period ∧
      ∀ b : Fin 64, b ≤ a → (Depot.admitUpTo now m (f.continueSweep (a.val + 1))).account b = f.account b := by
  have hnext := KeepsBelow.continueSweep (a.val + 1) h (Nat.le_refl _)
  have hkeeps := hnext.trans (KeepsBelow.admitUpTo now m hnext.above)
  exact ⟨hkeeps.period, fun b hb => hkeeps.accounts b (Nat.lt_succ_of_le hb)⟩

/-- The walk resets an account without records and goes on above it (R146). -/
theorem Depot.continueSweep_empty (a : Fin 64) (d : Depot) (h : (d.account a).count = 0) :
    d.continueSweep a.val = (d.resetAccount a).continueSweep (a.val + 1) := by
  have hwalk : Depot.walk (accountsFrom a.val) d = Depot.walk (accountsFrom (a.val + 1)) (d.resetAccount a) := by
    rw [accountsFrom_cons]
    exact if_pos h
  unfold Depot.continueSweep
  rw [hwalk]

section
variable (now : Calendar) (a : Fin 64) (d : Depot) (hcalm : d.noCreditHold) (hwaiting : d.journal.waiting = [])
  (hroom : d.journal.queue.length < 8) (hsweep : d.journal.sweep = some a)
include hcalm hwaiting hroom hsweep

/-- A sweep that goes on at an account with records leaves its PERIOD_TOTAL record first. -/
theorem Depot.resumeSweep_records (hcount : (d.account a).count ≠ 0) :
    ∃ later, (d.resumeSweep now).journal.queue = d.journal.queue ++ d.totalOf now a :: later := by
  obtain ⟨m, hresume⟩ := d.resumeSweep_at now a hwaiting hroom hsweep hcount
  obtain ⟨f, hf⟩ : ∃ f, f = ((d.modifyJournal fun j => { j with sweep := some a }).enqueue
      (d.totalOf now a)).resetAccount a := ⟨_, rfl⟩
  have heq := hf.trans (Depot.resetAccount_eq a _ hcalm)
  have hsweeping : Sweeping f := by
    rw [heq]
    exact ⟨hcalm, by simp [Depot.modifyAccount, Depot.enqueue, Depot.modifyJournal, hwaiting]⟩
  have hgoes := Sweeps.continueSweep (a.val + 1) hsweeping
  obtain ⟨later, hqueue, -⟩ := (hgoes.trans (Sweeps.admitUpTo now m hgoes.sweeping)).records
  refine ⟨later, ?_⟩
  have hresumeOn : d.resumeSweep now = Depot.admitUpTo now m (f.continueSweep (a.val + 1)) := by
    rw [hresume, hf]
    rfl
  rw [hresumeOn, hqueue, heq, ← List.singleton_append, ← List.append_assoc]
  rfl

/-- Where no boundary is pending the account at the pointer is reset, those below it and the period are left. -/
theorem Depot.resumeSweep_keeps (hpending : d.journal.boundaryPending = false) :
    (d.resumeSweep now).journal.period = d.journal.period ∧
      ∀ b : Fin 64, b ≤ a → (d.resumeSweep now).account b =
        if b = a then (d.account a).zeroed d.journal.period else d.account b := by
  by_cases hcount : (d.account a).count = 0
  · have heq := d.resetAccount_eq a hcalm
    have habove : Above (a.val + 1) (d.resetAccount a) := by
      rw [heq]
      exact ⟨hcalm, hpending, by simp [Depot.modifyAccount, hwaiting]⟩
    have hresume : d.resumeSweep now =
        Depot.admitUpTo now 8 ((d.resetAccount a).continueSweep (a.val + 1)) := by
      unfold Depot.resumeSweep
      rw [hsweep, ← d.continueSweep_empty a hcount]
      rfl
    obtain ⟨hperiod, haccounts⟩ := Depot.sweepOn_keeps now a 8 _ habove
    rw [hresume]
    refine ⟨hperiod.trans (by rw [heq]; rfl), fun b hb => (haccounts b hb).trans ?_⟩
    rw [heq, Depot.account_modifyAccount]
    split
    · next h => rw [h]
    · rfl
  · obtain ⟨m, hresume⟩ := d.resumeSweep_at now a hwaiting hroom hsweep hcount
    obtain ⟨f, hf⟩ : ∃ f, f = ((d.modifyJournal fun j => { j with sweep := some a }).enqueue
        (d.totalOf now a)).resetAccount a := ⟨_, rfl⟩
    have heq := hf.trans (Depot.resetAccount_eq a _ hcalm)
    have habove : Above (a.val + 1) f := by
      rw [heq]
      exact ⟨hcalm, hpending, by simp [Depot.modifyAccount, Depot.enqueue, Depot.modifyJournal, hwaiting]⟩
    obtain ⟨hperiod, haccounts⟩ := Depot.sweepOn_keeps now a m f habove
    have hresumeOn : d.resumeSweep now = Depot.admitUpTo now m (f.continueSweep (a.val + 1)) := by
      rw [hresume, hf]
      rfl
    rw [hresumeOn]
    refine ⟨hperiod.trans (by rw [heq]; rfl), fun b hb => (haccounts b hb).trans ?_⟩
    rw [heq, Depot.account_modifyAccount]
    split
    · next h =>
      rw [h]
      rfl
    · rfl

end

/-! ## The statement -/

/-- Settles O4: the RESTART record heads the queue, and a sweep that was running goes on after it. -/
theorem warmResetJournalsRestart : Obligations.WarmResetJournalsRestart := by
  intro w s hheld hd
  have hexec : exec (.warmReset w) s = .next { s with part := s.part.begin.warmReset w } := rfl
  obtain ⟨hvacant, hlength, hsweepStands⟩ := Stands.resetTicks w s.part.begin
  have hstands : w.before = 0 → w.after = 0 → s.part.begin.atReset w = s.part.depot :=
    fun hbefore hafter => by rw [Part.atReset, Part.resetTicks_none _ _ hbefore hafter]; rfl
  have hcalendar := s.part.begin.warmReset_calendar w hheld hd
  obtain ⟨e, queue, writing, hsweeps, he, hdepot, hrecords, -⟩ := s.part.begin.warmReset_swept w hheld hd
  have hjournal := s.part.begin.withRestart_journal w
  obtain ⟨-, -, hcharge, -⟩ := s.part.begin.withRestart_others w
  obtain ⟨more, hmore, -⟩ := hsweeps.records
  have haccount : ∀ a, (s.part.begin.withRestart w).account a = ((s.part.begin.atReset w).account a).unbound :=
    fun a => by
      rw [Depot.account, hcharge]
      exact Charge.warmReset_account _ a
  have hfirst := hrecords
  rw [hmore, hjournal] at hfirst
  obtain ⟨r, rest, hqueue, hcomposed, hperiod, hrest⟩ := queue_cons_of_map_eq hfirst
  refine ⟨_, (s.part.begin.atReset w).lostBays, (s.part.begin.atReset w).journal.sweep.isSome, r, rest, hexec, ?queue,
    ?composed, fun b => ?lost, fun hsweep hbefore hafter => ?idle, fun a hsweep => ?running⟩
  case queue => rw [hdepot, hqueue]
  case composed =>
    rw [hcomposed, hcalendar, restartRecord, hlength]
    rfl
  case lost =>
    rw [Depot.lostBays_getLsbD]
    exact decide_eq_decide.2 (not_congr (hvacant b))
  case idle =>
    have hatReset := hstands hbefore hafter
    have hnone : (s.part.begin.atReset w).journal.sweep = none := by rw [hatReset]; exact hsweep
    have hidle : e = s.part.begin.withRestart w :=
      he.trans (Depot.resumeSweep_idle _ _ (by rw [hjournal]; exact hnone))
    have hempty : more = [] := by
      rw [hidle, hjournal] at hmore
      exact (List.append_right_eq_self.1 hmore.symm)
    rw [hempty] at hrest
    refine ⟨by rw [hnone]; rfl, List.map_eq_nil_iff.1 hrest, ?_, ?_⟩
    · rw [hperiod, restartRecord, hatReset]
    · rw [hdepot, hidle, hjournal, hatReset]
      exact ⟨rfl, hsweep, rfl⟩
  case running =>
    obtain ⟨hatSweep, hatPeriod, hatAccounts⟩ := hsweepStands a hsweep
    have hatAccount : ∀ x, (s.part.begin.withRestart w).account x = (s.part.depot.account x).unbound := fun x =>
      (haccount x).trans (congrArg (fun v : Vector Account 64 => v[x].unbound) hatAccounts)
    have hcalm := (s.part.begin.withRestart_sweeping w).calm
    have hwaiting : (s.part.begin.withRestart w).journal.waiting = [] := by
      rw [hjournal]
      rfl
    have hroom : (s.part.begin.withRestart w).journal.queue.length < 8 := by
      rw [hjournal]
      exact Nat.one_lt_succ_succ 6
    have hpointer : (s.part.begin.withRestart w).journal.sweep = some a := by
      rw [hjournal]
      exact hatSweep
    have hjournalPeriod : (s.part.begin.withRestart w).journal.period = s.part.depot.journal.period := by
      rw [hjournal]
      exact hatPeriod
    refine ⟨by rw [hatSweep]; rfl, hperiod.trans hatPeriod, fun hcount => ?total, fun hbefore hafter hpending => ?kept⟩
    case total =>
      obtain ⟨later, hlater⟩ := Depot.resumeSweep_records (s.part.begin.resetTicks w).calendar.now a
        (s.part.begin.withRestart w) hcalm hwaiting hroom hpointer (by rw [hatAccount]; exact hcount)
      rw [← he, hmore] at hlater
      rw [List.append_cancel_left hlater] at hrest
      obtain ⟨r2, rest2, hrest2, hcomposed2, hperiod2, -⟩ := queue_cons_of_map_eq hrest
      refine ⟨r2, rest2, hrest2, ?_, ?_⟩
      · rw [hcomposed2, hcalendar, Depot.totalOf, hatAccount]
        rfl
      · rw [hperiod2, Depot.totalOf, hatAccount]
        rfl
    case kept =>
      obtain ⟨hperiodKept, haccounts⟩ := Depot.resumeSweep_keeps (s.part.begin.resetTicks w).calendar.now a
        (s.part.begin.withRestart w) hcalm hwaiting hroom hpointer (by
          rw [hjournal, hstands hbefore hafter]
          exact hpending)
      rw [← he] at hperiodKept haccounts
      have hafterAccount : ∀ x, (s.part.begin.warmReset w).depot.account x = e.account x := fun x => by
        rw [hdepot]
        rfl
      refine ⟨?_, fun x hx => ?_, ?_⟩
      · rw [hdepot]
        exact hperiodKept.trans hjournalPeriod
      · rw [hafterAccount, haccounts x hx.le, if_neg hx.ne, hatAccount]
        exact ⟨rfl, rfl, rfl⟩
      · rw [hafterAccount, haccounts a le_rfl, if_pos rfl, hjournalPeriod]
        exact ⟨rfl, rfl, rfl⟩

end Sys2Proof.Machine
end


section
/-!
PROOF. Words that pack fields, and the status views of the control window (R187, R199, R206, R207).
-/

namespace Sys2Proof.Machine

open Sys2Proof

/-! ## Sums of fields (R202) -/

/-- The number of a word that is a sum below its range. -/
theorem word_toNat_eq {n m : Nat} (h : n = m) (hlt : n < 4294967296) : (word n).toNat = m :=
  (word_toNat hlt).trans h

/-- A field above a number that stands below it. -/
theorem add_field_lt {n lo v width top : Nat} (h : n < 2 ^ lo) (htop : lo + width ≤ top) :
    n + field v width lo < 2 ^ top := by
  have hfield : v % 2 ^ width + 1 ≤ 2 ^ width := Nat.mod_lt v (by positivity)
  calc n + field v width lo < 2 ^ lo + v % 2 ^ width * 2 ^ lo := by unfold field; omega
    _ = (v % 2 ^ width + 1) * 2 ^ lo := by rw [Nat.succ_mul, Nat.add_comm]
    _ ≤ 2 ^ width * 2 ^ lo := Nat.mul_le_mul_right _ hfield
    _ = 2 ^ (lo + width) := by rw [← Nat.pow_add, Nat.add_comm]
    _ ≤ 2 ^ top := Nat.pow_le_pow_right (by decide) htop

/-- A flag above a number that stands below it. -/
theorem add_flag_lt {n lo top : Nat} {b : Bool} (h : n < 2 ^ lo) (htop : lo < top) : n + flag b lo < 2 ^ top := by
  have hflag := flag_le b lo
  calc n + flag b lo < 2 ^ (lo + 1) := by rw [Nat.pow_succ]; omega
    _ ≤ 2 ^ top := Nat.pow_le_pow_right (by decide) htop

theorem field_lt {v width lo top : Nat} (htop : lo + width ≤ top) : field v width lo < 2 ^ top := by
  simpa using add_field_lt (n := 0) (v := v) (by positivity) htop

theorem flag_lt {b : Bool} {lo top : Nat} (htop : lo < top) : flag b lo < 2 ^ top := by
  simpa using add_flag_lt (n := 0) (b := b) (by positivity) htop

/-- A field at the foot of a word shows the low bits of its value. -/
theorem field_foot (v width : Nat) : field v width 0 = v % 2 ^ width := by
  rw [field, Nat.pow_zero, Nat.mul_one]

/-- A flag that says that an option holds something. -/
theorem flag_isSome {α : Type} (x : Option α) (lo : Nat) [Decidable (x = none)] :
    flag x.isSome lo = if x = none then 0 else 2 ^ lo := by
  cases x with
  | none => simp [flag]
  | some a => simp [flag]

theorem flag_beq {α : Type} [DecidableEq α] (a b : α) (lo : Nat) :
    flag (a == b) lo = if a = b then 2 ^ lo else 0 := by
  simp [flag]

/-- The bits of a word are those of the number that it was made from. -/
theorem bits_word (n : Nat) {lo width : Nat} (h : lo + width ≤ 32) :
    bits (word n) lo width = n / 2 ^ lo % 2 ^ width := by
  have hsplit : (4294967296 : Nat) = 2 ^ lo * 2 ^ (32 - lo) := by
    rw [← Nat.pow_add, Nat.add_sub_cancel' (by omega)]
  unfold bits word
  rw [BitVec.toNat_ofNat, show (2 : Nat) ^ 32 = 4294967296 by rfl, hsplit, Nat.mod_mul_right_div_self]
  exact Nat.mod_mod_of_dvd _ (Nat.pow_dvd_pow 2 (by omega))

theorem getLsbD_word (n : Nat) {i : Nat} (h : i < 32) : (word n).getLsbD i = Decidable.decide (n / 2 ^ i % 2 = 1) := by
  have hbits := bits_word n (lo := i) (width := 1) (by omega)
  rw [getLsbD_eq_decide]
  unfold bits at hbits
  rw [Nat.pow_one] at hbits
  rw [hbits]

/-! ## Lists of small fields -/

/-- The first entry stands at the foot, the others one field above. -/
theorem packed_cons (width x : Nat) (xs : List Nat) :
    packed width (x :: xs) = x % 2 ^ width + 2 ^ width * packed width xs := by
  unfold packed
  rw [List.zipIdx_cons, List.map_cons, List.sum_cons, Nat.mul_zero, field_foot, ← List.sum_map_mul_left,
    List.zipIdx_succ, List.map_map]
  congr 2
  refine List.map_congr_left fun y _ => ?_
  simp only [Function.comp, field]
  rw [Nat.mul_add, Nat.mul_one, Nat.pow_add]
  ring

/-- Entry `i` of a packed list is its field. -/
theorem packed_digit (width i : Nat) (xs : List Nat) :
    packed width xs / 2 ^ (width * i) % 2 ^ width = xs[i]?.getD 0 % 2 ^ width := by
  induction i generalizing xs with
  | zero =>
    cases xs with
    | nil => simp [packed]
    | cons x xs => simp [packed_cons]
  | succ i ih =>
    cases xs with
    | nil => simp [packed]
    | cons x xs =>
      have hbelow : x % 2 ^ width < 2 ^ width := Nat.mod_lt x (by positivity)
      rw [packed_cons, Nat.mul_succ, Nat.add_comm (width * i) width, Nat.pow_add, ← Nat.div_div_eq_div_mul,
        Nat.add_mul_div_left _ _ (by positivity), Nat.div_eq_of_lt hbelow, Nat.zero_add, ih]
      rfl

/-- The bits of a word that packs a list. -/
theorem bits_packed {width i : Nat} (xs : List Nat) (h : width * i + width ≤ 32) :
    bits (word (packed width xs)) (width * i) width = xs[i]?.getD 0 % 2 ^ width :=
  (bits_word _ h).trans (packed_digit width i xs)

/-- The same of the numbers that a list's entries show, which fit their fields. -/
theorem bits_packed_map {α : Type} {width i : Nat} (xs : List α) (f : α → Nat) (h : width * i + width ≤ 32)
    (hf : ∀ x, f x < 2 ^ width) :
    bits (word (packed width (xs.map f))) (width * i) width = (xs[i]?.map f).getD 0 := by
  rw [bits_packed _ h, List.getElem?_map]
  exact Nat.mod_eq_of_lt (getD_map_lt _ f (by positivity) hf)

end Sys2Proof.Machine
end


section
/-!
PROOF. The status views of the control window, word by word (R187, R199, R206, R207).
-/

namespace Sys2Proof.Machine

open Sys2Proof

/-! ## Codes that fit their fields (R203) -/

theorem RefusalReason.code_lt (r : RefusalReason) : r.code < 16 := by cases r <;> simp [RefusalReason.code]

theorem Direction.code_lt (d : Direction) : d.code < 2 := by cases d <;> decide

theorem Requester.code_lt (r : Requester) : Requester.code r < 4 := by cases r <;> decide

theorem Halves.code_lt (x : Halves) : x.code < 4 := by cases x <;> decide

theorem ParityAccess.code_lt (x : ParityAccess) : x.code < 4 := by cases x <;> decide

theorem LineRefusal.code_lt (x : LineRefusal) : x.code < 4 := by cases x <;> decide

theorem Claim.claimant_lt (c : Claim) : c.claimant < 32 := by
  cases c with
  | bay b records => exact b.isLt.trans (by decide)
  | meter m old new stamp =>
    have := m.isLt
    simp only [Claim.claimant]
    omega
  | sweep a => simp [Claim.claimant]
  | quotaDay totals stamp overrun => simp [Claim.claimant]
  | restart lostBays lostRecords resumed stamp => simp [Claim.claimant]

/-! ## Notices and latches (R195, R196, R199) -/

theorem unmaskedWord_toNat (n : Notices) :
    (word (n.unmasked.toNat + flag n.line 31)).toNat =
      (n.pending &&& ~~~ n.mask).toNat + if n.pending &&& ~~~ n.mask = 0 then 0 else 2 ^ 31 := by
  have hunmasked := n.unmasked.isLt
  have hflag : flag n.line 31 = if n.pending &&& ~~~ n.mask = 0 then 0 else 2 ^ 31 := by
    unfold flag Notices.line Notices.unmasked
    by_cases h : n.pending &&& ~~~ n.mask = 0 <;> simp [h]
  refine word_toNat_eq (by rw [hflag]; rfl) ?_
  exact add_flag_lt (top := 32) (by omega) (by decide)

theorem refusalWord_some (r : RefusalRecord) :
    (refusalWord (some r)).toNat =
      1 + (if r.more = true then 2 else 0) + r.reason.code * 2 ^ 4 + r.offset % 4096 * 2 ^ 16 := by
  refine word_toNat_eq ?_ (add_field_lt (top := 32) (n := _)
    (lt_of_lt_of_le (add_field_lt (top := 8) (add_flag_lt (top := 4) (flag_lt (by decide)) (by decide)) (by decide))
      (by decide)) (by decide))
  rw [field_of_lt 4 r.reason.code_lt]
  rfl

theorem blockWord_some (r : BlockRecord) :
    (blockWord (some r)).toNat =
      1 + (if r.more = true then 2 else 0) + r.dir.code * 2 ^ 2 + Requester.code r.req * 2 ^ 4 := by
  have hdir := r.dir.code_lt
  have hreq := Requester.code_lt r.req
  have hmore := flag_le r.more 1
  refine word_toNat_eq ?_ ?_ <;> rw [field_of_lt 2 (by omega), field_of_lt 4 (by omega)]
  · rfl
  · simp only [flag_eq, Bool.toNat_true] at hmore ⊢
    omega

theorem blockAddrWord_some (r : BlockRecord) : (blockAddrWord (some r)).toNat = r.addr.toNat :=
  word_toNat (r.addr.isLt.trans (by decide))

/-! ## Record Capture (R37, R207) -/

theorem captureWord_counts (w : CaptureWindow) (last : Option LastIdentity) :
    (captureWord w last 0).toNat = w.torn % 65536 + w.check % 65536 * 2 ^ 16 := by
  refine word_toNat_eq (by rw [field_foot]; rfl) ?_
  exact add_field_lt (top := 32) (field_lt (by decide)) (by decide)

theorem captureWord_slots (w : CaptureWindow) (last : Option LastIdentity) :
    (captureWord w last 2).toNat =
      (w.assembly.map Assembly.slot).getD 0 % 65536 + w.last.getD 0 % 65536 * 2 ^ 16 := by
  refine word_toNat_eq (by rw [field_foot]; rfl) ?_
  exact add_field_lt (top := 32) (field_lt (by decide)) (by decide)

theorem captureWord_assembly (w : CaptureWindow) (last : Option LastIdentity) :
    (captureWord w last 1).toNat = w.range % 65536 +
      (w.assembly.map fun a => 2 ^ 16 +
        (if a.seen[(0 : Fin 4)] = 0xF#4 then 2 ^ 20 else 0) + (if a.seen[(1 : Fin 4)] = 0xF#4 then 2 ^ 21 else 0) +
        (if a.seen[(2 : Fin 4)] = 0xF#4 then 2 ^ 22 else 0) +
        if a.seen[(3 : Fin 4)] = 0xF#4 then 2 ^ 23 else 0).getD 0 +
      if w.last = none then 0 else 2 ^ 24 := by
  unfold captureWord
  rw [← flag_isSome w.last]
  cases w.assembly with
  | none =>
    refine word_toNat_eq (by rw [field_foot]; rfl) ?_
    exact add_flag_lt (top := 32) (lt_of_lt_of_le (field_lt (top := 16) (by decide)) (by decide)) (by decide)
  | some a =>
    refine word_toNat_eq ?_ ?_
    · unfold Assembly.present
      rw [field_foot, flag_beq, flag_beq, flag_beq, flag_beq]
      simp only [flag, Option.map_some, Option.getD_some, if_true]
      omega
    · refine add_flag_lt (top := 32) ?_ (by decide)
      refine add_flag_lt (add_flag_lt (add_flag_lt (add_flag_lt ?_ ?_) ?_) ?_) ?_ <;> try decide
      exact lt_of_lt_of_le (add_flag_lt (top := 17) (field_lt (by decide)) (by decide)) (by decide)

theorem captureWord_noLast (w : CaptureWindow) : captureWord w none 3 = 0 := rfl

theorem captureWord_lastOf (w : CaptureWindow) (l : LastIdentity) :
    (captureWord w (some l) 3).toNat = l.bay.val + l.quality % 16 * 2 ^ 8 + l.sequence % 256 * 2 ^ 16 := by
  have hsum : field l.bay.val 3 0 + field l.quality 4 8 + field l.sequence 8 16 =
      l.bay.val + l.quality % 16 * 2 ^ 8 + l.sequence % 256 * 2 ^ 16 := by
    rw [field_zero l.bay.isLt]
    rfl
  refine word_toNat_eq hsum ?_
  refine add_field_lt (top := 32) (lt_of_lt_of_le (add_field_lt (top := 12) ?_ (by decide)) (by decide)) (by decide)
  exact field_lt (by decide)

theorem captureWord_last (w : CaptureWindow) (last : Option LastIdentity) :
    (captureWord w last 3).toNat =
      (last.map fun l => l.bay.val + l.quality % 16 * 2 ^ 8 + l.sequence % 256 * 2 ^ 16).getD 0 := by
  cases last with
  | none => exact (congrArg BitVec.toNat (captureWord_noLast w)).trans BitVec.toNat_zero
  | some l =>
    rw [Option.map_some, Option.getD_some]
    exact captureWord_lastOf w l

/-! ## Identity status (R58, R207) -/

section
variable (u : Identity)

theorem Identity.statusWord_counts :
    (u.statusWord 0).toNat = u.pinCount % 32 + u.victim % 32 * 2 ^ 8 + u.lookups.length % 16 * 2 ^ 16 := by
  refine word_toNat_eq (by rw [field_foot]; rfl) ?_
  refine add_field_lt (top := 32) (lt_of_lt_of_le (add_field_lt (top := 13) ?_ (by decide)) (by decide)) (by decide)
  exact field_lt (by decide)

theorem Identity.statusWord_lookups (i : Fin 8) :
    bits (u.statusWord 1) (4 * i.val) 4 = (u.lookups[i.val]?.map fun l => l.bay.val).getD 0 :=
  bits_packed_map u.lookups (fun l => l.bay.val) (by omega) fun l => l.bay.isLt.trans (by decide)

theorem Identity.statusWord_fetch (f : Fetch) (h : u.fetch = some f) :
    (u.statusWord 2).toNat = 1 + (match f.purpose with
      | .lookup b => b.val * 2 ^ 4
      | .preload => 2) + f.position % 4 * 2 ^ 8 + f.restarts % 4 * 2 ^ 12 + if f.reading = true then 2 ^ 16 else 0 := by
  simp only [Identity.statusWord, h]
  cases f.purpose with
  | lookup b =>
    refine word_toNat_eq (by dsimp only; rw [field_of_lt 4 b.isLt]; rfl) ?_
    refine add_flag_lt (top := 32) (add_field_lt (top := 16) (lt_of_lt_of_le (add_field_lt (top := 10)
      (lt_of_lt_of_le (add_field_lt (top := 7) (lo := 4) ?_ (by decide)) (by decide)) (by decide)) (by decide))
      (by decide)) (by decide)
    exact flag_lt (by decide)
  | preload =>
    refine word_toNat_eq rfl ?_
    refine add_flag_lt (top := 32) (add_field_lt (top := 16) (lt_of_lt_of_le (add_field_lt (top := 10)
      (lt_of_lt_of_le (add_flag_lt (top := 2) (lo := 1) ?_ (by decide)) (by decide)) (by decide)) (by decide))
      (by decide)) (by decide)
    exact flag_lt (by decide)

theorem Identity.statusWord_preload (r : Preload) (h : u.preload = some r) :
    (u.statusWord 3).toNat = 1 + r.index % 32 * 2 ^ 16 ∧ (u.statusWord 4).toNat = r.tag.toNat % 2 ^ 32 ∧
      (u.statusWord 5).toNat = r.tag.toNat / 2 ^ 32 := by
  unfold Identity.statusWord
  rw [h]
  refine ⟨word_toNat_eq rfl ?_, BitVec.toNat_ofNat _ _, word_toNat ?_⟩
  · exact add_field_lt (top := 32) (flag_lt (by decide)) (by decide)
  · have := r.tag.isLt
    unfold tagHigh
    omega

theorem Identity.statusWord_noFetch (h : u.fetch = none) : u.statusWord 2 = 0 := by
  simp only [Identity.statusWord, h]

theorem Identity.statusWord_noPreload (h : u.preload = none) :
    u.statusWord 3 = 0 ∧ u.statusWord 4 = 0 ∧ u.statusWord 5 = 0 := by
  unfold Identity.statusWord
  rw [h]
  exact ⟨rfl, rfl, rfl⟩

theorem Identity.statusWord_unused {i : Nat} (h : 6 ≤ i) : u.statusWord i = 0 := by
  obtain ⟨k, rfl⟩ := Nat.exists_eq_add_of_le' h
  rfl

end

/-! ## Journal status (R133, R136, R140 to R148, R207) -/

section
variable (j : Journal) (ring : Option Ring)

theorem Journal.statusWord_indices : (j.statusWord ring 0).toNat = j.head % 65536 + j.tail % 65536 * 2 ^ 16 := by
  refine word_toNat_eq (by rw [field_foot]; rfl) ?_
  exact add_field_lt (top := 32) (field_lt (by decide)) (by decide)

theorem Journal.statusWord_ring (g : Ring) :
    (j.statusWord (some g) 1).toNat =
      g.slots % 65536 + (j.head + g.slots - j.tail) % g.slots % 65536 * 2 ^ 16 := by
  refine word_toNat_eq (by rw [field_foot]; rfl) ?_
  exact add_field_lt (top := 32) (field_lt (by decide)) (by decide)

theorem Journal.statusWord_activity :
    (j.statusWord ring 2).toNat = (if j.writing = none then 0 else 1) + j.queue.length % 16 * 2 ^ 4 +
      j.waiting.length % 32 * 2 ^ 8 + (if j.sweep = none then 0 else 2 ^ 16) +
      (j.sweep.map Fin.val).getD 0 * 2 ^ 20 + if j.boundaryPending = true then 2 ^ 28 else 0 := by
  have hpointer : (j.sweep.map Fin.val).getD 0 < 2 ^ 6 := getD_map_lt _ _ (by decide) fun a => a.isLt
  refine word_toNat_eq (by rw [flag_isSome, flag_isSome, field_of_lt 20 hpointer]; rfl) ?_
  refine add_flag_lt (top := 32) (lt_of_lt_of_le (add_field_lt (top := 26) (lt_of_lt_of_le (add_flag_lt (top := 17)
    (lt_of_lt_of_le (add_field_lt (top := 13) (add_field_lt (top := 8) ?_ (by decide)) (by decide)) (by decide))
    (by decide)) (by decide)) (by decide)) (by decide)) (by decide)
  exact flag_lt (by decide)

theorem Journal.statusWord_period : (j.statusWord ring 4).toNat = j.period.toNat :=
  word_toNat (j.period.isLt.trans (by decide))

theorem Journal.statusWord_queue (i : Fin 8) :
    bits (j.statusWord ring 5) (4 * i.val) 4 = (j.queue[i.val]?.map fun r => r.composed.body.code).getD 0 :=
  bits_packed_map j.queue (fun r => r.composed.body.code) (by omega)
    fun r => r.composed.body.code_lt.trans (by decide)

/-- The words of the waiting list, and the unused words above them. -/
theorem Journal.statusWord_waiting {n : Nat} (h : 6 ≤ n) :
    j.statusWord ring n =
      if n < 14 then word (packed 8 (((j.waiting.drop (4 * (n - 6))).take 4).map Claim.viewByte)) else 0 := by
  obtain ⟨k, rfl⟩ := Nat.exists_eq_add_of_le' h
  rfl

theorem Journal.statusWord_unused {n : Nat} (h : 14 ≤ n) : j.statusWord ring n = 0 :=
  (j.statusWord_waiting ring (by omega)).trans (if_neg (Nat.not_lt.2 h))

/-- A claim's byte shows its claimant and its size (R207). -/
theorem Claim.viewByte_eq (c : Claim) : c.viewByte = c.claimant + c.size % 8 * 2 ^ 5 := by
  rw [Claim.viewByte, field_zero c.claimant_lt]
  rfl

theorem Claim.viewByte_lt (c : Claim) : c.viewByte < 2 ^ 8 := by
  have := c.claimant_lt
  rw [c.viewByte_eq]
  omega

/-- The byte of the claim at a place of the waiting list. -/
theorem Journal.statusWord_claim (q : Fin 8) (i : Fin 4) :
    bits (j.statusWord ring (6 + q.val)) (8 * i.val) 8 = (j.waiting[4 * q.val + i.val]?.map Claim.viewByte).getD 0 := by
  have hword : j.statusWord ring (6 + q.val) =
      word (packed 8 (((j.waiting.drop (4 * q.val)).take 4).map Claim.viewByte)) := by
    rw [j.statusWord_waiting ring (Nat.le_add_right 6 _), if_pos (by omega), Nat.add_sub_cancel_left]
  rw [hword, bits_packed_map _ _ (by omega) Claim.viewByte_lt, List.getElem?_take_of_lt i.isLt, List.getElem?_drop]

end

/-! ## The store view (R173 to R175, R180, R207) -/

section
variable (u : StoreUnit)

theorem StoreUnit.statusWord_run : (u.statusWord 0).toNat = if u.run = .running then 1 else 0 := by
  unfold StoreUnit.statusWord
  cases u.run <;> rfl

theorem StoreUnit.statusWord_clearing : (u.statusWord 1).toNat = u.clearing % 2 ^ 23 := by
  refine word_toNat_eq (field_foot _ _) ?_
  exact field_lt (top := 32) (by decide)

theorem StoreUnit.statusWord_refresh :
    (u.statusWord 2).toNat = u.debt % 16 + u.row % 4096 * 2 ^ 8 + (if u.mode = .opportune then 2 ^ 24 else 0) +
      if u.opportune = true then 2 ^ 25 else 0 := by
  refine word_toNat_eq (by rw [field_foot, flag_beq]; rfl) ?_
  refine add_flag_lt (top := 32) (add_flag_lt (lt_of_lt_of_le (add_field_lt (top := 20) (lt_of_lt_of_le
    (field_lt (top := 4) (by decide)) (by decide)) (by decide)) (by decide)) (by decide)) (by decide)

theorem StoreUnit.statusWord_noLatch (h : u.latch = none) : u.statusWord 3 = 0 ∧ u.statusWord 4 = 0 := by
  simp only [StoreUnit.statusWord, h, and_self]

theorem StoreUnit.statusWord_latch (r : ParityRecord) (h : u.latch = some r) :
    (u.statusWord 3).toNat = 1 + (if r.more = true then 2 else 0) + r.halves.code * 2 ^ 4 + r.kind.code * 2 ^ 8 +
        (r.req.map Requester.code).getD 0 * 2 ^ 12 ∧
      (u.statusWord 4).toNat = r.addr.toNat := by
  have hreq : (r.req.map Requester.code).getD 0 < 2 ^ 2 := getD_map_lt _ _ (by decide) Requester.code_lt
  simp only [StoreUnit.statusWord, h]
  refine ⟨word_toNat_eq ?_ ?_, word_toNat (r.addr.isLt.trans (by decide))⟩
  · rw [field_of_lt 4 r.halves.code_lt, field_of_lt 8 r.kind.code_lt, field_of_lt 12 hreq]
    rfl
  · refine add_field_lt (top := 32) (lt_of_lt_of_le (add_field_lt (top := 10) (lt_of_lt_of_le (add_field_lt (top := 6)
      (lt_of_lt_of_le (add_flag_lt (top := 2) (lo := 1) ?_ (by decide)) (by decide)) (by decide)) (by decide))
      (by decide)) (by decide)) (by decide)
    exact flag_lt (by decide)

theorem StoreUnit.statusWord_unused {i : Nat} (h : 5 ≤ i) : u.statusWord i = 0 := by
  obtain ⟨k, rfl⟩ := Nat.exists_eq_add_of_le' h
  rfl

end

end Sys2Proof.Machine
end


section
/-!
PROOF. The session, cache, meter and water views, word by word (R84, R58, R110, R207).
-/

namespace Sys2Proof.Machine

open Sys2Proof

/-! ## Tags and stamps -/

theorem tagLow_toNat (t : Tag) : (tagLow t).toNat = t.toNat % 2 ^ 32 := BitVec.toNat_ofNat _ _

theorem tagHigh_lt (t : Tag) : tagHigh t < 2 ^ 16 := by
  have := t.isLt
  unfold tagHigh
  omega

theorem word_tagHigh_toNat (t : Tag) : (word (tagHigh t)).toNat = t.toNat / 2 ^ 32 :=
  word_toNat ((tagHigh_lt t).trans (by decide))

/-- A word of one field at its foot. -/
theorem word_field_toNat (v : Nat) {width : Nat} (h : width ≤ 32) : (word (field v width 0)).toNat = v % 2 ^ width :=
  word_toNat_eq (field_foot v width) (field_lt (top := 32) (by omega))

/-- A word of two halfword fields. -/
theorem word_halves_toNat (x y : Nat) :
    (word (field x 16 0 + field y 16 16)).toNat = x % 65536 + y % 65536 * 2 ^ 16 := by
  refine word_toNat_eq (by rw [field_foot]; rfl) ?_
  exact add_field_lt (top := 32) (field_lt (by decide)) (by decide)

/-! ## The session view (R84, R207) -/

section
variable (d : Depot) (b : Fin 8)

theorem AccountRef.flag_bound (r : Option AccountRef) (lo : Nat) :
    flag ((r.map fun a => a.bound).getD false) lo = if r.map AccountRef.bound = some true then 2 ^ lo else 0 := by
  cases r <;> simp [flag]

theorem Depot.sessionView_state (y : Bay) (hy : y = d.bay b) :
    (d.sessionView b 0).toNat = y.session.state.code + holdCode y.session.hold * 2 ^ 4 +
      (y.session.closeReason.map CloseReason.code).getD 0 * 2 ^ 8 +
      (y.session.account.map fun r => r.cls.val).getD 0 * 2 ^ 12 +
      (y.session.account.map fun r => r.index.val).getD 0 * 2 ^ 16 +
      (if y.session.account.map AccountRef.bound = some true then 2 ^ 22 else 0) +
      (if y.session.operatorAdmitted = true then 2 ^ 24 else 0) +
      (if y.session.abandoned = true then 2 ^ 25 else 0) + y.session.lines.length % 8 * 2 ^ 28 := by
  subst hy
  have hstate := (d.bay b).session.state.code_lt
  have hclose : ((d.bay b).session.closeReason.map CloseReason.code).getD 0 < 2 ^ 3 :=
    getD_map_lt _ _ (by decide) CloseReason.code_lt
  have hcls : ((d.bay b).session.account.map fun r => r.cls.val).getD 0 < 2 ^ 2 :=
    getD_map_lt _ _ (by decide) fun r => r.cls.isLt
  have hindex : ((d.bay b).session.account.map fun r => r.index.val).getD 0 < 2 ^ 6 :=
    getD_map_lt _ _ (by decide) fun r => r.index.isLt
  unfold Depot.sessionView
  refine word_toNat_eq ?_ ?_
  · rw [field_zero (width := 3) hstate, field_of_lt 4 (holdCode_lt _), field_of_lt 8 hclose, field_of_lt 12 hcls,
      field_of_lt 16 hindex, AccountRef.flag_bound]
    rfl
  · refine add_field_lt (top := 32) (lt_of_lt_of_le (add_flag_lt (top := 26) (add_flag_lt (lt_of_lt_of_le
      (add_flag_lt (top := 23) (add_field_lt (lt_of_lt_of_le (add_field_lt (top := 14) (lt_of_lt_of_le
      (add_field_lt (top := 11) (lt_of_lt_of_le (add_field_lt (top := 7) (lt_of_lt_of_le (field_lt (top := 3)
      (by decide)) (by decide)) (by decide)) (by decide)) (by decide)) (by decide)) (by decide)) (by decide))
      (by decide)) (by decide)) (by decide)) (by decide)) (by decide)) (by decide)) (by decide)

theorem Depot.sessionView_tagHigh (y : Bay) (hy : y = d.bay b) :
    (d.sessionView b 2).toNat = y.session.tag.toNat / 2 ^ 32 + y.session.dropped % 65536 * 2 ^ 16 := by
  subst hy
  exact word_toNat_eq rfl (add_field_lt (top := 32) (tagHigh_lt _) (by decide))

theorem Depot.sessionView_parked (y : Bay) (hy : y = d.bay b) :
    (d.sessionView b 8).toNat = (d.journal.bayClaim b).isSome.toNat + (d.journal.bayClaim b).getD 0 % 8 * 2 ^ 4 +
      y.parked.isSome.toNat * 2 ^ 8 + (y.parked.map Parked.quality).getD 0 % 16 * 2 ^ 16 +
      (y.parked.map Parked.sequence).getD 0 % 256 * 2 ^ 24 := by
  subst hy
  unfold Depot.sessionView
  refine word_toNat_eq ?_ ?_
  · rw [flag_eq, flag_eq, Nat.pow_zero, Nat.mul_one]
    rfl
  · refine add_field_lt (top := 32) (lt_of_lt_of_le (add_field_lt (top := 20) (lt_of_lt_of_le (add_flag_lt (top := 9)
      (lt_of_lt_of_le (add_field_lt (top := 7) (lt_of_lt_of_le (flag_lt (top := 1) (by decide)) (by decide))
      (by decide)) (by decide)) (by decide)) (by decide)) (by decide)) (by decide)) (by decide)

/-- The parked record's tag, in two words. -/
theorem Depot.sessionView_parkedTag (y : Bay) (hy : y = d.bay b) :
    (d.sessionView b 9).toNat = (y.parked.map fun r => r.tag.toNat % 2 ^ 32).getD 0 ∧
      (d.sessionView b 10).toNat = (y.parked.map fun r => r.tag.toNat / 2 ^ 32).getD 0 := by
  subst hy
  simp only [Depot.sessionView]
  cases (d.bay b).parked with
  | none => exact ⟨BitVec.toNat_zero, word_toNat (by decide)⟩
  | some r => exact ⟨tagLow_toNat r.tag, word_tagHigh_toNat r.tag⟩

/-- The stamps of the session and of the parked record. -/
theorem Depot.sessionView_stamps (y : Bay) (hy : y = d.bay b) :
    d.sessionView b 3 = (y.session.start.map Calendar.dateWord).getD 0 ∧
      d.sessionView b 4 = (y.session.start.map Calendar.timeWord).getD 0 ∧
      d.sessionView b 11 = (y.parked.map fun r => r.stamp.dateWord).getD 0 ∧
      d.sessionView b 12 = (y.parked.map fun r => r.stamp.timeWord).getD 0 := by
  subst hy
  refine ⟨rfl, rfl, ?_, ?_⟩
  · exact congrArg (Option.getD · 0) (Option.map_map Calendar.dateWord Parked.stamp (d.bay b).parked)
  · exact congrArg (Option.getD · 0) (Option.map_map Calendar.timeWord Parked.stamp (d.bay b).parked)

/-- The words of the program lines, and the unused words above them. -/
theorem Depot.sessionView_lines {n : Nat} (h : 14 ≤ n) :
    d.sessionView b n =
      if n < 42 then
        match (d.session b).lines[(n - 14) / 7]? with
        | some l => l.viewWord ((n - 14) % 7)
        | none => 0
      else 0 := by
  obtain ⟨k, rfl⟩ := Nat.exists_eq_add_of_le' h
  rfl

theorem Depot.sessionView_line (n : Fin 4) (l : Line) (hl : (d.session b).lines[n.val]? = some l) {k : Nat}
    (hk : k < 7) : d.sessionView b (14 + 7 * n.val + k) = l.viewWord k := by
  rw [d.sessionView_lines b (by omega), if_pos (by omega),
    show (14 + 7 * n.val + k - 14) / 7 = n.val by omega, show (14 + 7 * n.val + k - 14) % 7 = k by omega, hl]

theorem Depot.sessionView_noLine (n : Fin 4) (hl : (d.session b).lines[n.val]? = none) {k : Nat} (hk : k < 7) :
    d.sessionView b (14 + 7 * n.val + k) = 0 := by
  rw [d.sessionView_lines b (by omega), if_pos (by omega), show (14 + 7 * n.val + k - 14) / 7 = n.val by omega, hl]

end

section
variable (l : Line)

theorem Line.viewWord_fresh : (l.viewWord 4).toNat = l.fresh % 2 ^ 24 + l.program.val * 2 ^ 24 := by
  refine word_toNat_eq (by rw [field_foot, field_of_lt 24 l.program.isLt]) ?_
  exact lt_of_lt_of_le (add_field_lt (top := 28) (field_lt (by decide)) (by decide)) (by decide)

theorem Line.viewWord_conceded :
    (l.viewWord 5).toNat = l.conceded % 2 ^ 24 + (match l.outcome with
      | .run => 0
      | .refused r => 2 ^ 24 + r.code * 2 ^ 25) + if l.stop = none then 2 ^ 28 else 0 := by
  have hrunning : flag l.running 28 = if l.stop = none then 2 ^ 28 else 0 := by
    simp [flag, Line.running]
  simp only [Line.viewWord]
  cases l.outcome with
  | run =>
    refine word_toNat_eq (by rw [field_foot, hrunning]) ?_
    exact lt_of_lt_of_le (add_flag_lt (top := 29) (lt_of_lt_of_le (field_lt (top := 24) (by decide)) (by decide))
      (by decide)) (by decide)
  | refused r =>
    have hcode := r.code_lt
    dsimp only
    refine word_toNat_eq ?_ ?_
    · rw [field_foot, hrunning, field_of_lt 25 hcode]
      rfl
    · rw [← Nat.add_assoc]
      refine lt_of_lt_of_le (add_flag_lt (top := 29) (lt_of_lt_of_le (add_field_lt (top := 27) (add_flag_lt
        (field_lt (by decide)) (by decide)) (by decide)) (by decide)) (by decide)) (by decide)

end

/-! ## The cache view (R58, R207) -/

theorem Identity.cacheView_flags (u : Identity) (n : Fin 32) (c : CacheEntry) (hc : c = u.cache[n]) :
    (u.cacheView n 3).toNat = c.account.val + c.cls.val * 2 ^ 8 + (if c.barred = true then 2 ^ 16 else 0) +
      (if n.val < u.pinCount then 2 ^ 17 else 0) + if c.valid = true then 2 ^ 31 else 0 := by
  subst hc
  unfold Identity.cacheView
  refine word_toNat_eq ?_ ?_
  · rw [field_zero u.cache[n].account.isLt, field_of_lt 8 u.cache[n].cls.isLt, flag_decide]
    rfl
  · refine add_flag_lt (top := 32) (lt_of_lt_of_le (add_flag_lt (top := 18) (add_flag_lt (lt_of_lt_of_le (add_field_lt
      (top := 10) (lt_of_lt_of_le (field_lt (top := 6) (by decide)) (by decide)) (by decide)) (by decide))
      (by decide)) (by decide)) (by decide)) (by decide)

/-! ## The meter and water views (R110, R207) -/

section
variable (d : Depot)

/-- The two words of a meter. -/
theorem Depot.waterView_meter (m : Fin 20) :
    d.waterView (2 * m.val) = word (d.water.meters[m].baseline.getD 0) ∧
      (d.waterView (2 * m.val + 1)).toNat = (if d.water.meters[m].baseline = none then 0 else 1) +
        (if d.water.meters[m].faultPending = true then 2 else 0) + d.water.meters[m].jumps % 65536 * 2 ^ 16 := by
  have heven : (Fin.ofNat 20 (2 * m.val / 2) : Fin 20) = m := Fin.ext (by simp)
  have hodd : (Fin.ofNat 20 ((2 * m.val + 1) / 2) : Fin 20) = m := Fin.ext (by
    show (2 * m.val + 1) / 2 % 20 = m.val
    omega)
  unfold Depot.waterView
  rw [if_pos (by omega), if_pos (by omega), if_pos (by omega), if_neg (by omega)]
  simp only [heven, hodd, true_and]
  refine word_toNat_eq (by rw [flag_isSome]; rfl) ?_
  exact add_field_lt (top := 32) (lt_of_lt_of_le (add_flag_lt (top := 2) (flag_lt (by decide)) (by decide))
    (by decide)) (by decide)

theorem Depot.waterView_turbidity (h : d.water.turbidity ≤ 65535) : (d.waterView 41).toNat = d.water.turbidity :=
  word_toNat_eq (if_pos h) (by rw [turbidityField, if_pos h]; omega)

theorem any_isQuotaDay_iff (l : List Claim) : l.any Claim.isQuotaDay = true ↔ ∃ c ∈ l, c.claimant = 9 := by
  simp [List.any_eq_true, Claim.isQuotaDay_iff]

theorem any_overrun_iff (l : List Claim) :
    l.any Claim.overrun = true ↔ ∃ totals stamp, .quotaDay totals stamp true ∈ l := by
  rw [List.any_eq_true]
  constructor
  · rintro ⟨c, hc, hoverrun⟩
    cases c with
    | quotaDay totals stamp overrun =>
      obtain rfl : overrun = true := hoverrun
      exact ⟨totals, stamp, hc⟩
    | bay b records => cases hoverrun
    | sweep a => cases hoverrun
    | meter m old new stamp => cases hoverrun
    | restart lostBays lostRecords resumed stamp => cases hoverrun
  · rintro ⟨totals, stamp, hc⟩
    exact ⟨_, hc, rfl⟩

/-- The status word of the water unit, as a number. -/
theorem Depot.waterView_status :
    (d.waterView 42).toNat = d.water.quality.code + d.water.available.toNat * 2 ^ 4 + d.water.stage.code * 2 ^ 8 +
      d.water.badSamples % 256 * 2 ^ 16 + (d.journal.waiting.any Claim.isQuotaDay).toNat * 2 ^ 28 +
      (d.journal.waiting.any Claim.overrun).toNat * 2 ^ 29 := by
  have hquality := d.water.quality.code_lt
  have hstage := d.water.stage.code_lt
  refine word_toNat_eq ?_ ?_
  · rw [field_zero (width := 3) (by omega), field_of_lt 8 (by omega), flag_eq, flag_eq, flag_eq]
    rfl
  · refine add_flag_lt (top := 32) (lt_of_lt_of_le (add_flag_lt (top := 29) (lt_of_lt_of_le (add_field_lt (top := 24)
      (lt_of_lt_of_le (add_field_lt (top := 10) (lt_of_lt_of_le (add_flag_lt (top := 5) (lt_of_lt_of_le
      (field_lt (top := 3) (by decide)) (by decide)) (by decide)) (by decide)) (by decide)) (by decide)) (by decide))
      (by decide)) (by decide)) (by decide)) (by decide)

theorem Depot.waterView_totals (k n : Nat) (hn : d.water.totals.toList[k]? = some n) :
    d.waterView (44 + k) = word n := by
  have hk : k < 9 := by
    obtain ⟨hk, -⟩ := List.getElem?_eq_some_iff.1 hn
    exact hk
  unfold Depot.waterView
  dsimp only
  rw [if_neg (by omega), if_neg (by omega), if_neg (by omega), if_neg (by omega), if_neg (by omega),
    if_pos (by omega), Nat.add_sub_cancel_left, List.getD_eq_getElem?_getD, hn]
  rfl

/-- The two words of a bay's unattributed volumes. -/
theorem Depot.waterView_unattributed (b : Fin 8) :
    (d.waterView (53 + 2 * b.val)).toNat = d.water.unattributed[b].fresh % 2 ^ 24 ∧
      (d.waterView (54 + 2 * b.val)).toNat = d.water.unattributed[b].reclaim % 2 ^ 24 := by
  have hfresh : (Fin.ofNat 8 ((53 + 2 * b.val - 53) / 2) : Fin 8) = b := Fin.ext (by
    show (53 + 2 * b.val - 53) / 2 % 8 = b.val
    omega)
  have hreclaim : (Fin.ofNat 8 ((54 + 2 * b.val - 53) / 2) : Fin 8) = b := Fin.ext (by
    show (54 + 2 * b.val - 53) / 2 % 8 = b.val
    omega)
  unfold Depot.waterView
  dsimp only
  constructor
  · rw [if_neg (by omega), if_neg (by omega), if_neg (by omega), if_neg (by omega), if_neg (by omega),
      if_neg (by omega), if_pos (by omega), if_pos (by omega)]
    simp only [hfresh]
    exact word_field_toNat _ (by decide)
  · rw [if_neg (by omega), if_neg (by omega), if_neg (by omega), if_neg (by omega), if_neg (by omega),
      if_neg (by omega), if_pos (by omega), if_neg (by omega)]
    simp only [hreclaim]
    exact word_field_toNat _ (by decide)

theorem Depot.waterView_unused {i : Nat} (h : 69 ≤ i) : d.waterView i = 0 := by
  unfold Depot.waterView
  dsimp only
  rw [if_neg (by omega), if_neg (by omega), if_neg (by omega), if_neg (by omega), if_neg (by omega),
    if_neg (by omega), if_neg (by omega)]

end

end Sys2Proof.Machine
end


section
/-!
PROOF. A read of the control window shows the state (R18, R187, R192, R206, R207).
-/

namespace Sys2Proof.Machine

open Sys2Proof

/-! ## Which view an offset reads (R187) -/

section
variable (p : Part) {o : Nat}

theorem Part.readControl_view (h : o < 0x100) : p.readControl o = p.statusView o := by
  unfold Part.readControl
  rw [itemAt_none (.inl h)]
  exact if_pos h

/-- The first status words: the part, its notices and latches, and the time view. -/
theorem Part.readControl_heads :
    p.readControl 0x00 = word (field p.path.straps.toNat 4 0 + field 0xA240 16 16) ∧
      p.readControl 0x04 = word p.depot.notices.pending.toNat ∧
      p.readControl 0x08 = word (p.depot.notices.unmasked.toNat + flag p.depot.notices.line 31) ∧
      p.readControl 0x0C = refusalWord p.depot.notices.refusal ∧
      p.readControl 0x10 = blockWord p.path.blockLatch ∧
      p.readControl 0x14 = blockAddrWord p.path.blockLatch ∧
      p.readControl 0x1C = p.calendar.snapshot.timeWord := ⟨rfl, rfl, rfl, rfl, rfl, rfl, rfl⟩

/-- The settings with effects, each with an offset of its own. -/
theorem Part.readControl_singles :
    p.readControl 0x144 = word p.depot.identity.pinCount ∧ p.readControl 0x154 = word p.depot.water.floor ∧
      p.readControl 0x164 = word p.depot.water.quota ∧ p.readControl 0x168 = word p.depot.water.percent ∧
      p.readControl 0x18C = word p.store.mode.code ∧ p.readControl 0x198 = word p.depot.notices.mask.toNat :=
  ⟨rfl, rfl, rfl, rfl, rfl, rfl⟩

/-- The requests area. -/
theorem Part.readControl_requests :
    p.readControl 0x280 = 0 ∧ p.readControl 0x284 = word p.depot.notices.pending.toNat ∧
      p.readControl 0x288 = word p.depot.journal.tail ∧ p.readControl 0x28C = p.depot.identity.stagedTagLow ∧
      p.readControl 0x290 = 0 ∧ p.readControl 0x294 = p.calendar.stagedDate ∧ p.readControl 0x298 = 0 :=
  ⟨rfl, rfl, rfl, rfl, rfl, rfl, rfl⟩

theorem Part.readControl_identityCapture {i : Nat} (hi : i < 4) (ho : o = 0x20 + 4 * i) :
    p.readControl o = captureWord p.capture.identity p.capture.lastIdentity i := by
  rw [p.readControl_view (by omega)]
  unfold Part.statusView
  rw [if_neg (by omega), if_pos (by omega), show (o - 0x20) / 4 = i by omega]

theorem Part.readControl_plantCapture {i : Nat} (hi : i < 4) (ho : o = 0x30 + 4 * i) :
    p.readControl o = captureWord p.capture.plant none i := by
  rw [p.readControl_view (by omega)]
  unfold Part.statusView
  rw [if_neg (by omega), if_neg (by omega), if_pos (by omega), show (o - 0x30) / 4 = i by omega]

theorem Part.readControl_bayCapture {i : Nat} (hi : i < 4) (ho : o = 0x40 + 4 * i) :
    p.readControl o = captureWord p.capture.bay none i := by
  rw [p.readControl_view (by omega)]
  unfold Part.statusView
  rw [if_neg (by omega), if_neg (by omega), if_neg (by omega), if_pos (by omega), show (o - 0x40) / 4 = i by omega]

theorem Part.readControl_gap (hlow : 0x50 ≤ o) (hhigh : o < 0x60) : p.readControl o = 0 := by
  rw [p.readControl_view (by omega)]
  unfold Part.statusView
  rw [if_neg (by omega), if_neg (by omega), if_neg (by omega), if_neg (by omega), if_pos (by omega)]

theorem Part.readControl_identityStatus {i : Nat} (hi : i < 16) (ho : o = 0x60 + 4 * i) :
    p.readControl o = p.depot.identity.statusWord i := by
  rw [p.readControl_view (by omega)]
  unfold Part.statusView
  rw [if_neg (by omega), if_neg (by omega), if_neg (by omega), if_neg (by omega), if_neg (by omega),
    if_pos (by omega), show (o - 0x60) / 4 = i by omega]

theorem Part.readControl_journalStatus {i : Nat} (hi : i < 16) (ho : o = 0xA0 + 4 * i) :
    p.readControl o = p.depot.journal.statusWord p.path.ring i := by
  rw [p.readControl_view (by omega)]
  unfold Part.statusView
  rw [if_neg (by omega), if_neg (by omega), if_neg (by omega), if_neg (by omega), if_neg (by omega),
    if_neg (by omega), if_pos (by omega), show (o - 0xA0) / 4 = i by omega]

theorem Part.readControl_storeStatus {i : Nat} (hi : i < 8) (ho : o = 0xE0 + 4 * i) :
    p.readControl o = p.store.statusWord i := by
  rw [p.readControl_view (by omega)]
  unfold Part.statusView
  rw [if_neg (by omega), if_neg (by omega), if_neg (by omega), if_neg (by omega), if_neg (by omega),
    if_neg (by omega), if_neg (by omega), show (o - 0xE0) / 4 = i by omega]

/-- The words of the window table. -/
theorem Part.readControl_window (e : Fin 8) :
    p.readControl (0x100 + 8 * e.val) = p.path.windows[e].first ∧
      p.readControl (0x104 + 8 * e.val) = p.path.windows[e].second := by
  obtain ⟨hfirst, hsecond⟩ := itemAt_windows e
  simp only [Item.offset] at hfirst hsecond
  unfold Part.readControl
  rw [hfirst, hsecond]
  exact ⟨rfl, rfl⟩

theorem Part.readControl_setting (i : SettingItem) : p.readControl (SettingItem.offset i) = p.settingWord i := by
  have hitem : itemAt (SettingItem.offset i) = some (.setting i) := itemAt_offset (.setting i)
  unfold Part.readControl
  rw [hitem]
  rfl

/-- The offsets between the items, which hold none. -/
theorem Part.readControl_noItem (h : (0x19C ≤ o ∧ o < 0x1C0) ∨ (0x29C ≤ o ∧ o < 0x300)) : p.readControl o = 0 := by
  unfold Part.readControl
  rw [itemAt_none (by omega)]
  dsimp only
  rw [if_neg (by omega), if_neg (by omega), if_neg (by omega), if_neg (by omega), if_neg (by omega)]

/-- The four words of an account. -/
theorem Part.readControl_account (a : Fin 64) :
    p.readControl (0x300 + 16 * a.val) = (p.depot.account a).word0 ∧
      p.readControl (0x304 + 16 * a.val) = word (p.depot.account a).limit ∧
      p.readControl (0x308 + 16 * a.val) = word (p.depot.account a).balance ∧
      p.readControl (0x30C + 16 * a.val) =
        word (field (p.depot.account a).count 16 0 + field (p.depot.account a).period.toNat 16 16) := by
  obtain ⟨hword0, hword1, hcommit⟩ := itemAt_accounts a
  have hindex : (Fin.ofNat 64 ((0x308 + 16 * a.val - 0x300) / 16) : Fin 64) = a := Fin.ext (by
    show (0x308 + 16 * a.val - 0x300) / 16 % 64 = a.val
    omega)
  unfold Part.readControl
  rw [hword0, hword1, hcommit, itemAt_none (.inr (.inr (.inr (.inl (by omega)))))]
  dsimp only
  rw [if_neg (by omega), if_pos (by omega), hindex]
  exact ⟨rfl, rfl, rfl, rfl⟩

theorem Part.readControl_session (b : Fin 8) {i : Nat} (hi : i < 44) (ho : o = 0x700 + 176 * b.val + 4 * i) :
    p.readControl o = p.depot.sessionView b i := by
  have hbay : (Fin.ofNat 8 ((o - 0x700) / 176) : Fin 8) = b := Fin.ext (by
    show (o - 0x700) / 176 % 8 = b.val
    omega)
  unfold Part.readControl
  rw [itemAt_none (by omega)]
  dsimp only
  rw [if_neg (by omega), if_neg (by omega), if_pos (by omega), hbay, show (o - 0x700) % 176 / 4 = i by omega]

theorem Part.readControl_cache (n : Fin 32) {i : Nat} (hi : i < 4) (ho : o = 0xC80 + 16 * n.val + 4 * i) :
    p.readControl o = p.depot.identity.cacheView n i := by
  have hentry : (Fin.ofNat 32 ((o - 0xC80) / 16) : Fin 32) = n := Fin.ext (by
    show (o - 0xC80) / 16 % 32 = n.val
    omega)
  unfold Part.readControl
  rw [itemAt_none (by omega)]
  dsimp only
  rw [if_neg (by omega), if_neg (by omega), if_neg (by omega), if_pos (by omega), hentry,
    show (o - 0xC80) % 16 / 4 = i by omega]

theorem Part.readControl_water {i : Nat} (ho : o = 0xE80 + 4 * i) : p.readControl o = p.depot.waterView i := by
  unfold Part.readControl
  rw [itemAt_none (by omega)]
  dsimp only
  rw [if_neg (by omega), if_neg (by omega), if_neg (by omega), if_neg (by omega), if_pos (by omega),
    show (o - 0xE80) / 4 = i by omega]

end

/-! ## The command (R18, R192) -/

/-- A read of any word but the date view completes with it and changes nothing. -/
theorem exec_controlRead_shows (s : State) (o : Nat) (req : Requester) (hs : s.busFree) (h4 : o % 4 = 0) (ho : o < 4096)
    (hdate : o ≠ 0x18) :
    ∃ t, exec (.upstreamRead (s.part.path.controlAddr o) req) s = .next t ∧
      s.becomes { s.part with path := { s.part.path with
        done := [⟨.read (s.part.path.controlAddr o) req, s.part.readControl o⟩] } } t := by
  have hbefore : s.part.begin.beforeControlRead o = s.part.begin := if_neg hdate
  refine ⟨_, exec_controlRead s o req hs ho h4, State.becomes_of_eq rfl ?_⟩
  rw [hbefore]
  rfl

end Sys2Proof.Machine
end


section
/-!
PROOF. The settings, the window table and the accounts as words, and the statement of the control window's reads (R187,
R192, R206, R207).
-/

namespace Sys2Proof.Machine

open Sys2Proof

/-! ## Settings as words (R206) -/

theorem WindowEntry.first_toNat (e : WindowEntry) :
    e.first.toNat = (if e.enabled = true then 1 else 0) + e.kind.toNat * 2 + e.k.toNat * 2 ^ 4 +
      e.base.toNat * 2 ^ 12 := by
  refine word_toNat_eq ?_ ?_
  · rw [field_of_lt 1 e.kind.isLt, field_of_lt 4 e.k.isLt, field_of_lt 12 e.base.isLt]
    rfl
  · exact lt_of_lt_of_le (add_field_lt (top := 24) (lt_of_lt_of_le (add_field_lt (top := 9) (add_field_lt (top := 4)
      (flag_lt (by decide)) (by decide)) (by decide)) (by decide)) (by decide)) (by decide)

theorem WindowEntry.second_toNat (e : WindowEntry) :
    e.second.toNat = e.writePermit.toNat + e.readPermit.toNat * 2 ^ 4 := by
  refine word_toNat_eq ?_ ?_
  · rw [field_zero e.writePermit.isLt, field_of_lt 4 e.readPermit.isLt]
  · exact lt_of_lt_of_le (add_field_lt (top := 8) (field_lt (by decide)) (by decide)) (by decide)

theorem Schedule.toWord_toNat (c : Schedule) :
    c.toWord.toNat = c.kind.toNat + c.hour.toNat * 2 ^ 8 + c.weekday.toNat * 2 ^ 16 + c.day.toNat * 2 ^ 24 := by
  refine word_toNat_eq ?_ ?_
  · rw [field_zero c.kind.isLt, field_of_lt 8 c.hour.isLt, field_of_lt 16 c.weekday.isLt, field_of_lt 24 c.day.isLt]
  · exact lt_of_lt_of_le (add_field_lt (top := 29) (lt_of_lt_of_le (add_field_lt (top := 19) (lt_of_lt_of_le
      (add_field_lt (top := 13) (lt_of_lt_of_le (field_lt (top := 3) (by decide)) (by decide)) (by decide))
      (by decide)) (by decide)) (by decide)) (by decide)) (by decide)

theorem Program.toWord_toNat (x : Program) :
    x.toWord.toNat = (if x.enabled = true then 1 else 0) + if x.freshRequired = true then 2 else 0 :=
  word_toNat_eq rfl (lt_of_lt_of_le (add_flag_lt (top := 2) (flag_lt (by decide)) (by decide)) (by decide))

theorem Charge.tariffWord_toNat (c : Charge) (n : Fin 32) :
    (c.tariffWord n).toNat = c.tariff[2 * n.val].toNat + c.tariff[2 * n.val + 1].toNat * 2 ^ 16 := by
  have hlow := (c.tariff[2 * n.val]).isLt
  have hhigh := (c.tariff[2 * n.val + 1]).isLt
  exact word_toNat (by omega)

theorem Account.word0_toNat (x : Account) :
    x.word0.toNat = x.haulier.toNat + x.openCount % 16 * 2 ^ 24 + x.band.val * 2 ^ 28 +
      (if x.manualHold = true then 2 ^ 30 else 0) + if x.valid = true then 2 ^ 31 else 0 := by
  refine word_toNat_eq ?_ ?_
  · rw [field_zero x.haulier.isLt, field_of_lt 28 x.band.isLt]
    rfl
  · exact add_flag_lt (top := 32) (add_flag_lt (add_field_lt (add_field_lt (field_lt (by decide)) (by decide))
      (by decide)) (by decide)) (by decide)

theorem accountTotalWord_toNat (x : Account) :
    (word (field x.count 16 0 + field x.period.toNat 16 16)).toNat = x.count % 65536 + x.period.toNat * 2 ^ 16 := by
  have hperiod := x.period.isLt
  rw [word_halves_toNat, Nat.mod_eq_of_lt (show x.period.toNat < 65536 from hperiod)]

theorem identityWord_toNat (straps : BitVec 4) :
    (word (field straps.toNat 4 0 + field 0xA240 16 16)).toNat = straps.toNat + 0xA240 * 2 ^ 16 := by
  refine word_toNat_eq (by rw [field_zero straps.isLt]; rfl) ?_
  exact add_field_lt (top := 32) (lt_of_lt_of_le (field_lt (top := 4) (by decide)) (by decide)) (by decide)

/-! ## The capture views (R207) -/

/-- The three words of a record window's view. -/
theorem Part.readControl_capture (p : Part) {o : Nat} (kind : RecordKind) (base : Nat)
    (hbase : (kind = .identity ∧ base = 0x020) ∨ (kind = .plant ∧ base = 0x030) ∨ (kind = .bay ∧ base = 0x040)) :
    ∃ last, ∀ i < 4, o = base + 4 * i → p.readControl o = captureWord (p.capture.window kind) last i := by
  rcases hbase with ⟨rfl, rfl⟩ | ⟨rfl, rfl⟩ | ⟨rfl, rfl⟩
  · exact ⟨_, fun i hi ho => p.readControl_identityCapture hi ho⟩
  · exact ⟨_, fun i hi ho => p.readControl_plantCapture hi ho⟩
  · exact ⟨_, fun i hi ho => p.readControl_bayCapture hi ho⟩

/-- The words that no view uses. -/
theorem Part.readControl_unused (p : Part) {o : Nat} (h4 : o % 4 = 0) (hlt : o < 4096)
    (h : o = 0x03C ∨ (0x04C ≤ o ∧ o < 0x060) ∨ (0x078 ≤ o ∧ o < 0x0A0) ∨ (0x0D8 ≤ o ∧ o < 0x0E0) ∨
      (0x0F4 ≤ o ∧ o < 0x100) ∨ 0xF94 ≤ o) : p.readControl o = 0 := by
  rcases h with h | h | h | h | h | h
  · exact p.readControl_plantCapture (i := 3) (by decide) h
  · by_cases hbay : o = 0x4C
    · exact p.readControl_bayCapture (i := 3) (by decide) hbay
    · exact p.readControl_gap (by omega) h.2
  · exact (p.readControl_identityStatus (i := (o - 0x60) / 4) (by omega) (by omega)).trans
      (p.depot.identity.statusWord_unused (by omega))
  · exact (p.readControl_journalStatus (i := (o - 0xA0) / 4) (by omega) (by omega)).trans
      (p.depot.journal.statusWord_unused _ (by omega))
  · exact (p.readControl_storeStatus (i := (o - 0xE0) / 4) (by omega) (by omega)).trans
      (p.store.statusWord_unused (by omega))
  · exact (p.readControl_water (i := (o - 0xE80) / 4) (by omega)).trans (p.depot.waterView_unused (by omega))

/-- The byte of a waiting claim, split into its two fields. -/
theorem bits_claimByte (w : Word) (i : Fin 4) (x : Option Claim)
    (h : bits w (8 * i.val) 8 = (x.map Claim.viewByte).getD 0) :
    bits w (8 * i.val) 5 = (x.map Claim.claimant).getD 0 ∧
      bits w (8 * i.val + 5) 3 = (x.map Claim.size).getD 0 % 8 := by
  have hlow : bits w (8 * i.val) 5 = bits w (8 * i.val) 8 % 32 := by
    unfold bits
    rw [Nat.mod_mod_of_dvd _ (by decide)]
    rfl
  have hhigh : bits w (8 * i.val + 5) 3 = bits w (8 * i.val) 8 / 32 := by
    unfold bits
    rw [Nat.pow_add, ← Nat.div_div_eq_div_mul]
    omega
  rw [hlow, hhigh, h]
  cases x with
  | none => exact ⟨rfl, rfl⟩
  | some c =>
    have hclaimant := c.claimant_lt
    have hbyte := c.viewByte_eq
    simp only [Option.map_some, Option.getD_some]
    omega

/-- The water unit's status word, field by field (R207). -/
theorem Depot.waterView_statusFields (d : Depot) {w : Word} (hw : w = d.waterView 42) :
    bits w 0 3 = d.water.quality.code ∧ w.getLsbD 3 = false ∧ w.getLsbD 4 = d.water.available ∧ bits w 5 3 = 0 ∧
      bits w 8 2 = d.water.stage.code ∧ bits w 10 6 = 0 ∧ bits w 16 8 = d.water.badSamples % 256 ∧ bits w 24 4 = 0 ∧
      (w.getLsbD 28 = true ↔ ∃ c ∈ d.journal.waiting, c.claimant = 9) ∧
      (w.getLsbD 29 = true ↔ ∃ totals stamp, .quotaDay totals stamp true ∈ d.journal.waiting) ∧ bits w 30 2 = 0 := by
  have hnat := d.waterView_status
  rw [← hw] at hnat
  have hquality := d.water.quality.code_lt
  have hstage := d.water.stage.code_lt
  have havailable := Bool.toNat_le d.water.available
  have hday := Bool.toNat_le (d.journal.waiting.any Claim.isQuotaDay)
  have hoverrun := Bool.toNat_le (d.journal.waiting.any Claim.overrun)
  rw [← any_isQuotaDay_iff, ← any_overrun_iff,
    getLsbD_of_toNat (b := false) (i := 3) (by rw [hnat, Bool.toNat_false]; omega),
    getLsbD_of_toNat (b := d.water.available) (i := 4) (by rw [hnat]; omega),
    getLsbD_of_toNat (b := d.journal.waiting.any Claim.isQuotaDay) (i := 28) (by rw [hnat]; omega),
    getLsbD_of_toNat (b := d.journal.waiting.any Claim.overrun) (i := 29) (by rw [hnat]; omega)]
  unfold bits
  rw [hnat]
  refine ⟨by omega, rfl, rfl, by omega, by omega, by omega, by omega, by omega, Iff.rfl, Iff.rfl, by omega⟩

/-- The word of a bay's waiting claim and parked record, field by field (R207). -/
theorem Depot.sessionView_parkedFields (d : Depot) (b : Fin 8) (y : Bay) (hy : y = d.bay b) {w : Word}
    (hw : w = d.sessionView b 8) :
    (w.getLsbD 0 = true ↔ ∃ c ∈ d.journal.waiting, c.claimant = b.val) ∧
      bits w 4 3 = ((d.journal.waiting.find? fun c => c.claimant = b.val).map Claim.size).getD 0 % 8 ∧
      w.getLsbD 8 = y.parked.isSome ∧ bits w 16 4 = (y.parked.map Parked.quality).getD 0 % 16 ∧
      bits w 24 8 = (y.parked.map Parked.sequence).getD 0 % 256 := by
  have hnat := d.sessionView_parked b y hy
  rw [← hw] at hnat
  have hclaim := Bool.toNat_le (d.journal.bayClaim b).isSome
  have hparked := Bool.toNat_le y.parked.isSome
  have hbay : d.journal.bayClaim b = (d.journal.waiting.find? fun c => c.claimant = b.val).map Claim.size := rfl
  rw [getLsbD_of_toNat (b := (d.journal.bayClaim b).isSome) (i := 0) (by rw [hnat]; omega),
    getLsbD_of_toNat (b := y.parked.isSome) (i := 8) (by rw [hnat]; omega), ← hbay]
  unfold bits
  rw [hnat]
  refine ⟨?_, by omega, rfl, by omega, by omega⟩
  rw [hbay, Option.isSome_map, List.find?_isSome]
  simp

end Sys2Proof.Machine
end


section
/-!
PROOF. A read of the control window shows the state: the statement, clause by clause (R187, R192, R206, R207).
-/

namespace Sys2Proof.Machine

open Sys2Proof

/-- Settles O12: each clause names the view that its offset reads, and the lemma of its word. -/
theorem controlWindowReadsShowTheState : Obligations.ControlWindowReadsShowTheState := by
  intro s o req hs h4 hlt hdate
  obtain ⟨t, hexec, hbecomes⟩ := exec_controlRead_shows s o req hs h4 hlt hdate
  obtain ⟨hpart, hpending, hunmasked, hrefusal, hblock, hblockAddr, htime⟩ := s.part.readControl_heads
  obtain ⟨hpin, hfloor, hquota, hpercent, hmode, hmask⟩ := s.part.readControl_singles
  obtain ⟨hdecision, hacknowledge, htail, hpreload, hpreloadCommit, hcalendar, hcalendarCommit⟩ :=
    s.part.readControl_requests
  have hidentity := @Part.readControl_identityStatus s.part o
  have hjournal := @Part.readControl_journalStatus s.part o
  have hstore := @Part.readControl_storeStatus s.part o
  have hwater := @Part.readControl_water s.part o
  have hsetting : ∀ i, o = SettingItem.offset i → s.part.readControl o = s.part.settingWord i := fun i ho => by
    rw [ho]
    exact s.part.readControl_setting i
  have hcauses : (word s.part.depot.notices.pending.toNat).toNat = s.part.depot.notices.pending.toNat :=
    word_toNat (s.part.depot.notices.pending.isLt.trans (by decide))
  refine ⟨t, s.part.readControl o, hexec, hbecomes, ?straps, ?pending, ?unmasked, ?noRefusal, fun r => ?refusal,
    ?noBlock, fun r => ?block, fun r => ?blockAddr, fun kind base hbase => ?capture, ?last, ?identityCounts,
    ?lookups, ?noFetch, fun f => ?fetch, ?noPreload, fun r hr => ?preload, ?noRing, fun g => ?ring, ?indices, ?activity,
    ?nextSeq, ?period, ?queue, fun q i => ?waiting, ?run, ?clearing, ?refresh, ?noLatch, fun r => ?latch,
    fun r => ?latchAddr, ?timeView, ?unused, fun e => ?windowFirst, fun e => ?windowSecond, fun i => ?setting,
    fun i n => ?value, fun b => ?discount, ?schedule, fun p => ?program, fun n => ?tariff, ?pinCount, ?floor, ?quota,
    ?percent, ?mode, ?mask, ?zeroRequests, ?tail, ?stagedTag, ?stagedDate, ?noItem, fun a => ?account,
    fun b y hy => ?session, fun n c hc => ?cache, fun m => ?meter, ?level, ?turbidity, ?status, ?qualityTimer,
    fun k n => ?totals, fun b => ?unattributed⟩
  case straps =>
    rintro rfl
    rw [hpart]
    exact identityWord_toNat _
  case pending =>
    rintro (rfl | rfl)
    · rw [hpending]
      exact hcauses
    · rw [hacknowledge]
      exact hcauses
  case unmasked =>
    rintro rfl
    rw [hunmasked]
    exact unmaskedWord_toNat _
  case noRefusal =>
    rintro rfl hnone
    rw [hrefusal, hnone]
    rfl
  case refusal =>
    rintro rfl hsome
    rw [hrefusal, hsome]
    exact refusalWord_some r
  case noBlock =>
    rintro (rfl | rfl) hnone
    · rw [hblock, hnone]
      rfl
    · rw [hblockAddr, hnone]
      rfl
  case block =>
    rintro rfl hsome
    rw [hblock, hsome]
    exact blockWord_some r
  case blockAddr =>
    rintro rfl hsome
    rw [hblockAddr, hsome]
    exact blockAddrWord_some r
  case capture =>
    obtain ⟨last, hcapture⟩ := s.part.readControl_capture (o := o) kind base hbase
    refine ⟨fun ho => ?_, fun ho => ?_, fun ho => ?_⟩
    · rw [hcapture 0 (by decide) ho]
      exact captureWord_counts _ _
    · rw [hcapture 1 (by decide) ho]
      exact captureWord_assembly _ _
    · rw [hcapture 2 (by decide) ho]
      exact captureWord_slots _ _
  case last =>
    intro ho
    rw [s.part.readControl_identityCapture (i := 3) (by decide) ho]
    exact captureWord_last _ _
  case identityCounts =>
    intro ho
    rw [hidentity (i := 0) (by decide) ho]
    exact s.part.depot.identity.statusWord_counts
  case lookups =>
    intro ho
    rw [hidentity (i := 1) (by decide) ho]
    exact s.part.depot.identity.statusWord_lookups
  case noFetch =>
    intro ho hnone
    rw [hidentity (i := 2) (by decide) ho]
    exact s.part.depot.identity.statusWord_noFetch hnone
  case fetch =>
    intro ho hsome
    rw [hidentity (i := 2) (by decide) ho]
    exact s.part.depot.identity.statusWord_fetch f hsome
  case noPreload =>
    intro ho hnone
    obtain ⟨h3, h4, h5⟩ := s.part.depot.identity.statusWord_noPreload hnone
    rcases ho with ho | ho | ho
    · exact (hidentity (i := 3) (by decide) ho).trans h3
    · exact (hidentity (i := 4) (by decide) ho).trans h4
    · exact (hidentity (i := 5) (by decide) ho).trans h5
  case preload =>
    obtain ⟨h3, h4, h5⟩ := s.part.depot.identity.statusWord_preload r hr
    refine ⟨fun ho => ?_, fun ho => ?_, fun ho => ?_⟩
    · rw [hidentity (i := 3) (by decide) ho]
      exact h3
    · rw [hidentity (i := 4) (by decide) ho]
      exact h4
    · rw [hidentity (i := 5) (by decide) ho]
      exact h5
  case noRing =>
    intro ho hnone
    rw [hjournal (i := 1) (by decide) ho, hnone]
    rfl
  case ring =>
    intro ho hsome
    rw [hjournal (i := 1) (by decide) ho, hsome]
    exact s.part.depot.journal.statusWord_ring g
  case indices =>
    intro ho
    rw [hjournal (i := 0) (by decide) ho]
    exact s.part.depot.journal.statusWord_indices _
  case activity =>
    intro ho
    rw [hjournal (i := 2) (by decide) ho]
    exact s.part.depot.journal.statusWord_activity _
  case nextSeq => exact fun ho => hjournal (i := 3) (by decide) ho
  case period =>
    intro ho
    rw [hjournal (i := 4) (by decide) ho]
    exact s.part.depot.journal.statusWord_period _
  case queue =>
    intro ho
    rw [hjournal (i := 5) (by decide) ho]
    exact s.part.depot.journal.statusWord_queue _
  case waiting =>
    intro ho
    rw [hjournal (i := 6 + q.val) (by omega) (by omega)]
    exact bits_claimByte _ i _ (s.part.depot.journal.statusWord_claim _ q i)
  case run =>
    intro ho
    rw [hstore (i := 0) (by decide) ho]
    exact s.part.store.statusWord_run
  case clearing =>
    intro ho
    rw [hstore (i := 1) (by decide) ho]
    exact s.part.store.statusWord_clearing
  case refresh =>
    intro ho
    rw [hstore (i := 2) (by decide) ho]
    exact s.part.store.statusWord_refresh
  case noLatch =>
    intro ho hnone
    obtain ⟨hlatch, haddr⟩ := s.part.store.statusWord_noLatch hnone
    rcases ho with ho | ho
    · exact (hstore (i := 3) (by decide) ho).trans hlatch
    · exact (hstore (i := 4) (by decide) ho).trans haddr
  case latch =>
    intro ho hsome
    rw [hstore (i := 3) (by decide) ho]
    exact (s.part.store.statusWord_latch r hsome).1
  case latchAddr =>
    intro ho hsome
    rw [hstore (i := 4) (by decide) ho]
    exact (s.part.store.statusWord_latch r hsome).2
  case timeView =>
    rintro rfl
    exact htime
  case unused => exact s.part.readControl_unused h4 hlt
  case windowFirst =>
    rintro rfl
    rw [(s.part.readControl_window e).1]
    exact s.part.path.windows[e].first_toNat
  case windowSecond =>
    rintro rfl
    rw [(s.part.readControl_window e).2]
    exact s.part.path.windows[e].second_toNat
  case setting => exact hsetting i
  case value =>
    intro ho hvalue
    rw [hsetting i ho]
    simp only [List.mem_cons, Prod.mk.injEq, List.not_mem_nil, or_false] at hvalue
    rcases hvalue with ⟨rfl, rfl⟩ | ⟨rfl, rfl⟩ | ⟨rfl, rfl⟩ | ⟨rfl, rfl⟩ | ⟨rfl, rfl⟩ | ⟨rfl, rfl⟩ | ⟨rfl, rfl⟩ |
      ⟨rfl, rfl⟩ | ⟨rfl, rfl⟩ | ⟨rfl, rfl⟩ | ⟨rfl, rfl⟩ | ⟨rfl, rfl⟩ <;> rfl
  case discount => exact fun ho => hsetting (.bandDiscount b) ho
  case schedule =>
    intro ho
    rw [hsetting .periodSchedule ho]
    exact s.part.calendar.schedule.toWord_toNat
  case program =>
    intro ho
    rw [hsetting (.program p) ho]
    exact s.part.depot.charge.programs[p].toWord_toNat
  case tariff =>
    intro ho
    rw [hsetting (.tariff n) ho]
    exact s.part.depot.charge.tariffWord_toNat n
  case pinCount =>
    rintro rfl
    exact hpin
  case floor =>
    rintro rfl
    exact hfloor
  case quota =>
    rintro rfl
    exact hquota
  case percent =>
    rintro rfl
    exact hpercent
  case mode =>
    rintro rfl
    rw [hmode]
    cases s.part.store.mode <;> rfl
  case mask =>
    rintro rfl
    rw [hmask]
    exact word_toNat (s.part.depot.notices.mask.isLt.trans (by decide))
  case zeroRequests =>
    rintro (rfl | rfl | rfl)
    · exact hdecision
    · exact hpreloadCommit
    · exact hcalendarCommit
  case tail =>
    rintro rfl
    exact htail
  case stagedTag =>
    rintro rfl
    exact hpreload
  case stagedDate =>
    rintro rfl
    exact hcalendar
  case noItem => exact s.part.readControl_noItem
  case account =>
    obtain ⟨hword0, hlimit, hbalance, htotal⟩ := s.part.readControl_account a
    refine ⟨?_, ?_, ?_, ?_⟩
    · rintro rfl
      rw [hword0]
      exact (s.part.depot.account a).word0_toNat
    · rintro rfl
      exact hlimit
    · rintro rfl
      exact hbalance
    · rintro rfl
      rw [htotal]
      exact accountTotalWord_toNat _
  case session =>
    have hsession := @Part.readControl_session s.part o b
    obtain ⟨hstartDate, hstartTime, hparkedDate, hparkedTime⟩ := s.part.depot.sessionView_stamps b y hy
    obtain ⟨hparkedLow, hparkedHigh⟩ := s.part.depot.sessionView_parkedTag b y hy
    have hlines : (s.part.depot.session b).lines = y.session.lines := by rw [hy]; rfl
    refine ⟨fun ho => ?state, fun ho => ?tagLow, fun ho => ?tagHigh, fun ho => ?startDate, fun ho => ?startTime,
      fun ho => ?unusedFresh, fun ho => ?unusedReclaim, fun ho => ?timers, fun ho => ?counters, fun ho => ?parked,
      fun ho => ?parkedLow, fun ho => ?parkedHigh, fun ho => ?parkedDate, fun ho => ?parkedTime, fun ho => ?noWord,
      fun n hnone hlow hhigh => ?noLine, fun n l hsome => ?line⟩
    case state =>
      rw [hsession (i := 0) (by decide) ho]
      exact s.part.depot.sessionView_state b y hy
    case tagLow =>
      rw [hsession (i := 1) (by decide) (by omega), hy]
      exact tagLow_toNat _
    case tagHigh =>
      rw [hsession (i := 2) (by decide) (by omega)]
      exact s.part.depot.sessionView_tagHigh b y hy
    case startDate => exact (hsession (i := 3) (by decide) (by omega)).trans hstartDate
    case startTime => exact (hsession (i := 4) (by decide) (by omega)).trans hstartTime
    case unusedFresh =>
      rw [hsession (i := 5) (by decide) (by omega), hy]
      exact word_field_toNat _ (by decide)
    case unusedReclaim =>
      rw [hsession (i := 6) (by decide) (by omega), hy]
      exact word_field_toNat _ (by decide)
    case timers =>
      rw [hsession (i := 7) (by decide) (by omega), hy]
      exact word_halves_toNat _ _
    case counters =>
      rw [hsession (i := 13) (by decide) (by omega), hy]
      exact word_halves_toNat _ _
    case parked => exact s.part.depot.sessionView_parkedFields b y hy (hsession (i := 8) (by decide) (by omega))
    case parkedLow =>
      rw [hsession (i := 9) (by decide) (by omega)]
      exact hparkedLow
    case parkedHigh =>
      rw [hsession (i := 10) (by decide) (by omega)]
      exact hparkedHigh
    case parkedDate => exact (hsession (i := 11) (by decide) (by omega)).trans hparkedDate
    case parkedTime => exact (hsession (i := 12) (by decide) (by omega)).trans hparkedTime
    case noWord =>
      refine (hsession (i := (o - (0x700 + 176 * b.val)) / 4) (by omega) (by omega)).trans ?_
      rw [s.part.depot.sessionView_lines b (by omega), if_neg (by omega)]
    case noLine =>
      obtain ⟨k, hk, ho⟩ : ∃ k < 7, o = 0x700 + 176 * b.val + 4 * (14 + 7 * n.val + k) :=
        ⟨(o - (0x738 + 176 * b.val + 28 * n.val)) / 4, by omega, by omega⟩
      exact (hsession (by omega) ho).trans (s.part.depot.sessionView_noLine b n (by rw [hlines]; exact hnone) hk)
    case line =>
      have hword : ∀ k < 7, o = 0x700 + 176 * b.val + 4 * (14 + 7 * n.val + k) →
          s.part.readControl o = l.viewWord k := fun k hk ho =>
        (hsession (by omega) ho).trans (s.part.depot.sessionView_line b n l (by rw [hlines]; exact hsome) hk)
      refine ⟨fun ho => hword 0 (by decide) (by omega), fun ho => hword 1 (by decide) (by omega),
        fun ho => hword 2 (by decide) (by omega), fun ho => hword 3 (by decide) (by omega), fun ho => ?fresh,
        fun ho => ?conceded, fun ho => ?reclaim⟩
      case fresh =>
        rw [hword 4 (by decide) (by omega)]
        exact l.viewWord_fresh
      case conceded =>
        rw [hword 5 (by decide) (by omega)]
        exact l.viewWord_conceded
      case reclaim =>
        rw [hword 6 (by decide) (by omega)]
        exact word_field_toNat _ (by decide)
  case cache =>
    have hcache := @Part.readControl_cache s.part o n
    refine ⟨fun ho => ?_, fun ho => ?_, fun ho => ?_, fun ho => ?_⟩
    · rw [hcache (i := 0) (by decide) ho, hc]
      exact tagLow_toNat _
    · rw [hcache (i := 1) (by decide) (by omega), hc]
      exact word_tagHigh_toNat _
    · rw [hcache (i := 2) (by decide) (by omega), hc]
      exact word_field_toNat _ (by decide)
    · rw [hcache (i := 3) (by decide) (by omega)]
      exact s.part.depot.identity.cacheView_flags n c hc
  case meter =>
    obtain ⟨hbaseline, hflags⟩ := s.part.depot.waterView_meter m
    refine ⟨fun ho => ?_, fun ho => ?_⟩
    · exact (hwater (i := 2 * m.val) (by omega)).trans hbaseline
    · rw [hwater (i := 2 * m.val + 1) (by omega)]
      exact hflags
  case level => exact fun ho => hwater (i := 40) ho
  case turbidity =>
    intro ho hfits
    rw [hwater (i := 41) ho]
    exact s.part.depot.waterView_turbidity hfits
  case status => exact fun ho => s.part.depot.waterView_statusFields (hwater (i := 42) ho)
  case qualityTimer =>
    intro ho
    rw [hwater (i := 43) ho]
    exact word_field_toNat _ (by decide)
  case totals =>
    intro ho hn
    exact (hwater (i := 44 + k) (by omega)).trans (s.part.depot.waterView_totals k n hn)
  case unattributed =>
    obtain ⟨hfresh, hreclaim⟩ := s.part.depot.waterView_unattributed b
    refine ⟨fun ho => ?_, fun ho => ?_⟩
    · rw [hwater (i := 53 + 2 * b.val) (by omega)]
      exact hfresh
    · rw [hwater (i := 54 + 2 * b.val) (by omega)]
      exact hreclaim

end Sys2Proof.Machine
end
